-- ==== Sys2Proof/Word.lean ====
section
/-! DEFINITION. The word types of the ZV-96 and their plainest arithmetic (spec/00_scope.md R2, R4, R6). -/

namespace Sys2Proof

/-- A byte. -/
abbrev Byte := BitVec 8

/-- A 32-bit word: one register, one instruction word (R20, R34). -/
abbrev Word := BitVec 32

/-- A 64-bit pattern: a register pair, a global address, a latch (R31, R46, R175). -/
abbrev DWord := BitVec 64

end Sys2Proof
end

