-- ==== Sys2Proof/Config.lean ====
section
/-! DEFINITION. What one implementation fixes and the spec leaves open: the free values.
None has a body, so no proof can rest on a value of one (notes/assumptions/6.md, 7.md). -/

namespace Sys2Proof.Config

/-- R116: FLOG2, FSIN, FCOS and FTANH return one of the two FP32 values adjacent to the exact value; which of the
two is fixed for each operand and not published. `true` picks the value above. `fn` is 0 to 3 for the four. -/
opaque faithfulUp (fn : Nat) (operand : Word) : Bool

/-- A byte that the device reads at once from memory outside it (a peer's or the host's, log entry 6). -/
opaque outsideByte (counter : Nat) : Byte

/-- How such a read ends: 0 with its bytes, else with a cause of R160 (log entry 6). -/
opaque outsideStatus (counter : Nat) : Nat

/-- R333: the 32-bit check of the words w0 to w3 and w8 to w13 of a collective's descriptor; the spec gives no function
(log entry 13). -/
opaque descCheck (words : List Word) : Word

/-- R360: the row of an HBM address within its stack; the spec gives the rows no numbers (log entry 65). -/
opaque rowOf (addr : Nat) : Nat

/-- R372: the module's measured power in W, and which of the dies that may be slowed draws the most, by its place among
them: the power manager's measurement. -/
opaque measuredPower (counter : Nat) : Nat
opaque hungriestDie (counter : Nat) : Nat

/-- R367: the capacity in bytes of the memory behind EXP port `i`, which the spec leaves to what is attached there (log
entry 26). -/
opaque expCapacity (i : Nat) : Nat

end Sys2Proof.Config
end

