-- ==== Sys2Proof/Syntax.lean ====
section
/-! DEFINITION. The instructions and the events of the ZV-96: one constructor per row of the opcode table
(spec/02_words.md R20 to R37; spec/95_what_each_step_holds.md). The records keep every bit of an instruction's
words, each under the name the spec gives it, so that encoding loses nothing. -/

namespace Sys2Proof

/-- The operand selector of R29, every one of its 512 codes. -/
inductive Sel where
  /-- `v0` to `v255`. -/
  | v (n : BitVec 8)
  /-- `o0` to `o15`. -/
  | o (n : BitVec 4)
  /-- `l0` to `l3`. -/
  | l (n : BitVec 2)
  /-- The literal word, `0x118`. -/
  | lit
  /-- The zero selector, `0x119`. -/
  | zero
  /-- Small integers `0x120` to `0x13F`; the value is `c` − 16. -/
  | small (c : BitVec 5)
  /-- Special registers `0x140` to `0x15F`. -/
  | sr (n : BitVec 5)
  /-- `p0` to `p6`; 7 is `pt`. -/
  | p (n : BitVec 3)
  /-- A code that R29 leaves unassigned. -/
  | unassigned (c : BitVec 9)
  deriving DecidableEq, Repr

/-- The type field of R34. -/
inductive Ty where
  | b32 | i32 | n32 | i64 | n64 | f32 | f64 | bf16x2 | f16x2 | i16x2 | n16x2 | i8x4 | n8x4 | i4x8 | n4x8 | f8x4
  deriving DecidableEq, Repr

/-- The guard field of R22. -/
structure Guard where
  /-- Bit 13: the predicate is inverted. -/
  inv : Bool
  /-- Bits 12 to 10: `p0` to `p6`, or 7 for `pt`. -/
  p : BitVec 3
  deriving DecidableEq, Repr

/-- The S form (R24). -/
structure SForm where
  g : Guard
  /-- Destination selector, bits 22 to 14. -/
  d : Sel
  /-- Source A selector, bits 31 to 23. -/
  a : Sel
  deriving DecidableEq, Repr

/-- The M form (R25), and the L form where `lit` holds the literal word (R26). -/
structure Std where
  g : Guard
  lit : Option Word
  /-- The W bit (R33). -/
  w : Bool
  d : Sel
  a : Sel
  b : Sel
  c : Sel
  ty : Ty
  /-- Part A, B and C (R36). -/
  pa : BitVec 2
  pb : BitVec 2
  pc : BitVec 2
  func : BitVec 3
  deriving DecidableEq, Repr

/-- The X form of MXLOOP (R293), field by field. -/
structure MxLoopForm where
  g : Guard
  p : Sel
  ra : BitVec 3
  rb : BitVec 3
  bank : Bool
  zc : Bool
  tb : Bool
  spb : Bool
  ab : Bool
  dr : Bool
  gr : Bool
  km1 : BitVec 12
  a0 : BitVec 8
  ai : BitVec 8
  b0 : BitVec 8
  bi : BitVec 8
  ngm1 : BitVec 4
  /-- Bits 127 to 84, reserved. -/
  rsv : BitVec 44
  deriving DecidableEq, Repr

/-- The X form of ENQ (R269). -/
structure EnqForm where
  g : Guard
  d : Sel
  grp : Sel
  engine : BitVec 3
  rel : Bool
  scope : BitVec 3
  /-- Bits 127 to 39, reserved. -/
  rsv : BitVec 89
  deriving DecidableEq, Repr

/-- The X form of DRAWM (R328). -/
structure DrawmForm where
  g : Guard
  d : Sel
  lg : Sel
  rg : Sel
  pg : Sel
  pos : Sel
  w : Bool
  /-- Bits 127 to 60, reserved. -/
  rsv : BitVec 68
  deriving DecidableEq, Repr

/-- The X form of AGDEF (R340). -/
structure AgdefForm where
  g : Guard
  /-- Bits 22 to 14: AGDEF has no destination. -/
  d : Sel
  base : Sel
  mask : Sel
  agn : BitVec 8
  del : Bool
  /-- Bits 127 to 50, reserved. -/
  rsv : BitVec 78
  deriving DecidableEq, Repr

/-- The X form of MLDR (R340). -/
structure MldrForm where
  g : Guard
  d : Sel
  off : Sel
  pg : Sel
  agn : BitVec 8
  op : BitVec 3
  ty : Ty
  cnt : BitVec 2
  /-- Bits 127 to 58, reserved. -/
  rsv : BitVec 70
  deriving DecidableEq, Repr

/-! ## Operands of the events -/

/-- Kinds of request that one device sends to another (R231, R237, R246, R342). -/
inductive ReqKind where
  | load | loadNr | store | red | atom | mldr | pgreq | pgmove
  /-- A copy channel's read or write (R267). -/
  | copyRead | copyWrite
  /-- The migration engine: take a frame from a ring, write one chunk, install the page, free the arrival slot of a move
  that ended (R232 to R236, R240). -/
  | frame | chunk | install | release
  /-- A reducer command, a line of a reducer's result chunk (R335, R336), the entry of an address group (R341). -/
  | reducer | result | agdef
  /-- The owner's checks of a part of a straddling store, made before any part is written (R184; log entry 58). -/
  | probe
  deriving DecidableEq, Repr

/-- A request on the fabric (R254): `src` the requester's rank, `tag` unique among its unanswered requests. -/
structure FabReq where
  kind : ReqKind
  src : Nat
  tag : Nat
  /-- Lake domain of the requesting context (R212). -/
  ldom : Nat
  addr : DWord
  size : Nat := 0
  data : List Byte := []
  /-- Atomic operation and type (R191). Of a PGMOVE 1 with `.upd`, of a chunk 1 where its granule is marked, of a
  reducer command and a result line their instance. -/
  aop : Nat := 0
  ty : Ty := .b32
  /-- Translated with MODE = MIGRATE at the requester, so that it counts heat (R221). -/
  counted : Bool := false
  /-- An acquire or release annotation (R185, check 6). -/
  annotated : Bool := false
  /-- Stubs passed (R237). -/
  hops : Nat := 0
  /-- Revision of the target in the issuer's table (R253). -/
  rev : Nat := 0
  /-- Target word of PGMOVE, address-group number of MLDR, frame address of a chunk and an install, tier of a frame
  request; of an address group AGN and 256 times `.del`; of a reducer command and of a result line, whose address is the
  offset in its chunk, the group and 2048 times the chunk. The data of an install are w0 of the owner's entry, four
  bytes, and the ranks of its arrival record, a byte each. -/
  arg : Nat := 0
  deriving DecidableEq, Repr

/-- A response (R255): `status` 0, or the cause of R160 with which the request fails; `owner` the redirect it
carries (R237). -/
structure FabResp where
  src : Nat
  tag : Nat
  status : Nat
  data : List Byte := []
  owner : Option Nat := none
  /-- LDNR: the page is not resident at its owner. -/
  absent : Bool := false
  /-- No context is bound to the domain at the target: the access fails whatever its QF bit (R383). -/
  unbound : Bool := false
  deriving DecidableEq, Repr

/-- The states of a link (R251). -/
inductive LinkSt where
  | down | training | up | degraded | quarantined
  deriving DecidableEq, Repr

/-- What the peer of a link that reaches UP sends of its own maps (R249, R252): entries of its link-state map, keyed
18 × rank + link, and of its peer table, by rank. -/
structure Exchange where
  map : List (Nat × LinkSt × BitVec 16) := []
  pairs : List (Nat × BitVec 16 × BitVec 32) := []
  deriving DecidableEq, Repr

/-- Who sent a request: its rank and the request's tag (R254). -/
structure Asker where
  src : Nat
  tag : Nat
  deriving DecidableEq, Repr

/-- What the destinations of queued moves offer (R231, R232): the requests, by their places in the queue, that they bid
wait, and the frame that the destination of the first other one gives, if any. -/
structure MoveOffer where
  skip : List Nat := []
  frame : Option Nat := none
  deriving DecidableEq, Repr

/-- A firmware image's public key and signature (R362). -/
structure Signed where
  key : List Byte
  sig : Nat
  deriving DecidableEq, Repr

/-- Registers whose writes have no behaviour but to store the value (R3): the host's and the physical function's. -/
inductive Reg where
  | ctxSys | ctxLdom | ctxOtb | ctxOtl | ctxFqb | ctxFqk | ctxHrb | ctxHrk | ctxHrp | ctxCrb | ctxCrk | ctxCrp
  | ctxMeb | ctxMek | ctxMhl | ctxSavb | ctxSavn | ctxCstl
  | ctxQb | ctxQpg | ctxQsw | ctxQscr | ctxQpool
  | queueQk (q : Nat) | queueCk (q : Nat) | queueBase (q : Nat) | queueCbase (q : Nat) | queueQto (q : Nat)
  | partCmask | partHmask | partFmb | partFmn | partHvv | partHvc
  | partVfs (v : Nat) | partGstm (v : Nat)
  | rto | powerCap | audSeed
  deriving DecidableEq, Repr

/-- What a run-ahead access fills (R226). -/
inductive AheadKind where
  | code | l1 | device
  deriving DecidableEq, Repr

/-- Who lost an on-core store to the background scrub (R356). -/
inductive ScrubFind where
  /-- Storage of a block: the block's gang is the holder. -/
  | block (blk : Nat)
  /-- An accumulator bank of a core. -/
  | bank (core : Nat) (bank : Bool)
  deriving DecidableEq, Repr

/-- One constructor per row of the opcode table: the instructions, then the events (R5). -/
inductive Instr where
  /-- NOP (R140). -/
  | nop (f : SForm)
  /-- BRA (R138). -/
  | bra (f : Std)
  /-- BRX (R138). -/
  | brx (f : Std)
  /-- CALL (R138). -/
  | call (f : Std)
  /-- RET (R138). -/
  | ret (f : SForm)
  /-- MEET (R139). -/
  | meet (f : Std)
  /-- EXIT (R141). -/
  | exit (f : SForm)
  /-- YIELD (R140). -/
  | yield (f : SForm)
  /-- BKPT (R142). -/
  | bkpt (f : SForm)
  /-- TRAP (R142). -/
  | trap (f : Std)
  /-- RTT (R143). -/
  | rtt (f : Std)
  /-- ADD (R70). -/
  | add (f : Std)
  /-- ADDC (R71). -/
  | addc (f : Std)
  /-- SUB (R70). -/
  | sub (f : Std)
  /-- SUBB (R71). -/
  | subb (f : Std)
  /-- MUL (R70). -/
  | mul (f : Std)
  /-- MULH (R70). -/
  | mulh (f : Std)
  /-- MAD (R70). -/
  | mad (f : Std)
  /-- MADC (R72). -/
  | madc (f : Std)
  /-- MADW (R72). -/
  | madw (f : Std)
  /-- ABSD (R70). -/
  | absd (f : Std)
  /-- MIN (R70). -/
  | min (f : Std)
  /-- MAX (R70). -/
  | max (f : Std)
  /-- NEG (R70). -/
  | neg (f : Std)
  /-- DOT4 (R73). -/
  | dot4 (f : Std)
  /-- LEA (R82). -/
  | lea (f : Std)
  /-- MOV_S (R83). -/
  | movS (f : SForm)
  /-- MOV (R83). -/
  | mov (f : Std)
  /-- SHL (R74). -/
  | shl (f : Std)
  /-- SHR (R74). -/
  | shr (f : Std)
  /-- SAR (R74). -/
  | sar (f : Std)
  /-- FSH (R75). -/
  | fsh (f : Std)
  /-- TERN (R76). -/
  | tern (f : Std)
  /-- POPC (R77). -/
  | popc (f : Std)
  /-- CLZ (R77). -/
  | clz (f : Std)
  /-- BREV (R77). -/
  | brev (f : Std)
  /-- BFX (R78). -/
  | bfx (f : Std)
  /-- BFI (R78). -/
  | bfi (f : Std)
  /-- PERM (R79). -/
  | perm (f : Std)
  /-- ICMP (R80). -/
  | icmp (f : Std)
  /-- SEL (R81). -/
  | sel (f : Std)
  /-- PSET (R76). -/
  | pset (f : Std)
  /-- FADD (R109). -/
  | fadd (f : Std)
  /-- FMUL (R109). -/
  | fmul (f : Std)
  /-- FFMA (R109). -/
  | ffma (f : Std)
  /-- FMIN (R110). -/
  | fmin (f : Std)
  /-- FMAX (R110). -/
  | fmax (f : Std)
  /-- FCMP (R111). -/
  | fcmp (f : Std)
  /-- FCLASS (R112). -/
  | fclass (f : Std)
  /-- FRND (R113). -/
  | frnd (f : Std)
  /-- FDIV (R114). -/
  | fdiv (f : Std)
  /-- CVT (R119). -/
  | cvt (f : Std)
  /-- FRCP (R114). -/
  | frcp (f : Std)
  /-- FRSQ (R114). -/
  | frsq (f : Std)
  /-- FSQRT (R114). -/
  | fsqrt (f : Std)
  /-- FEXP2 (R115). -/
  | fexp2 (f : Std)
  /-- FLOG2 (R116). -/
  | flog2 (f : Std)
  /-- FSIN (R116). -/
  | fsin (f : Std)
  /-- FCOS (R116). -/
  | fcos (f : Std)
  /-- FTANH (R116). -/
  | ftanh (f : Std)
  /-- DADD (R109). -/
  | dadd (f : Std)
  /-- DMUL (R109). -/
  | dmul (f : Std)
  /-- DFMA (R109). -/
  | dfma (f : Std)
  /-- DCMP (R111). -/
  | dcmp (f : Std)
  /-- SHFL (R145). -/
  | shfl (f : Std)
  /-- VOTE (R146). -/
  | vote (f : Std)
  /-- MATCH (R147). -/
  | matchReg (f : Std)
  /-- REDR (R148). -/
  | redr (f : Std)
  /-- LMAP (R149). -/
  | lmap (f : Std)
  /-- OPREF (R64). -/
  | opref (f : Std)
  /-- OPSAVE (R64). -/
  | opsave (f : Std)
  /-- SREAD (R62). -/
  | sread (f : SForm)
  /-- SWRT (R63). -/
  | swrt (f : SForm)
  /-- SHAPE (R65). -/
  | shape (f : Std)
  /-- HREAD (R170). -/
  | hread (f : SForm)
  /-- HWAIT (R171). -/
  | hwait (f : Std)
  /-- HBR (R172). -/
  | hbr (f : Std)
  /-- TICK (R173). -/
  | tick (f : Std)
  /-- HRESUME (R174). -/
  | hresume (f : Std)
  /-- LD (R193). -/
  | ld (f : Std)
  /-- ST (R193). -/
  | st (f : Std)
  /-- LDS (R193). -/
  | lds (f : Std)
  /-- STS (R193). -/
  | sts (f : Std)
  /-- LDNR (R193). -/
  | ldnr (f : Std)
  /-- PGREQ (R194). -/
  | pgreq (f : Std)
  /-- ATOM (R191). -/
  | atom (f : Std)
  /-- ATOMS (R191). -/
  | atoms (f : Std)
  /-- RED (R191). -/
  | red (f : Std)
  /-- PF (R195). -/
  | pf (f : Std)
  /-- FENCE (R196). -/
  | fence (f : Std)
  /-- CCTL (R197). -/
  | cctl (f : Std)
  /-- PGMOVE (R246). -/
  | pgmove (f : Std)
  /-- PGHEAT (R228). -/
  | pgheat (f : Std)
  /-- PGQ (R229). -/
  | pgq (f : Std)
  /-- PGINV (R230). -/
  | pginv (f : Std)
  /-- BARI (R200). -/
  | bari (f : Std)
  /-- BARA (R206). -/
  | bara (f : Std)
  /-- BARW (R204). -/
  | barw (f : Std)
  /-- BARS (R206). -/
  | bars (f : Std)
  /-- BARQ (R206). -/
  | barq (f : Std)
  /-- GBAR (R202). -/
  | gbar (f : Std)
  /-- ENQ (R270). -/
  | enq (f : EnqForm)
  /-- ESEQ (R271). -/
  | eseq (f : Std)
  /-- EWAIT (R272). -/
  | ewait (f : Std)
  /-- CWPTR (R272). -/
  | cwptr (f : Std)
  /-- CWAIT (R272). -/
  | cwait (f : Std)
  /-- BSRCLR (R273). -/
  | bsrclr (f : Std)
  /-- PRSV (R302). -/
  | prsv (f : Std)
  /-- PREL (R302). -/
  | prel (f : Std)
  /-- MXLOOP (R293). -/
  | mxloop (f : MxLoopForm)
  /-- MXWAIT (R303). -/
  | mxwait (f : Std)
  /-- MXDRAIN (R307). -/
  | mxdrain (f : Std)
  /-- MXREAD (R304). -/
  | mxread (f : Std)
  /-- MXZERO (R305). -/
  | mxzero (f : Std)
  /-- MXSTAT (R306). -/
  | mxstat (f : Std)
  /-- DRAWR (R330). -/
  | drawr (f : Std)
  /-- DRAWM (R331). -/
  | drawm (f : DrawmForm)
  /-- COIN (R331). -/
  | coin (f : Std)
  /-- AGDEF (R341). -/
  | agdef (f : AgdefForm)
  /-- MLDR (R342). -/
  | mldr (f : MldrForm)
  /-- CLSTART (R343). -/
  | clstart (f : Std)
  /-- CLWAIT (R344). -/
  | clwait (f : Std)
  /-- CLABORT (R345). -/
  | clabort (f : Std)
  /-- MEETING_RELEASE (R129): Within 8 clocks of the release condition holding, releases the threads HELD at a meeting value together. -/
  | meetingRelease (blk : Nat) (v : Word)
  /-- WAIT_END (R122): A WAITING thread resumes once its wait condition holds for every guard-true thread of the ripple. -/
  | waitEnd (blk rip : Nat)
  /-- HWAIT_END (R171): An HWAIT ends when its ticket has passed or all operations have settled. -/
  | hwaitEnd (blk rip : Nat)
  /-- EXIT_COMPLETE (R141): A waiting EXIT completes once the horizon equals the next ticket and the thread becomes EXITED. -/
  | exitComplete (blk t : Nat)
  /-- BARRIER_ARRIVE (R203): After the horizon passes, a barrier arrival releases earlier accesses and is counted. -/
  | barrierArrive (blk t : Nat)
  /-- BARRIER_WAIT_END (R204): A BARW, BARS or GBAR wait ends when the phase differs from the token, then acquires. -/
  | barrierWaitEnd (blk rip : Nat)
  /-- EWAIT_END (R272): An EWAIT ends when the chain count reaches its target or the chain errs, then acquires at .dev. -/
  | ewaitEnd (blk rip : Nat)
  /-- CWAIT_END (R272): A CWAIT ends when the write pointer reaches its target or the chain errs, then acquires at .dev. -/
  | cwaitEnd (blk rip : Nat)
  /-- MXWAIT_END (R303): An MXWAIT ends when the block's earlier loops on the bank have completed. -/
  | mxwaitEnd (blk rip : Nat)
  /-- CLWAIT_END (R344): A CLWAIT ends when its instance is done, aborted or out of range, then acquires at .lake. -/
  | clwaitEnd (blk rip : Nat)
  /-- CLABORT_START (R345): After the horizon passes, a CLABORT starts an abort with status 2 if the instance is current. -/
  | clabortStart (blk t : Nat)
  /-- HELD_OPERATION_PERFORM (R156): A held operation is performed once the thread's horizon reaches its ticket. -/
  | heldOperationPerform (blk t tk : Nat)
  /-- ENQ_SLOT_WRITE (R270): A performed ENQ that waited for chain room writes its slot and advances the tail. -/
  | enqSlotWrite (blk t tk : Nat)
  /-- OPERATION_SETTLE (R155): An outstanding operation meets its settle condition, writes results and advances the horizon. -/
  | operationSettle (blk t tk : Nat)
  /-- OPERATION_PARK (R158): An operation meeting a resolvable fault parks and posts a fault record. -/
  | operationPark (blk t tk : Nat)
  /-- OPERATION_FAIL (R160): An operation meeting an unresolvable fault becomes FAILED with its cause kept. -/
  | operationFail (blk t tk : Nat)
  /-- FAILURE_TRAP (R160): Within 16 clocks of a FAILED ticket reaching the horizon, the thread takes the failure trap. -/
  | failureTrap (blk t : Nat)
  /-- FETCH_FAULT (R159): A fetch reaching an unmapped page stalls the thread and posts a kind-0 fault record. -/
  | fetchFault (blk rip : Nat)
  /-- TAIL_WRITE (R260): Host writes a queue's TAIL, which may start fetching or move the queue to ERROR. -/
  | tailWrite (vf q : Nat) (v : Word)
  /-- QUEUE_ENABLE (R260): Writing ENABLE 1 enables a queue or moves it to ERROR with ERR 6. -/
  | queueEnable (vf q : Nat)
  /-- QUEUE_DISABLE (R260): Writing ENABLE 0 takes an ERROR queue to DISABLED once accepted nodes have posted. -/
  | queueDisable (vf q : Nat)
  /-- QUEUE_DRAIN (R260): Setting DRAIN stops fetching and drains the queue to DISABLED. -/
  | queueDrain (vf q : Nat)
  /-- CCONS_WRITE (R260): Host writes CCONS, freeing completion room, restarting a STALLED queue and re-arming MSI-X. -/
  | cconsWrite (vf q : Nat) (v : Word)
  /-- ENTRY_FETCH (R261): The front-end fetches and checks an entry and the dispatch unit accepts it into the ready pool. -/
  | entryFetch (vf q : Nat) (ws : List Word)
  /-- RING_ACCESS_TIMEOUT (R258): A ring access with no completion within QTO clocks puts the queue in ERROR with ERR 5. -/
  | ringAccessTimeout (vf q : Nat)
  /-- GANG_PLACE (R279): The placer selects an eligible node's gang, or a pre-empted gang, and places it on an admitting cluster. -/
  | gangPlace (cores : List Nat)
  /-- NODE_COMPLETE (R280): A node whose gangs, chains and fired chunks are done posts its completion record. -/
  | nodeComplete (node : Nat)
  /-- GANG_SAVE (R133): A STOPPING gang whose threads all rest at switch points is quiesced and saved, becoming PREEMPTED. -/
  | gangSave (g : Nat)
  /-- CHAIN_SLOT_READ (R265): An engine reads a chain slot after the covering tail advance and starts the command. -/
  | chainSlotRead (blk e : Nat)
  /-- COPY_PIECE_DONE (R267): A copy piece's bytes are performed; it counts, advances WP or fill pointers and may complete the command. -/
  | copyPieceDone (blk e k : Nat)
  /-- COPY_PIECE_PARK (R268): A copy piece meeting a resolvable fault parks and posts a KIND 13 record. -/
  | copyPiecePark (blk e k : Nat)
  /-- COPY_PIECE_STALL_TIMEOUT (R267): A piece with no response for CSTL clocks fails and puts the chain in ERROR. -/
  | copyPieceStallTimeout (blk e k : Nat)
  /-- MATRIX_STEP_START (R292): The sequencer starts the next step of a queued loop once its fill pointers cover its tiles. -/
  | matrixStepStart (core : Nat)
  /-- MATRIX_STEP_END (R295): A matrix step finishes and updates the bank, completing the loop after its last step. -/
  | matrixStepEnd (core : Nat)
  /-- REMOTE_REQUEST (R253): A remote request arrives at its target and is performed, forwarded, held or refused. -/
  | remoteRequest (r : FabReq)
  /-- REQUEST_RELAY (R248): A device relays a passing request on the route the requester chose. -/
  | requestRelay (dst : Nat) (r : FabReq)
  /-- REMOTE_RESPONSE (R255): A response arrives at the requester; the first is accepted and later ones dropped. -/
  | remoteResponse (r : FabResp)
  /-- RESPONSE_ACK (R255): A requester's acknowledgement lets the target drop its performed-request record. -/
  | responseAck (src tag : Nat)
  /-- RESPONSE_TIMEOUT (R255): An RTO count runs out and the request is resent on the next route or fails after all detours. -/
  | responseTimeout (tag : Nat)
  /-- PORT_COMPLETION (R366): A host or CXL port completion returns data or a failure for a LOC 2 or 3 access. -/
  | portCompletion (tag status : Nat) (data : List Byte)
  /-- LINK_SIGNAL_DETECT (R250): An enabled DOWN link detects signal and begins training. -/
  | linkSignalDetect (j : Nat)
  /-- LINK_TRAINING_DONE (R250): Training ends with the link UP, QUARANTINED as miswired, or DOWN. -/
  | linkTrainingDone (j lanes prank : Nat) (pair : BitVec 16 × BitVec 32) (ex : Exchange)
  /-- LINK_TRAINING_TIMEOUT (R250): No exchange within 2^20 clocks returns the link to DOWN. -/
  | linkTrainingTimeout (j : Nat)
  /-- LINK_RETRY_TIMER (R250): After 2^20 clocks a DOWN link retries training if enabled. -/
  | linkRetryTimer (j : Nat)
  /-- LINK_DEGRADE (R250): Eight replays of one flit or a lost lane take the link to DEGRADED and resend its requests. -/
  | linkDegrade (j : Nat)
  /-- LINK_RETRAIN_DONE (R250): A retrain returns the link to UP or, on the third failure, quarantines it. -/
  | linkRetrainDone (j lanes prank : Nat) (pair : BitVec 16 × BitVec 32) (ex : Exchange)
  /-- LINK_SIGNAL_LOST (R250): An end that loses signal from its peer enters DOWN. -/
  | linkSignalLost (j : Nat)
  /-- FLIT_REPLAY (R250): A flit that fails its CRC is replayed from the sender's buffer. -/
  | flitReplay (j : Nat)
  /-- LINK_ENABLE (R251): Writing a link's ENABLE field; 0 takes it DOWN, 0 then 1 clears quarantine. -/
  | linkEnable (j : Nat) (on : Bool)
  /-- LINK_QUARANTINE (R251): Writing QUAR quarantines the link with CAUSE 3. -/
  | linkQuarantine (j : Nat)
  /-- LINK_STATE_BROADCAST (R249): A flooded link-state change is applied if later and forwarded on UP links. -/
  | linkStateBroadcast (owner j : Nat) (st : LinkSt) (chg : BitVec 16)
  /-- CAPABILITY_BROADCAST (R252): A revision and capability broadcast replaces a rank's peer-table entry. -/
  | capabilityBroadcast (rank : Nat) (rev : BitVec 16) (caps : BitVec 32)
  /-- MOVE_START (R233): The migration engine starts a queued move, taking a frame and reserving slots, or refuses it. -/
  | moveStart (o : MoveOffer)
  /-- COPY_PASS_END (R234): A migration copy pass ends and the next pass or the final phase begins. -/
  | copyPassEnd (m : Nat)
  /-- HOLD_LIMIT_EXPIRY (R235): The final phase reaches MHL clocks before flipping and the move aborts. -/
  | holdLimitExpiry (m : Nat)
  /-- INSTALL (R236): The destination walks its table, writes the new entry and acknowledges, or refuses. -/
  | install (a : Asker) (ldom : Nat) (page : DWord) (frame att : Nat) (ranks : List Nat)
  /-- INSTALL_ACK (R236): The owner receives the install acknowledgement and flips the page. -/
  | installAck (m status : Nat)
  /-- REDIRECT (R239): A redirect records the new owner and holds later requests until earlier ones are answered. -/
  | redirect (ldom : Nat) (page : DWord) (owner : Nat)
  /-- ENTRIES_UPDATED (R241): Entries-updated reaches the stub holder, which starts reclamation and sends invalidations. -/
  | entriesUpdated (src tag ldom : Nat) (page : DWord)
  /-- OWNER_CACHE_INVALIDATE (R241): A sharer removes its owner-cache entry and acknowledges once its requests are answered. -/
  | ownerCacheInvalidate (src ldom : Nat) (page : DWord)
  /-- INVALIDATE_ACK (R233): A sharer's acknowledgement arrives; the last frees the stub and sends stub-gone. -/
  | invalidateAck (src ldom : Nat) (page : DWord)
  /-- STUB_GONE (R240): A stub-gone message removes a rank from the owner's arrival record. -/
  | stubGone (src ldom : Nat) (page : DWord)
  /-- MEMBER_RESET_NOTICE (R351): A peer's context reset aborts moves and collectives with it and clears its stub and cache state. -/
  | memberResetNotice (src ldom : Nat)
  /-- ADDRESS_GROUP_DEFINE (R341): A member records or deletes an address-group entry, or refuses without a bound context. -/
  | addressGroupDefine (src tag ldom agn : Nat) (del : Bool) (base mask : DWord)
  /-- ARMING_NOTICE (R334): A member's arming notice arrives and may move the group to RUNNING. -/
  | armingNotice (src ldom grp : Nat) (n check : Word)
  /-- CHUNK_FIRE (R337): A fire waits for a RUNNING instance, releases at .lake and sends the chunk to its home reducer. -/
  | chunkFire (k : Nat)
  /-- REDUCER_COMMAND (R336): A reducer takes a contribution; with all arrived it combines in rank order and writes results. -/
  | reducerCommand (a : Asker) (ldom grp : Nat) (n : Word) (chunk : Nat) (data : List Byte)
  /-- MEMBER_LAG_TIMEOUT (R339): A reducer waiting LAG clocks for contributions starts an abort with status 1. -/
  | memberLagTimeout (ldom grp chunk : Nat)
  /-- COLLECTIVE_ABORT (R339): An abort message drops the instance's state and is forwarded down the abort tree. -/
  | collectiveAbort (src ldom grp : Nat) (n : Word) (status : Nat)
  /-- COLLECTIVE_ABORT_ACK (R334): A child's abort acknowledgement arrives; with all in, the record returns to IDLE. -/
  | collectiveAbortAck (src ldom grp : Nat) (n : Word)
  /-- CONTEXT_CREATE (R349): Create command moves a WIPED context to CREATED. -/
  | contextCreate (c : Nat)
  /-- CONTEXT_ACTIVATE (R349): Activate command checks the configuration and moves the context to ACTIVE or FAULTED. -/
  | contextActivate (c : Nat)
  /-- CONTEXT_PREEMPT (R349): Preempt command stops placement and moves running gangs to STOPPING. -/
  | contextPreempt (c : Nat)
  /-- CONTEXT_RESUME (R349): Resume command returns saved gangs to the placer and stalled queues to running. -/
  | contextResume (c : Nat)
  /-- CONTEXT_RESET (R351): Reset command kills gangs, discards state, notifies domain members and clears on-core storage. -/
  | contextReset (c : Nat)
  /-- RESET_COMPLETE (R351): The reset steps complete and the context becomes WIPED. -/
  | resetComplete (c : Nat)
  /-- LMASK_WRITE (R352): Writing LMASK removes cleared ranks from the domain at this device. -/
  | lmaskWrite (c : Nat) (v : DWord)
  /-- FQC_WRITE (R264): Writing FQC frees fault-queue room for waiting records and re-arms vector 4. -/
  | fqcWrite (c : Nat) (v : Word)
  /-- MEC_WRITE (R264): Writing the event queue's consumed count frees room for held records and re-arms vector 5. -/
  | mecWrite (c : Nat) (v : Word)
  /-- PARTITION_ASSIGN (R346): Assign command opens a FREE partition whose masks satisfy the rules. -/
  | partitionAssign (p : Nat)
  /-- PARTITION_CLOSE (R346): Close command starts the wipe of an OPEN partition whose contexts are all WIPED. -/
  | partitionClose (p : Nat)
  /-- WIPE_COMPLETE (R353): A partition wipe finishes and the partition becomes FREE. -/
  | wipeComplete (p : Nat)
  /-- VF_ENABLE (R347): Enabling a virtual function is allowed only while its partition is OPEN. -/
  | vfEnable (v : Nat)
  /-- VF_RESET (R347): A Function Level Reset or disable of a virtual function resets its context. -/
  | vfReset (v : Nat) (disable : Bool)
  /-- CHECKPOINT (R361): Checkpoint command copies a partition's memory and poison bits to the CXL tier. -/
  | checkpoint (p addr : Nat)
  /-- RESTORE (R361): Restore command copies a partition's memory and poison bits back from the CXL tier. -/
  | restore (p addr : Nat)
  /-- CHECKPOINT_COMPLETE (R361): A checkpoint or restore copy finishes and any deferred resume takes effect. -/
  | checkpointComplete
  /-- ATTESTATION_REPORT (R362): The security processor signs a report with the nonce, firmware hash, partition hashes and retirement counts. -/
  | attestationReport (nonce : BitVec 256)
  /-- DEVICE_RESET (R371): A conventional, hot or PF reset returns the device to bring-up stage 0. -/
  | deviceReset
  /-- FIRMWARE_VERIFY (R362): The firmware hash and signature check completes, passing to straps or holding with ERR 1. -/
  | firmwareVerify (image : List Byte) (c : Signed) (rank roles : Nat)
  /-- PORT_TRAINING (R364): A port finishes training at its generation and width, or goes down. -/
  | portTraining (port state gen width : Nat)
  /-- POWER_ON_WIPE (R370): Retirement logs are applied and all memory wiped, after which the device reaches stage 5. -/
  | powerOnWipe (logsOk : Bool)
  /-- POWER_CHECK (R372): Every 1 ms the power manager lowers or raises one die's clock step against CAP. -/
  | powerCheck
  /-- BACKGROUND_SCRUB (R356): The scrub finds an uncorrectable error in idle on-core storage and kills the holding gang. -/
  | backgroundScrub (f : ScrubFind)
  /-- ROW_RETIREMENT (R360): A failing row's accesses are held while it is copied to a spare row and logged. -/
  | rowRetirement (stack row : Nat) (spare : Bool)
  /-- REGISTER_WRITE (R3): A write to a register field with no behaviour of its own stores the value. -/
  | registerWrite (r : Reg) (i : Nat) (v : DWord)
  /-- UNASSIGNED_OPCODE_EXECUTE (R37): A thread's PC reaches a word whose major opcode is unassigned, or a mis-sized or misplaced first word, and every thread of the ripple takes the illegal-instruction trap. -/
  | unassignedOpcodeExecute (detail : Nat)
  /-- CYCLE_COUNTER_TICK (R18): On every clock of a core its 64-bit cycle counter increments, wrapping at 2^64, whether or not any thread runs. -/
  | cycleCounterTick (core : Nat)
  /-- RUN_AHEAD_ACCESS (R226): Instruction prefetch or hardware data prefetch walks tables, fills the TLB and caches, and marks a granule on an uncorrectable error without killing anything. -/
  | runAheadAccess (core ctx : Nat) (addr : DWord) (kind : AheadKind)
  /-- HOST_DEVICE_MEMORY_ACCESS (R263): The host writes or reads device memory through a port, and its writes before a TAIL write are performed at .sys before the entry is fetched. -/
  | hostDeviceMemoryAccess (write : Bool) (addr : Nat) (data : List Byte)
  /-- CONFIGURATION_REQUEST (R370): A PCIe configuration request arrives at port 0 and is answered with Configuration Request Retry Status until stage 5. -/
  | configurationRequest
  deriving DecidableEq, Repr

end Sys2Proof
end

