-- ==== Sys2Proof/WellFormed.lean ====
section
/-! DEFINITION. Which instructions the device executes and which raise the illegal-instruction trap, with the
detail code of R39 (spec/02_words.md), after the encoding table of each chapter. -/

namespace Sys2Proof

/-- A detail code of the illegal-instruction trap (R39, R143, R174). -/
abbrev Detail := Nat

/-- What the decode checks know about the executing thread: `g + a` of `.regs`, system mode, a hypervisor context. -/
structure Env where
  nregs : Nat
  sys : Bool
  hv : Bool
  deriving DecidableEq, Repr

/-- The code of a selector (R29). -/
def Sel.code : Sel → BitVec 9
  | .v n => n.setWidth 9
  | .o n => 0x100#9 + n.setWidth 9
  | .l n => 0x110#9 + n.setWidth 9
  | .lit => 0x118#9
  | .zero => 0x119#9
  | .small c => 0x120#9 + c.setWidth 9
  | .sr n => 0x140#9 + n.setWidth 9
  | .p n => 0x160#9 + n.setWidth 9
  | .unassigned c => c

/-- The selector of a code (R29). -/
def Sel.ofCode (c : BitVec 9) : Sel :=
  if c < 0x100#9 then .v (c.setWidth 8)
  else if c < 0x110#9 then .o (c.setWidth 4)
  else if c < 0x114#9 then .l (c.setWidth 2)
  else if c = 0x118#9 then .lit
  else if c = 0x119#9 then .zero
  else if 0x120#9 ≤ c ∧ c < 0x140#9 then .small (c.setWidth 5)
  else if 0x140#9 ≤ c ∧ c < 0x160#9 then .sr (c.setWidth 5)
  else if 0x160#9 ≤ c ∧ c < 0x168#9 then .p (c.setWidth 3)
  else .unassigned c

/-- The code of a type (R34). -/
def Ty.code : Ty → BitVec 4
  | .b32 => 0 | .i32 => 1 | .n32 => 2 | .i64 => 3 | .n64 => 4 | .f32 => 5 | .f64 => 6 | .bf16x2 => 7
  | .f16x2 => 8 | .i16x2 => 9 | .n16x2 => 10 | .i8x4 => 11 | .n8x4 => 12 | .i4x8 => 13 | .n4x8 => 14 | .f8x4 => 15

/-- The type of a code (R34). -/
def Ty.ofCode (c : BitVec 4) : Ty :=
  match c.toNat with
  | 0 => .b32 | 1 => .i32 | 2 => .n32 | 3 => .i64 | 4 => .n64 | 5 => .f32 | 6 => .f64 | 7 => .bf16x2
  | 8 => .f16x2 | 9 => .i16x2 | 10 => .n16x2 | 11 => .i8x4 | 12 => .n8x4 | 13 => .i4x8 | 14 => .n4x8 | _ => .f8x4

/-- The 64-bit types, whose operands are pairs (R31). -/
def Ty.wide : Ty → Bool
  | .i64 | .n64 | .f64 => true
  | _ => false

/-- The packed types (R34), the only ones whose sources a part field reshapes (R36). -/
def Ty.packed : Ty → Bool
  | .bf16x2 | .f16x2 | .i16x2 | .n16x2 | .i8x4 | .n8x4 | .i4x8 | .n4x8 | .f8x4 => true
  | _ => false

/-! ## Fields of the M and L form that some entries lay out in their own way -/

/-- Bits 57 to 55 of a memory instruction: the size, or the operation (R186). -/
def Std.size (f : Std) : Nat := (f.pb.toNat % 2) * 4 + f.pa.toNat
/-- Bits 60 to 58 of a memory instruction: the scope (R186). -/
def Std.scope (f : Std) : Nat := f.pc.toNat * 2 + f.pb.toNat / 2
/-- Bits 63 to 61 of a memory instruction: the order (R186). -/
def Std.ord (f : Std) : Nat := f.func.toNat
/-- Bits 62 to 55 of TERN and PSET: the truth table (R67). -/
def Std.table (f : Std) : BitVec 8 :=
  BitVec.ofNat 8 (f.pa.toNat + 4 * f.pb.toNat + 16 * f.pc.toNat + 64 * (f.func.toNat % 4))
/-- CVT's target format, bits 46 to 42 (R117). -/
def Std.cvtTgt (f : Std) : Nat := f.c.code.toNat % 32
/-- CVT's bits 50 to 47, which must be 0 (R117). -/
def Std.cvtZero (f : Std) : Nat := f.c.code.toNat / 32
/-- CVT's rounding mode, bits 54 to 51 (R117). -/
def Std.cvtMode (f : Std) : Nat := f.ty.code.toNat
/-- CVT's saturation bit, bit 55 (R117). -/
def Std.cvtSat (f : Std) : Bool := f.pa.getLsbD 0
/-- CVT's source format, bits 60 to 56 (R117). -/
def Std.cvtSrc (f : Std) : Nat := f.pa.toNat / 2 + 2 * f.pb.toNat + 8 * f.pc.toNat
/-- CVT's element offset, bits 63 to 61 (R117). -/
def Std.cvtElem (f : Std) : Nat := f.func.toNat

/-- The scopes of R179 in a 3-bit field: 0 `.blk`, 1 `.gang`, 2 `.dev`, 3 `.lake`, 4 `.sys`. -/
def scopeOk (n : Nat) : Bool := n ≤ 4

/-! ## Roles of the selector fields -/

/-- What an instruction's entry makes of a source field. -/
inductive SrcRole where
  /-- Unused: must be 0, detail 4 (R28). -/
  | unused
  /-- Unused, and the entry gives detail 5 to a nonzero field. -/
  | barred
  /-- "v": a source of the instruction's type (R67). -/
  | val
  /-- "32": read as 32 bits whatever the type (R67). -/
  | w32
  /-- "64": a 64-bit source (R67). -/
  | w64
  /-- "T": an even v or o register naming a 64-bit pair (R136). -/
  | target
  /-- An address pair: an even v or o register (R186, R189). -/
  | addr
  /-- "p": `0x119` or `0x160` to `0x167` (R67). -/
  | pred
  /-- A branch offset: a constant selector (R136). -/
  | offset
  /-- An address offset: a v or o register, a small integer, `0x119` or the literal (R186, R245). -/
  | disp
  /-- A v register (R65). -/
  | vreg
  /-- `n` registers from a v or o register divisible by `align`. -/
  | group (n align : Nat)
  /-- `n` registers from a v register divisible by `align`; another register has detail 5 (R301). -/
  | vgroup (n align : Nat)
  /-- Store data: `n` registers, or any other source (R188, R29). -/
  | data (n : Nat)
  /-- A modifier field: source A alone, or A and B (R106). -/
  | modifier (both : Bool)
  /-- Checked by the entry's own rule. -/
  | own
  deriving DecidableEq, Repr

/-- What an instruction's entry makes of the destination field. -/
inductive DstRole where
  /-- Unused: must be 0, detail 4 (R28). -/
  | unused
  /-- Unused, and the entry gives detail 5 to a nonzero field. -/
  | barred
  /-- A result of the instruction's type. -/
  | val
  /-- A 32-bit result. -/
  | w32
  /-- A 64-bit result. -/
  | w64
  /-- A predicate, or `0x119`. -/
  | pred
  /-- A v register (R65). -/
  | vreg
  /-- `n` registers from a v or o register divisible by `align`; nothing else. -/
  | group (n align : Nat)
  /-- As `group`, or `0x119`, or with W the latches. -/
  | data (n : Nat)
  /-- Checked by the entry's own rule. -/
  | own
  deriving DecidableEq, Repr

/-- The encoding rule of one instruction. -/
structure Rule where
  /-- The type codes that its entry lists; none where it takes no type. -/
  types : Option (List Ty) := none
  d : DstRole := .unused
  a : SrcRole := .unused
  b : SrcRole := .unused
  c : SrcRole := .unused
  /-- Func values that the entry defines. -/
  func : Bool := true
  /-- Whether the part fields exist as such. -/
  parts : Bool := true
  /-- One of the long-latency instructions of R47 (its last row). -/
  long : Bool := false
  /-- Detail codes of the entry's own checks. -/
  extra : List Detail := []
  deriving DecidableEq, Repr

/-- Detail `d` where the condition holds. -/
def flag (c : Bool) (d : Detail) : List Detail := if c then [d] else []

/-- A run of `n` registers from a register divisible by `align` (R31, R189). -/
def runCodes (env : Env) (s : Sel) (n align : Nat) : List Detail :=
  match s with
  | .v k => flag (k.toNat % align ≠ 0 ∨ k.toNat + n > env.nregs) 6
  | .o k => flag (k.toNat % align ≠ 0 ∨ k.toNat + n > 16) 6
  | _ => []

/-- A v or o register. -/
def Sel.isReg : Sel → Bool
  | .v _ | .o _ => true
  | _ => false

/-- A general source (R29): `n` registers wide where it names a register; `lit` where a literal word follows. -/
def srcCodes (env : Env) (lit : Bool) (s : Sel) (n : Nat) : List Detail :=
  match s with
  | .v _ | .o _ => runCodes env s n n
  | .l _ | .zero | .small _ | .p _ => []
  | .lit => flag (!lit) 5
  | .sr _ | .unassigned _ => [5]

/-- A register run and nothing else. -/
def groupCodes (env : Env) (s : Sel) (n align : Nat) : List Detail :=
  if s.isReg then runCodes env s n align else [5]

/-- The codes that one source field breaks. -/
def SrcRole.codes (env : Env) (lit : Bool) (ty : Ty) (r : SrcRole) (s : Sel) : List Detail :=
  match r with
  | .unused => flag (s.code ≠ 0) 4
  | .barred => flag (s.code ≠ 0) 5
  | .val => srcCodes env lit s (if ty.wide then 2 else 1)
  | .w32 => srcCodes env lit s 1
  | .w64 => srcCodes env lit s 2
  | .target => groupCodes env s 2 2
  | .addr =>
    match s with
    | .v k => if k.toNat % 2 = 1 then [5] else runCodes env s 2 2
    | .o k => if k.toNat % 2 = 1 then [5] else runCodes env s 2 2
    | _ => [5]
  | .pred => match s with
    | .zero | .p _ => []
    | _ => [5]
  | .offset => match s with
    | .zero | .small _ => []
    | .lit => flag (!lit) 5
    | _ => [5]
  | .disp => match s with
    | .l _ | .p _ => [5]
    | s => srcCodes env lit s 1
  | .vreg => match s with
    | .v _ => runCodes env s 1 1
    | _ => [5]
  | .group n k => groupCodes env s n k
  | .vgroup n k => match s with
    | .v m => if m.toNat % k ≠ 0 then [5] else runCodes env s n k
    | _ => [5]
  | .data n => if s.isReg then runCodes env s n n else srcCodes env lit s 1
  | .modifier both => flag (s.code.toNat ≥ (if both then 16 else 4)) 4
  | .own => []

/-- Whether a source field of this role counts as a source for the literal rule of R26. -/
def SrcRole.isSource : SrcRole → Bool
  | .unused | .barred | .modifier _ => false
  | _ => true

/-- The codes of a register destination `n` registers wide in the M and L forms, with W (R29, R31, R33). -/
def dstCodes (env : Env) (w : Bool) (s : Sel) (n align : Nat) : List Detail :=
  match s with
  | .v _ | .o _ => runCodes env s n align ++ flag w 9
  | .zero => flag w 9
  | .l k => if k = 0 then flag (!w) 9 else [5, 9]
  | _ => [5]

/-- The codes that the destination field and W break. -/
def DstRole.codes (env : Env) (ty : Ty) (w : Bool) (r : DstRole) (s : Sel) : List Detail :=
  match r with
  | .unused => flag (s.code ≠ 0) 4 ++ flag w 9
  | .barred => flag (s.code ≠ 0) 5 ++ flag w 9
  | .val => let n := if ty.wide then 2 else 1; dstCodes env w s n n
  | .w32 => dstCodes env w s 1 1
  | .w64 => dstCodes env w s 2 2
  | .pred => (match s with
    | .zero => []
    | .p k => flag (k = 7) 5
    | _ => [5]) ++ flag w 9
  | .vreg => (match s with
    | .v _ => runCodes env s 1 1
    | _ => [5]) ++ flag w 9
  | .group n k => groupCodes env s n k ++ flag w 9
  | .data n => dstCodes env w s n n
  | .own => []

/-- The codes of a part field: unused or modifier sources must hold 0 (R28), and a source of a packed type may hold any
code (R36). DEDUCED: a source that is used but not of the instruction's type has no part field (R68); under a scalar type
its code is one that R36's table does not allow, detail 8, and under a packed type it is an unused field, detail 4 (R28; log
entry 67). -/
def partCodes (ty : Ty) (r : SrcRole) (p : BitVec 2) : List Detail :=
  if p = 0 then []
  else match r with
    | .unused | .barred | .modifier _ | .own => [4]
    | .val => flag (!ty.packed) 8
    | _ => if ty.packed then [4] else [8]

/-- A draw instruction has no part field: a nonzero one is detail 8 whatever its type (R329). -/
def Std.partsBad (f : Std) : List Detail := flag (f.pa ≠ 0 || f.pb ≠ 0 || f.pc ≠ 0) 8

/-- All codes that an M or L form breaks against its rule. A type field that its entry does not use is reserved: a nonzero
code is detail 4 (R28, R34), and code 15 is 7 in every instruction (R35). -/
def Rule.codes (env : Env) (r : Rule) (f : Std) : List Detail :=
  let lit := f.lit.isSome
  flag (!r.func) 4
  ++ (match r.types with
    | some l => flag (!l.contains f.ty) 7
    | none => flag (f.ty = .f8x4) 7 ++ flag (f.ty ≠ .b32 ∧ f.ty ≠ .f8x4) 4)
  ++ r.d.codes env f.ty f.w f.d
  ++ r.a.codes env lit f.ty f.a ++ r.b.codes env lit f.ty f.b ++ r.c.codes env lit f.ty f.c
  ++ (if r.parts then partCodes f.ty r.a f.pa ++ partCodes f.ty r.b f.pb ++ partCodes f.ty r.c f.pc else [])
  ++ flag (lit && !((r.a.isSource && f.a == .lit) || (r.b.isSource && f.b == .lit) || (r.c.isSource && f.c == .lit))) 5
  ++ flag (r.long && (f.w || (match f.d with | .l _ => true | _ => false))) 9
  ++ r.extra

/-! ## Lists of types -/

def tyInt : List Ty := [.b32, .i32, .n32, .i64, .n64]
def tyPackInt : List Ty := [.i16x2, .n16x2, .i8x4, .n8x4, .i4x8, .n4x8]
def tyAll : List Ty := tyInt ++ [.f32, .f64, .bf16x2, .f16x2] ++ tyPackInt
def tyHalf : List Ty := [.f32, .bf16x2, .f16x2]

/-- `.sat` with `b32`, `i64` or `n64` (R68). -/
def satBad (f : Std) : List Detail := flag (f.func.getLsbD 0 && [Ty.b32, .i64, .n64].contains f.ty) 4

/-- The CVT formats held in pairs (R117). -/
def cvtPair (k : Nat) : Bool := k == 1 || k == 10 || k == 11

/-- Elements that a CVT format places in its container (R118). -/
def cvtCount : Nat → Nat
  | 2 | 3 | 12 | 13 => 2
  | 4 | 5 | 7 | 14 | 15 => 4
  | 6 | 16 | 17 => 8
  | _ => 1

/-- The codes of CVT (R117, R120). -/
def cvtCodes (env : Env) (f : Std) : List Detail :=
  let cs := f.cvtSrc; let ct := f.cvtTgt; let m := f.cvtMode
  let lit := f.lit.isSome
  let si := cs ≥ 8; let ti := ct ≥ 8
  let nmin := min (cvtCount cs) (cvtCount ct); let nmax := max (cvtCount cs) (cvtCount ct)
  let ns := if cvtPair cs then 2 else 1; let nd := if cvtPair ct then 2 else 1
  flag (cs > 17 ∨ ct > 17) 4 ++ flag (m > 4) 4 ++ flag (f.cvtElem * nmin ≥ nmax) 4
  ++ flag ((cs = 7 ∨ ct = 7) ∧ ¬ ((cs = 7 ∧ ct = 0) ∨ (cs = 0 ∧ ct = 7))) 4
  ++ flag (si ∧ ti ∧ m ≠ 0) 4 ++ flag (m = 4 ∧ ti) 4
  ++ flag (f.cvtSat ∧ (ct = 6 ∨ ct = 7 ∨ (¬ si ∧ ti))) 4
  ++ flag (f.cvtZero ≠ 0) 4
  ++ (if m = 4 then srcCodes env lit f.b 1 else flag (f.b.code ≠ 0) 4)
  ++ srcCodes env lit f.a ns ++ dstCodes env f.w f.d nd nd
  ++ flag (lit && !(f.a == .lit || (m = 4 && f.b == .lit))) 5

/-- The count of OPREF and OPSAVE, where source B is a constant (R64). -/
def runCount (f : Std) : Option Int :=
  match f.b with
  | .small c => some (Int.ofNat c.toNat - 16)
  | .zero => some 0
  | .lit => f.lit.map fun w => w.toInt
  | _ => none

/-- The codes of OPREF and OPSAVE: `o` and `v` are the ends of the two runs (R64). -/
def runPairCodes (env : Env) (f : Std) (o v : Sel) : List Detail :=
  match o, v, runCount f with
  | .o n, .v m, some c =>
    flag (c < 1 ∨ c > 16 ∨ Int.ofNat n.toNat + c > 16) 5 ++ flag (Int.ofNat m.toNat + c > Int.ofNat env.nregs) 6
  | _, _, _ => [5]

/-- The registers of a load or store of a size (R188). -/
def sizeRegs : Nat → Nat
  | 3 => 2 | 4 => 4 | 5 => 8 | _ => 1

/-- The types that a load or store takes with a size (R188). -/
def sizeTypes : Nat → List Ty
  | 0 | 1 | 2 => [.b32, .i32, .n32]
  | 3 => [.b32, .i64, .n64]
  | _ => [.b32]

/-- The types of an atomic operation (R191). -/
def atomTypes : Nat → List Ty
  | 0 | 1 | 2 => [.i32, .n32, .i64, .n64, .f32, .f64, .bf16x2, .f16x2]
  | 3 | 4 | 5 => tyInt
  | _ => tyInt ++ [.f32, .f64]

/-- The codes of ord and scope: `ords` the orders allowed, `takeScope` those that take a scope (R187). -/
def ordCodes (f : Std) (ords takeScope : List Nat) : List Detail :=
  flag (!ords.contains f.ord || !scopeOk f.scope || (f.scope ≠ 0 && !takeScope.contains f.ord)) 4

/-- The rule of an atomic; `mx` its last operation, `dst` whether it has a result (R187, R191). -/
def atomRule (f : Std) (at_ : SrcRole) (dst : Bool) (mx : Nat) (ords takeScope : List Nat) : Rule :=
  let n := if f.ty.wide then 2 else 1
  { types := some (atomTypes f.size), d := if dst then .data n else .barred, a := at_, b := .disp
    c := if f.size = 7 then .group (2 * n) (2 * n) else .data n, parts := false, long := dst
    extra := ordCodes f ords takeScope ++ flag (f.size > mx) 4 }

/-- The rule of an address instruction without data (PGREQ, PF, FENCE, CCTL). -/
def bareRule (f : Std) (located : Bool) (mx : Nat) (ords takeScope : List Nat) : Rule :=
  { types := some [.b32], d := .barred, a := if located then .addr else .unused, b := if located then .disp else .unused, parts := false
    extra := ordCodes f ords takeScope ++ flag (f.size > mx) 4 }

/-- A plain integer or floating rule with three operand roles. -/
def aluRule (types : List Ty) (d : DstRole) (a b c : SrcRole) (func : Bool) : Rule :=
  { types := some types, d := d, a := a, b := b, c := c, func := func }

/-- The rule of each instruction in the M or L form; `none` for the S and X forms, CVT and the events. -/
def Instr.rule (env : Env) : Instr → Option (Std × Rule)
  -- the group (R136, R138, R139, R142 to R149)
  | .bra f => some (f, { a := .offset, func := f.func = 0 })
  | .brx f => some (f, { a := .target, func := f.func = 0 })
  | .call f => some (f, { d := .w64, a := if f.func = 1 then .target else .offset, func := f.func ≤ 1
                          extra := flag f.w 9 })
  | .meet f => some (f, { d := .w32, a := if f.func = 1 then .w32 else .offset, func := f.func ≤ 1 })
  | .trap f => some (f, { a := .w32, func := f.func ≤ 1 })
  | .rtt f => some (f, { a := .target, func := f.func = 0 })
  | .shfl f => some (f, { types := some tyAll, d := .val, a := .val, b := .w32, func := f.func.toNat < 4 ∨ f.func = 4 })
  | .vote f => some (f, { d := if f.func = 3 then .w32 else .pred, a := .pred, func := f.func.toNat < 4 })
  | .matchReg f => some (f, { types := some tyInt, d := .w32, a := .val, func := f.func = 0 })
  | .redr f => some (f, { types := some (match f.func.toNat with
                            | 0 => tyInt ++ [.f32]
                            | 1 | 2 => [.i32, .n32, .i64, .n64, .f32]
                            | _ => tyInt)
                          d := .val, a := .val, func := f.func.toNat < 6 })
  | .lmap f => some (f, { d := .w32, a := .w32, func := f.func ≤ 1 })
  -- integers (R67, R68)
  | .add f => some (f, { aluRule (tyInt ++ tyPackInt) .val .val .val .unused (f.func ≤ 1) with extra := satBad f })
  | .addc f => some (f, aluRule [.b32, .i32, .n32] .val .val .val .pred true)
  | .sub f => some (f, { aluRule (tyInt ++ tyPackInt) .val .val .val .unused (f.func ≤ 1) with extra := satBad f })
  | .subb f => some (f, aluRule [.b32, .i32, .n32] .val .val .val .pred true)
  | .mul f => some (f, { aluRule [.i32, .n32, .i64, .n64, .i16x2, .n16x2, .i8x4, .n8x4] .val .val .val .unused
                          (f.func ≤ 1) with extra := satBad f })
  | .mulh f => some (f, aluRule [.i32, .n32, .i64, .n64, .i16x2, .n16x2] .val .val .val .unused (f.func = 0))
  | .mad f => some (f, aluRule [.i32, .n32, .i64, .n64, .i16x2, .n16x2, .i8x4, .n8x4] .val .val .val .val (f.func = 0))
  | .madc f => some (f, aluRule [.n32] .w64 .w32 .w32 .w64 true)
  | .madw f => some (f, aluRule [.i32, .n32] .w64 .w32 .w32 .w64 (f.func = 0))
  | .absd f => some (f, aluRule ([.i32, .n32] ++ tyPackInt) .val .val .val (if f.func = 1 then .val else .unused)
                          (f.func ≤ 1))
  | .min f => some (f, aluRule ([.i32, .n32, .i64, .n64] ++ tyPackInt) .val .val .val .unused (f.func = 0))
  | .max f => some (f, aluRule ([.i32, .n32, .i64, .n64] ++ tyPackInt) .val .val .val .unused (f.func = 0))
  | .neg f => some (f, { aluRule [.i32, .i64, .i16x2, .i8x4, .i4x8] .val .val .unused .unused (f.func ≤ 1) with
                         extra := satBad f })
  | .dot4 f => some (f, aluRule [.i8x4, .n8x4, .i4x8, .n4x8] .w32 .val .val .w32 (f.func.toNat < 4))
  | .lea f => some (f, aluRule [.n32, .n64] .val .val .w32 .unused true)
  | .mov f => some (f, aluRule tyAll .val .val .unused .unused (f.func = 0))
  | .shl f => some (f, aluRule (tyInt ++ tyPackInt) .val .val .w32 .unused (f.func = 0))
  | .shr f => some (f, aluRule (tyInt ++ tyPackInt) .val .val .w32 .unused (f.func = 0))
  | .sar f => some (f, aluRule (tyInt ++ tyPackInt) .val .val .w32 .unused (f.func = 0))
  | .fsh f => some (f, aluRule [.b32] .val .val .val .w32 (f.func ≤ 1))
  | .tern f => some (f, { aluRule [.b32] .val .val .val .val (f.func.toNat < 4) with parts := false })
  | .popc f => some (f, aluRule tyInt .w32 .val .unused .unused (f.func = 0))
  | .clz f => some (f, aluRule tyInt .w32 .val .unused .unused (f.func = 0))
  | .brev f => some (f, aluRule tyInt .val .val .unused .unused (f.func = 0))
  | .bfx f => some (f, aluRule tyInt .val .val .w32 .unused (f.func = 0))
  | .bfi f => some (f, aluRule [.b32, .n32, .n64] .val .val .w32 .val (f.func = 0))
  | .perm f => some (f, aluRule [.b32] .val .val .val .w32 (f.func = 0))
  | .icmp f => some (f, aluRule tyInt .pred .val .val .pred true)
  | .sel f => some (f, aluRule tyAll .val .val .val .pred (f.func ≤ 1))
  | .pset f => some (f, { aluRule [.b32] .pred .pred .pred .pred (f.func.toNat < 4) with parts := false })
  -- floating point (R105 to R107)
  | .fadd f => some (f, aluRule tyHalf .val .val .val (.modifier true) (f.func.toNat < 4))
  | .fmul f => some (f, aluRule tyHalf .val .val .val (.modifier true) (f.func.toNat < 4))
  | .ffma f => some (f, aluRule tyHalf .val .val .val .val true)
  | .fmin f => some (f, aluRule (.f64 :: tyHalf) .val .val .val (.modifier true) (f.func ≤ 1))
  | .fmax f => some (f, aluRule (.f64 :: tyHalf) .val .val .val (.modifier true) (f.func ≤ 1))
  | .fcmp f => some (f, aluRule [.f32] .pred .val .val .pred true)
  | .fclass f => some (f, aluRule (.f64 :: tyHalf) .w32 .val .unused .unused (f.func = 0))
  | .frnd f => some (f, aluRule tyHalf .val .val (.modifier false) .unused (f.func.toNat < 4))
  | .fdiv f => some (f, aluRule [.f32] .val .val .val (.modifier true) (f.func.toNat < 4))
  | .frcp f => some (f, aluRule [.f32] .val .val (.modifier false) .unused (f.func.toNat < 4))
  | .frsq f => some (f, aluRule [.f32] .val .val (.modifier false) .unused (f.func.toNat < 4))
  | .fsqrt f => some (f, aluRule [.f32] .val .val (.modifier false) .unused (f.func.toNat < 4))
  | .fexp2 f => some (f, aluRule [.f32] .val .val (.modifier false) .unused (f.func = 0))
  | .flog2 f => some (f, aluRule [.f32] .val .val (.modifier false) .unused (f.func = 0))
  | .fsin f => some (f, aluRule [.f32] .val .val (.modifier false) .unused (f.func = 0))
  | .fcos f => some (f, aluRule [.f32] .val .val (.modifier false) .unused (f.func = 0))
  | .ftanh f => some (f, aluRule [.f32] .val .val (.modifier false) .unused (f.func = 0))
  | .dadd f => some (f, aluRule [.f64] .val .val .val (.modifier true) (f.func.toNat < 4))
  | .dmul f => some (f, aluRule [.f64] .val .val .val (.modifier true) (f.func.toNat < 4))
  | .dfma f => some (f, aluRule [.f64] .val .val .val .val true)
  | .dcmp f => some (f, aluRule [.f64] .pred .val .val .pred true)
  -- the register instructions (R64, R65)
  | .opref f => some (f, { d := .own, a := .own, b := .own, func := f.func = 0
                           extra := runPairCodes env f f.d f.a ++ flag f.w 9 })
  | .opsave f => some (f, { d := .own, a := .own, b := .own, func := f.func = 0
                            extra := runPairCodes env f f.a f.d ++ flag f.w 9 })
  | .shape f => some (f, match f.func.toNat with
      | 0 => { d := .w32, a := .vreg }
      | 1 => { d := .vreg }
      | 2 => { a := .vreg }
      | _ => { d := .w32, a := .vreg, func := false })
  -- the horizon (R168)
  | .hwait f => some (f, { a := if f.func = 1 then .unused else .w32, func := f.func ≤ 1 })
  | .hbr f => some (f, { a := .offset, b := if f.func.getLsbD 0 then .unused else .w32, func := f.func.toNat < 4 })
  | .tick f => some (f, { d := .w32, a := .w32, func := f.func = 0 })
  | .hresume f => some (f, { func := f.func = 0 })
  -- memory (R186 to R189, R197)
  | .ld f => some (f, { types := some (sizeTypes f.size), d := .data (sizeRegs f.size), a := .addr, b := .disp, parts := false
                        long := true, extra := ordCodes f [0, 1] [1] ++ flag (f.size > 5) 4 })
  | .st f => some (f, { types := some (sizeTypes f.size), d := .barred, a := .addr, b := .disp, c := .data (sizeRegs f.size)
                        parts := false, extra := ordCodes f [0, 2, 4] [2] ++ flag (f.size > 5) 4 })
  | .lds f => some (f, { types := some (sizeTypes f.size), d := .data (sizeRegs f.size), a := .w32, b := .disp, parts := false
                         long := true, extra := ordCodes f [0] [] ++ flag (f.size > 5) 4 })
  | .sts f => some (f, { types := some (sizeTypes f.size), d := .barred, a := .w32, b := .disp, c := .data (sizeRegs f.size)
                         parts := false, extra := ordCodes f [0] [] ++ flag (f.size > 5) 4 })
  | .ldnr f => some (f, { types := some (sizeTypes f.size), d := .data (sizeRegs f.size), a := .addr, b := .disp, c := .own
                          parts := false, long := true
                          extra := ordCodes f [0] [] ++ flag (f.size > 5) 4 ++ (match f.c with
                            | .zero => []
                            | .p k => flag (k = 7) 5
                            | _ => [5]) })
  | .pgreq f => some (f, bareRule f true 0 [0] [])
  | .atom f => some (f, atomRule f .addr true 7 [0, 1, 2, 3] [1, 2, 3])
  | .atoms f => some (f, atomRule f .w32 true 7 [0] [])
  | .red f => some (f, atomRule f .addr false 5 [0, 2] [2])
  | .pf f => some (f, bareRule f true 1 [0] [])
  | .fence f => some (f, bareRule f false 0 [1, 2, 3] [1, 2, 3])
  | .cctl f => some (f, bareRule f (f.size ≠ 0 ∧ f.size ≠ 2) 4 [0] [])
  -- pages (R227, R245)
  | .pgmove f => some (f, { d := .barred, a := .addr, b := .disp, c := .w32, func := f.func ≤ 1
                            extra := flag (f.func.getLsbD 0 && !env.sys) 10 })
  | .pgheat f => some (f, { d := .w32, a := .addr, b := .w32, func := f.func ≤ 1
                            extra := flag (f.func.getLsbD 0 && !env.sys) 10 })
  | .pgq f => some (f, { d := .w32, a := .addr, b := .w32, func := f.func = 0 })
  | .pginv f => some (f, { a := if f.func.toNat % 4 = 2 then .barred else .addr
                           b := if f.func.toNat % 4 = 2 then .barred else .w32
                           extra := flag (!env.sys || (f.func.toNat % 4 = 3 && !env.hv)) 10 })
  -- barriers (R206)
  | .bari f => some (f, { d := .barred, a := .w32, b := .w32, c := .w32, func := f.func = 0 })
  | .bara f => some (f, { d := .w32, a := .w32, func := f.func.toNat / 2 ≠ 3 })
  | .barw f => some (f, { d := .barred, a := .w32, b := .w32, func := f.func.toNat / 2 ≠ 3 ∧ f.func.toNat % 2 = 0 })
  | .bars f => some (f, { d := .w32, a := .w32, func := f.func.toNat / 2 ≠ 3 })
  | .barq f => some (f, { d := .w32, a := .w32, func := f.func.toNat < 4 })
  | .gbar f => some (f, { d := .barred, a := .w32, func := f.func.toNat / 2 = 1 ∨ f.func.toNat / 2 = 2 })
  -- the queue (R269)
  | .eseq f => some (f, { d := .w32 })
  | .ewait f => some (f, { d := .w32, a := .w32, func := f.func.toNat < 4 })
  | .cwptr f => some (f, { d := .w32, func := f.func ≤ 1, long := true })
  | .cwait f => some (f, { d := .w32, a := .w32, func := f.func ≤ 1 })
  | .bsrclr f => some (f, { d := .barred, a := .w32, func := f.func = 0 })
  -- the tile (R301)
  | .prsv f => some (f, { a := .w32, b := .vgroup 4 4, func := f.func = 0 })
  | .prel f => some (f, { a := .w32, func := f.func = 0 })
  | .mxwait f => some (f, { func := f.func.toNat < 3 })
  | .mxdrain f => some (f, { a := .addr, b := .w32, c := .w32, func := f.func.toNat / 2 < 3 })
  | .mxread f => some (f, { d := .w32, a := .w32, b := .w32, func := f.func ≤ 1, long := true })
  | .mxzero f => some (f, { func := f.func.toNat < 4 })
  | .mxstat f => some (f, { d := .w32, a := if f.func = 2 then .w32 else .unused, func := f.func.toNat < 3 })
  -- the draw (R327, R329)
  | .drawr f => some (f, { types := some [.f32], d := .group 4 4, a := .val, b := .w32, c := .group 4 4, func := f.func ≤ 1
                           parts := false, extra := f.partsBad })
  | .coin f => some (f, { types := some [.b32], d := .w32, a := .w32, b := .w32, c := .w32, func := f.func.toNat < 5
                          parts := false, extra := f.partsBad ++ flag (f.func = 4 && (f.d == .zero || f.w)) 5 })
  -- collectives (R340)
  | .clstart f => some (f, { d := .w32, a := .addr, b := .w32, c := .w32, func := f.func = 0, long := true })
  | .clwait f => some (f, { d := .w32, a := .w32, b := .w32, func := f.func = 0, extra := flag f.w 9 })
  | .clabort f => some (f, { a := .w32, b := .w32, func := f.func = 0 })
  | _ => none

/-- A register destination of the S form: `l0` writes the latches only (R24, R29). -/
def sDstCodes (env : Env) (s : Sel) : List Detail :=
  match s with
  | .v _ | .o _ => runCodes env s 1 1
  | .zero => []
  | .l k => flag (k ≠ 0) 5
  | _ => [5]

/-- A destination that SWRT may name (R60, R63): `sr.fflags`; in system mode `sr.meet` and `sr.tfa` too. -/
def srWritable (sys : Bool) (n : Nat) : Bool := n == 13 || (sys && (n == 12 || n == 18))

/-- The number of special registers (R60). -/
def srCount : Nat := 19

/-- All codes that an S form breaks. -/
def Instr.sCodes (env : Env) : Instr → List Detail
  | .nop f | .exit f | .yield f | .bkpt f => flag (f.d.code ≠ 0 ∨ f.a.code ≠ 0) 4
  | .ret f => flag (f.d.code ≠ 0) 4 ++ SrcRole.codes env false .b32 .target f.a
  | .movS f => sDstCodes env f.d ++ srcCodes env false f.a 1
  | .hread f => flag (f.a.code ≠ 0) 4 ++ sDstCodes env f.d
  | .sread f => sDstCodes env f.d ++ (match f.a with
      | .sr n => flag (n.toNat ≥ srCount) 5
      | _ => [5])
  | .swrt f => srcCodes env false f.a 1 ++ (match f.d with
      | .sr n => flag (!srWritable env.sys n.toNat) 5
      | _ => [5])
  | _ => []

/-- A register destination of ENQ: no W bit, no latch (R269, R29). -/
def xDstCodes (env : Env) (s : Sel) : List Detail :=
  match s with
  | .v _ | .o _ => runCodes env s 1 1
  | .zero => []
  | _ => [5]

/-- MLDR's destination group: its registers and the multiple its first must be (R340). -/
def mldrGroup (f : MldrForm) : Nat × Nat :=
  if f.op.toNat ≥ 6 then (3, 4)
  else
    let n := (if f.ty = .bf16x2 then 2 else 1) * 2 ^ f.cnt.toNat
    (n, n)

/-- The types of an MLDR operation (R340). -/
def mldrTypes (op : Nat) : List Ty :=
  match op with
  | 0 => [.i32, .n32, .f32, .bf16x2]
  | 1 | 2 => [.i32, .n32, .f32]
  | _ => [.b32]

/-- All codes that an X form breaks. DESIGN CHOICE: with AB, a nonzero A0 or AI of an MXLOOP breaks no rule: R293's table
requires 0 there of RA alone, and its text of what `ranas` writes is no decode check (log entry 66). -/
def Instr.xCodes (env : Env) : Instr → List Detail
  | .mxloop f =>
    flag (f.rsv ≠ 0 ∨ (f.ngm1 ≠ 0 ∧ !f.gr) ∨ (f.ab ∧ f.ra ≠ 0)) 4
    ++ (if f.dr || f.gr then
          (match f.p with
           | .v k => flag (k.toNat % 8 ≠ 0 ∨ k.toNat + (if f.gr then 6 else 5) > env.nregs) 6
           | _ => [5])
        else flag (f.p.code ≠ 0) 4)
  | .enq f =>
    flag (f.rsv ≠ 0 ∨ f.engine.toNat > 3 ∨ !scopeOk f.scope.toNat ∨ (f.scope ≠ 0 ∧ !f.rel)) 4
    ++ groupCodes env f.grp 16 16 ++ xDstCodes env f.d
  | .drawm f =>
    flag (f.rsv ≠ 0) 4
    ++ groupCodes env f.d 4 4 ++ groupCodes env f.lg 4 4 ++ groupCodes env f.rg 4 4 ++ groupCodes env f.pg 4 4
    ++ srcCodes env false f.pos 1
  | .agdef f =>
    flag (f.rsv ≠ 0 ∨ f.d.code ≠ 0) 4
    ++ (if f.del then flag (f.base ≠ .zero) 4 else SrcRole.codes env false .b32 .addr f.base)
    ++ SrcRole.codes env false .b32 .addr f.mask
  | .mldr f =>
    let draw := f.op.toNat ≥ 6
    let (n, k) := mldrGroup f
    flag (f.rsv ≠ 0 ∨ !(mldrTypes f.op.toNat).contains f.ty ∨ f.cnt = 3 ∨ (draw ∧ f.cnt ≠ 0)) 4
    ++ srcCodes env false f.off 1
    ++ (if draw then (if f.pg.code = 0 then [5] else groupCodes env f.pg 4 4) else flag (f.pg.code ≠ 0) 5)
    ++ groupCodes env f.d n k
  | _ => []

/-- Every detail code of R39 that the instruction breaks once its form is known. -/
def Instr.codes (env : Env) (i : Instr) : List Detail :=
  match i with
  | .cvt f => cvtCodes env f
  | i => match i.rule env with
    | some (f, r) => r.codes env f
    | none => i.sCodes env ++ i.xCodes env

/-- The lowest code of a list. -/
def lowest : List Detail → Option Detail
  | [] => none
  | d :: ds => match lowest ds with
    | none => some d
    | some e => some (min d e)

/-- The lowest applicable code (R39). -/
def Instr.violation (env : Env) (i : Instr) : Option Detail := lowest (i.codes env)

/-- Selectors in the form in which `Sel.ofCode` gives them: the unassigned codes are those of R29 and no other. -/
def Sel.canon (s : Sel) : Bool := Sel.ofCode s.code = s

def Std.canon (f : Std) : Bool := f.d.canon && f.a.canon && f.b.canon && f.c.canon

/-- Every selector of the instruction is in canonical form. -/
def Instr.canon (i : Instr) : Bool :=
  match i with
  | .nop f | .exit f | .yield f | .bkpt f | .ret f | .movS f | .hread f | .sread f | .swrt f => f.d.canon && f.a.canon
  | .cvt f => f.canon
  | .mxloop f => f.p.canon
  | .enq f => f.d.canon && f.grp.canon
  | .drawm f => f.d.canon && f.lg.canon && f.rg.canon && f.pg.canon && f.pos.canon
  | .agdef f => f.d.canon && f.base.canon && f.mask.canon
  | .mldr f => f.d.canon && f.off.canon && f.pg.canon
  | i => match i.rule ⟨256, true, true⟩ with
    | some (f, _) => f.canon
    | none => true

/-- MOV in the M form with the literal flag, or an M-only entry in the L form, is not an instruction (R38). -/
def Instr.formOk : Instr → Bool
  | .hwait f | .hresume f => f.lit.isNone
  | _ => true

/-- A well-formed instruction: one that the decode checks let execute (R39). -/
abbrev WellFormed (env : Env) (i : Instr) : Prop := i.canon = true ∧ i.formOk = true ∧ i.violation env = none

end Sys2Proof
end

