-- ==== Sys2Proof/Machine/Flags.lean ====
section
/-! DEFINITION. The flags that instructions compute: the sticky floating-point flags of R61 and R92, integer carries,
borrows and saturation (spec/03_register.md, spec/04_integer.md, spec/05_numbers.md). -/

namespace Sys2Proof.Machine

/-- The five flags of `sr.fflags` (R61): bit 4 NV, 3 DZ, 2 OF, 1 UF, 0 NX. -/
abbrev FFlags := BitVec 5

def flNV : FFlags := 0b10000#5
def flDZ : FFlags := 0b01000#5
def flOF : FFlags := 0b00100#5
def flUF : FFlags := 0b00010#5
def flNX : FFlags := 0b00001#5

/-- A flag where the condition holds. -/
def flagIf (c : Bool) (f : FFlags) : FFlags := if c then f else 0

/-- Carry out of bit 31 of an unsigned sum (R71). -/
def carryOut (a b : Word) (cin : Bool) : Bool := a.toNat + b.toNat + cin.toNat ≥ 2 ^ 32

/-- Unsigned borrow of a difference (R71). -/
def borrowOut (a b : Word) (cin : Bool) : Bool := a.toNat < b.toNat + cin.toNat

/-- Carry out of the top of a 64-bit pair in MADC (R72). -/
def carryOut64 (a b : Word) (c : DWord) (cin : Bool) : Bool := a.toNat * b.toNat + c.toNat + cin.toNat ≥ 2 ^ 64

/-- `max(lo, min(hi, r))` of R70. -/
def clampInt (lo hi r : Int) : Int := max lo (min hi r)

/-- The range of a `w`-bit element (R88). -/
def intLo (signed : Bool) (w : Nat) : Int := if signed then -(2 ^ (w - 1)) else 0
def intHi (signed : Bool) (w : Nat) : Int := if signed then 2 ^ (w - 1) - 1 else 2 ^ w - 1

end Sys2Proof.Machine
end

