-- ==== Sys2Proof/Machine/Num.lean ====
section
/-! DEFINITION. Number formats, rounding, the coin, FEXP2 and the special functions (spec/05_numbers.md,
spec/06_float.md R114 to R116). Every value is exact until it is rounded once. -/

namespace Sys2Proof.Machine

/-! ## Formats (R84) -/

/-- The floating-point formats with a significand. -/
inductive Fmt where
  | fp64 | fp32 | fp16 | bf16 | e5m2 | e4m3 | e2m1
  deriving DecidableEq, Repr

/-- Width of the significand field M. -/
def Fmt.m : Fmt → Nat
  | .fp64 => 52 | .fp32 => 23 | .fp16 => 10 | .bf16 => 7 | .e5m2 => 2 | .e4m3 => 3 | .e2m1 => 1

/-- Width of the exponent field E. -/
def Fmt.e : Fmt → Nat
  | .fp64 => 11 | .fp32 => 8 | .fp16 => 5 | .bf16 => 8 | .e5m2 => 5 | .e4m3 => 4 | .e2m1 => 2

/-- The exponent bias. -/
def Fmt.bias : Fmt → Nat
  | .fp64 => 1023 | .fp32 => 127 | .fp16 => 15 | .bf16 => 127 | .e5m2 => 15 | .e4m3 => 7 | .e2m1 => 1

/-- The width of the format. -/
def Fmt.width (F : Fmt) : Nat := 1 + F.e + F.m

/-- Whether the all-ones exponent holds infinities and NaNs (R84). -/
def Fmt.ieee : Fmt → Bool
  | .e4m3 | .e2m1 => false
  | _ => true

/-- The canonical NaN (R87); E2M1 has none. -/
def Fmt.nan : Fmt → Nat
  | .fp64 => 0x7FF8000000000000 | .fp32 => 0x7FC00000 | .fp16 => 0x7E00 | .bf16 => 0x7FC0
  | .e5m2 => 0x7E | .e4m3 => 0x7F | .e2m1 => 0

/-- The pattern of +infinity. -/
def Fmt.infPat (F : Fmt) : Nat := (2 ^ F.e - 1) * 2 ^ F.m

/-- The pattern of the largest finite value (R84). -/
def Fmt.maxPat (F : Fmt) : Nat :=
  match F with
  | .e4m3 => 0x7E
  | .e2m1 => 0x7
  | F => F.infPat - 1

/-- The sign bit in place. -/
def Fmt.signed (F : Fmt) (s : Bool) (p : Nat) : Nat := if s then p + 2 ^ (F.width - 1) else p

/-- What a pattern stands for (R85, R87): `fin s k e` is (−1)^s × k × 2^e with e the exponent of the pattern's lowest
significand bit. -/
inductive FV where
  | nan (signalling : Bool)
  | inf (s : Bool)
  | fin (s : Bool) (k : Nat) (e : Int)
  deriving DecidableEq, Repr

/-- The value of a pattern (R85). -/
def Fmt.value (F : Fmt) (x : Nat) : FV :=
  let M := x % 2 ^ F.m
  let E := x / 2 ^ F.m % 2 ^ F.e
  let s := (x / 2 ^ (F.width - 1)) % 2 = 1
  if F.ieee ∧ E = 2 ^ F.e - 1 then
    (if M = 0 then .inf s else .nan (M < 2 ^ (F.m - 1)))
  else if F = .e4m3 ∧ E = 15 ∧ M = 7 then .nan false
  else if E = 0 then .fin s M (1 - (F.bias : Int) - F.m)
  else .fin s (2 ^ F.m + M) ((E : Int) - F.bias - F.m)

def FV.isNan : FV → Bool
  | .nan _ => true
  | _ => false
def FV.isSnan : FV → Bool
  | .nan s => s
  | _ => false
def FV.isInf : FV → Bool
  | .inf _ => true
  | _ => false
def FV.isZero : FV → Bool
  | .fin _ 0 _ => true
  | _ => false
def FV.sign : FV → Bool
  | .nan _ => false
  | .inf s => s
  | .fin s _ _ => s

/-- Magnitude, then negation, of a value (R106); a NaN keeps its kind. -/
def FV.modify (neg mag : Bool) : FV → FV
  | .nan s => .nan s
  | .inf s => .inf ((s && !mag) != neg)
  | .fin s k e => .fin ((s && !mag) != neg) k e

/-! ## Exact values -/

/-- An exact real k × 2^e, or, with `more`, a real strictly between k × 2^e and (k + 1) × 2^e in magnitude. -/
structure Exact where
  s : Bool
  k : Nat
  e : Int
  more : Bool := false
  deriving DecidableEq, Repr

/-- The signed integer that a dyadic value is at exponent `e` (no larger than its own). -/
def scaled (s : Bool) (k : Nat) (e e0 : Int) : Int :=
  let n : Int := (k * 2 ^ (e - e0).toNat : Nat)
  if s then -n else n

/-- Exact sum of dyadic values; the sign of a zero sum is false. -/
def Exact.add (x y : Exact) : Exact :=
  let e0 := min x.e y.e
  let t := scaled x.s x.k x.e e0 + scaled y.s y.k y.e e0
  { s := t < 0, k := t.natAbs, e := e0 }

/-- Exact product of dyadic values. -/
def Exact.mul (x y : Exact) : Exact := { s := x.s != y.s, k := x.k * y.k, e := x.e + y.e }

def Exact.neg (x : Exact) : Exact := { x with s := !x.s }

/-- Whether the value is zero. -/
def Exact.isZero (x : Exact) : Bool := x.k = 0 ∧ !x.more

/-- Exact comparison of dyadic values. -/
def Exact.lt (x y : Exact) : Bool :=
  let e0 := min x.e y.e
  scaled x.s x.k x.e e0 < scaled y.s y.k y.e e0

def Exact.eq (x y : Exact) : Bool :=
  let e0 := min x.e y.e
  scaled x.s x.k x.e e0 = scaled y.s y.k y.e e0

def Exact.ofInt (n : Int) : Exact := { s := n < 0, k := n.natAbs, e := 0 }

/-- The exact value of a finite pattern; zero for the others. -/
def FV.exact : FV → Exact
  | .fin s k e => { s := s, k := k, e := e }
  | _ => { s := false, k := 0, e := 0 }

/-! ## Rounding (R89, R90, R98) -/

/-- The rounding modes; SR carries its coin and the number of bits of the fraction that take part (R98). -/
inductive Mode where
  | rne | rz | ru | rd
  | sr (coin : Word) (d : Option Nat)
  deriving DecidableEq, Repr

/-- The modes of a 2-bit code (R89). -/
def Mode.ofCode : Nat → Mode
  | 0 => .rne | 1 => .rz | 2 => .ru | _ => .rd

/-- Number of bits of a natural number. -/
def bitLen (n : Nat) : Nat := if n = 0 then 0 else Nat.log2 n + 1

/-- SROUND's decision for a fraction `rem / 2^sh`, 0 < sh (R98). -/
def srUp (coin : Word) (d : Nat) (rem sh : Nat) : Bool :=
  let d := min 32 d
  rem * 2 ^ d / 2 ^ sh + coin.toNat / 2 ^ (32 - d) ≥ 2 ^ d

/-- The result that replaces a finite overflow, without its sign (R90). -/
def Fmt.overflow (F : Fmt) (mode : Mode) (s satf : Bool) : Nat :=
  let toMax : Bool := match mode with
    | .rz => true
    | .ru => s
    | .rd => !s
    | _ => false
  if satf ∨ toMax ∨ F = .e2m1 then F.maxPat
  else match F with
    | .e4m3 => F.nan
    | F => F.infPat

/-- Whether E4M3's overflow gives its NaN, which carries no sign (R90). -/
def Fmt.overflowSigned (F : Fmt) (p : Nat) (s : Bool) : Nat :=
  if F = .e4m3 ∧ p = F.nan then p else F.signed s p

/-- ROUND of R89 with the flags of R90 and R92: `x` is not zero. -/
def roundTo (F : Fmt) (mode : Mode) (satf : Bool) (x : Exact) : Nat × FFlags :=
  let emin : Int := 1 - (F.bias : Int)
  let E : Int := x.e + (bitLen x.k : Int) - 1
  let q : Int := max E emin - F.m
  let sh := (q - x.e).toNat
  let up0 := (x.e - q).toNat
  let t := x.k * 2 ^ up0 / 2 ^ sh
  let rem := x.k * 2 ^ up0 % 2 ^ sh
  let inexact := rem ≠ 0 || x.more
  let twice := 2 * rem
  let full := 2 ^ sh
  let up : Bool := match mode with
    | .rne => twice > full ∨ (twice = full ∧ (x.more ∨ t % 2 = 1) ∧ sh > 0)
    | .rz => false
    | .ru => inexact ∧ !x.s
    | .rd => inexact ∧ x.s
    | .sr coin d => inexact ∧ srUp coin (d.getD sh) rem sh
  let t := if up then t + 1 else t
  let (t, q) := if t = 2 ^ (F.m + 1) then (2 ^ F.m, q + 1) else (t, q)
  let biased : Int := q + F.m + F.bias
  let pat : Nat := if t < 2 ^ F.m then t else biased.toNat * 2 ^ F.m + (t - 2 ^ F.m)
  if pat > F.maxPat then
    (F.overflowSigned (F.overflow mode x.s satf) x.s, flOF ||| flNX)
  else
    (F.signed x.s pat, flagIf inexact flNX ||| flagIf (inexact ∧ t < 2 ^ F.m) flUF)

/-- A rounded result where a zero takes the given sign (R91). -/
def roundOrZero (F : Fmt) (mode : Mode) (satf zeroSign : Bool) (x : Exact) : Nat × FFlags :=
  if x.isZero then (F.signed zeroSign 0, 0) else roundTo F mode satf x

/-- The sign of an exact zero sum of two terms (R91). -/
def zeroSumSign (mode : Mode) (x y : Exact) : Bool :=
  if x.k = 0 ∧ y.k = 0 ∧ x.s = y.s then x.s else mode = .rd

/-! ## Conversions (R94 to R97) -/

/-- Conversion of a value to a format with a significand (R94, R97 for E8M0 sources). -/
def convertF (F : Fmt) (mode : Mode) (satf : Bool) (x : FV) : Nat × FFlags :=
  match x, F with
  | .nan s, .e2m1 => let _ := s; (0, flNV)
  | .nan s, F => (F.nan, flagIf s flNV)
  | .inf s, .e2m1 => (Fmt.e2m1.signed s 7, flNV)
  | .inf s, .e4m3 => (if satf then Fmt.e4m3.signed s 0x7E else 0x7F, flNV)
  | .inf s, F => (F.signed s F.infPat, 0)
  | .fin s k e, F => roundOrZero F mode satf s { s := s, k := k, e := e }

/-- The integer nearest an exact value in a mode, and whether it differs from the value (R95). -/
def roundInt (mode : Mode) (x : Exact) : Int × Bool :=
  let up0 := x.e.toNat
  let sh := (-x.e).toNat
  let n := x.k * 2 ^ up0
  let t := n / 2 ^ sh
  let rem := n % 2 ^ sh
  let inexact := rem ≠ 0 || x.more
  let up : Bool := match mode with
    | .rne => 2 * rem > 2 ^ sh ∨ (2 * rem = 2 ^ sh ∧ (x.more ∨ t % 2 = 1) ∧ sh > 0)
    | .ru => inexact ∧ !x.s
    | .rd => inexact ∧ x.s
    | _ => false
  let t : Int := ((if up then t + 1 else t : Nat) : Int)
  (if x.s then -t else t, inexact)

/-- Conversion to an integer type (R95). -/
def convertI (signed : Bool) (w : Nat) (mode : Mode) (x : FV) : Nat × FFlags :=
  let lo := intLo signed w
  let hi := intHi signed w
  let put (n : Int) : Nat := (n % (2 ^ w : Int)).toNat
  match x with
  | .nan _ => (0, flNV)
  | .inf s => (put (if s then lo else hi), flNV)
  | x =>
    let (n, inexact) := roundInt mode x.exact
    if n > hi then (put hi, flNV) else if n < lo then (put lo, flNV) else (put n, flagIf inexact flNX)

/-- The value of an E8M0 byte (R85, R97). -/
def e8m0Value (b : Nat) : FV := if b = 0xFF then .nan false else .fin false 1 ((b : Int) - 127)

/-- FP32 to E8M0 (R97). -/
def toE8m0 (mode : Mode) (x : FV) : Nat × FFlags :=
  match x with
  | .fin false k e =>
    if k = 0 then (0xFF, flNV)
    else
      let L := bitLen k
      let E : Int := e + L - 1
      let rest := k - 2 ^ (L - 1)
      let half := 2 * rest ≥ 2 ^ (L - 1)
      let up : Bool := match mode with
        | .ru => rest > 0
        | .rne => half
        | .sr _ _ => half
        | _ => false
      let E := if up then E + 1 else E
      if E < -127 then (0, flUF ||| flNX)
      else if E ≥ 128 then (0xFE, flOF ||| flNX)
      else ((E + 127).toNat, flagIf (rest ≠ 0) flNX)
  | _ => (0xFF, flNV)

/-! ## The coin (R100) -/

/-- One round of COIN. -/
def coinRound (h w : Word) : Word :=
  let h := (h ^^^ w) * 0xB5297A4D#32
  let h := h ^^^ (h >>> 13)
  let h := h * 0x68E31DA5#32
  h ^^^ (h >>> 16)

/-- COIN (R100). -/
def coin (k0 k1 k2 s : Word) : Word :=
  coinRound (coinRound (coinRound (s * 0x6C8E9CF5#32) k0) k1) k2

/-! ## Arithmetic of one element (R109 to R114) -/

/-- A sum of two values, rounded once; `zs` is the rule for a zero (R91, R109). -/
def fSum (F : Fmt) (mode : Mode) (a b : FV) : Nat × FFlags :=
  if a.isNan ∨ b.isNan then (F.nan, flagIf (a.isSnan ∨ b.isSnan) flNV)
  else match a, b with
    | .inf s, .inf t => if s = t then (F.signed s F.infPat, 0) else (F.nan, flNV)
    | .inf s, _ => (F.signed s F.infPat, 0)
    | _, .inf t => (F.signed t F.infPat, 0)
    | a, b => roundOrZero F mode false (zeroSumSign mode a.exact b.exact) (a.exact.add b.exact)

/-- FMUL and DMUL of one element (R109). -/
def fMul (F : Fmt) (mode : Mode) (a b : FV) : Nat × FFlags :=
  let s := a.sign != b.sign
  if a.isNan ∨ b.isNan then (F.nan, flagIf (a.isSnan ∨ b.isSnan) flNV)
  else if (a.isInf ∧ b.isZero) ∨ (a.isZero ∧ b.isInf) then (F.nan, flNV)
  else if a.isInf ∨ b.isInf then (F.signed s F.infPat, 0)
  else roundOrZero F mode false s (a.exact.mul b.exact)

/-- FFMA and DFMA of one element: 0 × ∞ raises NV even beside a quiet NaN in C (R109). -/
def fFma (F : Fmt) (mode : Mode) (a b c : FV) : Nat × FFlags :=
  let s := a.sign != b.sign
  let bad := (a.isInf ∧ b.isZero) ∨ (a.isZero ∧ b.isInf)
  if a.isNan ∨ b.isNan ∨ c.isNan then (F.nan, flagIf (a.isSnan ∨ b.isSnan ∨ c.isSnan ∨ bad) flNV)
  else if bad then (F.nan, flNV)
  else if a.isInf ∨ b.isInf then fSum F mode (.inf s) c
  else match c with
    | .inf t => (F.signed t F.infPat, 0)
    | c =>
      let p := a.exact.mul b.exact
      roundOrZero F mode false (zeroSumSign mode p c.exact) (p.add c.exact)

/-- `a < b` with −0 below +0 and no NaN (R110). -/
def fTotalLt (a b : FV) : Bool :=
  match a, b with
  | .inf s, .inf t => s && !t
  | .inf s, _ => s
  | _, .inf t => !t
  | a, b => a.exact.lt b.exact || (a.isZero && b.isZero && a.sign && !b.sign)

/-- FMIN (`mx` false) and FMAX of two patterns that have been modified (R110). -/
def fMinMax (F : Fmt) (mx propagate : Bool) (pa pb : Nat) : Nat × FFlags :=
  let a := F.value pa
  let b := F.value pb
  let nv := flagIf (a.isSnan ∨ b.isSnan) flNV
  if a.isNan ∧ b.isNan then (F.nan, nv)
  else if a.isNan then (if propagate then F.nan else pb, nv)
  else if b.isNan then (if propagate then F.nan else pa, nv)
  else (if (if mx then fTotalLt a b else fTotalLt b a) then pb else pa, nv)

/-- `a < b` and `a = b` of ordered values, −0 equal to +0 (R111). -/
def fLt (a b : FV) : Bool :=
  match a, b with
  | .inf s, .inf t => s && !t
  | .inf s, _ => s
  | _, .inf t => !t
  | a, b => a.exact.lt b.exact
def fEq (a b : FV) : Bool :=
  match a, b with
  | .inf s, .inf t => s = t
  | .inf _, _ => false
  | _, .inf _ => false
  | a, b => a.exact.eq b.exact

/-- The condition of FCMP and DCMP with its flags (R111). -/
def fCond (cond : Nat) (a b : FV) : Bool × FFlags :=
  let un := a.isNan ∨ b.isNan
  let nv := flagIf ((a.isSnan ∨ b.isSnan) ∨ (un ∧ 2 ≤ cond ∧ cond ≤ 5)) flNV
  let r := match cond with
    | 0 => !un && fEq a b
    | 1 => un || !fEq a b
    | 2 => !un && fLt a b
    | 3 => !un && (fLt a b || fEq a b)
    | 4 => !un && fLt b a
    | 5 => !un && (fLt b a || fEq a b)
    | 6 => un
    | _ => !un
  (r, nv)

/-- FCLASS of one element (R112). -/
def fClass (F : Fmt) (x : Nat) : Nat :=
  match F.value x with
  | .nan true => 256
  | .nan false => 512
  | .inf true => 1
  | .inf false => 128
  | .fin s k _ =>
    if k = 0 then (if s then 8 else 16)
    else if k < 2 ^ F.m then (if s then 4 else 32)
    else (if s then 2 else 64)

/-- FRND of one element (R113). -/
def fRnd (F : Fmt) (mode : Mode) (x : FV) : Nat × FFlags :=
  match x with
  | .nan s => (F.nan, flagIf s flNV)
  | .inf s => (F.signed s F.infPat, 0)
  | .fin s k e =>
    let (n, _) := roundInt mode { s := s, k := k, e := e }
    ((roundOrZero F .rne false s { s := s, k := n.natAbs, e := 0 }).1, 0)

/-- The quotient of two finite nonzero magnitudes with 60 bits more than any format keeps. -/
def exactDiv (a b : Exact) : Exact :=
  let n := a.k * 2 ^ 120
  { s := a.s != b.s, k := n / b.k, e := a.e - 120 - b.e, more := n % b.k ≠ 0 }

/-- FDIV (R114). -/
def fDiv (F : Fmt) (mode : Mode) (a b : FV) : Nat × FFlags :=
  let s := a.sign != b.sign
  if a.isNan ∨ b.isNan then (F.nan, flagIf (a.isSnan ∨ b.isSnan) flNV)
  else if (a.isInf ∧ b.isInf) ∨ (a.isZero ∧ b.isZero) then (F.nan, flNV)
  else if a.isInf then (F.signed s F.infPat, 0)
  else if b.isInf then (F.signed s 0, 0)
  else if b.isZero then (F.signed s F.infPat, flDZ)
  else if a.isZero then (F.signed s 0, 0)
  else roundTo F mode false (exactDiv a.exact b.exact)

/-- Bits `n - 1` down to 0 of an integer square root, tried from the top. -/
def isqrtFrom : Nat → Nat → Nat → Nat
  | 0, _, r => r
  | i + 1, n, r => let r' := r + 2 ^ i; isqrtFrom i n (if r' * r' ≤ n then r' else r)

/-- The integer square root. -/
def isqrt (n : Nat) : Nat := isqrtFrom (bitLen n / 2 + 1) n 0

/-- The square root of a positive exact value, to at least 100 bits. -/
def exactSqrt (x : Exact) : Exact :=
  let sh : Nat := 200 + (x.e % 2).toNat
  let n := x.k * 2 ^ sh
  let r := isqrt n
  { s := false, k := r, e := (x.e - sh) / 2, more := r * r ≠ n }

/-- FSQRT (R114). -/
def fSqrt (F : Fmt) (mode : Mode) (a : FV) : Nat × FFlags :=
  match a with
  | .nan s => (F.nan, flagIf s flNV)
  | .inf s => if s then (F.nan, flNV) else (F.infPat, 0)
  | .fin s k e => if k = 0 then (F.signed s 0, 0) else if s then (F.nan, flNV)
      else roundTo F mode false (exactSqrt { s := false, k := k, e := e })

/-- FRSQ (R114): 1/√a is the square root of 1/a; with 400 bits of 1/a the root is exact only where 1/a is. -/
def fRsq (F : Fmt) (mode : Mode) (a : FV) : Nat × FFlags :=
  match a with
  | .nan s => (F.nan, flagIf s flNV)
  | .inf s => if s then (F.nan, flNV) else (0, 0)
  | .fin s k e => if k = 0 then (F.signed s F.infPat, flDZ) else if s then (F.nan, flNV)
      else
        let n := 2 ^ 400
        let inv : Exact := { s := false, k := n / k, e := -400 - e, more := n % k ≠ 0 }
        let r := exactSqrt { inv with more := false }
        roundTo F mode false { r with more := r.more || inv.more }

/-- The modes' format of a type (R109). -/
def Fmt.ofTy : Ty → Fmt
  | .f64 => .fp64
  | .bf16x2 => .bf16
  | .f16x2 => .fp16
  | _ => .fp32

/-! ## FEXP2 (R102, R103) -/

/-- T[j], the FP32 value nearest 2^(j/64). -/
def exp2Table : List Nat :=
  [0x3F800000, 0x3F8164D2, 0x3F82CD87, 0x3F843A29, 0x3F85AAC3, 0x3F871F62, 0x3F88980F, 0x3F8A14D5] ++
  [0x3F8B95C2, 0x3F8D1ADF, 0x3F8EA43A, 0x3F9031DC, 0x3F91C3D3, 0x3F935A2B, 0x3F94F4F0, 0x3F96942D] ++
  [0x3F9837F0, 0x3F99E046, 0x3F9B8D3A, 0x3F9D3EDA, 0x3F9EF532, 0x3FA0B051, 0x3FA27043, 0x3FA43516] ++
  [0x3FA5FED7, 0x3FA7CD94, 0x3FA9A15B, 0x3FAB7A3A, 0x3FAD583F, 0x3FAF3B79, 0x3FB123F6, 0x3FB311C4] ++
  [0x3FB504F3, 0x3FB6FD92, 0x3FB8FBAF, 0x3FBAFF5B, 0x3FBD08A4, 0x3FBF179A, 0x3FC12C4D, 0x3FC346CD] ++
  [0x3FC5672A, 0x3FC78D75, 0x3FC9B9BE, 0x3FCBEC15, 0x3FCE248C, 0x3FD06334, 0x3FD2A81E, 0x3FD4F35B] ++
  [0x3FD744FD, 0x3FD99D16, 0x3FDBFBB8, 0x3FDE60F5, 0x3FE0CCDF, 0x3FE33F89, 0x3FE5B907, 0x3FE8396A] ++
  [0x3FEAC0C7, 0x3FED4F30, 0x3FEFE4BA, 0x3FF28177, 0x3FF5257D, 0x3FF7D0DF, 0x3FFA83B3, 0x3FFD3E0C]

/-- One RNE rounding to FP32 of an exact value, as an exact value. -/
def rne32 (x : Exact) : Exact := (Fmt.fp32.value (roundOrZero .fp32 .rne false false x).1).exact

/-- FEXP2 of a pattern with its flags (R102, R103). -/
def fexp2 (x : Nat) : Nat × FFlags :=
  match Fmt.fp32.value x with
  | .nan s => (Fmt.fp32.nan, flagIf s flNV)
  | .inf s => (if s then 0 else Fmt.fp32.infPat, 0)
  | .fin s k e =>
    let X : Exact := { s := s, k := k, e := e }
    if !(X.lt { s := false, k := 128, e := 0 }) then (Fmt.fp32.infPat, flOF ||| flNX)
    else if X.lt { s := true, k := 160, e := 0 } then (0, flUF ||| flNX)
    else
      let (m, _) := roundInt .rne { X with e := e + 6 }
      let rr := X.add { s := !(m < 0), k := m.natAbs, e := -6 }
      let n := m / 64
      let j := (m % 64).toNat
      let c1 := (Fmt.fp32.value 0x3F317218).exact
      let c2 := (Fmt.fp32.value 0x3E75FDF0).exact
      let q := rne32 ((c2.mul rr).add c1)
      let p := rne32 ((q.mul rr).add { s := false, k := 1, e := 0 })
      let T := (Fmt.fp32.value (exp2Table.getD j 0)).exact
      let y := (roundTo .fp32 .rne false { (T.mul p) with e := (T.mul p).e + n }).1
      let (_, frac) := roundInt .rz X
      let nx := frac ∨ y = 0 ∨ y = Fmt.fp32.infPat
      (y, flagIf nx flNX ||| flagIf (y = Fmt.fp32.infPat) flOF ||| flagIf (nx ∧ y < 2 ^ 23) flUF)

/-! ## The special functions (R116): fixed point with `fixBits` fraction bits -/

/-- Fraction bits of the fixed-point work; every result has far more good bits than any FP32 neighbour test needs. -/
def fixBits : Nat := 320

/-- `sum of z^(2k+1)/(2k+1)` for `terms` terms: the inverse hyperbolic tangent of a fixed-point z. -/
def atanhSum : Nat → Nat → Nat → Nat → Nat
  | 0, _, _, _ => 0
  | t + 1, zk, z2, d => zk / d + atanhSum t (zk * z2 / 2 ^ fixBits) z2 (d + 2)

/-- The natural logarithm of num/den, from 1 to 2, in fixed point. -/
def fixLn (num den : Nat) : Nat :=
  let z := (num - den) * 2 ^ fixBits / (num + den)
  2 * atanhSum 110 z (z * z / 2 ^ fixBits) 1

/-- Exponential of a fixed-point argument below 2^-4 by its series. -/
def expSum : Nat → Nat → Nat → Nat → Nat
  | 0, _, _, _ => 0
  | t + 1, term, x, i => term + expSum t (term * x / 2 ^ fixBits / (i + 1)) x (i + 1)

def squareTimes : Nat → Nat → Nat
  | 0, y => y
  | n + 1, y => squareTimes n (y * y / 2 ^ fixBits)

/-- e^x of a fixed-point x from 0 to 32. -/
def fixExp (x : Nat) : Nat := squareTimes 10 (expSum 60 (2 ^ fixBits) (x / 2 ^ 10) 0)

/-- π in fixed point by Machin's formula: 16 atan(1/5) − 4 atan(1/239). -/
def atanInv : Nat → Nat → Nat → Nat → Bool → Int
  | 0, _, _, _, _ => 0
  | t + 1, p, n2, d, neg => (if neg then -((p / d : Nat) : Int) else ((p / d : Nat) : Int)) + atanInv t (p / n2) n2 (d + 2) (!neg)

def fixPi : Nat :=
  (16 * atanInv 150 (2 ^ fixBits / 5) 25 1 false - 4 * atanInv 60 (2 ^ fixBits / 239) 57121 1 false).toNat

/-- `sin(y)/y` as an alternating series in y² (fixed point). -/
def sincSum : Nat → Nat → Nat → Nat → Bool → Int
  | 0, _, _, _, _ => 0
  | t + 1, term, y2, i, neg =>
    (if neg then -(term : Int) else (term : Int))
      + sincSum t (term * y2 / 2 ^ fixBits / ((2 * i + 2) * (2 * i + 3))) y2 (i + 1) (!neg)

/-- sin(π r) of a dyadic r, 0 < r ≤ 1/2, as an inexact value: r × π × sinc(π r). -/
def sinPi (r : Exact) : Exact :=
  let y := r.k * fixPi * 2 ^ (r.e + 400).toNat / 2 ^ 400
  let c := (sincSum 50 (2 ^ fixBits) (y * y / 2 ^ fixBits) 0 false).toNat
  { s := false, k := r.k * fixPi * c, e := r.e - 2 * fixBits, more := true }

/-- One of the two FP32 neighbours of an inexact value, chosen by the free value of R116. -/
def faithful (fn : Nat) (operand : Nat) (x : Exact) : Nat × FFlags :=
  let up := Config.faithfulUp fn (BitVec.ofNat 32 operand)
  let mode := if up then Mode.ru else Mode.rd
  roundTo .fp32 mode false { x with more := true }

/-- FLOG2 of a pattern that is finite, positive and no power of two. -/
def log2Exact (k : Nat) (e : Int) : Exact :=
  let L := bitLen k
  let E : Int := e + L - 1
  let ln2 := fixLn 2 1
  let f := fixLn k (2 ^ (L - 1)) * 2 ^ fixBits / ln2
  let v : Int := E * 2 ^ fixBits + f
  { s := v < 0, k := v.natAbs, e := -(fixBits : Int), more := true }

/-- FLOG2 (R116). -/
def flog2 (x : Nat) : Nat × FFlags :=
  match Fmt.fp32.value x with
  | .nan s => (Fmt.fp32.nan, flagIf s flNV)
  | .inf s => if s then (Fmt.fp32.nan, flNV) else (Fmt.fp32.infPat, 0)
  | .fin s k e =>
    if k = 0 then (Fmt.fp32.signed true Fmt.fp32.infPat, flDZ)
    else if s then (Fmt.fp32.nan, flNV)
    else if k = 2 ^ (bitLen k - 1) then
      roundOrZero .fp32 .rne false false (Exact.ofInt (e + bitLen k - 1))
    else faithful 0 x (log2Exact k e)

/-- A dyadic magnitude modulo 2, in units of 2^e with e ≤ −1: half-turns of FSIN and FCOS. -/
def modTwo (k : Nat) (e : Int) : Nat × Nat :=
  let sh := (-e).toNat + 1
  (k * 2 ^ (e + (sh : Int)).toNat % (2 ^ (sh + 1)), sh)

/-- sin(π·t/2^sh) for t below 2^(sh+1): sign and dyadic argument in [0, 1/2]. -/
def sinFold (t sh : Nat) : Bool × Nat :=
  let one := 2 ^ sh
  let neg := t ≥ one
  let t := if neg then t - one else t
  (neg, if 2 * t > one then one - t else t)

/-- The value of |sin(π r)|, r = t/2^sh in (0, 1/2): just below 1 where r is within 2^-20 of 1/2. -/
def sinValue (t sh : Nat) : Exact :=
  let one := 2 ^ sh
  if (one - 2 * t) * 2 ^ 20 < one then { s := false, k := 2 ^ 30 - 1, e := -30, more := true }
  else sinPi { s := false, k := t, e := -(sh : Int) }

/-- FSIN (R116). -/
def fsin (x : Nat) : Nat × FFlags :=
  match Fmt.fp32.value x with
  | .nan s => (Fmt.fp32.nan, flagIf s flNV)
  | .inf _ => (Fmt.fp32.nan, flNV)
  | .fin s k e =>
    let (t, sh) := modTwo k e
    let (neg, r) := sinFold t sh
    if r = 0 then (Fmt.fp32.signed s 0, 0)
    else if 2 * r = 2 ^ sh then (Fmt.fp32.signed (s != neg) 0x3F800000, 0)
    else faithful 1 x { sinValue r sh with s := s != neg }

/-- FCOS (R116): cos(π r) = sin(π (r + 1/2)). -/
def fcos (x : Nat) : Nat × FFlags :=
  match Fmt.fp32.value x with
  | .nan s => (Fmt.fp32.nan, flagIf s flNV)
  | .inf _ => (Fmt.fp32.nan, flNV)
  | .fin _ k e =>
    let (t, sh) := modTwo k e
    let (neg, r) := sinFold ((t + 2 ^ (sh - 1)) % 2 ^ (sh + 1)) sh
    if r = 0 then (0, 0)
    else if 2 * r = 2 ^ sh then (Fmt.fp32.signed neg 0x3F800000, 0)
    else faithful 2 x { sinValue r sh with s := neg }

/-- tanh of a positive dyadic value: just below it where it is below 2^-30, just below 1 from 16 on. -/
def tanhValue (k : Nat) (e : Int) : Exact :=
  let E : Int := e + bitLen k - 1
  if E < -30 then { s := false, k := k * 2 ^ 40 - 1, e := e - 40, more := true }
  else if E ≥ 4 then { s := false, k := 2 ^ 30 - 1, e := -30, more := true }
  else
    let y := k * 2 ^ ((fixBits : Int) + e + 1).toNat
    let E2 := fixExp y
    { s := false, k := (E2 - 2 ^ fixBits) * 2 ^ fixBits / (E2 + 2 ^ fixBits), e := -(fixBits : Int), more := true }

/-- FTANH (R116). -/
def ftanh (x : Nat) : Nat × FFlags :=
  match Fmt.fp32.value x with
  | .nan s => (Fmt.fp32.nan, flagIf s flNV)
  | .inf s => (Fmt.fp32.signed s 0x3F800000, 0)
  | .fin s k e => if k = 0 then (Fmt.fp32.signed s 0, 0) else faithful 3 x { tanhValue k e with s := s }

end Sys2Proof.Machine
end

