-- ==== Sys2Proof/Machine/DrawMath.lean ====
section
/-! DEFINITION. Draw triples and their merges (spec/22_draw.md R322 to R325). -/

namespace Sys2Proof.Machine

/-- A partial draw (R322): index, max, mass. -/
structure Triple where
  i : Word
  m : Word
  s : Word
  deriving DecidableEq, Repr

def Triple.words (x : Triple) : List Word := [x.i, x.m, x.s]

/-- The value of an FP32 word. -/
def f32 (w : Word) : FV := Fmt.fp32.value w.toNat
def ofF32 (n : Nat) : Word := BitVec.ofNat 32 n

/-- The zero and the invalid triple (R322). -/
def tripleZero (wf : Bool) : Triple := { i := 0xFFFF_FFFF#32, m := if wf then 0 else 0xFF80_0000#32, s := 0 }
def tripleInvalid : Triple := { i := 0xFFFF_FFFF#32, m := 0x7FC0_0000#32, s := 0x7FC0_0000#32 }

/-- Below −0. -/
def FV.below0 (x : FV) : Bool := x.sign && !x.isZero && !x.isNan

/-- Whether a triple is zero, or invalid (R322). -/
def Triple.isZero (x : Triple) : Bool := (f32 x.s).isZero
def Triple.isInvalid (wf : Bool) (x : Triple) : Bool :=
  let s := f32 x.s
  !s.isZero && (s.isNan || s.below0 || s.isInf || (!wf && ((f32 x.m).isNan || f32 x.m = .inf true)))

/-- k NaN or below −0 (R323). -/
def badK (k : Word) : Bool := (f32 k).isNan || (f32 k).below0

/-- A leaf (R323): `l` the logit or the weight. -/
def leafOf (wf : Bool) (k : Word) (i l : Word) : Triple :=
  let v := f32 l
  if wf then
    if v.isZero then tripleZero true
    else if v.isNan || v.isInf || v.below0 then tripleInvalid
    else { i := i, m := 0, s := l }
  else if badK k || v.isNan then tripleInvalid
  else if (f32 k).isZero then { i := i, m := 0, s := 0x3F80_0000#32 }
  else if v = .inf true then tripleZero false
  else { i := i, m := l, s := 0x3F80_0000#32 }

/-- RNE32((a − m) · k) for a below m, k above 0 (R324). -/
def scaledDiff (a m k : Word) : Nat :=
  let ninf := Fmt.fp32.signed true Fmt.fp32.infPat
  match f32 a, f32 m, f32 k with
  | .fin s1 k1 e1, .fin s2 k2 e2, .fin s3 k3 e3 =>
    let d := Exact.add { s := s1, k := k1, e := e1 } { s := !s2, k := k2, e := e2 }
    (roundOrZero .fp32 .rne false false (d.mul { s := s3, k := k3, e := e3 })).1
  | _, _, _ => ninf

/-- A mass brought to the common max (R324). -/
def scaledMass (x : Triple) (m k : Word) : Word :=
  if fEq (f32 x.m) (f32 m) then x.s
  else ofF32 (fMul .fp32 .rne (f32 x.s) (Fmt.fp32.value (fexp2 (scaledDiff x.m m k)).1)).1

/-- RNE32(c × (a + b)) with c the coin's top 24 bits over 2^24 (R324). -/
def coinSum (c : Word) (a b : Word) : Word :=
  match f32 a, f32 b with
  | .fin s1 k1 e1, .fin s2 k2 e2 =>
    let d := Exact.add { s := s1, k := k1, e := e1 } { s := s2, k := k2, e := e2 }
    ofF32 (roundOrZero .fp32 .rne false false (d.mul { s := false, k := c.toNat / 256, e := -24 })).1
  | _, _ => 0x7FC0_0000#32

/-- A triple as it is written: in weight form its max word is +0 (R322). -/
def Triple.written (wf : Bool) (x : Triple) : Triple := if wf && !x.isInvalid true then { x with m := 0 } else x

/-- MERGE (R324), with the flags it raises. -/
def mergeDraw (wf : Bool) (k seed step pos : Word) (l r : Triple) : Triple × FFlags :=
  if l.isInvalid wf || r.isInvalid wf || (!wf && badK k) then (tripleInvalid, flNV)
  else if l.isZero && r.isZero then (tripleZero wf, 0)
  else if l.isZero then (r.written wf, 0)
  else if r.isZero then (l.written wf, 0)
  else
    let k0 := (f32 k).isZero
    let m := if wf then 0 else ofF32 (fMinMax .fp32 true false l.m.toNat r.m.toNat).1
    let sl := if wf || k0 then l.s else scaledMass l m k
    let sr := if wf || k0 then r.s else scaledMass r m k
    let pick :=
      if (f32 sl).isZero then r.i
      else if (f32 sr).isZero then l.i
      else if !wf && f32 k = .inf false then (if l.i ≤ r.i then l.i else r.i)
      else if fLt (f32 (coinSum (coin seed step pos 1) sl sr)) (f32 sl) then l.i else r.i
    let s := ofF32 (fSum .fp32 .rne (f32 sl) (f32 sr)).1
    if s = 0x7F80_0000#32 then (tripleInvalid, flNV ||| flOF) else ({ i := pick, m := m, s := s }, 0)

/-- Pairs of neighbours combined, an absent side left out: one level of the slot tree (R148, R330). -/
def pairUp {α : Type} (f : α → α → α) : List (Option α) → List (Option α)
  | a :: b :: l => (match a, b with
      | some x, some y => some (f x y)
      | some x, none => some x
      | none, y => y) :: pairUp f l
  | l => l

/-- The slot tree over 32 slots: five levels. -/
def slotTree {α : Type} (f : α → α → α) (es : List (Option α)) : Option α :=
  ((List.range 5).foldl (fun l _ => pairUp f l) es).head?.bind id

/-- The largest power of two below n (R325), for n at least 2. -/
def halfBelow (n : Nat) : Nat := 2 ^ Nat.log2 (n - 1)

/-- CTREE (R325) over a list of leaves: `pos` of each is the index of the first element of a right half. The number
bounds the depth. -/
def ctree (wf : Bool) (k seed step : Word) (pos : Nat → Word) : Nat → Nat → List Triple → Triple × FFlags
  | 0, _, xs => (xs.headD (tripleZero wf), 0)
  | fuel + 1, lo, xs =>
    match xs with
    | [] => (tripleZero wf, 0)
    | [x] => (x.written wf, 0)
    | xs =>
      let h := halfBelow xs.length
      let a := ctree wf k seed step pos fuel lo (xs.take h)
      let b := ctree wf k seed step pos fuel (lo + h) (xs.drop h)
      let r := mergeDraw wf k seed step (pos (lo + h)) a.1 b.1
      (r.1, a.2 ||| b.2 ||| r.2)

end Sys2Proof.Machine
end

