-- ==== Sys2Proof/Machine/Operands.lean ====
section
/-! DEFINITION. Operand values: elements of a type, part selection, constants in a type or a format
(spec/02_words.md R30, R34, R36; spec/06_float.md R117, R118). -/

namespace Sys2Proof

/-- Element width of a type (R34). -/
def Ty.ew : Ty → Nat
  | .b32 | .i32 | .n32 | .f32 => 32
  | .i64 | .n64 | .f64 => 64
  | .bf16x2 | .f16x2 | .i16x2 | .n16x2 => 16
  | .i8x4 | .n8x4 | .f8x4 => 8
  | .i4x8 | .n4x8 => 4

/-- Element count of a type (R34). -/
def Ty.cnt : Ty → Nat
  | .b32 | .i32 | .n32 | .f32 | .i64 | .n64 | .f64 => 1
  | .bf16x2 | .f16x2 | .i16x2 | .n16x2 => 2
  | .i8x4 | .n8x4 | .f8x4 => 4
  | .i4x8 | .n4x8 => 8

/-- Whether elements are read signed (R88). -/
def Ty.signed : Ty → Bool
  | .i32 | .i64 | .i16x2 | .i8x4 | .i4x8 => true
  | _ => false

end Sys2Proof

namespace Sys2Proof.Machine

/-! ## Elements -/

/-- Element `j` of width `w` of a container. -/
def elemAt (w : Nat) (x : DWord) (j : Nat) : Nat := x.toNat / 2 ^ (w * j) % 2 ^ w

/-- The container that holds the elements, the first lowest, each taken modulo 2^w. -/
def packElems (w : Nat) : List Nat → Nat
  | [] => 0
  | e :: es => e % 2 ^ w + 2 ^ w * packElems w es

def pack (w : Nat) (es : List Nat) : DWord := BitVec.ofNat 64 (packElems w es)

/-- The integer that an element stands for (R88). -/
def asInt (signed : Bool) (w : Nat) (e : Nat) : Int :=
  if signed ∧ e ≥ 2 ^ (w - 1) then (e : Int) - 2 ^ w else e

/-- The element that an integer leaves: `r mod 2^w` (R70's PUT). -/
def putInt (w : Nat) (r : Int) : Nat := (r % (2 ^ w : Int)).toNat

/-- The elements of a container of a type. -/
def elemsOf (ty : Ty) (x : DWord) : List Nat := (List.range ty.cnt).map (elemAt ty.ew x)

/-! ## Parts (R36) -/

/-- The source element that element `j` takes under a part code. -/
def partIndex (ty : Ty) (p j : Nat) : Nat :=
  match ty.cnt with
  | 2 => match p with
    | 1 => 0
    | 2 => 1
    | 3 => 1 - j
    | _ => j
  | 4 => (j + p) % 4
  | 8 => (j + 2 * p) % 8
  | _ => j

/-- A source after part selection. -/
def reshape (ty : Ty) (p : BitVec 2) (x : DWord) : DWord :=
  if p = 0 then x
  else pack ty.ew ((List.range ty.cnt).map fun j => elemAt ty.ew x (partIndex ty p.toNat j))

/-! ## Element formats and constants (R30) -/

/-- The format of one element. -/
inductive ElemFmt where
  | fl (F : Fmt)
  | e8m0
  | int (signed : Bool) (w : Nat)
  deriving DecidableEq, Repr

def ElemFmt.width : ElemFmt → Nat
  | .fl F => F.width
  | .e8m0 => 8
  | .int _ w => w

/-- The element format of a type. -/
def tyFmt : Ty → ElemFmt
  | .b32 => .int false 32 | .i32 => .int true 32 | .n32 => .int false 32
  | .i64 => .int true 64 | .n64 => .int false 64
  | .f32 => .fl .fp32 | .f64 => .fl .fp64 | .bf16x2 => .fl .bf16 | .f16x2 => .fl .fp16
  | .i16x2 => .int true 16 | .n16x2 => .int false 16 | .i8x4 => .int true 8 | .n8x4 => .int false 8
  | .i4x8 => .int true 4 | .n4x8 => .int false 4 | .f8x4 => .fl .e4m3

/-- The element format of a CVT code (R118). -/
def cvtFmt : Nat → ElemFmt
  | 0 => .fl .fp32 | 1 => .fl .fp64 | 2 => .fl .bf16 | 3 => .fl .fp16 | 4 => .fl .e5m2 | 5 => .fl .e4m3
  | 6 => .fl .e2m1 | 7 => .e8m0 | 8 => .int true 32 | 9 => .int false 32 | 10 => .int true 64 | 11 => .int false 64
  | 12 => .int true 16 | 13 => .int false 16 | 14 => .int true 8 | 15 => .int false 8 | 16 => .int true 4
  | _ => .int false 4

/-- The element that stands for a small integer in a format: RNE, or R97 for E8M0 (R30). -/
def ElemFmt.ofInt (f : ElemFmt) (n : Int) : Nat :=
  match f with
  | .fl F => (convertF F .rne false (.fin (n < 0) n.natAbs 0)).1
  | .e8m0 => (toE8m0 .rne (.fin (n < 0) n.natAbs 0)).1
  | .int _ w => putInt w n

/-- The value of a small-integer or predicate constant in a format with `cnt` elements: the zero selector is the
all-zero pattern and does not come here (R30). -/
def constIn (f : ElemFmt) (cnt : Nat) (n : Int) : DWord := pack f.width (List.replicate cnt (f.ofInt n))

/-- The value of the literal word in a format (R30): 64-bit integers extend it, `f64` widens it, all others take the
word as it is. -/
def litIn (f : ElemFmt) (w : Word) : DWord :=
  match f with
  | .int true 64 => w.signExtend 64
  | .fl .fp64 => BitVec.ofNat 64 (convertF .fp64 .rne false (Fmt.fp32.value w.toNat)).1
  | _ => w.setWidth 64

/-- A constant that a field reads as 32 bits whatever the type (R30). -/
def const32 (n : Int) : DWord := (BitVec.ofInt 32 n).setWidth 64

/-! ## What an instruction computes from one thread's operands -/

/-- The operands of one thread after part selection, its predicates, its index, and the old destination. -/
structure Args where
  a : DWord := 0
  b : DWord := 0
  c : DWord := 0
  /-- `p0` to `p6`. -/
  p : BitVec 7 := 0
  tid : Nat := 0
  old : DWord := 0
  deriving DecidableEq, Repr

/-- What one thread's computation gives: a result, a bit for the predicate destination, a predicate written beside
the result, and the flags raised. -/
structure Res where
  val : Option DWord := none
  pred : Option Bool := none
  carry : Option (Nat × Bool) := none
  flags : FFlags := 0
  deriving DecidableEq, Repr

def Res.word (w : Word) : Res := { val := some (w.setWidth 64) }
def Res.dword (w : DWord) : Res := { val := some w }

/-- A 32-bit reading of an operand. -/
def lo32 (x : DWord) : Word := x.setWidth 32

/-- Predicate `n` of a file of seven; 7 is `pt` (R57). -/
def predBit (p : BitVec 7) (n : Nat) : Bool := if n = 7 then true else p.getLsbD n

/-- A guard against a predicate file (R22, R23). -/
def guardHolds (g : Guard) (p : BitVec 7) : Bool := predBit p g.p.toNat != g.inv

end Sys2Proof.Machine
end

