-- ==== Sys2Proof/Machine/FloatMath.lean ====
section
/-! DEFINITION. What each floating-point instruction computes from one thread's operands (spec/06_float.md R104 to
R120). -/

namespace Sys2Proof.Machine

/-- A pattern after magnitude and negation (R106): a NaN's kind is untouched. -/
def modPat (F : Fmt) (neg mag : Bool) (x : Nat) : Nat :=
  let sb := 2 ^ (F.width - 1)
  let s := x / sb % 2 = 1
  let body := x % sb
  F.signed ((s && !mag) != neg) body

/-- The modifiers of source A and source B in a modifier field (R106). -/
def modA (F : Fmt) (m : Sel) (x : Nat) : Nat := modPat F (m.code.getLsbD 0) (m.code.getLsbD 1) x
def modB (F : Fmt) (m : Sel) (x : Nat) : Nat := modPat F (m.code.getLsbD 2) (m.code.getLsbD 3) x

/-- The results of the elements, packed, with the OR of their flags (R92). -/
def packFl (w : Nat) (rs : List (Nat × FFlags)) : Res :=
  { val := some (pack w (rs.map Prod.fst)), flags := rs.foldl (fun fl r => fl ||| r.2) 0 }

/-- One source, with modifiers in field B (R105). -/
def fl1 (f : Std) (op : Fmt → Nat → Nat × FFlags) (x : Args) : Res :=
  let F := Fmt.ofTy f.ty
  packFl F.width ((elemsOf f.ty x.a).map fun a => op F (modA F f.b a))

/-- Two sources, with modifiers in field C (R105). -/
def fl2 (f : Std) (op : Fmt → Nat → Nat → Nat × FFlags) (x : Args) : Res :=
  let F := Fmt.ofTy f.ty
  packFl F.width (((elemsOf f.ty x.a).zip (elemsOf f.ty x.b)).map fun p => op F (modA F f.c p.1) (modB F f.c p.2))

/-- The rounding mode of func (R89, R105). -/
def funcMode (f : Std) : Mode := .ofCode (f.func.toNat % 4)

def faddRes (f : Std) (x : Args) : Res := fl2 f (fun F a b => fSum F (funcMode f) (F.value a) (F.value b)) x
def fmulRes (f : Std) (x : Args) : Res := fl2 f (fun F a b => fMul F (funcMode f) (F.value a) (F.value b)) x

/-- FFMA and DFMA: func bit 63 negates C (R105, R109). -/
def ffmaRes (f : Std) (x : Args) : Res :=
  let F := Fmt.ofTy f.ty
  packFl F.width ((List.range f.ty.cnt).map fun j =>
    fFma F (funcMode f) (F.value (elemAt F.width x.a j)) (F.value (elemAt F.width x.b j))
      (F.value (modPat F (f.func.getLsbD 2) false (elemAt F.width x.c j))))

def fminRes (f : Std) (x : Args) : Res := fl2 f (fun F a b => fMinMax F false (f.func.getLsbD 0) a b) x
def fmaxRes (f : Std) (x : Args) : Res := fl2 f (fun F a b => fMinMax F true (f.func.getLsbD 0) a b) x

/-- FCMP and DCMP (R111). -/
def fcmpRes (f : Std) (x : Args) : Res :=
  let F := Fmt.ofTy f.ty
  let r := fCond f.func.toNat (F.value (elemAt F.width x.a 0)) (F.value (elemAt F.width x.b 0))
  { pred := some (r.1 && x.c.getLsbD 0), flags := r.2 }

/-- FCLASS (R112). -/
def fclassRes (f : Std) (x : Args) : Res :=
  let F := Fmt.ofTy f.ty
  .word (BitVec.ofNat 32 (packElems 16 ((elemsOf f.ty x.a).map (fClass F))))

def frndRes (f : Std) (x : Args) : Res := fl1 f (fun F a => fRnd F (funcMode f) (F.value a)) x
def fdivRes (f : Std) (x : Args) : Res := fl2 f (fun F a b => fDiv F (funcMode f) (F.value a) (F.value b)) x

/-- FRCP is 1/a (R114). -/
def frcpRes (f : Std) (x : Args) : Res := fl1 f (fun F a => fDiv F (funcMode f) (.fin false 1 0) (F.value a)) x
def fsqrtRes (f : Std) (x : Args) : Res := fl1 f (fun F a => fSqrt F (funcMode f) (F.value a)) x
def frsqRes (f : Std) (x : Args) : Res := fl1 f (fun F a => fRsq F (funcMode f) (F.value a)) x
def fexp2Res (f : Std) (x : Args) : Res := fl1 f (fun _ a => fexp2 a) x
def flog2Res (f : Std) (x : Args) : Res := fl1 f (fun _ a => flog2 a) x
def fsinRes (f : Std) (x : Args) : Res := fl1 f (fun _ a => fsin a) x
def fcosRes (f : Std) (x : Args) : Res := fl1 f (fun _ a => fcos a) x
def ftanhRes (f : Std) (x : Args) : Res := fl1 f (fun _ a => ftanh a) x

/-! ## CVT (R117 to R120) -/

/-- The value of an element in a floating format. -/
def flValue (F : ElemFmt) (x : Nat) : FV :=
  match F with
  | .fl F => F.value x
  | .e8m0 => e8m0Value x
  | .int s w => let n := asInt s w x; .fin (n < 0) n.natAbs 0

/-- A conversion between identical formats: unchanged, but a NaN becomes canonical (R119). -/
def cvtSame (F : ElemFmt) (x : Nat) : Nat × FFlags :=
  match F with
  | .fl G => match G.value x with
    | .nan s => (G.nan, flagIf s flNV)
    | _ => (x, 0)
  | _ => (x, 0)

/-- CONVERT of one element: `sat` is bit 55 (R119). -/
def cvtElem (src tgt : ElemFmt) (mode : Mode) (sat : Bool) (x : Nat) : Nat × FFlags :=
  if src = tgt then cvtSame src x
  else match src, tgt with
    | .int s w, .int s' w' =>
      let n := asInt s w x
      (putInt w' (if sat then clampInt (intLo s' w') (intHi s' w') n else n), 0)
    | .int _ _, .fl G =>
      match flValue src x with
      | .fin s k _ => roundOrZero G mode sat false { s := s, k := k, e := 0 }
      | _ => (0, 0)
    | _, .int s' w' => convertI s' w' mode (flValue src x)
    | _, .fl G => convertF G mode sat (flValue src x)
    | _, .e8m0 => toE8m0 mode (flValue src x)

/-- The mode of CVT's element `ti`: under SR the coin is COIN(K, t, ti, 2) (R119). An integer operand has all its
bits, so its fraction's bits are those the shift drops (R98). -/
def cvtMode (f : Std) (key : Word) (tid ti : Nat) : Mode :=
  if f.cvtMode = 4 then .sr (coin key (BitVec.ofNat 32 tid) (BitVec.ofNat 32 ti) 2) none
  else .ofCode f.cvtMode

/-- CVT (R119): B holds the key. -/
def cvtRes (f : Std) (x : Args) : Res :=
  let src := cvtFmt f.cvtSrc
  let tgt := cvtFmt f.cvtTgt
  let cs := cvtCount f.cvtSrc
  let ct := cvtCount f.cvtTgt
  let n := min cs ct
  let e := f.cvtElem
  let one (j : Nat) : Nat × FFlags :=
    let si := j + if cs > ct then e * n else 0
    let ti := j + if ct > cs then e * n else 0
    cvtElem src tgt (cvtMode f (lo32 x.b) x.tid ti) f.cvtSat (elemAt src.width x.a si)
  let lo := if ct > cs then e * n else 0
  let elems := (List.range ct).map fun k =>
    if lo ≤ k ∧ k < lo + n then one (k - lo) else (elemAt tgt.width x.old k, 0)
  packFl tgt.width elems

end Sys2Proof.Machine
end

