-- ==== Sys2Proof/Machine/IntMath.lean ====
section
/-! DEFINITION. What each integer instruction computes from one thread's operands (spec/04_integer.md R70 to R83). -/

namespace Sys2Proof.Machine

/-- `.sat` of R70: func bit 61. -/
def satIf (f : Std) (r : Int) : Int :=
  if f.func.getLsbD 0 then clampInt (intLo f.ty.signed f.ty.ew) (intHi f.ty.signed f.ty.ew) r else r

/-- Two operands, element by element (R70). -/
def elem2 (f : Std) (op : Int → Int → Int) (x : Args) : Res :=
  let w := f.ty.ew
  let rd := asInt f.ty.signed w
  .dword (pack w ((List.range f.ty.cnt).map fun j => putInt w (op (rd (elemAt w x.a j)) (rd (elemAt w x.b j)))))

/-- Three operands, element by element (R70). -/
def elem3 (f : Std) (op : Int → Int → Int → Int) (x : Args) : Res :=
  let w := f.ty.ew
  let rd := asInt f.ty.signed w
  .dword (pack w ((List.range f.ty.cnt).map fun j =>
    putInt w (op (rd (elemAt w x.a j)) (rd (elemAt w x.b j)) (rd (elemAt w x.c j)))))

/-- ADD, SUB, MUL, NEG with `.sat`; MULH, MAD, MIN, MAX (R70). -/
def addRes (f : Std) (x : Args) : Res := elem2 f (fun a b => satIf f (a + b)) x
def subRes (f : Std) (x : Args) : Res := elem2 f (fun a b => satIf f (a - b)) x
def mulRes (f : Std) (x : Args) : Res := elem2 f (fun a b => satIf f (a * b)) x
def negRes (f : Std) (x : Args) : Res := elem2 f (fun a _ => satIf f (0 - a)) x
def mulhRes (f : Std) (x : Args) : Res := elem2 f (fun a b => a * b / 2 ^ f.ty.ew) x
def madRes (f : Std) (x : Args) : Res := elem3 f (fun a b c => a * b + c) x
def minRes (f : Std) (x : Args) : Res := elem2 f min x
def maxRes (f : Std) (x : Args) : Res := elem2 f max x

/-- ABSD; with `.acc`, C is read unsigned (R70). -/
def absdRes (f : Std) (x : Args) : Res :=
  let w := f.ty.ew
  elem3 f (fun a b c => ((a - b).natAbs : Int) + if f.func.getLsbD 0 then (putInt w c : Int) else 0) x

/-- ADDC and SUBB: carry and borrow through predicates (R71). -/
def addcRes (f : Std) (x : Args) : Res :=
  let cin := x.c.getLsbD 0
  { val := some ((lo32 x.a + lo32 x.b + (BitVec.ofBool cin).setWidth 32).setWidth 64)
    carry := if f.func = 7 then none else some (f.func.toNat, carryOut (lo32 x.a) (lo32 x.b) cin) }
def subbRes (f : Std) (x : Args) : Res :=
  let cin := x.c.getLsbD 0
  { val := some ((lo32 x.a - lo32 x.b - (BitVec.ofBool cin).setWidth 32).setWidth 64)
    carry := if f.func = 7 then none else some (f.func.toNat, borrowOut (lo32 x.a) (lo32 x.b) cin) }

/-- MADW (R72). -/
def madwRes (f : Std) (x : Args) : Res :=
  let rd := asInt f.ty.signed 32
  .dword (BitVec.ofInt 64 (rd (lo32 x.a).toNat * rd (lo32 x.b).toNat + x.c.toNat))

/-- MADC (R72). -/
def madcRes (f : Std) (x : Args) : Res :=
  let cin := if f.func = 7 then false else predBit x.p f.func.toNat
  { val := some (BitVec.ofNat 64 ((lo32 x.a).toNat * (lo32 x.b).toNat + x.c.toNat + cin.toNat))
    carry := if f.func = 7 then none else some (f.func.toNat, carryOut64 (lo32 x.a) (lo32 x.b) x.c cin) }

/-- DOT4 (R73): func bit 61 `.mix`, bit 62 `.sat`. -/
def dot4Res (f : Std) (x : Args) : Res :=
  let w := f.ty.ew
  let sa := f.ty.signed
  let sb := sa != f.func.getLsbD 0
  let rs := sa || sb
  let s := ((List.range f.ty.cnt).map fun j => asInt sa w (elemAt w x.a j) * asInt sb w (elemAt w x.b j)).sum
    + asInt rs 32 (lo32 x.c).toNat
  .word (BitVec.ofInt 32 (if f.func.getLsbD 1 then clampInt (intLo rs 32) (intHi rs 32) s else s))

/-- SHL, SHR and SAR: the amount is bits 7 to 0 of B (R74). -/
def shiftRes (f : Std) (op : Nat → Nat → Nat → Nat) (x : Args) : Res :=
  let w := f.ty.ew
  let k := x.b.toNat % 256
  .dword (pack w ((List.range f.ty.cnt).map fun j => op w (elemAt w x.a j) k))
def shlRes (f : Std) (x : Args) : Res := shiftRes f (fun w a k => if k < w then a * 2 ^ k else 0) x
def shrRes (f : Std) (x : Args) : Res := shiftRes f (fun w a k => if k < w then a / 2 ^ k else 0) x
def sarRes (f : Std) (x : Args) : Res := shiftRes f (fun w a k => putInt w (asInt true w a / (2 ^ k : Int))) x

/-- FSH (R75). -/
def fshRes (f : Std) (x : Args) : Res :=
  let k := x.c.toNat % 64
  let v : DWord := lo32 x.a ++ lo32 x.b
  .word (if f.func.getLsbD 0 then (v >>> k).extractLsb' 0 32 else (v <<< k).extractLsb' 32 32)

/-- The bit of a truth table that three bits select (R76). -/
def tableBit (t : BitVec 8) (a b c : Bool) : Bool := t.getLsbD (a.toNat + 2 * b.toNat + 4 * c.toNat)

/-- TERN (R76). -/
def ternRes (f : Std) (x : Args) : Res :=
  .word (BitVec.ofNat 32 (packElems 1 ((List.range 32).map fun i =>
    (tableBit f.table (x.a.getLsbD i) (x.b.getLsbD i) (x.c.getLsbD i)).toNat)))

/-- PSET (R76). -/
def psetRes (f : Std) (x : Args) : Res :=
  { pred := some (tableBit f.table (x.a.getLsbD 0) (x.b.getLsbD 0) (x.c.getLsbD 0)) }

/-- POPC, CLZ and BREV (R77). -/
def popcRes (f : Std) (x : Args) : Res :=
  .word (BitVec.ofNat 32 ((List.range f.ty.ew).map fun i => (x.a.getLsbD i).toNat).sum)
def clzRes (f : Std) (x : Args) : Res :=
  .word (BitVec.ofNat 32 (f.ty.ew - bitLen (x.a.toNat % 2 ^ f.ty.ew)))
def brevRes (f : Std) (x : Args) : Res :=
  .dword (BitVec.ofNat 64 (packElems 1 ((List.range f.ty.ew).map fun i => (x.a.getLsbD (f.ty.ew - 1 - i)).toNat)))

/-- The position and length of BFX and BFI (R78). -/
def bfPos (ctl : DWord) : Nat := ctl.toNat % 256
def bfLen (w : Nat) (ctl : DWord) : Nat := min (ctl.toNat / 256 % 256) w

/-- BFX (R78). -/
def bfxRes (f : Std) (x : Args) : Res :=
  let w := f.ty.ew
  let len := bfLen w x.b
  let v := asInt f.ty.signed w (x.a.toNat % 2 ^ w)
  let g := v / (2 ^ bfPos x.b : Int) % (2 ^ len : Int)
  let r := if f.ty.signed ∧ len > 0 ∧ g ≥ 2 ^ (len - 1) then g - 2 ^ len else g
  .dword (BitVec.ofNat 64 (putInt w r))

/-- BFI (R78). -/
def bfiRes (f : Std) (x : Args) : Res :=
  let w := f.ty.ew
  let pos := bfPos x.b
  let mask : DWord := BitVec.ofNat 64 ((2 ^ bfLen w x.b - 1) * 2 ^ pos % 2 ^ w)
  let ins : DWord := BitVec.ofNat 64 (x.a.toNat % 2 ^ w * 2 ^ pos % 2 ^ w)
  let base : DWord := BitVec.ofNat 64 (x.c.toNat % 2 ^ w)
  .dword ((base &&& ~~~mask) ||| (ins &&& mask))

/-- One byte of PERM (R79). -/
def permByte (v : DWord) (ctl : Nat) : Nat :=
  let b := elemAt 8 v (ctl % 8)
  let r := if ctl / 8 % 2 = 1 then 0 else if ctl / 16 % 2 = 1 then (if b ≥ 128 then 255 else 0) else b
  if ctl / 32 % 2 = 1 then 255 - r else r

/-- PERM (R79). -/
def permRes (_f : Std) (x : Args) : Res :=
  let v : DWord := lo32 x.b ++ lo32 x.a
  .dword (pack 8 ((List.range 4).map fun j => permByte v (elemAt 8 x.c j)))

/-- ICMP's condition (R80). -/
def icmpCond (cond : Nat) (a b : Int) (x y : Nat) : Bool :=
  match cond with
  | 0 => a = b
  | 1 => a ≠ b
  | 2 => a < b
  | 3 => a ≤ b
  | 4 => a > b
  | 5 => a ≥ b
  | 6 => x &&& y ≠ 0
  | _ => x &&& y = 0

/-- ICMP (R80). -/
def icmpRes (f : Std) (x : Args) : Res :=
  let w := f.ty.ew
  let a := x.a.toNat % 2 ^ w
  let b := x.b.toNat % 2 ^ w
  { pred := some (icmpCond f.func.toNat (asInt f.ty.signed w a) (asInt f.ty.signed w b) a b && x.c.getLsbD 0) }

/-- SEL (R81). -/
def selRes (f : Std) (x : Args) : Res := .dword (if x.c.getLsbD 0 != f.func.getLsbD 0 then x.a else x.b)

/-- An offset added within an object's 40-bit offset (R82, R175). -/
def addOffset (a : DWord) (i : Int) : DWord :=
  a.extractLsb' 40 24 ++ BitVec.ofInt 40 ((a.extractLsb' 0 40).toNat + i)

/-- LEA (R82). -/
def leaRes (f : Std) (x : Args) : Res :=
  let i := (lo32 x.b).toInt * 2 ^ f.func.toNat
  match f.ty with
  | .n64 => .dword (addOffset x.a i)
  | _ => .word (BitVec.ofInt 32 ((lo32 x.a).toNat + i))

/-- MOV (R83). -/
def movRes (x : Args) : Res := .dword x.a

end Sys2Proof.Machine
end

