-- ==== Sys2Proof/Decode.lean ====
section
/-! DEFINITION. From the bytes of a fetch block to an instruction and back (spec/02_words.md R20 to R39): every bit
of the words is kept, and what is no instruction is rejected with its detail code. -/

namespace Sys2Proof

/-- The first word of a list of bytes, little-endian (R4). -/
def wordOf (b0 b1 b2 b3 : Byte) : Word := b3 ++ b2 ++ b1 ++ b0

/-- The whole words of a list of bytes. -/
def wordsOf : List Byte → List Word
  | b0 :: b1 :: b2 :: b3 :: rest => wordOf b0 b1 b2 b3 :: wordsOf rest
  | _ => []

/-- The bytes of a word, lowest first (R4). -/
def Word.bytes (w : Word) : List Byte :=
  [w.extractLsb' 0 8, w.extractLsb' 8 8, w.extractLsb' 16 8, w.extractLsb' 24 8]

/-- The guard of a 4-bit field (R22). -/
def Guard.ofBits (b : BitVec 4) : Guard := { inv := b.getLsbD 3, p := b.extractLsb' 0 3 }
def Guard.bits (g : Guard) : BitVec 4 := BitVec.ofBool g.inv ++ g.p

/-- A selector field of a word or of two words. -/
def selAt {n : Nat} (w : BitVec n) (lo : Nat) : Sel := Sel.ofCode (w.extractLsb' lo 9)

/-- Fields of the S form (R24). -/
def sFields (w : Word) : SForm :=
  { g := .ofBits (w.extractLsb' 10 4), d := selAt w 14, a := selAt w 23 }

/-- Fields of the M and L forms (R25, R26). -/
def stdFields (w : DWord) (lit : Option Word) : Std :=
  { g := .ofBits (w.extractLsb' 10 4), lit := lit, w := w.getLsbD 23, d := selAt w 14, a := selAt w 24
    b := selAt w 33, c := selAt w 42, ty := Ty.ofCode (w.extractLsb' 51 4), pa := w.extractLsb' 55 2
    pb := w.extractLsb' 57 2, pc := w.extractLsb' 59 2, func := w.extractLsb' 61 3 }

/-- Fields of MXLOOP (R293). -/
def mxLoopFields (w : BitVec 128) : MxLoopForm :=
  { g := .ofBits (w.extractLsb' 10 4), p := selAt w 14, ra := w.extractLsb' 23 3, rb := w.extractLsb' 26 3
    bank := w.getLsbD 29, zc := w.getLsbD 30, tb := w.getLsbD 31, spb := w.getLsbD 32, ab := w.getLsbD 33
    dr := w.getLsbD 34, gr := w.getLsbD 35, km1 := w.extractLsb' 36 12, a0 := w.extractLsb' 48 8
    ai := w.extractLsb' 56 8, b0 := w.extractLsb' 64 8, bi := w.extractLsb' 72 8, ngm1 := w.extractLsb' 80 4
    rsv := w.extractLsb' 84 44 }

/-- Fields of ENQ (R269). -/
def enqFields (w : BitVec 128) : EnqForm :=
  { g := .ofBits (w.extractLsb' 10 4), d := selAt w 14, grp := selAt w 23, engine := w.extractLsb' 32 3
    rel := w.getLsbD 35, scope := w.extractLsb' 36 3, rsv := w.extractLsb' 39 89 }

/-- Fields of DRAWM (R328). -/
def drawmFields (w : BitVec 128) : DrawmForm :=
  { g := .ofBits (w.extractLsb' 10 4), d := selAt w 14, lg := selAt w 23, rg := selAt w 32, pg := selAt w 41
    pos := selAt w 50, w := w.getLsbD 59, rsv := w.extractLsb' 60 68 }

/-- Fields of AGDEF (R340). -/
def agdefFields (w : BitVec 128) : AgdefForm :=
  { g := .ofBits (w.extractLsb' 10 4), d := selAt w 14, base := selAt w 23, mask := selAt w 32
    agn := w.extractLsb' 41 8, del := w.getLsbD 49, rsv := w.extractLsb' 50 78 }

/-- Fields of MLDR (R340). -/
def mldrFields (w : BitVec 128) : MldrForm :=
  { g := .ofBits (w.extractLsb' 10 4), d := selAt w 14, off := selAt w 23, pg := selAt w 32
    agn := w.extractLsb' 41 8, op := w.extractLsb' 49 3, ty := Ty.ofCode (w.extractLsb' 52 4)
    cnt := w.extractLsb' 56 2, rsv := w.extractLsb' 58 70 }

/-- The assigned major opcodes (R37). -/
def opAssigned (op : Nat) : Bool :=
  (0x01 ≤ op && op ≤ 0x0B) ||
  (0x10 ≤ op && op ≤ 0x2D) ||
  (0x30 ≤ op && op ≤ 0x39) ||
  (0x40 ≤ op && op ≤ 0x4B) ||
  (0x50 ≤ op && op ≤ 0x59) ||
  (0x60 ≤ op && op ≤ 0x64) ||
  (0x70 ≤ op && op ≤ 0x7B) ||
  (0x80 ≤ op && op ≤ 0x83) ||
  (0x88 ≤ op && op ≤ 0x8D) ||
  (0x90 ≤ op && op ≤ 0x95) ||
  (0xA0 ≤ op && op ≤ 0xA7) ||
  (0xB0 ≤ op && op ≤ 0xB2) ||
  (0xB8 ≤ op && op ≤ 0xBC)

/-- What an opcode is that has no instruction in the form at hand: detail 1 where it is unassigned (R37), else 2
(R38). -/
def formError (op : Nat) : Detail := if opAssigned op then 2 else 1

/-- The S-form instructions (R38). -/
def ofS (op : BitVec 8) (f : SForm) : Except Detail Instr :=
  match op.toNat with
  | 0x01 => .ok (.nop f)
  | 0x05 => .ok (.ret f)
  | 0x07 => .ok (.exit f)
  | 0x08 => .ok (.yield f)
  | 0x09 => .ok (.bkpt f)
  | 0x1F => .ok (.movS f)
  | 0x57 => .ok (.sread f)
  | 0x58 => .ok (.swrt f)
  | 0x60 => .ok (.hread f)
  | n => .error (formError n)

/-- The M- and L-form instructions; HWAIT and HRESUME take the M form only (R38). -/
def ofStd (op : BitVec 8) (f : Std) : Except Detail Instr :=
  match op.toNat with
  | 0x02 => .ok (.bra f)
  | 0x03 => .ok (.brx f)
  | 0x04 => .ok (.call f)
  | 0x06 => .ok (.meet f)
  | 0x0A => .ok (.trap f)
  | 0x0B => .ok (.rtt f)
  | 0x10 => .ok (.add f)
  | 0x11 => .ok (.addc f)
  | 0x12 => .ok (.sub f)
  | 0x13 => .ok (.subb f)
  | 0x14 => .ok (.mul f)
  | 0x15 => .ok (.mulh f)
  | 0x16 => .ok (.mad f)
  | 0x17 => .ok (.madc f)
  | 0x18 => .ok (.madw f)
  | 0x19 => .ok (.absd f)
  | 0x1A => .ok (.min f)
  | 0x1B => .ok (.max f)
  | 0x1C => .ok (.neg f)
  | 0x1D => .ok (.dot4 f)
  | 0x1E => .ok (.lea f)
  | 0x1F => .ok (.mov f)
  | 0x20 => .ok (.shl f)
  | 0x21 => .ok (.shr f)
  | 0x22 => .ok (.sar f)
  | 0x23 => .ok (.fsh f)
  | 0x24 => .ok (.tern f)
  | 0x25 => .ok (.popc f)
  | 0x26 => .ok (.clz f)
  | 0x27 => .ok (.brev f)
  | 0x28 => .ok (.bfx f)
  | 0x29 => .ok (.bfi f)
  | 0x2A => .ok (.perm f)
  | 0x2B => .ok (.icmp f)
  | 0x2C => .ok (.sel f)
  | 0x2D => .ok (.pset f)
  | 0x30 => .ok (.fadd f)
  | 0x31 => .ok (.fmul f)
  | 0x32 => .ok (.ffma f)
  | 0x33 => .ok (.fmin f)
  | 0x34 => .ok (.fmax f)
  | 0x35 => .ok (.fcmp f)
  | 0x36 => .ok (.fclass f)
  | 0x37 => .ok (.frnd f)
  | 0x38 => .ok (.fdiv f)
  | 0x39 => .ok (.cvt f)
  | 0x40 => .ok (.frcp f)
  | 0x41 => .ok (.frsq f)
  | 0x42 => .ok (.fsqrt f)
  | 0x43 => .ok (.fexp2 f)
  | 0x44 => .ok (.flog2 f)
  | 0x45 => .ok (.fsin f)
  | 0x46 => .ok (.fcos f)
  | 0x47 => .ok (.ftanh f)
  | 0x48 => .ok (.dadd f)
  | 0x49 => .ok (.dmul f)
  | 0x4A => .ok (.dfma f)
  | 0x4B => .ok (.dcmp f)
  | 0x50 => .ok (.shfl f)
  | 0x51 => .ok (.vote f)
  | 0x52 => .ok (.matchReg f)
  | 0x53 => .ok (.redr f)
  | 0x54 => .ok (.lmap f)
  | 0x55 => .ok (.opref f)
  | 0x56 => .ok (.opsave f)
  | 0x59 => .ok (.shape f)
  | 0x61 => if f.lit.isNone then .ok (.hwait f) else .error 2
  | 0x62 => .ok (.hbr f)
  | 0x63 => .ok (.tick f)
  | 0x64 => if f.lit.isNone then .ok (.hresume f) else .error 2
  | 0x70 => .ok (.ld f)
  | 0x71 => .ok (.st f)
  | 0x72 => .ok (.lds f)
  | 0x73 => .ok (.sts f)
  | 0x74 => .ok (.ldnr f)
  | 0x75 => .ok (.pgreq f)
  | 0x76 => .ok (.atom f)
  | 0x77 => .ok (.atoms f)
  | 0x78 => .ok (.red f)
  | 0x79 => .ok (.pf f)
  | 0x7A => .ok (.fence f)
  | 0x7B => .ok (.cctl f)
  | 0x80 => .ok (.pgmove f)
  | 0x81 => .ok (.pgheat f)
  | 0x82 => .ok (.pgq f)
  | 0x83 => .ok (.pginv f)
  | 0x88 => .ok (.bari f)
  | 0x89 => .ok (.bara f)
  | 0x8A => .ok (.barw f)
  | 0x8B => .ok (.bars f)
  | 0x8C => .ok (.barq f)
  | 0x8D => .ok (.gbar f)
  | 0x91 => .ok (.eseq f)
  | 0x92 => .ok (.ewait f)
  | 0x93 => .ok (.cwptr f)
  | 0x94 => .ok (.cwait f)
  | 0x95 => .ok (.bsrclr f)
  | 0xA0 => .ok (.prsv f)
  | 0xA1 => .ok (.prel f)
  | 0xA3 => .ok (.mxwait f)
  | 0xA4 => .ok (.mxdrain f)
  | 0xA5 => .ok (.mxread f)
  | 0xA6 => .ok (.mxzero f)
  | 0xA7 => .ok (.mxstat f)
  | 0xB0 => .ok (.drawr f)
  | 0xB2 => .ok (.coin f)
  | 0xBA => .ok (.clstart f)
  | 0xBB => .ok (.clwait f)
  | 0xBC => .ok (.clabort f)
  | n => .error (formError n)

/-- The X-form instructions (R27). -/
def ofX (op : BitVec 8) (w : BitVec 128) : Except Detail Instr :=
  match op.toNat with
  | 0xA2 => .ok (.mxloop (mxLoopFields w))
  | 0x90 => .ok (.enq (enqFields w))
  | 0xB1 => .ok (.drawm (drawmFields w))
  | 0xB8 => .ok (.agdef (agdefFields w))
  | 0xB9 => .ok (.mldr (mldrFields w))
  | n => .error (formError n)

/-- The major opcode, bits 9 to 2 of the first word (R22). -/
def opOf (w : Word) : BitVec 8 := w.extractLsb' 2 8

/-- `.ok` unless the opcode and form already fail: codes 1 and 2 come before 3 (R39). -/
def placed (r : Except Detail Instr) : Except Detail Instr :=
  match r with
  | .ok _ => .error 3
  | .error d => .error d

/-- Decoding of the words from the instruction's address to the end of its fetch block. An instruction that needs
more words than are left crosses the block, and an X form starts 8 or 4 words before its end (R21). -/
def parseWords (ws : List Word) : Except Detail Instr :=
  match ws with
  | [] => .error 3
  | w0 :: rest =>
    let op := opOf w0
    match (w0.extractLsb' 0 2).toNat, rest with
    | 0, _ => ofS op (sFields w0)
    | 1, w1 :: _ => ofStd op (stdFields (w1 ++ w0) none)
    | 1, [] => placed (ofStd op (stdFields (0#32 ++ w0) none))
    | 2, w1 :: w2 :: _ => ofStd op (stdFields (w1 ++ w0) (some w2))
    | 2, _ => placed (ofStd op (stdFields (0#32 ++ w0) (some 0)))
    | _, [w1, w2, w3] => ofX op (w3 ++ w2 ++ w1 ++ w0)
    | _, [w1, w2, w3, _, _, _, _] => ofX op (w3 ++ w2 ++ w1 ++ w0)
    | _, _ => placed (ofX op (0#96 ++ w0))

/-- Decoding of the bytes from the instruction's address to the end of its fetch block: codes 1 to 3 (R39). -/
def parse (bs : List Byte) : Except Detail Instr := parseWords (wordsOf bs)

/-- The whole decode: `parse`, then codes 4 to 10 of R39. -/
def decode (env : Env) (bs : List Byte) : Except Detail Instr :=
  match parse bs with
  | .error d => .error d
  | .ok i => match i.violation env with
    | some d => .error d
    | none => .ok i

/-! ## The encoder -/

/-- The word of an S form (R24). -/
def encS (op : BitVec 8) (f : SForm) : List Word :=
  [f.a.code ++ f.d.code ++ f.g.bits ++ op ++ 0b00#2]

/-- The bits of an M or L form (R25). -/
def stdBits (op : BitVec 8) (f : Std) : DWord :=
  f.func ++ f.pc ++ f.pb ++ f.pa ++ f.ty.code ++ f.c.code ++ f.b.code ++ f.a.code ++ BitVec.ofBool f.w ++ f.d.code
    ++ f.g.bits ++ op ++ (if f.lit.isSome then 0b10#2 else 0b01#2)

/-- The words of an M or L form (R25, R26). -/
def encStd (op : BitVec 8) (f : Std) : List Word :=
  let b := stdBits op f
  [b.extractLsb' 0 32, b.extractLsb' 32 32] ++ f.lit.toList

/-- The four words of an X form. -/
def words4 (b : BitVec 128) : List Word :=
  [b.extractLsb' 0 32, b.extractLsb' 32 32, b.extractLsb' 64 32, b.extractLsb' 96 32]

def mxLoopBits (f : MxLoopForm) : BitVec 128 :=
  f.rsv ++ f.ngm1 ++ f.bi ++ f.b0 ++ f.ai ++ f.a0 ++ f.km1 ++ BitVec.ofBool f.gr ++ BitVec.ofBool f.dr
    ++ BitVec.ofBool f.ab ++ BitVec.ofBool f.spb ++ BitVec.ofBool f.tb ++ BitVec.ofBool f.zc ++ BitVec.ofBool f.bank
    ++ f.rb ++ f.ra ++ f.p.code ++ f.g.bits ++ 0xA2#8 ++ 0b11#2

def enqBits (f : EnqForm) : BitVec 128 :=
  f.rsv ++ f.scope ++ BitVec.ofBool f.rel ++ f.engine ++ f.grp.code ++ f.d.code ++ f.g.bits ++ 0x90#8 ++ 0b11#2

def drawmBits (f : DrawmForm) : BitVec 128 :=
  f.rsv ++ BitVec.ofBool f.w ++ f.pos.code ++ f.pg.code ++ f.rg.code ++ f.lg.code ++ f.d.code ++ f.g.bits ++ 0xB1#8
    ++ 0b11#2

def agdefBits (f : AgdefForm) : BitVec 128 :=
  f.rsv ++ BitVec.ofBool f.del ++ f.agn ++ f.mask.code ++ f.base.code ++ f.d.code ++ f.g.bits ++ 0xB8#8 ++ 0b11#2

def mldrBits (f : MldrForm) : BitVec 128 :=
  f.rsv ++ f.cnt ++ f.ty.code ++ f.op ++ f.agn ++ f.pg.code ++ f.off.code ++ f.d.code ++ f.g.bits ++ 0xB9#8 ++ 0b11#2

/-- The words of an instruction (R20); an event has none. -/
def encode : Instr → List Word
  | .nop f => encS 0x01 f
  | .bra f => encStd 0x02 f
  | .brx f => encStd 0x03 f
  | .call f => encStd 0x04 f
  | .ret f => encS 0x05 f
  | .meet f => encStd 0x06 f
  | .exit f => encS 0x07 f
  | .yield f => encS 0x08 f
  | .bkpt f => encS 0x09 f
  | .trap f => encStd 0x0A f
  | .rtt f => encStd 0x0B f
  | .add f => encStd 0x10 f
  | .addc f => encStd 0x11 f
  | .sub f => encStd 0x12 f
  | .subb f => encStd 0x13 f
  | .mul f => encStd 0x14 f
  | .mulh f => encStd 0x15 f
  | .mad f => encStd 0x16 f
  | .madc f => encStd 0x17 f
  | .madw f => encStd 0x18 f
  | .absd f => encStd 0x19 f
  | .min f => encStd 0x1A f
  | .max f => encStd 0x1B f
  | .neg f => encStd 0x1C f
  | .dot4 f => encStd 0x1D f
  | .lea f => encStd 0x1E f
  | .movS f => encS 0x1F f
  | .mov f => encStd 0x1F f
  | .shl f => encStd 0x20 f
  | .shr f => encStd 0x21 f
  | .sar f => encStd 0x22 f
  | .fsh f => encStd 0x23 f
  | .tern f => encStd 0x24 f
  | .popc f => encStd 0x25 f
  | .clz f => encStd 0x26 f
  | .brev f => encStd 0x27 f
  | .bfx f => encStd 0x28 f
  | .bfi f => encStd 0x29 f
  | .perm f => encStd 0x2A f
  | .icmp f => encStd 0x2B f
  | .sel f => encStd 0x2C f
  | .pset f => encStd 0x2D f
  | .fadd f => encStd 0x30 f
  | .fmul f => encStd 0x31 f
  | .ffma f => encStd 0x32 f
  | .fmin f => encStd 0x33 f
  | .fmax f => encStd 0x34 f
  | .fcmp f => encStd 0x35 f
  | .fclass f => encStd 0x36 f
  | .frnd f => encStd 0x37 f
  | .fdiv f => encStd 0x38 f
  | .cvt f => encStd 0x39 f
  | .frcp f => encStd 0x40 f
  | .frsq f => encStd 0x41 f
  | .fsqrt f => encStd 0x42 f
  | .fexp2 f => encStd 0x43 f
  | .flog2 f => encStd 0x44 f
  | .fsin f => encStd 0x45 f
  | .fcos f => encStd 0x46 f
  | .ftanh f => encStd 0x47 f
  | .dadd f => encStd 0x48 f
  | .dmul f => encStd 0x49 f
  | .dfma f => encStd 0x4A f
  | .dcmp f => encStd 0x4B f
  | .shfl f => encStd 0x50 f
  | .vote f => encStd 0x51 f
  | .matchReg f => encStd 0x52 f
  | .redr f => encStd 0x53 f
  | .lmap f => encStd 0x54 f
  | .opref f => encStd 0x55 f
  | .opsave f => encStd 0x56 f
  | .sread f => encS 0x57 f
  | .swrt f => encS 0x58 f
  | .shape f => encStd 0x59 f
  | .hread f => encS 0x60 f
  | .hwait f => encStd 0x61 f
  | .hbr f => encStd 0x62 f
  | .tick f => encStd 0x63 f
  | .hresume f => encStd 0x64 f
  | .ld f => encStd 0x70 f
  | .st f => encStd 0x71 f
  | .lds f => encStd 0x72 f
  | .sts f => encStd 0x73 f
  | .ldnr f => encStd 0x74 f
  | .pgreq f => encStd 0x75 f
  | .atom f => encStd 0x76 f
  | .atoms f => encStd 0x77 f
  | .red f => encStd 0x78 f
  | .pf f => encStd 0x79 f
  | .fence f => encStd 0x7A f
  | .cctl f => encStd 0x7B f
  | .pgmove f => encStd 0x80 f
  | .pgheat f => encStd 0x81 f
  | .pgq f => encStd 0x82 f
  | .pginv f => encStd 0x83 f
  | .bari f => encStd 0x88 f
  | .bara f => encStd 0x89 f
  | .barw f => encStd 0x8A f
  | .bars f => encStd 0x8B f
  | .barq f => encStd 0x8C f
  | .gbar f => encStd 0x8D f
  | .enq f => words4 (enqBits f)
  | .eseq f => encStd 0x91 f
  | .ewait f => encStd 0x92 f
  | .cwptr f => encStd 0x93 f
  | .cwait f => encStd 0x94 f
  | .bsrclr f => encStd 0x95 f
  | .prsv f => encStd 0xA0 f
  | .prel f => encStd 0xA1 f
  | .mxloop f => words4 (mxLoopBits f)
  | .mxwait f => encStd 0xA3 f
  | .mxdrain f => encStd 0xA4 f
  | .mxread f => encStd 0xA5 f
  | .mxzero f => encStd 0xA6 f
  | .mxstat f => encStd 0xA7 f
  | .drawr f => encStd 0xB0 f
  | .drawm f => words4 (drawmBits f)
  | .coin f => encStd 0xB2 f
  | .agdef f => words4 (agdefBits f)
  | .mldr f => words4 (mldrBits f)
  | .clstart f => encStd 0xBA f
  | .clwait f => encStd 0xBB f
  | .clabort f => encStd 0xBC f
  | _ => []

/-- The length of an instruction in bytes (R20). -/
def Instr.length (i : Instr) : Nat := 4 * (encode i).length

/-- The bytes of an instruction in memory (R4, R20). -/
def Instr.bytes (i : Instr) : List Byte := (encode i).flatMap Word.bytes

/-- An environment in which no register number and no mode is refused. -/
def Env.free : Env := { nregs := 256, sys := true, hv := true }

/-- A fetch block that begins with the low `nbits` bits of `w` and holds zeros after them. -/
def tableBytes (nbits w : Nat) : List Byte :=
  let v := BitVec.ofNat 256 (w % 2 ^ nbits)
  (List.range 32).map fun k => v.extractLsb' (8 * k) 8

/-- The instruction that the decoder reads from the bits `w` of an opcode table row, at offset 0 of a fetch block. -/
def decodeTableWord (nbits w : Nat) : Option Instr :=
  match decode .free (tableBytes nbits w) with
  | .ok i => some i
  | .error _ => none

end Sys2Proof
end

