-- ==== Sys2Proof/Machine/Tab.lean ====
section
/-! DEFINITION. Tables keyed by natural numbers in one canonical form: keys strictly rising, so that equal tables are
equal data. A table of bytes or registers also lists no entry equal to its default. -/

namespace Sys2Proof.Machine

/-- A finite table: pairs of a key and a value, keys strictly rising. -/
abbrev Tab (α : Type) := List (Nat × α)

variable {α : Type}

/-- The entry of a key, if the table lists it. -/
def Tab.find : Tab α → Nat → Option α
  | [], _ => none
  | (k, v) :: t, n => if k = n then some v else if n < k then none else Tab.find t n

/-- The entry of a key, or the default. -/
def Tab.get (d : α) (t : Tab α) (n : Nat) : α := (Tab.find t n).getD d

/-- The table with an entry set. -/
def Tab.put : Tab α → Nat → α → Tab α
  | [], n, x => [(n, x)]
  | (k, v) :: t, n, x => if k = n then (n, x) :: t else if n < k then (n, x) :: (k, v) :: t else (k, v) :: Tab.put t n x

/-- The table without a key. -/
def Tab.del : Tab α → Nat → Tab α
  | [], _ => []
  | (k, v) :: t, n => if k = n then t else if n < k then (k, v) :: t else (k, v) :: Tab.del t n

/-- The table with an entry set, where the default is not listed. -/
def Tab.set [DecidableEq α] (d : α) (t : Tab α) (n : Nat) (x : α) : Tab α := if x = d then Tab.del t n else Tab.put t n x

/-- The table with an entry changed, where it is listed. -/
def Tab.modify (t : Tab α) (n : Nat) (f : α → α) : Tab α :=
  match Tab.find t n with
  | some x => Tab.put t n (f x)
  | none => t

/-- The keys, rising. -/
def Tab.keys (t : Tab α) : List Nat := t.map Prod.fst

/-- The least key not below `n` that the table does not list. -/
def Tab.freeFrom : Tab α → Nat → Nat
  | [], n => n
  | (k, _) :: t, n => if k < n then Tab.freeFrom t n else if k = n then Tab.freeFrom t (n + 1) else n

/-- Keys strictly rising above a bound. -/
def Tab.risingFrom : Nat → Tab α → Bool
  | _, [] => true
  | lo, (k, _) :: t => lo ≤ k && Tab.risingFrom (k + 1) t

/-- The canonical form with a default that is never listed. -/
def Tab.wf [DecidableEq α] (d : α) (t : Tab α) : Bool := Tab.risingFrom 0 t && t.all fun e => e.2 ≠ d

end Sys2Proof.Machine
end

