-- ==== Sys2Proof/Machine/State.lean ====
section
/-! DEFINITION. The state of one ZV-96 device, all of it, as plain data, and the state after reset. Every table is
keyed by natural numbers in rising order; INVENTORY.md lists each field with the rule of spec/ that names it. -/

namespace Sys2Proof.Machine

/-- Why the machine stops with a fault. -/
inductive Fault where
  /-- Raised by every instruction when no ripple is selected to issue it (`State.cur` is none): the device has no such
  event, so the stop is safe. -/
  | noRipple
  deriving DecidableEq, Repr

/-- Why the model gives an instruction no meaning. -/
inductive Refusal where
  /-- An instruction that the model does not model, raised by its arm of `exec`; safe. -/
  | notModelled (mnemonic : String)
  deriving DecidableEq, Repr

/-! ## Registers of threads -/

/-- What a v register holds, with its shape tag (R52). -/
inductive VVal where
  /-- U: one word for the block. -/
  | u (w : Word)
  /-- A: base and stride. -/
  | a (base stride : Word)
  /-- G: one word per thread, 0 where none is listed. -/
  | g (ws : Tab Word)
  deriving DecidableEq, Repr

/-- A last-result latch (R46). -/
inductive Latch where
  | invalid
  | val (x : DWord)
  /-- The result of the unsettled operation with this ticket. -/
  | pending (tk : BitVec 16)
  deriving DecidableEq, Repr

/-- The states of a thread (R122). -/
inductive TSt where
  | running | held | waiting | exited
  deriving DecidableEq, Repr

/-- The escape mark, count, watermark and log (R157). -/
structure Esc where
  mark : Bool := false
  n : Nat := 0
  w : BitVec 16 := 0
  /-- PC offset and kind, the first four. -/
  log : List (Word × Nat) := []
  deriving DecidableEq, Repr

/-- The states of an operation that stays in its thread's window (R154). -/
inductive OpSt where
  | outstanding | parked | failed | settled
  deriving DecidableEq, Repr

/-! ## Translation -/

/-- The attributes of a translation (R212), DEF applied and permissions combined. -/
structure Att where
  loc : Nat := 0
  peer : Nat := 0
  mode : Nat := 0
  qf : Bool := false
  ord : Nat := 1
  rd : Bool := false
  wr : Bool := false
  ex : Bool := false
  ht : Nat := 0
  mh : Bool := false
  hm : Bool := false
  /-- Stage 2 was used (R229). -/
  s2 : Bool := false
  deriving DecidableEq, Repr

/-- A cached translation (R183, R217): `frame` is the byte address of the frame. -/
structure Trans where
  ctx : Nat
  obj : Nat
  page : Nat
  gfn : Option Nat := none
  att : Att
  frame : Nat
  /-- The object's length, against which each access is checked (R185, check 3). -/
  olen : Nat
  deriving DecidableEq, Repr

/-! ## Operations -/

/-- One part of an access: a page part, a member, a row; with the request sent for it and its outcome. -/
structure Part where
  /-- Byte offset in the access, member rank, or row. -/
  key : Nat
  len : Nat := 0
  /-- The tag of the request that carries it, if it went out. -/
  tag : Option Nat := none
  /-- 0 performed, or the R160 cause with which it failed. -/
  done : Option Nat := none
  data : List Byte := []
  /-- LDNR: its page was not resident (R193). -/
  absent : Bool := false
  /-- It failed on a quiet-fail page (R155). -/
  quiet : Bool := false
  deriving DecidableEq, Repr

/-- A fallible operation in its thread's window (R151, R153, R154, R164). -/
structure Op where
  tk : BitVec 16
  st : OpSt := .outstanding
  pc : DWord
  insn : Instr
  addr : DWord := 0
  /-- The bytes of the entry's DATA. -/
  data : List Byte := []
  dest : Sel := .zero
  /-- R160 cause where failed, R223 cause where parked. -/
  cause : Nat := 0
  /-- Guest frame number of a stage-2 park (R223). -/
  gfn : Nat := 0
  /-- Performed at its target, or its requests sent. -/
  perf : Bool := false
  /-- Captured operands for which a frame entry has no field. -/
  aux : List Word := []
  parts : List Part := []
  /-- Drain buffer of an MXDRAIN (R307). -/
  buf : Option Nat := none
  /-- The address that parked (R223). -/
  paddr : DWord := 0
  /-- Issued in a trap handler (R358). -/
  hnd : Bool := false
  /-- Operations of the same instruction in lower slots that name the same bytes: thread and ticket (R192). -/
  prior : List (Nat × BitVec 16) := []
  /-- Lines whose request this operation makes for its instruction (R184, R222). -/
  lines : List Nat := []
  /-- Operations of the same instruction that share a line: thread and ticket. Whichever makes the line's request first
  makes it for all. -/
  mates : List (Nat × BitVec 16) := []
  /-- The pieces of the access once it has begun, each with the one translation that it uses (R218, R219): offset,
  address, length. -/
  plan : List (Nat × DWord × Nat × Option Trans) := []
  /-- A resume made it OUTSTANDING, and it has not begun again (R158). -/
  retry : Bool := false
  /-- Its thread had passed a `FENCE.rel` or `.ar`: the widest scope (R314). -/
  rel : Option Nat := none
  deriving DecidableEq, Repr

/-- A FENCE whose orders are not yet satisfied (R196): kind 1 `.acq`, 2 `.rel`, 3 `.ar`; `tk` the next ticket at
issue; `inv` its invalidation is done. -/
structure Fence where
  kind : Nat
  scope : Nat
  tk : BitVec 16
  inv : Bool := false
  deriving DecidableEq, Repr

/-- What the device keeps for one entry of a thread's frame (R164, R308; log entry 8): the kind, PC, captured operands
and drain buffer of its operation. -/
structure Kept where
  kind : Nat := 0
  pc : DWord := 0
  aux : List Word := []
  buf : Option Nat := none
  deriving DecidableEq, Repr

/-- A thread (R122). -/
structure Thread where
  pc : DWord
  st : TSt := .running
  handler : Bool := false
  /-- `o0` to `o15`, 0 where none is listed. -/
  o : Tab Word := []
  p : BitVec 7 := 0
  l0 : Latch := .invalid
  l1 : Latch := .invalid
  l2 : Latch := .invalid
  l3 : Latch := .invalid
  /-- v and o registers last written, for this thread, by a long-latency instruction (R47). -/
  longV : BitVec 256 := 0
  longO : BitVec 16 := 0
  meet : Word := 0xFFFF_FFFF#32
  fflags : FFlags := 0
  clkhi : Word := 0
  tnext : BitVec 16 := 0
  /-- The window, oldest first; its first operation is not settled. -/
  win : List Op := []
  esc : Esc := {}
  /-- Token or target of the wait (R355), and what else a wait or an arrival read at issue: the barrier that it names, or 1
  where its result is G (R53). -/
  wtok : Word := 0
  wbar : Word := 0
  /-- The arrival of the barrier instruction at its PC has been counted (R203). -/
  arr : Bool := false
  /-- It rests at a switch point of a STOPPING gang (R134). -/
  rest : Bool := false
  fences : List Fence := []
  /-- The widest scope of the `FENCE.rel` and `FENCE.ar` that it has passed: each later write is a release (R314). -/
  rel : Option Nat := none
  /-- Kept operands and buffers, by frame entry. -/
  kept : Tab Kept := []
  deriving DecidableEq, Repr

/-- A ripple (R123, R125): `slots` is the remap table; `busy` the instruction at its PC, where that is issued and waits;
`stall` its fetch is parked, with the R223 cause and guest frame (R159). -/
structure Ripple where
  slots : Tab Nat
  sched : Nat
  busy : Option Instr := none
  stall : Option (Nat × Nat) := none
  deriving DecidableEq, Repr

/-! ## Blocks -/

/-- A named barrier (R199). -/
structure Bar where
  phase : BitVec 16 := 0
  ovf : Bool := false
  init : Bool := false
  arrived : Nat := 0
  expect : Nat := 0
  xbytes : Nat := 0
  bytes : Nat := 0
  mask : BitVec 1024 := 0
  deriving DecidableEq, Repr

/-- The state of a copy piece (R267). -/
inductive PieceSt where
  | ready | parked | flying | done | failed
  deriving DecidableEq, Repr

/-- A piece of a copy command: offset and length in the command's bytes (R267). -/
structure Piece where
  off : Nat
  len : Nat
  st : PieceSt := .ready
  /-- The reads are answered and the writes are under way; of a fill, the number of the reservation that they went to. -/
  wr : Bool := false
  rsv : Nat := 0
  parts : List Part := []
  data : List Byte := []
  cause : Nat := 0
  /-- Address and guest frame of a park. -/
  addr : DWord := 0
  gfn : Nat := 0
  deriving DecidableEq, Repr

/-- The running command of a chain. -/
structure Cmd where
  ws : List Word
  tid : Nat
  /-- WP at its start (R267). -/
  base : Word := 0
  pieces : List Piece := []
  /-- Offset at which the next piece begins. -/
  next : Nat := 0
  deriving DecidableEq, Repr

/-- An engine chain (R265). -/
structure Chain where
  nq : Word := 0
  head : Word := 0
  eseq : Word := 0
  wp : Word := 0
  /-- 0, or the ERR code of the ERROR state (R268). -/
  err : Nat := 0
  /-- The kept R160 cause. -/
  cause : Nat := 0
  /-- The thread that appended each slot. -/
  who : Tab Nat := []
  /-- A slot read that parked: R223 cause and guest frame. -/
  park : Option (Nat × Nat) := none
  /-- What has come of the slot that is being read (R265). -/
  got : List Part := []
  cmd : Option Cmd := none
  deriving DecidableEq, Repr

/-- The states of a reservation slot (R287, R306). -/
inductive RsvSt where
  | free | reserved | filling | ready | inUse | released
  deriving DecidableEq, Repr

/-- A reservation slot (R284, R287). -/
structure Rsv where
  st : RsvSt := .free
  ws : List Word := []
  /-- Its number among the block's reservations. -/
  id : Nat := 0
  fp : Nat := 0
  sfp : Nat := 0
  mfp : Nat := 0
  /-- Bytes written above a pointer: part, offset, length (R288). -/
  ext : List (Nat × Nat × Nat) := []
  deriving DecidableEq, Repr

/-- A block. -/
structure Block where
  /-- Key of its gang, position in it, index in the grid. -/
  gang : Nat
  gblk : Nat := 0
  bid : Word := 0
  gidx : Word := 0
  ctx : Nat := 0
  core : Nat := 0
  slot : Nat := 0
  /-- Placement order on the core (R126). -/
  order : Nat := 0
  nthr : Nat := 1
  regG : Nat := 1
  regA : Nat := 0
  scr : Nat := 0
  pool : Nat := 0
  bars : Nat := 0
  greedy : Nat := 0
  entry : DWord := 0
  tvec : Word := 0
  chb : DWord := 0
  /-- Trap-frame base, all 64 bits (R382). -/
  tfa : DWord := 0
  reln : Bool := false
  rfail : Bool := false
  /-- v registers, U 0 where none is listed (R51). -/
  v : Tab VVal := []
  thr : Tab Thread := []
  rip : Tab Ripple := []
  nextRip : Nat := 0
  scratch : Tab Byte := []
  poolMem : Tab Byte := []
  bar : Tab Bar := []
  /-- Arrival bits of the gang barriers (R202). -/
  garr : Tab (BitVec 1024) := []
  chain : Tab Chain := []
  rsv : Tab Rsv := []
  /-- Reservations that the block has made. -/
  prsvs : Nat := 0
  /-- Loops that the block has queued. -/
  loops : Word := 0
  done : Bool := false
  deriving DecidableEq, Repr

/-! ## Gangs and nodes -/

/-- The states of a gang that the device keeps (R133). -/
inductive GangSt where
  | running | stopping | preempted | exited
  deriving DecidableEq, Repr

/-- A loop in a sequencer's queue (R292, R293). -/
structure Loop where
  blk : Nat
  f : MxLoopForm
  /-- The parameter group, as captured. -/
  pg : List Word := []
  steps : Nat := 0
  running : Bool := false
  /-- Its number among the block's loops. -/
  id : Word := 0
  deriving DecidableEq, Repr

/-- An accumulator bank (R291): elements keyed 128 i + j, +0 where none is listed; flags NV, OF, NX in bits 2 to 0. -/
structure Bank where
  owner : Option Nat := none
  els : Tab Word := []
  fl : BitVec 3 := 0
  deriving DecidableEq, Repr

/-- A drain buffer in use (R307): the block it works for and the elements, keyed 128 i + j, in the drain's format. -/
structure Drain where
  blk : Nat
  els : Tab Word := []
  deriving DecidableEq, Repr

/-- Who fires a chunk (R337). -/
inductive Firer where
  /-- The exit of a gang of a node. -/
  | node (k : Nat)
  /-- An engine-2 command. -/
  | chain (blk : Nat)
  deriving DecidableEq, Repr

/-- A waiting fire (R337): `n` chunks from `chunk` on. -/
structure Fire where
  ctx : Nat
  grp : Nat
  chunk : Nat
  n : Nat := 1
  by_ : Firer
  /-- The contribution of `chunk` is on its way to its home's reducer. -/
  sent : Bool := false
  deriving DecidableEq, Repr

/-- A pre-empted gang's save record (R354): where it lies, and what the device keeps beside it (log entry 38). -/
structure Saved where
  off : Nat
  len : Nat
  blocks : List Block
  /-- By the position of their block: banks with their numbers, queued loops, kept drain buffers with their numbers,
  waiting fires of the block's chain. -/
  banks : List (Nat × Nat × Bank) := []
  loops : List (Nat × Loop) := []
  drains : List (Nat × Nat × Tab Word) := []
  fires : List (Nat × Fire) := []
  deriving DecidableEq, Repr

/-- What a replay knows of its original (R359): signature, cluster, relaunch count, core and block slot of its block
at `sr.gblk` 0. -/
structure Replay where
  sig : DWord
  cluster : Nat
  rel : Nat
  core : Nat
  slot : Nat
  deriving DecidableEq, Repr

/-- A gang (R133). -/
structure Gang where
  st : GangSt := .running
  ctx : Nat := 0
  cluster : Nat := 0
  node : Nat := 0
  gidx : Nat := 0
  /-- Block keys in order of `sr.gblk`. -/
  blocks : List Nat := []
  rel : Nat := 0
  /-- PHASE of gang barriers 0 to 3 (R202). -/
  gb : Tab (BitVec 16) := []
  sampled : Bool := false
  /-- Signature of a sampled gang or of a replay (R358). -/
  sig : DWord := 0
  /-- A replay (R359). -/
  replay : Option Replay := none
  /-- Bytes that the gang has written of marked granules, by granule (R356). -/
  mend : Tab (BitVec 4096) := []
  saved : Option Saved := none
  deriving DecidableEq, Repr

/-- A gang of a node that waits for placement beside the unplaced ones: a relaunch or a replay. -/
structure Again where
  gidx : Nat
  rel : Nat := 0
  /-- Always sampled (R357). -/
  audit : Bool := false
  /-- Core and block slot of the killed gang's block at `sr.gblk` 0 (R282). -/
  core : Nat := 0
  slot : Nat := 0
  replay : Option Replay := none
  deriving DecidableEq, Repr

/-- A node of the ready pool (R277). -/
structure Node where
  ctx : Nat
  q : Nat
  seq : Word
  /-- The 32 words of the entry. -/
  ws : List Word
  /-- Predecessors not complete, and whether one ended with STATUS 3. -/
  preds : List Word := []
  predBad : Bool := false
  /-- Eligible, with the preferred die (R278). -/
  elig : Bool := false
  die : Option Nat := none
  next : Nat := 0
  again : List Again := []
  /-- Relaunches of all gangs, a gang failed, a chain ended in ERROR. -/
  reln : Nat := 0
  failed : Bool := false
  chainBad : Bool := false
  /-- Chunks fired at gang exits and not yet accepted (R280). -/
  fires : Nat := 0
  deriving DecidableEq, Repr

/-! ## Caches of a core -/

/-- A line in a cache: `loc` and `addr` name it, the byte address of a local, host or CXL line; a peer's line by its
global address plus 2^64 times its context. A local line in the device cache has no bytes of its own here: they are those of
HBM (log entry 61). -/
structure CLine where
  ctx : Nat
  loc : Nat
  addr : Nat
  data : List Byte
  deriving DecidableEq, Repr

/-- A scheduler's selection (R126). -/
structure Pick where
  blk : Nat
  rip : Nat
  n : Nat
  deriving DecidableEq, Repr

/-- A core. -/
structure Core where
  clock : DWord := 0
  /-- Fetch blocks by context and address. -/
  icache : List (Nat × DWord × List Byte) := []
  l1 : List CLine := []
  tlb : List Trans := []
  /-- Lane page registers, keyed 32 × scheduler + slot. -/
  lpr : Tab Trans := []
  bank : Tab Bank := []
  loops : List Loop := []
  drain : Tab Drain := []
  pick : Tab Pick := []
  /-- By engine, the blocks whose chains it has served in this turn (R265). -/
  served : Tab (List Nat) := []
  deriving DecidableEq, Repr

/-! ## Contexts and queues -/

/-- The states of a context (R348). -/
inductive CtxSt where
  | created | active | preempted | faulted | resetting | wiped
  deriving DecidableEq, Repr

/-- The states of a host queue (R258). -/
inductive QSt where
  | disabled | enabled | running | stalled | draining | error
  deriving DecidableEq, Repr

/-- A host queue (R258). -/
structure HQueue where
  enable : Bool := false
  drain : Bool := false
  qk : Nat := 0
  ck : Nat := 0
  qbase : DWord := 0
  cbase : DWord := 0
  tail : Word := 0
  cons : Word := 0
  ccons : Word := 0
  comp : Word := 0
  st : QSt := .disabled
  err : Nat := 0
  qto : Nat := 262144
  /-- Completion records that wait for room: STATUS, SEQ, RELN (R260). -/
  wait : List (Nat × Word × Nat) := []
  /-- The vector's message is outstanding (R264). -/
  msg : Bool := false
  /-- STATUS of completed nodes, by SEQ (R277). -/
  kept : Tab Nat := []
  deriving DecidableEq, Repr

/-- A context descriptor (R348). -/
structure Ctx where
  st : CtxSt := .wiped
  hv : Bool := false
  gst : Bool := false
  sys : Bool := false
  part : Nat := 0
  fcause : Nat := 0
  ldom : Nat := 0
  lmask : DWord := 0
  otb : DWord := 0
  otl : Nat := 0
  fqb : DWord := 0
  fqk : Nat := 0
  fqp : Word := 0
  fqc : Word := 0
  hrb : DWord := 0
  hrk : Nat := 0
  hrp : Word := 0
  hrc : Word := 0
  crb : DWord := 0
  crk : Nat := 0
  crp : Word := 0
  crc : Word := 0
  meb : DWord := 0
  mek : Nat := 0
  mep : Word := 0
  mec : Word := 0
  mhl : Nat := 0
  savb : DWord := 0
  savn : Word := 0
  savu : Word := 0
  qb : Nat := 0
  qpg : Nat := 0
  qsw : Nat := 0
  qscr : Nat := 0
  qpool : Nat := 0
  cstl : Nat := 0
  /-- Preempt pending (R349). -/
  pend : Bool := false
  /-- The virtual function is enabled (R347), and bound to its partition (R384). -/
  vfOn : Bool := false
  bound : Bool := false
  /-- What the device holds of the lake domain in LDOM is this context's: the last that was bound to it (R351, R383). -/
  lake : Bool := false
  /-- Fault records that wait for room, eight words each (R158). -/
  fwait : List (List Word) := []
  /-- Migration event records that wait for room. -/
  ewait : List (List Word) := []
  /-- Vectors 4 and 5 outstanding (R264). -/
  msg4 : Bool := false
  msg5 : Bool := false
  queues : Tab HQueue := []
  deriving DecidableEq, Repr

/-- The states of a partition (R346). -/
inductive PartSt where
  | free | open_ | wiping
  deriving DecidableEq, Repr

/-- A partition record (R384); bit v of its VFS is `bound` of context v with PART its number. -/
structure Prt where
  st : PartSt := .free
  cmask : BitVec 24 := 0
  hmask : BitVec 24 := 0
  fmb : DWord := 0
  fmn : Word := 0
  hvv : Bool := false
  hvc : Nat := 0
  gstm : BitVec 96 := 0
  deriving DecidableEq, Repr

/-! ## Fabric, pages on the move -/

/-- A link (R250, R251). -/
structure Link where
  st : LinkSt := .down
  cause : Nat := 0
  lanes : Nat := 0
  retr : Nat := 0
  prank : BitVec 6 := 0
  enable : Bool := true
  /-- QUAR (R251). -/
  quar : Bool := false
  /-- Consecutive retrains that failed. -/
  fails : Nat := 0
  /-- Training failed, and the retry count runs (R250). -/
  retry : Bool := false
  deriving DecidableEq, Repr

/-- Who waits for a response. -/
inductive Waiter where
  /-- Part `key` of an operation. -/
  | op (blk t : Nat) (tk : BitVec 16) (key : Nat)
  /-- Part `key` of a copy piece of a chain. -/
  | piece (blk e k key : Nat)
  /-- A result line of a reducer to a member (R338): domain, group, instance, chunk, member, offset. -/
  | line (ldom grp : Nat) (n : Word) (chunk rank off : Nat)
  /-- Chunk `i` of a move (R234), or its install where `i` is 64 (R236). -/
  | move (m i : Nat)
  /-- A part of a thread's trap frame (R161). -/
  | frame (blk t : Nat)
  /-- A chain's slot read (R265): `key` the offset of the bytes asked for. -/
  | slot (blk e key : Nat)
  /-- A fire whose contribution goes to its home (R337): context, group, chunk. -/
  | fire (ctx grp chunk : Nat) (by_ : Firer)
  /-- The release of an arrival slot (R233, R240): rank, domain, page. -/
  | release (rank ldom page : Nat)
  /-- Part `key` of what a request of rank `src` asks of this device (R237, R336, R366). -/
  | job (src tag key : Nat)
  deriving DecidableEq, Repr

/-- Where a line goes when it arrives: the line's name, and whether the device cache takes it too (CACHE mode). -/
structure Fill where
  ctx : Nat
  loc : Nat
  addr : Nat
  dev : Bool
  deriving DecidableEq, Repr

/-- An unanswered request (R254, R255): `seq` its place in issue order, `tried` the routes it has gone out on. -/
structure Pend where
  req : FabReq
  dst : Nat
  seq : Nat := 0
  route : Nat := 1
  tried : List Nat := []
  qf : Bool := false
  who : Waiter
  /-- Held behind a redirect, not yet sent (R239). -/
  held : Bool := false
  /-- The position, plus one, that its route goes through, and that route 2 went through (R248). -/
  via : Nat := 0
  mid : Nat := 0
  /-- Others that share the request (R246). -/
  also : List Waiter := []
  /-- LOC of a request that a port carries. -/
  port : Option Nat := none
  /-- The copy that the line of a load leaves when it arrives (R311). -/
  fill : Option Fill := none
  /-- LOC and place of its bytes, by which caches name them. -/
  loc : Nat := 1
  place : Nat := 0
  deriving DecidableEq, Repr

/-- A request that this device performs through a port or at a further device (R235 to R237, R336, R366): the context in
which it does, the place of a port's access, and what has come of the parts; none where it has not been asked yet. -/
structure Errand where
  cn : Nat
  req : FabReq
  loc : Nat := 0
  place : Nat := 0
  parts : List Part := []
  deriving DecidableEq, Repr

/-- A redirect hold on a page (R239): later requests wait until those numbered below `seq` are answered. -/
structure Hold where
  ldom : Nat
  page : Nat
  seq : Nat
  deriving DecidableEq, Repr

/-- An entry of the owner cache (R238). -/
structure OwnEntry where
  ldom : Nat
  page : Nat
  owner : Nat
  deriving DecidableEq, Repr

/-- A heat entry (R221). -/
structure Heat where
  page : Nat
  ctx : Nat
  heat : Nat := 0
  top : Nat := 0
  topc : Nat := 0
  pend : Bool := false
  deriving DecidableEq, Repr

/-- A stub (R237, R241). -/
structure Stub where
  ldom : Nat
  page : Nat
  target : Nat
  mask : DWord := 0
  reclaiming : Bool := false
  /-- Sharers that have not acknowledged. -/
  left : DWord := 0
  /-- The context of its move, and w0 of the move's record (R243). -/
  ctx : Nat := 0
  w0 : Word := 0
  deriving DecidableEq, Repr

/-- An arrival slot that a move's destination has reserved for the page until it is installed (R233, R240). -/
structure Slot where
  src : Nat
  ldom : Nat
  page : Nat
  deriving DecidableEq, Repr

/-- An arrival record (R240). -/
structure Arrival where
  ldom : Nat
  page : Nat
  ranks : List Nat
  deriving DecidableEq, Repr

/-- A move request: the page, where to, and what asked (R231). -/
structure MoveReq where
  ctx : Nat
  ldom : Nat
  page : Nat
  rank : Nat
  tier : Nat
  /-- TRIG of R243. -/
  asked : Bool := false
  deriving DecidableEq, Repr

/-- The phases of a move under way (R233). -/
inductive MovePh where
  | pass | final | install
  deriving DecidableEq, Repr

/-- A move under way (R233 to R235); `old` and `new` are the frames' addresses as page entries name them. -/
structure Move where
  r : MoveReq
  loc : Nat
  old : Nat
  new : Nat
  ph : MovePh := .pass
  passes : Nat := 1
  /-- Chunks of this pass still to copy, and the dirty mask. -/
  todo : DWord := 0xFFFF_FFFF_FFFF_FFFF#64
  dirty : DWord := 0
  /-- Writes held, oldest first, this device's own among them. -/
  held : List FabReq := []
  /-- A chunk could not be delivered. -/
  lost : Bool := false
  /-- The destination's answer to the install (R236). -/
  ack : Option Nat := none
  deriving DecidableEq, Repr

/-! ## Collectives -/

/-- The states of a group record (R334). -/
inductive GrpSt where
  | idle | armed | running | aborting | done
  deriving DecidableEq, Repr

/-- A group record of a lake domain (R332, R334). -/
structure Grp where
  ldom : Nat
  grp : Nat
  ctx : Nat := 0
  st : GrpSt := .idle
  cur : Word := 0
  /-- Outcomes of CUR and CUR − 1: 0 done, else the abort status. -/
  out0 : Nat := 0
  out1 : Nat := 0
  desc : List Word := []
  /-- The queued instance: its descriptor, and whether it is that of a CLSTART that failed (R343). -/
  queued : Option (List Word) := none
  bad : Bool := false
  /-- Arming notices held: rank, instance, check. -/
  notices : List (Nat × Word × Word) := []
  /-- Chunks of this instance that have been fired; result bytes written here: chunk, offset in it, length. -/
  fired : List Nat := []
  written : List (Nat × Nat × Nat) := []
  /-- Abort: status, parent if any, children that have not acknowledged. -/
  status : Nat := 0
  parent : Option Nat := none
  kids : List Nat := []
  deriving DecidableEq, Repr

/-- An address-group entry (R341). -/
structure AgEntry where
  ldom : Nat
  agn : Nat
  base : DWord
  mask : DWord
  deriving DecidableEq, Repr

/-- A command in the queue of a stack's reducer (R335). -/
structure RCmd where
  stack : Nat
  src : Nat
  ldom : Nat
  grp : Nat
  n : Word
  chunk : Nat
  data : List Byte
  deriving DecidableEq, Repr

/-- A combined chunk whose lines are being written to the members (R336): `todo` the lines to come: member, offset,
length. -/
structure RLines where
  ldom : Nat
  grp : Nat
  n : Word
  chunk : Nat
  data : List Byte
  todo : List (Nat × Nat × Nat)
  deriving DecidableEq, Repr

/-- The contributions that a reducer holds for a chunk (R336). -/
structure Contrib where
  stack : Nat
  ldom : Nat
  grp : Nat
  n : Word
  chunk : Nat
  /-- Rank and bytes, by arrival. -/
  xs : List (Nat × List Byte)
  deriving DecidableEq, Repr

/-! ## The device -/

/-- A port (R369); its ROLE is the device's `roles` bit. -/
structure Port where
  st : Nat := 0
  gen : Nat := 0
  width : Nat := 0
  deriving DecidableEq, Repr

/-- A message that leaves the device. -/
inductive Msg where
  /-- A write to host memory, or to the host's rings. -/
  | hostWrite (addr : DWord) (data : List Byte)
  /-- A read asked of a port. -/
  | portReq (tag : Nat) (loc : Nat) (write : Bool) (addr : Nat) (req : FabReq)
  | msix (vf vec : Nat)
  /-- A request to a rank on a route. -/
  | req (dst route : Nat) (r : FabReq)
  | relay (dst : Nat) (r : FabReq)
  | resp (dst : Nat) (r : FabResp)
  | ack (dst tag : Nat)
  | linkState (owner j : Nat) (st : LinkSt) (chg : BitVec 16)
  | caps (rank : Nat) (rev : BitVec 16) (caps : BitVec 32)
  | exchange (j : Nat) (ex : Exchange)
  | invalidate (dst ldom page : Nat)
  | invalidateAck (dst ldom page : Nat)
  | stubGone (dst rank ldom page : Nat)
  | resetNotice (dst ldom : Nat)
  | arming (dst ldom grp : Nat) (n check : Word)
  | abort (dst ldom grp : Nat) (n : Word) (status : Nat)
  | abortAck (dst ldom grp : Nat) (n : Word)
  /-- A report and its signature (R362). -/
  | report (ws : List Word) (sig : Nat)
  | hostData (data : List Byte)
  /-- Configuration Request Retry Status, or a successful completion (R370). -/
  | config (retry : Bool)
  deriving DecidableEq, Repr

/-- A checkpoint or restore under way (R361). -/
structure Chkpt where
  part : Nat
  addr : Nat
  restore : Bool
  /-- Contexts whose resume is deferred. -/
  resumes : List Nat := []
  deriving DecidableEq, Repr

/-- The device-wide registers and structures. -/
structure Dev where
  stage : Nat := 0
  err : Nat := 0
  rank : Nat := 0
  roles : BitVec 8 := 0
  /-- The strap of the LOC 3 layout: interleaved across the EXP ports at 4 KiB, else concatenated (R367). -/
  interleave : Bool := false
  cap : Nat := 3000
  /-- Clock steps: compute dies 0 to 3, then ID0, ID1. -/
  steps : Tab Nat := []
  ports : Tab Port := []
  audSeed : Word := 0
  audCnt : Word := 0
  audMis : Word := 0
  audSkip : Word := 0
  /-- Retired rows by stack (R360). -/
  retired : Tab (List Nat) := []
  /-- Corrected errors since power-on, and rows that are to be retired, by stack and row (R360). -/
  fixes : List (Nat × Nat) := []
  failing : List (Nat × Nat) := []
  /-- Fused in the device: the hash of the firmware's public key, and the private key that is the device's identity:
  modulus and exponent (R362; log entry 15). -/
  fuse : BitVec 256 := 0
  idMod : BitVec 3072 := 0
  idExp : BitVec 3072 := 0
  chkpt : Option Chkpt := none
  fwHash : BitVec 256 := 0
  /-- The device's own revision and capability mask (R252). -/
  rev : BitVec 16 := 1
  caps : BitVec 32 := 0x1FF
  rto : Nat := 19000
  links : Tab Link := []
  /-- Link-state map, keyed 18 × rank + link: state, change number (R249). -/
  map : Tab (LinkSt × BitVec 16) := []
  /-- Peer table: revision, capability mask (R252). -/
  peers : Tab (BitVec 16 × BitVec 32) := []
  /-- Unanswered requests by tag; where the search for a tag begins; tags of requests that are forgotten and may still be
  answered; requests issued so far (R254, R257; log entry 59). -/
  reqs : Tab Pend := []
  nextTag : Nat := 0
  dead : List Nat := []
  nextSeq : Nat := 0
  /-- Performed requests with their responses, `src` the requester's rank (R255). -/
  performed : List FabResp := []
  /-- Requests that it performs elsewhere, and arrival slots to be released: rank, domain, page (R233). -/
  jobs : List Errand := []
  frees : List (Nat × Nat × Nat) := []
  holds : List Hold := []
  owners : List OwnEntry := []
  heat : List Heat := []
  stubs : List Stub := []
  slots : List Slot := []
  /-- Invalidations not yet acknowledged: stub holder, domain, page, requests issued before it (R241). -/
  acks : List (Nat × Nat × Nat × Nat) := []
  arrivals : List Arrival := []
  mqueue : List MoveReq := []
  moves : Tab Move := []
  grps : List Grp := []
  ags : List AgEntry := []
  /-- The reducers' command queues, one list in arrival order, the contributions that they hold, and the results that they
  write (R335, R336). -/
  cmdq : List RCmd := []
  contribs : List Contrib := []
  results : List RLines := []
  fires : List Fire := []
  /-- Device-cache lines: local ones, and those of CACHE-mode pages (R181). -/
  cache : List CLine := []
  deriving DecidableEq, Repr

/-- An act to come that the outside world or a choice of the device's own supplies (log entry 1). -/
inductive Act where
  /-- An event of the opcode table. -/
  | ev (i : Instr)
  /-- A ripple issues its next instruction. -/
  | issue (blk rip : Nat)
  /-- An operation that is not held goes to its target: its requests are sent. -/
  | send (blk t : Nat) (tk : BitVec 16)
  /-- A copy piece is issued or retried. -/
  | piece (blk e k : Nat)
  /-- A migration chunk is copied. -/
  | chunk (m : Nat)
  /-- Redirect holds that are over end, and invalidations are acknowledged (R239, R241). -/
  | fabric
  /-- The reducer of a stack takes its next command (R335). -/
  | reduce (stack : Nat)
  /-- A reducer writes the next line of its result, by position in the list (R336). -/
  | result (n : Nat)
  /-- A thread's access, a sequencer step, a drain or a copy piece of a block meets an uncorrectable error in on-core storage
  or a device-cache slice: `t` the thread, 0 where none reads (R282, R356). -/
  | flaw (blk t : Nat)
  /-- The device corrects a single-bit error at an HBM address (R356, R360). -/
  | corrected (addr : Nat)
  /-- A copy leaves a cache (R313), by position in its list. -/
  | dropL1 (core n : Nat)
  | dropDev (n : Nat)
  | dropTlb (core n : Nat)
  | dropLpr (core k : Nat)
  | dropCode (core n : Nat)
  deriving DecidableEq, Repr

/-- The state of the device. -/
structure State where
  dev : Dev := {}
  /-- Local HBM, 768 GiB; a byte not listed reads 0 (R370). -/
  hbm : Tab Byte := []
  /-- The CXL tier's memory (LOC 3); a byte not listed reads 0 (log entry 2). -/
  cxl : Tab Byte := []
  /-- Bytes of the CXL tier written as poison (R361). -/
  cxlPoison : List Nat := []
  /-- HBM addresses with an uncorrectable error not yet found (R356; log entry 3). -/
  latent : List Nat := []
  cores : Tab Core := []
  blocks : Tab Block := []
  gangs : Tab Gang := []
  nodes : Tab Node := []
  ctxs : Tab Ctx := []
  parts : Tab Prt := []
  /-- The model's own fields (log entries 1, 6): the acts to come, the ripple that issues, messages sent, the counter
  of free values. -/
  agenda : List Act := []
  cur : Option (Nat × Nat) := none
  out : List Msg := []
  fresh : Nat := 0
  deriving DecidableEq, Repr

/-- The device when it leaves reset (R370, stage 0). -/
def State.reset : State := {}

end Sys2Proof.Machine
end

