-- ==== Sys2Proof/Machine/Mem.lean ====
section
/-! DEFINITION. Bytes of memory in one canonical form, and the accessors of the state's tables. -/

namespace Sys2Proof.Machine

/-! ## Bytes -/

/-- Memory: addresses strictly rising, no byte equal to 0, which an unlisted address reads as (R370). -/
abbrev Memory := Tab Byte

/-- The canonical form of a memory. -/
def Memory.wf (m : Memory) : Bool := Tab.wf (0 : Byte) m

def Memory.byte (m : Memory) (a : Nat) : Byte := Tab.get 0 m a

def Memory.setByte (m : Memory) (a : Nat) (x : Byte) : Memory := Tab.set 0 m a x

/-- `n` bytes from an address, the lowest first. -/
def Memory.read (m : Memory) (a n : Nat) : List Byte := (List.range n).map fun i => Memory.byte m (a + i)

def Memory.write (m : Memory) : Nat → List Byte → Memory
  | _, [] => m
  | a, x :: xs => Memory.write (Memory.setByte m a x) (a + 1) xs

/-- The number whose little-endian bytes these are (R4). -/
def leNat : List Byte → Nat
  | [] => 0
  | x :: xs => x.toNat + 256 * leNat xs

/-- The `n` little-endian bytes of a number (R4). -/
def leBytes : Nat → Nat → List Byte
  | 0, _ => []
  | n + 1, x => BitVec.ofNat 8 x :: leBytes n (x / 256)

/-- The bytes of words, lowest word first. -/
def wordBytes (ws : List Word) : List Byte := ws.flatMap fun w => leBytes 4 w.toNat

/-- Words from bytes; a last group of fewer than four is zero-extended. -/
def bytesWords : Nat → List Byte → List Word
  | 0, _ => []
  | n + 1, bs => BitVec.ofNat 32 (leNat (bs.take 4)) :: bytesWords n (bs.drop 4)

/-- Word `i` of a list, 0 beyond its end. -/
def wordAt (ws : List Word) (i : Nat) : Word := ws.getD i 0

/-- Two consecutive words as one 64-bit value, the low word first. -/
def dwordAt (ws : List Word) (i : Nat) : DWord := wordAt ws (i + 1) ++ wordAt ws i

/-- The low and the high word. -/
def splitDWord (x : DWord) : List Word := [x.extractLsb' 0 32, x.extractLsb' 32 32]

/-- Bits `hi` to `lo` of a word. -/
def bits (w : Word) (hi lo : Nat) : Nat := w.toNat / 2 ^ lo % 2 ^ (hi + 1 - lo)

/-- The top of local HBM and the base of the poison bitmap (R216, R220). -/
def hbmTop : Nat := 824633720832
def poisonBase : Nat := 824608555008

/-! ## The state's tables -/

def State.core (s : State) (c : Nat) : Core := Tab.get {} s.cores c
def State.modCore (s : State) (c : Nat) (f : Core → Core) : State := { s with cores := Tab.put s.cores c (f (s.core c)) }
def State.ctx (s : State) (c : Nat) : Ctx := Tab.get {} s.ctxs c
def State.modCtx (s : State) (c : Nat) (f : Ctx → Ctx) : State := { s with ctxs := Tab.put s.ctxs c (f (s.ctx c)) }
def State.part (s : State) (p : Nat) : Prt := Tab.get {} s.parts p
def State.modPart (s : State) (p : Nat) (f : Prt → Prt) : State := { s with parts := Tab.put s.parts p (f (s.part p)) }
def State.blk (s : State) (b : Nat) : Option Block := Tab.find s.blocks b
def State.modBlk (s : State) (b : Nat) (f : Block → Block) : State := { s with blocks := Tab.modify s.blocks b f }
def State.modGang (s : State) (g : Nat) (f : Gang → Gang) : State := { s with gangs := Tab.modify s.gangs g f }
def State.modNode (s : State) (n : Nat) (f : Node → Node) : State := { s with nodes := Tab.modify s.nodes n f }
def State.modDev (s : State) (f : Dev → Dev) : State := { s with dev := f s.dev }
def State.say (s : State) (m : Msg) : State := { s with out := s.out ++ [m] }

/-- A thread of a block. -/
def State.thr (s : State) (b t : Nat) : Option Thread := (s.blk b).bind fun k => Tab.find k.thr t
def Block.modThr (k : Block) (t : Nat) (f : Thread → Thread) : Block := { k with thr := Tab.modify k.thr t f }
def State.modThr (s : State) (b t : Nat) (f : Thread → Thread) : State := s.modBlk b fun k => k.modThr t f
def State.modRip (s : State) (b r : Nat) (f : Ripple → Ripple) : State :=
  s.modBlk b fun k => { k with rip := Tab.modify k.rip r f }

/-- Threads of a list, one after another. -/
def State.modThrs (s : State) (b : Nat) (ts : List Nat) (f : Nat → Thread → Thread) : State :=
  ts.foldl (fun s t => s.modThr b t (f t)) s

/-- A queue of a context. -/
def State.queue (s : State) (c q : Nat) : HQueue := Tab.get {} (s.ctx c).queues q
def State.modQueue (s : State) (c q : Nat) (f : HQueue → HQueue) : State :=
  s.modCtx c fun x => { x with queues := Tab.put x.queues q (f (Tab.get {} x.queues q)) }

/-- A chain of a block (R265). -/
def Block.chainOf (k : Block) (e : Nat) : Chain := Tab.get {} k.chain e
def State.modChain (s : State) (b e : Nat) (f : Chain → Chain) : State :=
  s.modBlk b fun k => { k with chain := Tab.put k.chain e (f (k.chainOf e)) }

def Core.bankOf (c : Core) (n : Nat) : Bank := Tab.get {} c.bank n
def State.modBank (s : State) (c n : Nat) (f : Bank → Bank) : State :=
  s.modCore c fun x => { x with bank := Tab.put x.bank n (f (x.bankOf n)) }

def Block.barOf (k : Block) (n : Nat) : Bar := Tab.get {} k.bar n
def Block.rsvOf (k : Block) (n : Nat) : Rsv := Tab.get {} k.rsv n
def Dev.link (d : Dev) (j : Nat) : Link := Tab.get {} d.links j
def State.modLink (s : State) (j : Nat) (f : Link → Link) : State :=
  s.modDev fun d => { d with links := Tab.put d.links j (f (d.link j)) }

/-- A free value's next number (log entry 6). -/
def State.tick (s : State) : State := { s with fresh := s.fresh + 1 }

/-- Threads that have not exited, in ascending index (R54). -/
def Block.live (k : Block) : List Nat := (k.thr.filter fun e => e.2.st ≠ .exited).map Prod.fst

/-- `sr.mode` (R60): a thread of a SYS context runs in system mode. -/
def State.sysMode (s : State) (k : Block) : Bool := (s.ctx k.ctx).sys

/-- The environment of the decode checks for a block. -/
def State.env (s : State) (k : Block) : Env :=
  { nregs := k.regG + k.regA, sys := s.sysMode k, hv := (s.ctx k.ctx).hv }

/-- The clusters that a partition has: those of its mask while it is OPEN (R346). -/
def Prt.clusters (p : Prt) : BitVec 24 := if p.st = .open_ then p.cmask else 0

/-- Records in a list, changed where they match. -/
def modWhere {α : Type} (p : α → Bool) (f : α → α) (l : List α) : List α := l.map fun x => if p x then f x else x

/-- How many answers may come to a request that is still kept: one to each of its tries, or one from a port. -/
def Pend.answers (p : Pend) : Nat := if p.port.isSome then 1 else p.tried.length

/-- Whether a request writes its page. -/
def kindWrites (k : ReqKind) : Bool :=
  match k with
  | .store | .red | .atom | .copyWrite | .result => true
  | _ => false

/-! ## Copies in caches (R311, R313) -/

def lineBase (a : Nat) : Nat := a / 128 * 128

/-- Whether a line has bytes of a range. -/
def CLine.meets (l : CLine) (loc a n : Nat) : Bool := l.loc = loc && l.addr < a + n && a < l.addr + 128

/-- Loads under way leave no copy of the lines that bytes touch (R311). -/
def State.noFills (s : State) (loc a n : Nat) : State :=
  s.modDev fun d => { d with reqs := d.reqs.map fun (e : Nat × Pend) =>
    match e.2.fill with
    | some f => if f.loc = loc && f.addr < a + n && a < f.addr + 128 then (e.1, { e.2 with fill := none }) else e
    | none => e }

/-- Copies of lines that bytes touch leave the L1 of a core and the device cache, and loads under way leave none. -/
def State.dropCopies (s : State) (core : Option Nat) (loc a n : Nat) : State :=
  let s := match core with
    | some c => s.modCore c fun k => { k with l1 := k.l1.filter fun l => !l.meets loc a n }
    | none => s
  (s.modDev fun d => { d with cache := d.cache.filter fun l => !l.meets loc a n }).noFills loc a n

/-- The lines of a range leave every cache of the device, and loads under way leave none (R311). -/
def State.dropRange (s : State) (loc a n : Nat) : State :=
  let clear (k : Core) : Core := { k with l1 := k.l1.filter fun l => !l.meets loc a n }
  ({ s with cores := s.cores.map fun (e : Nat × Core) => (e.1, clear e.2) } : State).dropCopies none loc a n

/-! ## Requests that nobody waits for any more -/

/-- A request without those of its waiters that give it up: none where all do. -/
def Pend.without (p : Pend) (gone : Pend → Bool) : Option Pend :=
  match (p.who :: p.also).filter fun w => !gone { p with who := w } with
  | w :: ws => some { p with who := w, also := ws }
  | [] => none

/-- Requests are forgotten (R257): responses to them write nothing, and their tags are not given again before those have
come (log entry 59). A write that a move still holds is never performed (R321); one that has been sent may be, and no copy
of its bytes stays (R311). -/
def State.forgetReqs (s : State) (p : Pend → Bool) : State :=
  let lost := s.dev.reqs.filter fun e => (e.2.without p).isNone
  let s := s.modDev fun d =>
    { d with reqs := d.reqs.filterMap fun e => (e.2.without p).map fun q => (e.1, q)
             dead := d.dead ++ lost.flatMap fun e => List.replicate e.2.answers e.1
             moves := d.moves.map fun (e : Nat × Move) => (e.1, { e.2 with
               held := e.2.held.filter fun r => !(r.src = d.rank && lost.any (·.1 = r.tag)) }) }
  (lost.filter fun e => kindWrites e.2.req.kind && e.2.answers ≠ 0).foldl
    (fun s e => s.dropRange e.2.loc e.2.place e.2.req.size) s

/-- A tag may still see `n` answers that nobody waits for. -/
def State.bury (s : State) (tag n : Nat) : State := s.modDev fun d => { d with dead := d.dead ++ List.replicate n tag }

end Sys2Proof.Machine
end

