-- ==== Sys2Proof/Machine/Translate.lean ====
section
/-! DEFINITION. Translation: the object table, page entries, the frame map, cached translations, poison marks
(spec/12_page.md R210 to R220; spec/09_memory.md R183, R185). -/

namespace Sys2Proof.Machine

/-- What a translation gives: an R160 cause, or an R223 cause and guest frame, or the translation. -/
inductive Tr where
  | fail (cause : Nat)
  | park (cause gfn : Nat)
  | ok (t : Trans)
  deriving DecidableEq, Repr

/-- The object identifier, the page index and the offset of a global address (R175). -/
def objOf (a : DWord) : Nat := a.toNat / 2 ^ 40
def offOf (a : DWord) : Nat := a.toNat % 2 ^ 40
def pageOf (a : DWord) : Nat := offOf a / 65536
/-- The page's number in the whole global space: address bits [63:16]. -/
def pageNo (a : DWord) : Nat := a.toNat / 65536

/-- Whether the bytes of a table entry lie in local HBM below the poison bitmap (R213). -/
def tableOk (a n : Nat) : Bool := a + n ≤ poisonBase

/-- Stage 2 of a guest frame (R215): the output frame's address and the permissions. -/
def stage2 (s : State) (c : Ctx) (gfn loc : Nat) : Except Tr (Nat × Bool × Bool × Bool) :=
  let p := s.part c.part
  let a := p.fmb.toNat + 8 * gfn
  if gfn ≥ p.fmn.toNat then .error (.park 2 gfn)
  else if !tableOk a 8 then .error (.fail 13)
  else
    let e := leNat (Memory.read s.hbm a 8)
    let frame := e % 2 ^ 48 * 65536
    if e / 2 ^ 63 % 2 = 0 then .error (.park 2 gfn)
    else if e / 2 ^ 48 % 2 ^ 10 ≠ 0 ∨ e / 2 ^ 58 % 4 ≠ loc ∨ (loc = 0 ∧ frame ≥ poisonBase) then .error (.fail 13)
    else .ok (frame, e.testBit 62, e.testBit 61, e.testBit 60)

/-- TADDR (R214): the device physical address of a table address. -/
def taddr (s : State) (c : Ctx) (x : Nat) : Except Tr Nat :=
  if c.gst then (stage2 s c (x / 65536) 0).map fun r => r.1 + x % 65536 else .ok x

/-- `n` bytes of a table, as words. -/
def tableRead (s : State) (c : Ctx) (x n : Nat) : Except Tr (List Word) :=
  (taddr s c x).bind fun a =>
    if tableOk a n then .ok (bytesWords (n / 4) (Memory.read s.hbm a n)) else .error (.fail 13)

/-- The object's length (R211). -/
def oeLen (oe : List Word) : Nat := bits (wordAt oe 2) 7 0 * 2 ^ 32 + (wordAt oe 1).toNat

/-- Whether an object entry is malformed (R213); the extent list of a native context lies in local HBM below the bitmap. -/
def oeBad (oe : List Word) (guest : Bool) : Bool :=
  bits (wordAt oe 0) 30 8 ≠ 0 || bits (wordAt oe 2) 31 8 ≠ 0 || bits (wordAt oe 3) 31 23 ≠ 0 || bits (wordAt oe 3) 9 0 ≠ 0
  || bits (wordAt oe 3) 14 14 ≠ 0 || (dwordAt oe 4).toNat % 16 ≠ 0 || wordAt oe 6 ≠ 0 || wordAt oe 7 ≠ 0
  || (!guest && (dwordAt oe 4).toNat ≥ poisonBase)

/-- Whether an extent record is malformed (R211, R213). -/
def extBad (x : List Word) : Bool :=
  bits (wordAt x 0) 31 24 ≠ 0 || bits (wordAt x 1) 31 24 ≠ 0 || (dwordAt x 2).toNat % 16 ≠ 0

/-- The pages of an extent's run (R211). -/
def extCount (x : List Word) : Nat := if bits (wordAt x 1) 23 0 = 0 then 2 ^ 24 else bits (wordAt x 1) 23 0

/-- The first extent, in list order, whose run holds the page (R211, R214). -/
def findExtent (s : State) (c : Ctx) (exb pg : Nat) : List Nat → Except Tr (List Word)
  | [] => .error (.park 1 0)
  | k :: ks => (tableRead s c (exb + 16 * k) 16).bind fun x =>
      let first := bits (wordAt x 0) 23 0
      if first ≤ pg ∧ pg < first + extCount x then .ok x else findExtent s c exb pg ks

/-- The attributes in the bit positions of page-entry w0 (R212). -/
def attOf (w : Word) : Att :=
  { loc := bits w 30 29, peer := bits w 28 23, mode := bits w 22 21, qf := w.getLsbD 20, ord := bits w 19 18
    rd := w.getLsbD 17, wr := w.getLsbD 16, ex := w.getLsbD 15, ht := bits w 13 10, mh := w.getLsbD 14, hm := w.getLsbD 9 }

/-- DEF in place of MODE, QF, ORD, RD, WR, EX and HT (R211, R214). -/
def attDef (a : Att) (w3 : Word) : Att :=
  let d := attOf w3
  { a with mode := d.mode, qf := d.qf, ord := d.ord, rd := d.rd, wr := d.wr, ex := d.ex, ht := d.ht }

/-- The frame address of a page entry (R212). -/
def peFrame (pe : List Word) : Nat := (wordAt pe 1).toNat * 65536 + bits (wordAt pe 2) 15 0 * 2 ^ 48

/-- The pairs of LOC and MODE that R213 allows. -/
def pairOk (loc mode : Nat) : Bool :=
  match loc with
  | 0 => mode = 0 ∨ mode = 3
  | 1 => mode ≠ 0
  | _ => mode = 1 ∨ mode = 3

/-- Whether a page entry, or the attributes that the access uses, are malformed (R213). -/
def peBad (pe : List Word) (a : Att) (guest : Bool) : Bool :=
  let w := wordAt pe 0
  let own := attOf w
  bits w 7 0 ≠ 0 || bits (wordAt pe 2) 31 16 ≠ 0
  || (w.getLsbD 8 && (own.mode ≠ 0 || own.qf || own.ord ≠ 0 || own.rd || own.wr || own.ex || own.ht ≠ 0))
  || (a.peer ≠ 0 && a.loc ≠ 1) || (a.hm && (a.loc = 0 || a.loc = 1))
  || !pairOk a.loc a.mode || a.ord = 3
  || (!guest && a.loc = 0 && peFrame pe ≥ poisonBase)

/-- A cached or fresh translation of the poison bitmap, object `0xFF_FFFF` of a hypervisor context (R220). -/
def bitmapTrans (c pg : Nat) : Trans :=
  { ctx := c, obj := 0xFFFFFF, page := pg, att := { ord := 0, rd := true, wr := true }
    frame := poisonBase + 65536 * pg, olen := 25165824 }

/-- The end of a walk: presence, holds, stage 2 (R214). -/
def walkEntry (s : State) (c : Ctx) (cn : Nat) (addr : DWord) (oe pe : List Word) : Tr :=
  let own := attOf (wordAt pe 0)
  let a := if (wordAt pe 0).getLsbD 8 then attDef own (wordAt oe 3) else own
  if peBad pe a c.gst then .fail 13
  else if !(wordAt pe 0).getLsbD 31 then .park 1 0
  else if a.mh then .park 4 0
  else if (a.loc = 2 ∨ a.loc = 3) ∧ !a.hm then .park 3 0
  else if c.gst ∧ a.loc ≠ 1 then
    match stage2 s c (peFrame pe / 65536) a.loc with
    | .error t => t
    | .ok (f, r, w, x) =>
      .ok { ctx := cn, obj := objOf addr, page := pageOf addr, gfn := some (peFrame pe / 65536)
            att := { a with rd := a.rd && r, wr := a.wr && w, ex := a.ex && x, s2 := true }, frame := f, olen := oeLen oe }
  else .ok { ctx := cn, obj := objOf addr, page := pageOf addr, att := a, frame := peFrame pe, olen := oeLen oe }

/-- The object entry of an address, under checks 2 and 3 of R185. -/
def objectEntry (s : State) (c : Ctx) (addr : DWord) (size : Nat) : Except Tr (List Word) :=
  if objOf addr = 0 ∨ objOf addr > c.otl then .error (.fail 4)
  else (tableRead s c (c.otb.toNat + 32 * objOf addr) 32).bind fun oe =>
    if !(wordAt oe 0).getLsbD 31 then .error (.fail 4)
    else if offOf addr + size > oeLen oe then .error (.fail 2)
    else .ok oe

/-- The page entry of an address and where it lies; MH and HM are not looked at (R214). -/
def walkTables (s : State) (c : Ctx) (addr : DWord) (size : Nat) : Except Tr (List Word × List Word × Nat) :=
  (objectEntry s c addr size).bind fun oe =>
    if oeBad oe c.gst then .error (.fail 13)
    else (findExtent s c (dwordAt oe 4).toNat (pageOf addr) (List.range (bits (wordAt oe 0) 7 0))).bind fun x =>
      if extBad x then .error (.fail 13)
      else
        let pea := (dwordAt x 2).toNat + 16 * (pageOf addr - bits (wordAt x 0) 23 0)
        (tableRead s c pea 16).map fun pe => (oe, pe, pea)

/-- TRANSLATE (R214): a walk that reads every table afresh. -/
def walk (s : State) (cn : Nat) (addr : DWord) (size : Nat) : Tr :=
  let c := s.ctx cn
  if c.hv ∧ objOf addr = 0xFFFFFF then
    if offOf addr + size > 25165824 then .fail 2 else .ok (bitmapTrans cn (pageOf addr))
  else match walkTables s c addr size with
    | .error t => t
    | .ok (oe, pe, _) => walkEntry s c cn addr oe pe

/-! ## Cached translations (R183, R217) -/

/-- Whether a cached translation is that of an address of a context. -/
def Trans.hits (t : Trans) (cn : Nat) (addr : DWord) : Bool :=
  t.ctx = cn && t.obj = objOf addr && t.page = pageOf addr

/-- The bounds check on a held translation (R185, check 3). DESIGN CHOICE: a cached translation keeps the object's LEN, and
checks against it until it is swept (log entry 76). -/
def Trans.bounded (t : Trans) (addr : DWord) (size : Nat) : Tr :=
  if offOf addr + size > t.olen then .fail 2 else .ok t

/-- The lookup of an access: lane page register `lane` if one is given, then the core TLB, then the walk; and what it
leaves in them (R183). -/
def lookup (s : State) (core cn : Nat) (lane : Option Nat) (addr : DWord) (size : Nat) : Tr × State :=
  let k := s.core core
  let fill (s : State) (t : Trans) : State := match lane with
    | some n => s.modCore core fun k => { k with lpr := Tab.put k.lpr n t }
    | none => s
  match (lane.bind fun n => Tab.find k.lpr n).filter fun t => t.hits cn addr with
  | some t => (t.bounded addr size, s)
  | none => match k.tlb.find? fun t => t.hits cn addr with
    | some t => (t.bounded addr size, fill s t)
    | none => match walk s cn addr size with
      | .ok t => (.ok t, fill (s.modCore core fun k => { k with tlb := t :: k.tlb }) t)
      | r => (r, s)

/-! ## Poison (R220) -/

/-- Whether the granule of an HBM address is marked. -/
def State.poisoned (s : State) (a : Nat) : Bool :=
  (Memory.byte s.hbm (poisonBase + a / 32768)).getLsbD (a / 4096 % 8)

/-- Marks or clears the granule of an HBM address. -/
def State.setPoison (s : State) (a : Nat) (on : Bool) : State :=
  let b := Memory.byte s.hbm (poisonBase + a / 32768)
  let m : Byte := BitVec.ofNat 8 (2 ^ (a / 4096 % 8))
  { s with hbm := Memory.setByte s.hbm (poisonBase + a / 32768) (if on then b ||| m else b &&& ~~~m) }

/-- The granules that `n` bytes touch, by an address in each. -/
def granules (a n : Nat) : List Nat :=
  if n = 0 then [] else (List.range ((a + n - 1) / 4096 - a / 4096 + 1)).map fun i => (a / 4096 + i) * 4096

/-- Whether bytes of HBM touch a marked granule. -/
def State.poisonedIn (s : State) (a n : Nat) : Bool := (granules a n).any s.poisoned

/-- The first uncorrectable error not yet found in a range (R356). -/
def State.latentIn (s : State) (a n : Nat) : Option Nat := s.latent.find? fun x => a ≤ x && x < a + n

/-- An HBM address's stack (R216) and its row there (R360). -/
def rowAt (a : Nat) : Nat × Nat := (a / 2 ^ 36, Config.rowOf a)

/-- An error found: the granule is marked, the error is no longer new, and its row is to be retired (R356, R360). -/
def State.found (s : State) (a : Nat) : State :=
  { s.setPoison a true with latent := s.latent.filter (· ≠ a), dev := { s.dev with failing := s.dev.failing ++ [rowAt a] } }

/-! ## Bytes at a place -/

/-- The bytes of local HBM or the CXL tier. -/
def State.placeRead (s : State) (loc a n : Nat) : List Byte := Memory.read (if loc = 0 then s.hbm else s.cxl) a n

def State.placeWrite (s : State) (loc a : Nat) (bs : List Byte) : State :=
  if loc = 0 then { s with hbm := Memory.write s.hbm a bs }
  else { s with cxl := Memory.write s.cxl a bs, cxlPoison := s.cxlPoison.filter fun x => !(a ≤ x && x < a + bs.length) }

/-- Whether bytes of the CXL tier hold poison (R361, R367). -/
def State.cxlBad (s : State) (a n : Nat) : Bool := s.cxlPoison.any fun x => a ≤ x && x < a + n

/-- Bytes `x` at offset `i` of a list. -/
def patch (l : List Byte) (i : Nat) (x : List Byte) : List Byte := l.take i ++ x ++ l.drop (i + x.length)

/-- The part of a write at `a` that falls in a line, written into a copy of that line (R313). -/
def CLine.patch (l : CLine) (loc a : Nat) (bs : List Byte) : CLine :=
  if l.data ≠ [] ∧ l.meets loc a bs.length then
    let from_ := max a l.addr
    let piece := (bs.drop (from_ - a)).take (l.addr + 128 - from_)
    { l with data := Machine.patch l.data (from_ - l.addr) piece }
  else l

/-- A write through a core's L1, if one is given, and the device cache (R313). -/
def State.patchCaches (s : State) (core : Option Nat) (loc a : Nat) (bs : List Byte) : State :=
  let s := s.modDev fun d => { d with cache := d.cache.map (·.patch loc a bs) }
  match core with
  | some c => s.modCore c fun k => { k with l1 := k.l1.map (·.patch loc a bs) }
  | none => s

/-- The lines that an L1 of 192 KiB and a device-cache slice of 6 MiB hold (R1, R9). -/
def l1Lines : Nat := 1536
def sliceLines : Nat := 49152

/-- The channel of an address of local HBM (R216). -/
def channelOf (a : Nat) : Nat := 16 * (a / 2 ^ 35) + a / 4096 % 16

/-- The device-cache slice of a line, 12 d + j for slice j of compute die d (R10): of a local line that of its channel, of
which a slice serves 8; of a CACHE-mode line that of its global address. -/
def CLine.slice (l : CLine) : Nat := if l.loc = 0 then channelOf l.addr / 8 else l.addr % 2 ^ 64 / 128 % 48

/-- A line enters a core's L1; the oldest leaves one that is full. -/
def State.fillL1 (s : State) (core : Nat) (l : CLine) : State :=
  s.modCore core fun k => { k with l1 := (l :: k.l1).take l1Lines }

/-- A line enters its slice of the device cache, which keeps no second copy of it; the oldest of a full slice leaves. -/
def State.fillDev (s : State) (l : CLine) : State :=
  let mine (m : CLine) : Bool := m.slice = l.slice
  let rest := s.dev.cache.filter fun m => !(m.loc = l.loc && m.addr = l.addr)
  let full := (rest.filter mine).length ≥ sliceLines
  s.modDev fun d => { d with cache := l :: (if full then (rest.reverse.eraseP mine).reverse else rest) }

/-- The place of a byte of a translated page, by which caches name it. -/
def Trans.key (t : Trans) (addr : DWord) : Nat :=
  if t.att.loc = 1 then t.ctx * 2 ^ 64 + addr.toNat else t.frame + addr.toNat % 65536

/-- An address split at page boundaries: the address and length of each part (R184). -/
def pageParts (addr : DWord) (n : Nat) : List (Nat × DWord × Nat) :=
  let r := 65536 - addr.toNat % 65536
  if n ≤ r then [(0, addr, n)]
  else (0, addr, r) :: (List.range ((n - r + 65535) / 65536)).map fun i =>
    (r + 65536 * i, addr + BitVec.ofNat 64 (r + 65536 * i), min 65536 (n - r - 65536 * i))

/-- The rank that serves a peer page: the owner cache's, else PEER (R238). -/
def ownerOf (s : State) (ldom : Nat) (peer : Nat) (page : Nat) : Nat :=
  match s.dev.owners.find? fun e => e.ldom = ldom && e.page = page with
  | some e => e.owner
  | none => peer

end Sys2Proof.Machine
end

