-- ==== Sys2Proof/Machine/Kill.lean ====
section
/-! DEFINITION. Fault records, context faults, and the end of a gang by a kill (spec/12_page.md R223, R224;
spec/25_context.md R350; spec/07_group.md R133; spec/17_kernel.md R281, R282). -/

namespace Sys2Proof.Machine

/-- `x` is at or after `y` (R259). -/
def seqGe (x y : Word) : Bool := (x - y).toNat < 2 ^ 31

/-- Whether the device writes records for a context: not once it is FAULTED, RESETTING or WIPED (R350). -/
def Ctx.records (c : Ctx) : Bool := c.st = .created || c.st = .active || c.st = .preempted

/-- Who a waiter works for, if a block. -/
def Waiter.block : Waiter → Option Nat
  | .op b _ _ _ | .piece b _ _ _ | .frame b _ | .slot b _ _ | .fire _ _ _ (.chain b) => some b
  | _ => none

/-- Takes a block off its core: banks, loops, drain buffers, selections and turns (R133, R166). -/
def Core.without (c : Core) (b : Nat) : Core :=
  { c with
    bank := c.bank.map fun e => if e.2.owner = some b then (e.1, {}) else e
    loops := c.loops.filter (·.blk ≠ b)
    drain := c.drain.filter (·.2.blk ≠ b)
    pick := c.pick.filter (·.2.blk ≠ b)
    served := c.served.map fun (e : Nat × List Nat) => (e.1, e.2.filter (· ≠ b)) }

/-- Removes a block and all that works for it. -/
def State.dropBlock (s : State) (b : Nat) : State :=
  match s.blk b with
  | none => s
  | some k =>
    let s := ((s.modCore k.core (·.without b)).forgetReqs fun p => p.who.block = some b).modDev fun d =>
      { d with fires := d.fires.filter (·.by_ ≠ .chain b) }
    { s with blocks := Tab.del s.blocks b
             cur := if s.cur.map Prod.fst = some b then none else s.cur }

/-- The gangs of a context or of a node, by key. -/
def State.gangsOf (s : State) (p : Gang → Bool) : List Nat := (s.gangs.filter fun e => p e.2).map Prod.fst

/-- A context whose pre-emption is pending is PREEMPTED once no gang of it runs (R349). -/
def State.preemptDone (s : State) (c : Nat) : State :=
  let x := s.ctx c
  if x.st = .active && x.pend && (s.gangsOf fun g => g.ctx = c && (g.st = .running || g.st = .stopping)).isEmpty then
    s.modCtx c fun x => { x with st := .preempted, pend := false }
  else s

/-- Removes a gang: its blocks, its save record (R133, R166). -/
def State.dropGang (s : State) (g : Nat) : State :=
  match Tab.find s.gangs g with
  | none => s
  | some k =>
    let s := k.blocks.foldl State.dropBlock s
    let s := match k.saved with
      | some r => s.modCtx k.ctx fun c => { c with savu := c.savu - BitVec.ofNat 32 ((r.len + 127) / 128) }
      | none => s
    ({ s with gangs := Tab.del s.gangs g } : State).preemptDone k.ctx

/-- A replay is abandoned (R359). -/
def State.abandon (s : State) (g : Nat) : State :=
  (s.dropGang g).modDev fun d => { d with audSkip := d.audSkip + 1 }

/-- A gang is killed without a record; a replay is abandoned (R350, R351, R359). -/
def State.quietKill (s : State) (g : Nat) : State :=
  if (Tab.find s.gangs g).any (·.replay.isSome) then s.abandon g else s.dropGang g

/-- A context fault (R350): FAULTED with its cause; every gang killed without a record; waiting records dropped. -/
def State.ctxFault (s : State) (c cause : Nat) : State :=
  let s := (s.gangsOf (·.ctx = c)).foldl State.quietKill s
  s.modCtx c fun x =>
    { x with st := .faulted, fcause := cause, fwait := [], ewait := [], pend := false
             queues := x.queues.map fun (e : Nat × HQueue) => (e.1, { e.2 with wait := [] }) }

/-- MSI-X vector 4 or 5, at most one message outstanding (R264). -/
def State.notify4 (s : State) (c : Nat) : State :=
  if (s.ctx c).msg4 then s else (s.modCtx c fun x => { x with msg4 := true }).say (.msix c 4)
def State.notify5 (s : State) (c : Nat) : State :=
  if (s.ctx c).msg5 then s else (s.modCtx c fun x => { x with msg5 := true }).say (.msix c 5)

/-- Writes a record of seven words and its SEQ to the fault queue and advances FQP (R223, R224). -/
def State.writeFault (s : State) (c : Nat) (ws : List Word) : State :=
  let x := s.ctx c
  match taddr s x (x.fqb.toNat + 32 * (x.fqp.toNat % 2 ^ x.fqk)) with
  | .ok a =>
    if tableOk a 32 then
      (({ s with hbm := Memory.write s.hbm a (wordBytes (ws ++ [x.fqp])) } : State).modCtx c fun x =>
        { x with fqp := x.fqp + 1 }).notify4 c
    else s.ctxFault c 3
  | .error _ => s.ctxFault c 3

/-- A record for the fault queue: written, or kept until room frees (R158, R223), unless the context takes none. -/
def State.putFault (s : State) (c : Nat) (ws : List Word) : State :=
  let x := s.ctx c
  if !x.records then s
  else if (x.fqp - x.fqc).toNat ≥ 2 ^ x.fqk ∨ x.fwait ≠ [] then s.modCtx c fun x => { x with fwait := x.fwait ++ [ws] }
  else s.writeFault c ws

/-- The words w0 to w6 of a fault record (R223). -/
def faultWords (cause kind : Nat) (tk : BitVec 16) (ctx core slot tid : Nat) (gang : Word) (addr : DWord) (gfn : Nat) :
    List Word :=
  [BitVec.ofNat 32 (cause * 2 ^ 24 + kind * 2 ^ 16 + tk.toNat), BitVec.ofNat 32 (ctx * 2 ^ 16 + core),
   BitVec.ofNat 32 (slot * 2 ^ 27 + tid), gang] ++ splitDWord addr ++ [BitVec.ofNat 32 gfn]

/-- The context whose queue takes a record: the hypervisor's for a stage-2 fault of a guest (R223). -/
def State.faultCtx (s : State) (c cause : Nat) : Nat :=
  let p := s.part (s.ctx c).part
  if cause = 2 ∧ p.hvv then p.hvc else c

/-- Posts a record about a thread of a block (R223, R224, R282). -/
def State.postFault (s : State) (k : Block) (cause kind : Nat) (tk : BitVec 16) (tid : Nat) (addr : DWord) (gfn : Nat) :
    State :=
  s.putFault (s.faultCtx k.ctx cause) (faultWords cause kind tk k.ctx k.core k.slot tid k.gidx addr gfn)

/-- Posts the records that waited, while there is room (R158). -/
def State.drainFaults (s : State) (c : Nat) : Nat → State
  | 0 => s
  | n + 1 =>
    let x := s.ctx c
    match x.fwait with
    | ws :: rest =>
      if (x.fqp - x.fqc).toNat < 2 ^ x.fqk ∧ x.records then
        ((s.modCtx c fun x => { x with fwait := rest }).writeFault c ws).drainFaults c n
      else s
    | [] => s

/-- The record of a kill (R282). -/
def State.postKill (s : State) (k : Block) (cause tid : Nat) (addr : DWord) (gfn : Nat) : State :=
  s.putFault k.ctx (faultWords cause 0 0 k.ctx k.core k.slot tid k.gidx addr gfn)

/-- RLMAX of a node's record (R274). -/
def Node.rlmax (n : Node) : Nat := bits (wordAt n.ws 8) 23 20

/-- The block of a gang at `sr.gblk` 0, or of its save record. -/
def State.firstBlock (s : State) (k : Gang) : Option Block :=
  match k.saved with
  | some r => r.blocks.head?
  | none => k.blocks.head?.bind s.blk

/-- What waits for placement beside a node's unplaced gangs ends with its grid: a replay is abandoned (R359), a relaunch
is killed with cause 22 and its own record (R282). -/
def State.endAgain (s : State) (c : Nat) (a : Again) : State :=
  if a.replay.isSome then s.modDev fun d => { d with audSkip := d.audSkip + 1 }
  else s.putFault c (faultWords 22 0 0 c a.core a.slot 0 (BitVec.ofNat 32 a.gidx) 0 0)

/-- A node fails (R281): nothing more of it is placed, every gang of it that has not exited is killed with cause 22, and
what waited for placement beside the unplaced gangs ends. -/
def State.gridFail (s : State) (n : Nat) : State :=
  let waiting := (Tab.find s.nodes n).map fun x => (x.ctx, x.again)
  let s := s.modNode n fun x => { x with failed := true, next := (wordAt x.ws 4).toNat, again := [] }
  let s : State := match waiting with
    | some (c, l) => l.foldl (fun s a => State.endAgain s c a) s
    | none => s
  (s.gangsOf fun g => g.node = n && g.st ≠ .exited).foldl (fun s g =>
    match Tab.find s.gangs g with
    | none => s
    | some k =>
      if k.replay.isSome then s.abandon g
      else match s.firstBlock k with
        | some b => (s.dropGang g).postKill b 22 0 0 0
        | none => s.dropGang g) s

/-- A gang is killed (R133, R281, R282): `b` the block that caused it, `tid` its thread. A relaunch keeps where the gang's
first block stood, for a record of its own. -/
def State.killGang (s : State) (g : Nat) (b : Block) (cause tid : Nat) (addr : DWord) (gfn : Nat) : State :=
  match Tab.find s.gangs g with
  | none => s
  | some k =>
    if k.replay.isSome then s.abandon g
    else
      let first := (s.firstBlock k).getD b
      let s := (s.dropGang g).postKill b cause tid addr gfn
      match Tab.find s.nodes k.node with
      | none => s
      | some n =>
        if (cause = 16 ∨ cause = 21) ∧ k.rel < n.rlmax then
          s.modNode k.node fun n =>
            { n with again := n.again ++ [{ gidx := k.gidx, rel := k.rel + 1, audit := cause = 21, core := first.core, slot := first.slot }]
                     reln := n.reln + 1 }
        else s.gridFail k.node

end Sys2Proof.Machine
end

