-- ==== Sys2Proof/Machine/Gang.lean ====
section
/-! DEFINITION. Windows and horizons, ripples, the end of blocks and gangs (spec/08_operation.md R151, R152, R157;
spec/07_group.md R123, R124, R133; spec/10_barrier.md R202; spec/26_reliability.md R359). -/

namespace Sys2Proof.Machine

/-! ## The horizon -/

/-- `sr.hz`: the ticket of the oldest operation not settled, else `sr.tnext` (R151). -/
def Thread.hz (x : Thread) : BitVec 16 := match x.win with
  | [] => x.tnext
  | o :: _ => o.tk

/-- The span u of the window (R151). -/
def Thread.span (x : Thread) : Nat := (x.tnext - x.hz).toNat

/-- PASSED (R152). -/
def Thread.passed (x : Thread) (tk : BitVec 16) : Bool :=
  let a := (x.tnext - tk).toNat
  if 1 ≤ a ∧ a ≤ 2 ^ 15 then a > x.span else x.span = 0

/-- Nothing of the thread is unsettled. -/
def Thread.settled (x : Thread) : Bool := x.win = []

/-- The horizon moves past leading settled tickets, and the escape record clears once its watermark has passed
(R154, R157): mark, count and log; W stays as it is. -/
def Thread.settleTail (x : Thread) : Thread :=
  let x := { x with win := x.win.dropWhile (·.st = .settled) }
  if x.esc.mark && x.passed (x.esc.w - 1) then { x with esc := { w := x.esc.w } } else x

/-- An escape of a kind, while the thread is provisional (R157): `off` the PC's offset from E. -/
def Thread.escape (x : Thread) (kind : Nat) (off : Word) : Thread :=
  if x.span = 0 then x
  else { x with esc := { mark := true, n := min 255 (x.esc.n + 1), w := x.tnext
                         log := if x.esc.n < 4 then x.esc.log ++ [(off, kind)] else x.esc.log } }

def Thread.modOp (x : Thread) (tk : BitVec 16) (f : Op → Op) : Thread :=
  { x with win := x.win.map fun o => if o.tk = tk then f o else o }
def Thread.op (x : Thread) (tk : BitVec 16) : Option Op := x.win.find? (·.tk = tk)

/-- Operations of a core that are not settled (R151). -/
def State.coreWindow (s : State) (core : Nat) : Nat :=
  ((s.blocks.filter fun e => e.2.core = core).map fun e =>
    (e.2.thr.map fun t => (t.2.win.filter (·.st ≠ .settled)).length).sum).sum

/-! ## Ripples -/

/-- PACK's lists (R123): each thread, in ascending index, joins the first list without its home lane. -/
def packInto (t : Nat) : List (List Nat) → List (List Nat)
  | [] => [[t]]
  | l :: ls => if l.any fun u => u % 32 = t % 32 then l :: packInto t ls else (l ++ [t]) :: ls
def packLists (ts : List Nat) : List (List Nat) := ts.foldl (fun ls t => packInto t ls) []

/-- Ripples that a scheduler of a core holds. -/
def State.schedLoad (s : State) (core sch : Nat) : Nat :=
  ((s.blocks.filter fun e => e.2.core = core).map fun e => (e.2.rip.filter fun r => r.2.sched = sch).length).sum

/-- The scheduler with the fewest ripples, the lowest-numbered of several (R123). -/
def State.pickSched (s : State) (core : Nat) : Nat :=
  (List.range 4).foldl (fun b c => if s.schedLoad core c < s.schedLoad core b then c else b) 0

/-- A new ripple of a block: its threads in slots 0 upward (R123). -/
def State.addRipple (s : State) (b : Nat) (ts : List Nat) (busy : Option Instr) (stall : Option (Nat × Nat)) : State :=
  match s.blk b with
  | none => s
  | some k => s.modBlk b fun k' =>
    { k' with nextRip := k.nextRip + 1
              rip := Tab.put k'.rip k.nextRip
                { slots := ts.zipIdx.map fun e => (e.2, e.1), sched := s.pickSched k.core, busy := busy, stall := stall } }

/-- PACK of a set in ascending index (R123). -/
def State.pack (s : State) (b : Nat) (ts : List Nat) (busy : Option Instr) (stall : Option (Nat × Nat)) : State :=
  (packLists ts).foldl (fun s l => s.addRipple b l busy stall) s

/-- A ripple's threads in slot order. -/
def Ripple.threads (r : Ripple) : List Nat := r.slots.map Prod.snd

/-- Insertion in ascending order, without repeats. -/
def insNat (n : Nat) : List Nat → List Nat
  | [] => [n]
  | m :: l => if n < m then n :: m :: l else if n = m then m :: l else m :: insNat n l
def sortNat (l : List Nat) : List Nat := l.foldl (fun r n => insNat n r) []

/-- How regrouping tells threads apart: the PC, and whether the thread runs on, is HELD, or stands at its instruction.
DESIGN CHOICE: R124 orders sets by PC alone; of sets that share one, those that run on are packed first, then the HELD,
then those that stand (log entry 68). -/
def groupKey (x : Thread) (stands : Bool) : Nat := 4 * x.pc.toNat + if stands then 2 else if x.st = .held then 1 else 0

/-- Regroups a ripple (R124): exited threads leave their slots; one PC keeps the slots; else it is dissolved and each
set is packed in ascending order of PC. The threads of `stands` stay at instruction `busy` or in a fetch stall. -/
def State.regroup (s : State) (b r : Nat) (busy : Option Instr) (stall : Option (Nat × Nat)) (stands : List Nat) : State :=
  match s.blk b with
  | none => s
  | some k => match Tab.find k.rip r with
    | none => s
    | some rp =>
      let key (t : Nat) : Nat := match Tab.find k.thr t with
        | some x => groupKey x (stands.contains t)
        | none => 0
      let slots := rp.slots.filter fun e => match Tab.find k.thr e.2 with
        | some x => x.st ≠ .exited
        | none => false
      let ts := slots.map Prod.snd
      let at_ (n : Nat) : Option Instr × Option (Nat × Nat) := if n % 4 = 2 then (busy, stall) else (none, none)
      let del := s.modBlk b fun k => { k with rip := Tab.del k.rip r }
      match sortNat (ts.map key) with
      | [] => del
      | [n] => s.modRip b r fun rp => { rp with slots := slots, busy := (at_ n).1, stall := (at_ n).2 }
      | keys => keys.foldl (fun s n => s.pack b (sortNat (ts.filter fun t => key t = n)) (at_ n).1 (at_ n).2) del

/-- The ripple that holds a thread, and the thread's slot (R125). -/
def Block.ripOf (k : Block) (t : Nat) : Option (Nat × Nat × Ripple) :=
  (k.rip.find? fun e => e.2.threads.contains t).bind fun e =>
    (e.2.slots.find? fun p => p.2 = t).map fun p => (e.1, p.1, e.2)

/-- The lane page register of a thread (R183). -/
def Block.laneOf (k : Block) (t : Nat) : Option Nat := (k.ripOf t).map fun e => 32 * e.2.2.sched + e.2.1

/-- A thread that has trapped out of its ripple leaves it (R124, R160): the ripple is dissolved, and the others, at their
instruction or fetch stall still, are packed apart from it. -/
def State.leaveRipple (s : State) (b t : Nat) : State :=
  match (s.blk b).bind fun k => k.ripOf t with
  | none => s
  | some (r, _, rp) =>
    let stays := rp.busy.isSome || rp.stall.isSome
    s.regroup b r rp.busy rp.stall (if stays then rp.threads.filter (· ≠ t) else [])

/-- Whether a block's gang is STOPPING (R133). -/
def State.stopping (s : State) (k : Block) : Bool := (Tab.find s.gangs k.gang).any (·.st = .stopping)

/-! ## Gang barriers (R202) -/

/-- The phase of gang barrier `n` completes when some thread has arrived and every thread not EXITED has. -/
def State.gangBarCheck (s : State) (g n : Nat) : State :=
  match Tab.find s.gangs g with
  | none => s
  | some k =>
    let bs := k.blocks.filterMap fun b => (s.blk b).map fun x => (b, x)
    let bit (x : Block) (t : Nat) : Bool := (Tab.get 0 x.garr n).getLsbD t
    let some_ := bs.any fun e => (Tab.get 0 e.2.garr n) ≠ 0
    if some_ && bs.all (fun e => e.2.live.all fun t => bit e.2 t) then
      (k.blocks.foldl (fun s b => s.modBlk b fun x => { x with garr := Tab.del x.garr n }) s).modGang g fun k =>
        { k with gb := Tab.put k.gb n (Tab.get 0 k.gb n + 1) }
    else s
def State.gangBarChecks (s : State) (g : Nat) : State := (List.range 4).foldl (fun s n => s.gangBarCheck g n) s

/-! ## The end of a gang -/

/-- A chain that will do nothing more: ESEQ = NQ, or ERROR with no piece still under way (R268, R280). -/
def Chain.idle (c : Chain) : Bool := c.cmd.isNone && (c.err ≠ 0 || c.eseq = c.nq)
def Block.chainsIdle (k : Block) : Bool := k.chain.all fun e => e.2.idle

/-- Drops what is left of an exited gang once its chains are still (R265, R280). -/
def State.reap (s : State) (g : Nat) : State :=
  match Tab.find s.gangs g with
  | none => s
  | some k =>
    let bs := k.blocks.filterMap s.blk
    if k.st = .exited && bs.all Block.chainsIdle then
      let bad := bs.any fun x => x.chain.any fun e => e.2.err ≠ 0
      (s.dropGang g).modNode k.node fun n => { n with chainBad := n.chainBad || bad }
    else s

/-- A replay that exits is compared with its original (R359). -/
def State.auditCompare (s : State) (g : Nat) (k : Gang) (r : Replay) : State :=
  let s := (s.dropGang g).modDev fun d => { d with audCnt := d.audCnt + 1 }
  if k.sig = r.sig then s
  else
    -- The original counts as killed: what is left of it goes, its chains with it.
    let s := (s.gangsOf fun o => o.node = k.node && o.gidx = k.gidx).foldl State.dropGang s
    let s := s.modDev fun d => { d with audMis := d.audMis + 1 }
    let s := s.putFault k.ctx (faultWords 21 0 0 k.ctx r.core r.slot 0 (BitVec.ofNat 32 k.gidx) 0 0)
    match Tab.find s.nodes k.node with
    | none => s
    | some n =>
      if r.rel < n.rlmax then s.modNode k.node fun n =>
        { n with again := n.again ++ [{ gidx := k.gidx, rel := r.rel + 1, audit := true, core := r.core, slot := r.slot }]
                 reln := n.reln + 1 }
      else s.gridFail k.node

/-- A gang exits (R133): its core resources are freed, its chunk fires (R337), a sampled gang is to be replayed. -/
def State.gangExit (s : State) (g : Nat) : State :=
  match Tab.find s.gangs g with
  | none => s
  | some k => match k.replay with
    | some r => s.auditCompare g k r
    | none =>
      let first : Option Block := k.blocks.head?.bind s.blk
      let s := k.blocks.foldl (fun s b => match s.blk b with
        | some x => (s.modCore x.core (·.without b)).modBlk b fun x => { x with rsv := [], bar := [] }
        | none => s) s
      let s := (s.modGang g fun k => { k with st := .exited }).preemptDone k.ctx
      let s := match Tab.find s.nodes k.node with
        | none => s
        | some n =>
          let w := wordAt n.ws 22
          let fire := w.getLsbD 31
          let s := s.modNode k.node fun n =>
            { n with fires := n.fires + fire.toNat
                     again := if k.sampled then
                         { gidx := k.gidx, rel := k.rel
                           replay := some { sig := k.sig, cluster := k.cluster, rel := k.rel
                                            core := (first.map Block.core).getD 0
                                            slot := (first.map Block.slot).getD 0 } } :: n.again
                       else n.again }
          if fire then s.modDev fun d =>
            let f : Fire := { ctx := k.ctx, grp := bits w 30 20, chunk := bits w 19 0 + k.gidx, by_ := .node k.node }
            { d with fires := d.fires ++ [f] }
          else s
      s.reap g

/-- A block whose last thread has exited is DONE, and its gang exits when all are (R133, R141). -/
def State.blockCheck (s : State) (b : Nat) : State :=
  match s.blk b with
  | none => s
  | some k =>
    if k.live ≠ [] ∨ k.done then s
    else
      let s := s.modBlk b fun k => { k with done := true }
      match Tab.find s.gangs k.gang with
      | none => s
      | some g => if g.blocks.all fun b => (s.blk b).any (·.done) then s.gangExit k.gang else s

end Sys2Proof.Machine
end

