-- ==== Sys2Proof/Machine/Remote.lean ====
section
/-! DEFINITION. What one device asks of another and of its ports, heat, writes at a page's owner, and the reads and writes
that the device itself makes (spec/14_link.md R247 to R257; spec/12_page.md R221, R222; spec/13_migration.md R234, R235,
R239; spec/09_memory.md R191; spec/27_host.md R366, R367). -/

namespace Sys2Proof.Machine

/-! ## Routes (R247, R248) -/

/-- The link of device `a` that leads to device `b` (R247). -/
def linkTo (a b : Nat) : Option Nat :=
  let qa := a % 16
  let qb := b % 16
  if a / 16 = b / 16 then (if qa = qb then none else some (if qb < qa then qb else qb - 1))
  else if qa = qb then some (15 + (b / 16 + 3 - a / 16) % 4) else none

/-- The device at the other end of link `j` of a device (R247). -/
def linkPeer (a j : Nat) : Nat :=
  if j < 15 then a / 16 * 16 + (if j < a % 16 then j else j + 1)
  else (a / 16 + (j - 15) + 1) % 4 * 16 + a % 16

/-- Whether the map shows the link from `a` to `b` UP; a device's own links follow their states (R249). -/
def State.hopUp (s : State) (a b : Nat) : Bool :=
  match linkTo a b with
  | none => false
  | some j => if a = s.dev.rank then (s.dev.link j).st = .up else (Tab.get (.down, 0) s.dev.map (18 * a + j)).1 = .up

/-- Whether every link of a path of devices is UP in the map. -/
def State.pathUp (s : State) : List Nat → Bool
  | a :: b :: rest => s.hopUp a b && s.pathUp (b :: rest)
  | _ => true

/-- The lowest position k from `lo` on, other than those of the two ends, whose path is UP. -/
def State.viaK (s : State) (q p lo : Nat) (path : Nat → List Nat) : Option (Nat × List Nat) :=
  ((List.range 16).find? fun k => lo ≤ k && k ≠ q && k ≠ p && s.pathUp (path k)).map fun k => (k, path k)

/-- Route `n` to a rank, if it is usable: the position it goes through, plus one, and its path. `via` is what route 2
went through, plus one, or 0 (R248). -/
def State.route (s : State) (dst n via : Nat) : Option (Nat × List Nat) :=
  let me := s.dev.rank
  let b := me / 16
  let q := me % 16
  let b' := dst / 16
  let p := dst % 16
  let fixed (path : List Nat) : Option (Nat × List Nat) := if s.pathUp path then some (0, path) else none
  let across (k : Nat) : List Nat := [me, 16 * b + k, 16 * b' + k, dst]
  let within (k : Nat) : List Nat := [me, 16 * b + k, dst]
  let lo := if n = 3 then via else 0
  let numbered (r : Option (Nat × List Nat)) : Option (Nat × List Nat) := r.map fun e => (e.1 + 1, e.2)
  if b = b' ∧ q = p then none
  else if b = b' then (if n = 1 then fixed [me, dst] else numbered (s.viaK q p lo within))
  else if p = q then (if n = 1 then fixed [me, dst] else numbered (s.viaK q p lo across))
  else match n with
    | 1 => fixed [me, 16 * b' + q, dst]
    | 2 => fixed [me, 16 * b + p, dst]
    | _ => numbered (s.viaK q p 0 across)

/-- The route on which a request that has gone out on the routes `tried` goes next (R255, R256): the first usable one
after the last, else the first usable of those passed over; `via` is what route 2 went through. Its number, what it goes through, its path. -/
def State.nextRoute (s : State) (dst last via : Nat) (tried : List Nat) : Option (Nat × Nat × List Nat) :=
  let at_ (m : Nat) : Option (Nat × Nat × List Nat) :=
    if tried.contains m then none else (s.route dst m via).map fun e => (m, e.1, e.2)
  match ([1, 2, 3].filter (· > last)).findSome? at_ with
  | some e => some e
  | none => [1, 2, 3].findSome? at_

/-- The first usable route of a new request. -/
def State.firstRoute (s : State) (dst : Nat) : Option (Nat × Nat × List Nat) := s.nextRoute dst 0 0 []

/-! ## Requests (R254) -/

/-- A tag that no unanswered request has and no late response may bear (R254, R257): the search goes on from the last
tag given. None where all 65,536 are taken. -/
def State.freeTag (s : State) : Option Nat :=
  let d := s.dev
  (List.range (d.reqs.length + d.dead.length + 1)).findSome? fun i =>
    let n := (d.nextTag + i) % 65536
    if (Tab.find d.reqs n).isSome || d.dead.contains n then none else some n

/-- An unanswered request is kept under its tag. -/
def State.keepReq (s : State) (tag : Nat) (p : Pend) : State :=
  s.modDev fun d => { d with reqs := Tab.put d.reqs tag { p with seq := d.nextSeq }
                             nextTag := (tag + 1) % 65536, nextSeq := d.nextSeq + 1 }

/-- Whether a request asks something of its page, and so keeps the order of R239. -/
def reqPaged (r : FabReq) : Bool :=
  match r.kind with
  | .load | .loadNr | .store | .red | .atom | .mldr | .pgreq | .copyRead | .copyWrite | .probe => true
  | .pgmove => r.aop = 0
  | _ => false

/-- Whether a request goes to one rank, whoever owns its page: a member of a group (R342), the stub holder of
entries-updated (R246), the destination of a move. -/
def reqFixed (r : FabReq) : Bool := r.kind = .mldr || !reqPaged r

/-- An entry of the owner cache that a request uses becomes the most recently used (R238). -/
def State.touchOwner (s : State) (ldom page : Nat) : State :=
  s.modDev fun d =>
    let mine (e : OwnEntry) : Bool := e.ldom = ldom && e.page = page
    { d with owners := d.owners.filter mine ++ d.owners.filter fun e => !mine e }

/-- What becomes of a request: it is out under a tag, no route or port can carry it, or it waits for a free tag. -/
inductive Sent where
  | out (tag : Nat) (s : State)
  | noRoute
  | noTag
  deriving DecidableEq, Repr

/-- The revision of a target in this device's table (R253). -/
def State.revOf (s : State) (dst : Nat) : Nat := (Tab.get (0, 0) s.dev.peers dst).1.toNat

/-- A request to a rank leaves on its first usable route, or waits behind a redirect of its page (R239). -/
def State.request (s : State) (dst : Nat) (r : FabReq) (qf : Bool) (who : Waiter) (fill : Option Fill) (place : Nat) :
    Sent :=
  let held := reqPaged r && s.dev.holds.any fun h => h.ldom = r.ldom && h.page = pageNo r.addr
  match s.firstRoute dst, s.freeTag with
  | none, none => if held then .noTag else .noRoute
  | _, none => .noTag
  | route, some tag =>
    let r := { r with src := s.dev.rank, tag := tag, rev := s.revOf dst }
    let p : Pend := { req := r, dst := dst, route := 0, qf := qf, who := who, fill := fill, place := place }
    let s := if reqPaged r then s.touchOwner r.ldom (pageNo r.addr) else s
    if held then .out tag (s.keepReq tag { p with held := true })
    else match route with
      | none => .noRoute
      | some e => .out tag
          ((s.keepReq tag { p with route := e.1, via := e.2.1, mid := if e.1 = 2 then e.2.1 else 0, tried := [e.1] }).say
            (.req dst e.1 r))

/-- The EXP ports, ascending, each with the bounds of its capacity in a concatenated LOC 3 space (R367). -/
def expSpans (roles : BitVec 8) : List (Nat × Nat × Nat) :=
  (((List.range 8).filter roles.getLsbD).foldl (fun (acc : List (Nat × Nat × Nat) × Nat) i =>
    (acc.1 ++ [(i, acc.2, acc.2 + Config.expCapacity i)], acc.2 + Config.expCapacity i)) ([], 0)).1

/-- The EXP ports that `n` bytes of the LOC 3 space use, by the strapped layout (R367); none where the space does not hold
them all. -/
def Dev.expPorts (d : Dev) (a n : Nat) : List Nat :=
  let ps := (List.range 8).filter d.roles.getLsbD
  if d.interleave then
    (List.range (min ps.length ((a + n - 1) / 4096 - a / 4096 + 1))).map fun j => ps.getD ((a / 4096 + j) % ps.length) 0
  else
    let spans := expSpans d.roles
    if (spans.any fun e => a + n ≤ e.2.2) then (spans.filter fun e => e.2.1 < a + n && a < e.2.2).map Prod.fst else []

/-- Whether every port that `n` bytes of LOC 3 use is UP. -/
def State.expUp (s : State) (a n : Nat) : Bool :=
  s.dev.expPorts a n ≠ [] && (s.dev.expPorts a n).all fun i => (Tab.get {} s.dev.ports i : Port).st = 2

/-- Whether the port of a LOC 2 or LOC 3 access is UP: the HOST port that the frame names (R366); the EXP port that the
layout gives for the address (R367). -/
def State.portUp (s : State) (loc a : Nat) : Bool :=
  if loc = 2 then
    let hosts := (List.range 8).filter fun i => !s.dev.roles.getLsbD i
    let n := hosts.length
    if n = 0 then false else (Tab.get {} s.dev.ports (hosts.getD (a / 65536 % 8 % n) 0) : Port).st = 2
  else s.expUp a 1

/-- An access that a port carries, if the port is UP. -/
def State.portRequest (s : State) (loc a : Nat) (r : FabReq) (qf : Bool) (who : Waiter) (fill : Option Fill) : Sent :=
  if !s.portUp loc a then .noRoute
  else match s.freeTag with
    | none => .noTag
    | some tag =>
      let r := { r with src := s.dev.rank, tag := tag }
      let p : Pend :=
        { req := r, dst := s.dev.rank, qf := qf, who := who, fill := fill, port := some loc, loc := loc, place := a }
      .out tag ((s.keepReq tag p).say (.portReq tag loc (kindWrites r.kind) a r))

/-- Whether a write to bytes of a range is not yet answered. -/
def State.storeOut (s : State) (loc a n : Nat) : Bool :=
  s.dev.reqs.any fun e => kindWrites e.2.req.kind && e.2.loc = loc && e.2.place < a + n && a < e.2.place + e.2.req.size

/-! ## Heat (R221, R222, R244) -/

/-- The half of the fabric unit that keeps a page's entries of the heat table, the stub table, the owner cache and the
migration engine: bit 16 of the page's address (R11). -/
def halfOf (page : Nat) : Nat := page % 2

/-- A counted request of a rank to a page of a context, and the move that it may ask for. -/
def State.countHeat (s : State) (ctx page : Nat) (att : Att) (rank : Nat) : State :=
  let d := s.dev
  let cur := d.heat.find? fun h => h.page = page && h.ctx = ctx
  let rest := d.heat.filter fun h => !(h.page = page && h.ctx = ctx)
  let mine := d.heat.filter fun h => halfOf h.page = halfOf page
  let victim := rest.foldl (fun (v : Option Heat) h =>
    if h.pend || halfOf h.page ≠ halfOf page then v else match v with
      | none => some h
      | some w => if h.heat < w.heat then some h else v) none
  let room : Option (List Heat) :=
    if cur.isSome ∨ mine.length < 32768 then some rest else victim.map fun v => rest.filter (· ≠ v)
  match room with
  | none => s
  | some rest =>
    let h : Heat := cur.getD { page := page, ctx := ctx }
    let h : Heat := { h with heat := min (h.heat + 1) 4095 }
    let h : Heat := if rank = h.top then { h with topc := min (h.topc + 1) 4095 }
      else if h.topc = 0 then { h with top := rank, topc := 1 } else { h with topc := h.topc - 1 }
    let ask := !h.pend && h.heat ≥ 256 * (att.ht + 1) - 1 && h.topc ≥ 1 && (att.loc ≠ 0 || h.top ≠ d.rank)
      && (d.mqueue.filter fun r => halfOf r.page = halfOf page).length < 128
    s.modDev fun d =>
      { d with heat := { h with pend := h.pend || ask } :: rest
               mqueue := if ask then
                   d.mqueue ++ [{ ctx := ctx, ldom := (s.ctx ctx).ldom, page := page, rank := h.top, tier := 0 }]
                 else d.mqueue }

/-! ## Writes at a page's owner (R234, R235) -/

/-- The move of a page of a context. -/
def State.moveOf (s : State) (ctx page : Nat) : Option (Nat × Move) :=
  s.dev.moves.find? fun e => e.2.r.ctx = ctx && e.2.r.page = page

/-- The mask of the chunks that bytes of a page touch (R234). -/
def chunkMask (off n : Nat) : DWord :=
  ((List.range 64).filter fun i => 1024 * i < off + n && off < 1024 * (i + 1)).foldl (fun m i => m ||| BitVec.twoPow 64 i) 0

/-- A write performed at an old frame sets the chunks' bits (R234). -/
def State.markDirty (s : State) (ctx : Nat) (addr : DWord) (n : Nat) : State :=
  match s.moveOf ctx (pageNo addr) with
  | some (m, _) => s.modDev fun d =>
      { d with moves := Tab.modify d.moves m fun v => { v with dirty := v.dirty ||| chunkMask (addr.toNat % 65536) n } }
  | none => s

/-- A write performed in local HBM or the CXL tier, at address `addr` of a context, place `a`. -/
def State.performWrite (s : State) (ctx : Nat) (addr : DWord) (loc a : Nat) (bs : List Byte) : State :=
  (s.placeWrite loc a bs).markDirty ctx addr bs.length

/-! ## Atomic operations (R191) -/

/-- The new element of an atomic on one element. -/
def atomElem (op : Nat) (ty : Ty) (old d : Nat) : Nat :=
  let w := ty.ew
  let less := asInt ty.signed w d < asInt ty.signed w old
  match tyFmt ty with
  | .fl F => match op with
    | 0 => (fSum F .rne (F.value old) (F.value d)).1
    | 1 => (fMinMax F false false old d).1
    | _ => (fMinMax F true false old d).1
  | _ => match op with
    | 0 => (old + d) % 2 ^ w
    | 1 => if less then d else old
    | 2 => if less then old else d
    | 3 => old &&& d
    | 4 => old ||| d
    | _ => old ^^^ d

/-- Bytes of an atomic's type. -/
def atomBytes (ty : Ty) : Nat := if ty.wide then 8 else 4

/-- The bytes that an atomic leaves: `old` the bytes read, `d` its data. -/
def atomNew (op : Nat) (ty : Ty) (old d : List Byte) : List Byte :=
  let n := atomBytes ty
  match op with
  | 6 => d.take n
  | 7 => if old = d.take n then (d.drop n).take n else old
  | _ =>
    let x := BitVec.ofNat 64 (leNat old)
    let y := BitVec.ofNat 64 (leNat (d.take n))
    leBytes n (pack ty.ew ((List.range ty.cnt).map fun j => atomElem op ty (elemAt ty.ew x j) (elemAt ty.ew y j))).toNat

/-- An atomic performed in local HBM or the CXL tier: the bytes read, and the state. -/
def State.performAtom (s : State) (ctx : Nat) (addr : DWord) (loc a op : Nat) (ty : Ty) (d : List Byte) :
    List Byte × State :=
  let old := s.placeRead loc a (atomBytes ty)
  (old, s.performWrite ctx addr loc a (atomNew op ty old d))

/-- The operations that PCIe AtomicOps carry to host memory (R191). -/
def hostAtom (op : Nat) (ty : Ty) : Bool :=
  (op = 0 && (ty = .i32 || ty = .n32 || ty = .i64 || ty = .n64)) || op = 6 || op = 7

/-- The capability bit of an atomic (R252). -/
def capBit (op : Nat) (ty : Ty) : Nat :=
  let arith := op ≤ 2
  if arith && ty = .f32 then 2
  else if arith && (ty = .bf16x2 || ty = .f16x2) then 3
  else if arith && ty = .f64 then 4
  else if ty.wide then 1 else 0

/-- Whether a rank's entry in the peer table has a capability (R252, R253). -/
def State.capable (s : State) (rank bit : Nat) : Bool := (Tab.get (0, 0) s.dev.peers rank).2.getLsbD bit

/-- The signature term of a byte that a sampled gang stores (R358). -/
def sigTerm (a : DWord) (b : Byte) : DWord :=
  let lo := a.extractLsb' 0 32
  let hi := a.extractLsb' 32 32
  coin lo hi (b.setWidth 32) 3 ++ coin lo hi (b.setWidth 32 ||| 0x100#32) 3

def sigTerms : DWord → List Byte → DWord
  | _, [] => 0
  | a, b :: bs => sigTerm a b + sigTerms (a + 1) bs

/-- A gang's stores add their terms, if it keeps a signature (R358, R359). -/
def State.sign (s : State) (g : Nat) (addr : DWord) (bs : List Byte) : State :=
  s.modGang g fun k => if k.sampled || k.replay.isSome then { k with sig := k.sig + sigTerms addr bs } else k

/-- What the gang of a block has written of marked granules grows by `n` bytes at `a` of local HBM (R356). -/
def State.noteWrite (s : State) (w : Waiter) (a n : Nat) : State :=
  match w.block.bind s.blk with
  | none => s
  | some k => ((granules a n).filter s.poisoned).foldl (fun s g => s.modGang k.gang fun x =>
      let from_ := max a g - g
      let len := min (a + n) (g + 4096) - max a g
      { x with mend := Tab.put x.mend (g / 4096) (Tab.get 0 x.mend (g / 4096) ||| BitVec.ofNat 4096 ((2 ^ len - 1) * 2 ^ from_)) }) s

/-- Whether a gang may read a granule: it is not marked, or the gang has written all of it (R185, check 7, R356). -/
def State.granuleOk (s : State) (gang : Option Nat) (a : Nat) : Bool :=
  !s.poisoned a || (gang.bind (Tab.find s.gangs)).any fun x => Tab.get 0 x.mend (a / 4096) = BitVec.allOnes 4096

/-! ## Pieces of an access (R184) -/

/-- Bytes split at line boundaries: offset, address, length. -/
def splitLines : Nat → Nat → DWord → Nat → List (Nat × DWord × Nat)
  | 0, _, _, _ => []
  | fuel + 1, off, addr, n =>
    let r := 128 - addr.toNat % 128
    if n = 0 then []
    else if n ≤ r then [(off, addr, n)]
    else (off, addr, r) :: splitLines fuel (off + r) (addr + BitVec.ofNat 64 r) (n - r)

def linePieces (addr : DWord) (n : Nat) : List (Nat × DWord × Nat) := splitLines (n / 128 + 2) 0 addr n

/-- The pieces of a page part: one a line, but a part of a strongly ordered page is one access (R318). -/
def partPieces (off : Nat) (addr : DWord) (n : Nat) (t : Option Trans) : List (Nat × DWord × Nat × Option Trans) :=
  if t.any fun t => t.att.ord = 0 then [(off, addr, n, t)]
  else (splitLines (n / 128 + 2) off addr n).map fun (q : Nat × DWord × Nat) => (q.1, q.2.1, q.2.2, t)

/-- The pieces of a judged access. -/
def judgedPieces (ps : List (Nat × DWord × Nat × Option Trans)) : List (Nat × DWord × Nat × Option Trans) :=
  ps.flatMap fun (p : Nat × DWord × Nat × Option Trans) => partPieces p.1 p.2.1 p.2.2.1 p.2.2.2

/-- A piece asked of a peer or a port; where nothing can carry it, failed with cause 5 or quiet (R155, R256, R366). None
where it waits for a tag; a residency request waits for a route too, since only rows 2 to 5 of R185 fail it (R194). -/
def State.ask (s : State) (t : Trans) (off n : Nat) (r : FabReq) (who : Waiter) (fill : Option Fill) :
    Option Part × State :=
  let ans := if t.att.loc = 1 then
      s.request (ownerOf s r.ldom t.att.peer (pageNo r.addr)) r t.att.qf who fill (t.key r.addr)
    else s.portRequest t.att.loc (t.key r.addr) r t.att.qf who fill
  match ans with
  | .out tag s => (some { key := off, len := n, tag := some tag }, s)
  | .noTag => (none, s)
  | .noRoute =>
    if r.kind = .pgreq then (none, s)
    else if t.att.qf && (r.kind = .load || r.kind = .loadNr || r.kind = .mldr) then
      (some { key := off, len := n, done := some 0, quiet := true }, s)
    else (some { key := off, len := n, done := some 5 }, s)

/-- A write or an atomic that waits at this device's own page in the final phase of a move (R235). -/
def State.holdWrite (s : State) (m loc a off n : Nat) (r : FabReq) (who : Waiter) : Option Part × State :=
  match s.freeTag with
  | none => (none, s)
  | some tag =>
    let r := { r with src := s.dev.rank, tag := tag }
    let p : Pend := { req := r, dst := s.dev.rank, who := who, loc := loc, place := a }
    (some { key := off, len := n, tag := some tag },
      (s.keepReq tag p).modDev fun d => { d with moves := Tab.modify d.moves m fun v => { v with held := v.held ++ [r] } })

/-- One piece of a store: `r` its request, with its data (R180, R313). In local HBM it is performed at once, through the
core's L1 and the device cache; elsewhere no copy takes its bytes, and none of them outlives the answer (R311, R321). -/
def State.writePiece (s : State) (core : Option Nat) (cn : Nat) (t : Trans) (off : Nat) (r : FabReq) (who : Waiter) :
    Option Part × State :=
  let n := r.data.length
  let a := t.key r.addr
  let here (s : State) : Option Part × State :=
    if t.att.loc = 0 then
      (some { key := off, len := n, done := some 0 },
        ((s.patchCaches core 0 a r.data).performWrite cn r.addr 0 a r.data).noteWrite who a n)
    else (s.noFills t.att.loc a n).ask t off n r who none
  match s.moveOf cn (pageNo r.addr) with
  | some (m, v) => if v.ph = .pass ∨ t.att.loc = 1 then here s else s.holdWrite m t.att.loc a off n r who
  | none => here s

/-! ## What the device itself writes and reads -/

/-- Why a write of the device's own does not take place: it failed, or it waits for a tag. -/
inductive NoWrite where
  | failed
  | waits
  deriving DecidableEq, Repr

/-- A write that the device itself makes to a context's global memory for a thread: its trap frame (R161). It fails where
any part faults or cannot be carried; a part that another device or a port performs is then unanswered under `who`. -/
def gwrite (s : State) (cn : Nat) (core : Option Nat) (who : Waiter) (addr : DWord) (bs : List Byte) :
    Except NoWrite State :=
  (pageParts addr bs.length).foldl (fun r p => r.bind fun s =>
    match walk s cn p.2.1 p.2.2 with
    | .ok t =>
      if !t.att.wr then .error .failed
      else (partPieces p.1 p.2.1 p.2.2 (some t)).foldl (fun r q => r.bind fun s =>
        let x := (bs.drop q.1).take q.2.2.1
        let w := s.writePiece core cn t q.1
          { kind := .store, src := s.dev.rank, tag := 0, ldom := (s.ctx cn).ldom, addr := q.2.1, size := x.length, data := x } who
        match w.1 with
        | none => .error .waits
        | some p => if p.done.any (· ≠ 0) then .error .failed else .ok w.2) (.ok s)
    | _ => .error .failed) (.ok s)

/-- Bytes that the device reads at once from outside it: free values (log entry 6). -/
def State.outside (s : State) : Nat → List Byte × State
  | 0 => ([], s)
  | n + 1 => let (bs, s) := s.outside n
             (bs ++ [Config.outsideByte s.fresh], s.tick)

/-- How a read at once from outside ends: 0, or poisoned, not reached, refused (R220, R256, R366): a free value. -/
def State.outsideEnd (s : State) : Nat × State :=
  (match Config.outsideStatus s.fresh % 4 with
    | 0 => 0
    | 1 => 3
    | 2 => 5
    | _ => 7, s.tick)

/-- A read that the device itself makes of a context's global memory: trap frames, descriptors, code. The error is
what the first failing part gives (R184, R185). -/
def gread (s : State) (cn : Nat) (addr : DWord) (n : Nat) (fetch : Bool) : Except Tr (List Byte) × State :=
  let parts := pageParts addr n
  let trs := parts.map fun p => (p, walk s cn p.2.1 p.2.2)
  let bad (p : Nat × DWord × Nat) (t : Tr) : Option Nat := match t with
    | .fail c => some c
    | .ok t =>
      let a := t.frame + p.2.1.toNat % 65536
      if !(if fetch then t.att.ex else t.att.rd) then some 1
      else match t.att.loc with
        | 0 => if s.poisonedIn a p.2.2 then some 3 else none
        | 1 => if (s.firstRoute (ownerOf s (s.ctx cn).ldom t.att.peer (pageNo p.2.1))).isNone then some 5 else none
        | l => if !s.portUp l a then some 5 else if l = 3 && s.cxlBad a p.2.2 then some 3 else none
    | _ => none
  match trs.findSome? fun x => bad x.1 x.2 with
  | some c => (.error (.fail c), s)
  | none => match trs.findSome? fun x => match x.2 with
      | .park c g => some (Tr.park c g)
      | _ => none with
    | some t => (.error t, s)
    | none => trs.foldl (fun (acc : Except Tr (List Byte) × State) x => match acc.1, x.2 with
        | .ok bs, .ok t =>
          if t.att.loc = 1 ∨ t.att.loc = 2 then
            let (c, s) := acc.2.outsideEnd
            if c ≠ 0 then (.error (.fail c), s)
            else let (o, s) := s.outside x.1.2.2; (.ok (bs ++ o), s)
          else (.ok (bs ++ acc.2.placeRead t.att.loc (t.frame + x.1.2.1.toNat % 65536) x.1.2.2), acc.2)
        | _, _ => acc) (.ok [], s)

/-- The first error not yet found in the local bytes of such a read (R356): its address, and its place. -/
def freshAt (s : State) (cn : Nat) (addr : DWord) (n : Nat) : Option (DWord × Nat) :=
  (pageParts addr n).findSome? fun p => match walk s cn p.2.1 p.2.2 with
    | .ok t =>
      let a := t.frame + p.2.1.toNat % 65536
      if t.att.loc = 0 then (s.latentIn a p.2.2).map fun x => (p.2.1 + BitVec.ofNat 64 x - BitVec.ofNat 64 a, x) else none
    | _ => none

end Sys2Proof.Machine
end

