-- ==== Sys2Proof/Machine/Ops.lean ====
section
/-! DEFINITION. The named operations: registers, shapes and latches; caches at an acquire; taking an exception and
returning from one; issuing an instruction (spec/03_register.md, spec/07_group.md R122 to R124, R128;
spec/08_operation.md R161 to R164). -/

namespace Sys2Proof.Machine

/-! ## Registers -/

/-- What a thread reads of a v register (R52). -/
def VVal.at (v : VVal) (t : Nat) : Word :=
  match v with
  | .u w => w
  | .a b s => b + s * BitVec.ofNat 32 t
  | .g ws => Tab.get 0 ws t

/-- The tag code (R52). -/
def VVal.tag : VVal → Nat
  | .u _ => 0
  | .a _ _ => 1
  | .g _ => 2

def Block.vreg (k : Block) (n : Nat) : VVal := Tab.get (.u 0) k.v n

/-- Word `i` of a register operand for a thread. -/
def Block.regWord (k : Block) (t : Nat) (x : Thread) (s : Sel) (i : Nat) : Word :=
  match s with
  | .v n => (k.vreg (n.toNat + i)).at t
  | .o n => Tab.get 0 x.o (n.toNat + i)
  | _ => 0

/-- A latch by number. -/
def Thread.latch (x : Thread) (n : BitVec 2) : Latch :=
  match n.toNat with
  | 0 => x.l0
  | 1 => x.l1
  | 2 => x.l2
  | _ => x.l3

def Latch.bits : Latch → DWord
  | .val v => v
  | _ => 0

/-- A push (R46). -/
def Thread.push (x : Thread) (l : Latch) : Thread := { x with l3 := x.l2, l2 := x.l1, l1 := x.l0, l0 := l }

/-- A latch-clear point (R47). -/
def Thread.clearLatches (x : Thread) : Thread := { x with l0 := .invalid, l1 := .invalid, l2 := .invalid, l3 := .invalid }

/-- A register or pair, or `n` registers, as bytes from the lowest register up. -/
def Block.regBytes (k : Block) (t : Nat) (x : Thread) (s : Sel) (n : Nat) : List Byte :=
  wordBytes ((List.range n).map fun i => k.regWord t x s i)

/-- The value of a predicate source: `0x119` is 0 (R67). -/
def Thread.predSel (x : Thread) (s : Sel) : Bool :=
  match s with
  | .p n => predBit x.p n.toNat
  | _ => false

/-- A source read as 32 bits whatever the type (R30). -/
def Block.src32 (k : Block) (t : Nat) (x : Thread) (lit : Option Word) (s : Sel) : Word :=
  match s with
  | .v _ | .o _ => k.regWord t x s 0
  | .l n => lo32 (x.latch n).bits
  | .lit => lit.getD 0
  | .small c => BitVec.ofInt 32 ((c.toNat : Int) - 16)
  | .p n => if predBit x.p n.toNat then 1 else 0
  | _ => 0

/-- A register pair or a latch as 64 bits. -/
def Block.pair (k : Block) (t : Nat) (x : Thread) (s : Sel) : DWord :=
  match s with
  | .l n => (x.latch n).bits
  | _ => k.regWord t x s 1 ++ k.regWord t x s 0

/-- A source in an element format with a count of elements, `n` registers wide (R30, R31, R118). -/
def Block.srcIn (k : Block) (t : Nat) (x : Thread) (lit : Option Word) (f : ElemFmt) (cnt n : Nat) (s : Sel) : DWord :=
  match s with
  | .v _ | .o _ => if n = 2 then k.pair t x s else (k.regWord t x s 0).setWidth 64
  | .l m => if n = 2 then (x.latch m).bits else (lo32 (x.latch m).bits).setWidth 64
  | .lit => litIn f (lit.getD 0)
  | .small c => constIn f cnt ((c.toNat : Int) - 16)
  | .p m => constIn f cnt (if predBit x.p m.toNat then 1 else 0)
  | _ => 0

/-- The integer format in which a "64" source reads a constant (R67, log entry 10). -/
def fmt64 (ty : Ty) : ElemFmt := .int (ty.signed) 64

/-- The value of one source field for a thread, by the role its entry gives it. -/
def Block.srcVal (k : Block) (t : Nat) (x : Thread) (f : Std) (r : SrcRole) (p : BitVec 2) (s : Sel) : DWord :=
  match r with
  | .val => reshape f.ty p (k.srcIn t x f.lit (tyFmt f.ty) f.ty.cnt (if f.ty.wide then 2 else 1) s)
  | .w32 | .disp | .offset | .vreg => (k.src32 t x f.lit s).setWidth 64
  | .w64 => k.srcIn t x f.lit (fmt64 f.ty) 1 2 s
  | .target | .addr => k.pair t x s
  | .pred => if x.predSel s then 1 else 0
  | _ => 0

/-! ## Which registers, latches and predicates an instruction uses -/

/-- v register n is n, o register n is 256 + n. -/
def runRegs (s : Sel) (n : Nat) : List Nat :=
  match s with
  | .v k => (List.range n).map fun i => k.toNat + i
  | .o k => (List.range n).map fun i => 256 + k.toNat + i
  | _ => []

/-- What an instruction reads and writes. -/
structure Uses where
  rd : List Nat := []
  wr : List Nat := []
  prd : List Nat := []
  pwr : List Nat := []
  /-- Latch sources in the order of R48. -/
  lat : List (BitVec 2) := []
  deriving DecidableEq, Repr

def Uses.join (a b : Uses) : Uses :=
  { rd := a.rd ++ b.rd, wr := a.wr ++ b.wr, prd := a.prd ++ b.prd, pwr := a.pwr ++ b.pwr, lat := a.lat ++ b.lat }

/-- A source of `n` registers. -/
def srcUse (s : Sel) (n : Nat) : Uses :=
  match s with
  | .p k => if k.toNat < 7 then { prd := [k.toNat] } else {}
  | .l k => { lat := [k] }
  | s => { rd := runRegs s n }

/-- A destination of `n` registers, or a predicate. -/
def dstUse (s : Sel) (n : Nat) : Uses :=
  match s with
  | .p k => { pwr := [k.toNat] }
  | s => { wr := runRegs s n }

/-- The registers of a source role. -/
def srcCount (ty : Ty) : SrcRole → Nat
  | .val => if ty.wide then 2 else 1
  | .w32 | .disp | .vreg | .offset => 1
  | .w64 | .target | .addr => 2
  | .group n _ | .vgroup n _ | .data n => n
  | _ => 0

/-- The registers of a destination role. -/
def dstCount (ty : Ty) : DstRole → Nat
  | .val => if ty.wide then 2 else 1
  | .w32 | .vreg => 1
  | .w64 => 2
  | .group n _ | .data n => n
  | _ => 0

def roleUse (ty : Ty) (r : SrcRole) (s : Sel) : Uses :=
  match r with
  | .unused | .barred | .modifier _ | .own => {}
  | r => srcUse s (srcCount ty r)

/-- The uses of an instruction that follows a rule. -/
def stdUses (f : Std) (r : Rule) : Uses :=
  (((roleUse f.ty r.a f.a).join (roleUse f.ty r.b f.b)).join (roleUse f.ty r.c f.c)).join
    (match r.d with
     | .own => {}
     | d => dstUse f.d (dstCount f.ty d))

/-- The predicate that a func field names beside the operands: 7 is none (R71, R72). -/
def funcPred (f : Std) : List Nat := if f.func.toNat < 7 then [f.func.toNat] else []

/-- What a thread reads and writes in DRAWR: three words of each group, the parameter group only where it is the thread
whose group counts (R327, R330). -/
def drawrUses (f : Std) (own : Bool) : Uses :=
  (((srcUse f.a 1).join (srcUse f.b 1)).join (if own then { rd := runRegs f.c 3 } else {})).join (dstUse f.d 3)

/-- What each instruction reads and writes, its guard apart. -/
def instrUses (i : Instr) : Uses :=
  match i with
  | .ret f => srcUse f.a 2
  | .movS f => (srcUse f.a 1).join (dstUse f.d 1)
  | .sread f | .hread f => dstUse f.d 1
  | .swrt f => srcUse f.a 1
  | .cvt f =>
    let nd := if cvtPair f.cvtTgt then 2 else 1
    let u := ((srcUse f.a (if cvtPair f.cvtSrc then 2 else 1)).join
      (if f.cvtMode = 4 then srcUse f.b 1 else {})).join (dstUse f.d nd)
    if cvtCount f.cvtTgt > cvtCount f.cvtSrc then u.join { rd := runRegs f.d nd } else u
  | .mxloop f => { rd := runRegs f.p (if f.gr then 6 else if f.dr then 5 else 0) }
  | .enq f => { rd := runRegs f.grp 16, wr := runRegs f.d 1 }
  | .drawr f => drawrUses f true
  | .drawm f => ((({ rd := runRegs f.lg 3 ++ runRegs f.rg 3 ++ runRegs f.pg 3 } : Uses).join (srcUse f.pos 1)).join
      (dstUse f.d 3))
  | .agdef f => { rd := (if f.del then [] else runRegs f.base 2) ++ runRegs f.mask 2 }
  | .mldr f => ((srcUse f.off 1).join { rd := if f.op.toNat ≥ 6 then runRegs f.pg 4 else [] }).join
      (dstUse f.d (mldrGroup f).1)
  | i => match i.rule ⟨256, true, true⟩ with
    | none => {}
    | some (f, r) =>
      let u := stdUses f r
      match i with
      | .coin _ => if f.func = 4 then u.join { rd := runRegs f.d 1 } else u
      | .addc _ | .subb _ => u.join { pwr := funcPred f }
      | .madc _ => u.join { prd := funcPred f, pwr := funcPred f }
      | .ldnr _ => u.join (match f.c with
        | .p k => { pwr := [k.toNat] }
        | _ => {})
      | .opref _ => { rd := runRegs f.a ((runCount f).getD 0).toNat, wr := runRegs f.d ((runCount f).getD 0).toNat }
      | .opsave _ => { rd := runRegs f.a ((runCount f).getD 0).toNat, wr := runRegs f.d ((runCount f).getD 0).toNat }
      | _ => u

/-- The guard field of an instruction; an event has none. -/
def instrGuard (i : Instr) : Guard :=
  match i with
  | .nop f | .exit f | .yield f | .bkpt f | .ret f | .movS f | .hread f | .sread f | .swrt f => f.g
  | .cvt f => f.g
  | .mxloop f => f.g
  | .enq f => f.g
  | .drawm f => f.g
  | .agdef f => f.g
  | .mldr f => f.g
  | i => match i.rule ⟨256, true, true⟩ with
    | some (f, _) => f.g
    | none => { inv := false, p := 7 }

/-! ## Operations in a window: kinds and destinations (R155) -/

/-- The kind code of R155; 0 where the instruction is not fallible (R150). -/
def opKind (i : Instr) : Nat :=
  match i with
  | .ld _ => 1 | .st _ => 2 | .ldnr _ => 3 | .atom _ => 4 | .red _ => 5 | .mldr _ => 6 | .pgreq _ => 7
  | .pgmove _ => 8 | .enq _ => 9 | .mxdrain _ => 10 | .agdef _ => 11 | .clstart _ => 12
  | _ => 0

/-- The held kinds (R155). -/
def heldKind (n : Nat) : Bool := n = 2 || n = 4 || n = 5 || n = 9 || n = 10 || n = 11 || n = 12

/-- The registers that an operation's result fills. -/
def opDstCount (i : Instr) : Nat :=
  match i with
  | .ld f | .ldnr f => sizeRegs f.size
  | .atom f => if f.ty.wide then 2 else 1
  | .mldr f => (mldrGroup f).1
  | .enq _ | .clstart _ => 1
  | _ => 0

/-- The registers and predicates that are pending for an operation (R153). -/
def Op.pendingRegs (o : Op) : List Nat := if o.st = .settled then [] else runRegs o.dest (opDstCount o.insn)
def Op.pendingPreds (o : Op) : List Nat :=
  if o.st = .settled then [] else match o.insn with
    | .ldnr f => match f.c with
      | .p k => [k.toNat]
      | _ => []
    | _ => []

/-- Whether an instruction's registers, predicates and latches are available to a thread (R46, R153). -/
def Thread.available (x : Thread) (u : Uses) (g : Guard) : Bool :=
  (x.win.all fun o =>
    o.pendingRegs.all (fun r => !u.rd.contains r && !u.wr.contains r)
    && o.pendingPreds.all fun p => !u.prd.contains p && !u.pwr.contains p && g.p.toNat ≠ p)
  && u.lat.all fun n => match x.latch n with
    | .pending _ => false
    | _ => true

/-- Whether a register was last written, for the thread, by a long-latency instruction (R47). -/
def Thread.longMark (x : Thread) (r : Nat) : Bool := if r < 256 then x.longV.getLsbD r else x.longO.getLsbD (r - 256)

/-- Sets or clears that mark for registers. -/
def Thread.setLong (x : Thread) (on : Bool) (rs : List Nat) : Thread :=
  rs.foldl (fun x r =>
    if r < 256 then { x with longV := if on then x.longV ||| BitVec.twoPow 256 r else x.longV &&& ~~~BitVec.twoPow 256 r }
    else { x with longO := if on then x.longO ||| BitVec.twoPow 16 (r - 256)
                           else x.longO &&& ~~~BitVec.twoPow 16 (r - 256) }) x

/-! ## Writing results (R53, R54) -/

/-- A result for one register: shape and value. -/
inductive RShape where
  | u (w : Word)
  | a (base stride : Word)
  /-- The words of the threads that write. -/
  | g (ws : List (Nat × Word))
  deriving DecidableEq, Repr

def RShape.at (x : RShape) (t : Nat) : Word :=
  match x with
  | .u w => w
  | .a b s => b + s * BitVec.ofNat 32 t
  | .g ws => ((ws.find? fun e => e.1 = t).map Prod.snd).getD 0

/-- A result of stride 0 is U (R52). -/
def RShape.norm (x : RShape) : RShape :=
  match x with
  | .a b s => if s = 0 then .u b else .a b s
  | x => x

def RShape.toVVal (x : RShape) (dflt : VVal) : VVal :=
  match x.norm with
  | .u w => .u w
  | .a b s => .a b s
  | .g _ => dflt

/-- A register's words, one per thread (R54). -/
def VVal.spread (v : VVal) (n : Nat) : Tab Word :=
  match v with
  | .g ws => ws
  | v => (List.range n).filterMap fun t => if v.at t = 0 then none else some (t, v.at t)

/-- The write of R54 by the threads `S` to v register `n`. -/
def Block.putV (k : Block) (n : Nat) (x : RShape) (S : List Nat) (covers : Bool) : Block :=
  let old := k.vreg n
  let general := VVal.g (S.foldl (fun ws t => Tab.set 0 ws t (x.at t)) (old.spread k.nthr))
  let new :=
    if S = [] then old
    else if n < k.regG then
      match x with
      | .g _ => general
      | x => if x.toVVal old = old then old else if covers then x.toVVal old else general
    else x.toVVal old
  { k with v := Tab.set (.u 0) k.v n new }

/-- The write of word `i` of a destination. -/
def Block.putReg (k : Block) (d : Sel) (i : Nat) (x : RShape) (S : List Nat) (covers : Bool) : Block :=
  match d with
  | .v n => k.putV (n.toNat + i) x S covers
  | .o n => S.foldl (fun k t => k.modThr t fun y => { y with o := Tab.set 0 y.o (n.toNat + i) (x.at t) }) k
  | _ => k

/-- Whether a run of registers holds a narrow one (R49). -/
def Block.narrow (k : Block) (d : Sel) (n : Nat) : Bool :=
  match d with
  | .v m => m.toNat + n > k.regG
  | _ => false

/-- Whether a set of threads holds every live thread of the block (R54). -/
def Block.covered (k : Block) (S : List Nat) : Bool := k.live.all fun t => S.contains t

/-- The shape of a result, with its values per thread. -/
inductive Shape where
  | u
  | a (stride : Word)
  | g
  deriving DecidableEq, Repr

/-- The words `i` of 64-bit results in a shape; for A the values are those of each thread. -/
def shapeWord (k : Shape) (i : Nat) (vals : List (Nat × DWord)) : RShape :=
  let w (v : DWord) : Word := v.extractLsb' (32 * i) 32
  match k, vals with
  | .u, (_, v) :: _ => .u (w v)
  | .a s, (t, v) :: _ => .a (w v - s * BitVec.ofNat 32 t) s
  | _, vals => .g (vals.map fun e => (e.1, w e.2))

/-- The 64 bits of a latch to which a result of `n` registers is pushed (R46). -/
def latchOf (n : Nat) (v : DWord) : DWord := if n = 1 then (lo32 v).setWidth 64 else v

/-- Writes a result of `n` registers, up to 64 bits, with its pushes (R46): `w` or a latch destination writes the
latches only, `0x119` nothing. -/
def State.putResult (s : State) (b : Nat) (d : Sel) (n : Nat) (k : Shape) (vals : List (Nat × DWord)) : State :=
  let S := vals.map Prod.fst
  let push (s : State) : State := vals.foldl (fun s e => s.modThr b e.1 fun x => x.push (.val (latchOf n e.2))) s
  match d with
  | .v _ | .o _ =>
    push (s.modBlk b fun blk =>
      let covers := blk.covered S
      let blk := (List.range n).foldl (fun blk i => blk.putReg d i (shapeWord k i vals) S covers) blk
      S.foldl (fun blk t => blk.modThr t fun x => x.setLong false (runRegs d n)) blk)
  | .l _ => push s
  | _ => s

/-! ## Acquires (R181) -/

/-- The lines of loads under way that a core's L1 takes, or the device cache, are changed (R311). -/
def State.modFills (s : State) (f : Pend → Fill → Option Fill) : State :=
  s.modDev fun d => { d with reqs := d.reqs.map fun (e : Nat × Pend) => (e.1, { e.2 with fill := e.2.fill.bind (f e.2) }) }

/-- The core for which a request works. -/
def State.coreOf (s : State) (w : Waiter) : Option Nat := (w.block.bind s.blk).map Block.core

/-- An engine's part of an acquire at `.lake` or `.sys`: the device cache loses the context's lines, and takes none from
loads under way (R181, R320). -/
def State.acquireDev (s : State) (ctx : Nat) : State :=
  (s.modDev fun d => { d with cache := d.cache.filter (·.ctx ≠ ctx) }).modFills fun _ f =>
    some (if f.ctx = ctx then { f with dev := false } else f)

/-- The invalidations of an acquire at a scope, on a core, for a context; the answers to loads under way refill none of
what it invalidates (R315, R317). -/
def State.acquire (s : State) (core ctx scope : Nat) : State :=
  let s := if scope = 0 then s else
    (s.modCore core fun c => { c with l1 := c.l1.filter (·.ctx ≠ ctx) }).modFills fun p f =>
      if f.ctx = ctx && s.coreOf p.who = some core then none else some f
  if scope ≥ 3 then s.acquireDev ctx else s

/-! ## The program counter -/

/-- An offset of bytes within the PC's object (R138). -/
def pcAdd (pc : DWord) (i : Int) : DWord := pc.extractLsb' 40 24 ++ BitVec.ofInt 40 ((pc.toNat % 2 ^ 40 : Nat) + i)

/-- The address that T names (R138). -/
def targetOf (x : DWord) : DWord := x &&& ~~~3#64

/-- The thread goes to a PC; it arrives if that is its meeting address and its PC has not stood there already (R128). -/
def Thread.goto (x : Thread) (entry pc : DWord) : Thread :=
  let moved := x.pc ≠ pc
  let x := { x with pc := pc, st := if moved then .running else x.st, arr := false, wtok := 0, wbar := 0 }
  if moved && lo32 (pc - entry) = x.meet then { x.clearLatches with st := .held } else x

/-! ## Taking an exception, and returning from one -/

/-- Trap causes (R163, R178, R207, R294). -/
def trapOp : Nat := 1
def trapIllegal : Nat := 2
def trapLatch : Nat := 3
def trapShape : Nat := 4
def trapBreak : Nat := 5
def trapSoft : Nat := 6
def trapFetch : Nat := 7
def trapScratch : Nat := 8
def trapBarrier : Nat := 9
def trapTile : Nat := 10

/-- The instruction's words, four of them (R164). -/
def insnWords (i : Instr) : List Word := (encode i ++ List.replicate 4 0).take 4

/-- Keys from here on are those of probes (log entry 58). -/
def probeKey : Nat := 2 ^ 20

/-- Whether a part of an operation has been performed, or may have been: it is not known to have failed unperformed
(R256). -/
def Part.touched (p : Part) : Bool :=
  p.key < probeKey && (p.done = none || p.done = some 0 || (p.done = some 5 && p.tag.isSome))

/-- Whether an operation has been performed at its target, in whole or in part. -/
def Op.begun (o : Op) : Bool := o.perf || o.parts.any Part.touched

/-- An entry of the frame (R164): `v` its V bit, `fc` FCAUSE. -/
def Op.entryWords (o : Op) (v : Bool) (fc : Nat) : List Word :=
  let kind := opKind o.insn
  let held := heldKind kind && !o.begun
  let early := o.begun && match o.insn with
    | .st f => f.ord = 4
    | _ => false
  [BitVec.ofNat 32 (v.toNat * 2 ^ 31 + early.toNat * 2 ^ 30 + held.toNat * 2 ^ 29 + kind * 2 ^ 16 + o.tk.toNat),
   BitVec.ofNat 32 (fc * 2 ^ 24 + o.data.length * 2 ^ 16 + o.dest.code.toNat)]
  ++ splitDWord o.pc ++ splitDWord o.addr ++ insnWords o.insn
  ++ [match o.buf with
      | some n => BitVec.ofNat 32 (2 + n)
      | none => 0]
  ++ List.replicate 5 0 ++ bytesWords 16 (o.data ++ List.replicate 64 0)

/-- The header of the frame (R163). -/
def Thread.headerWords (x : Thread) (cause detail : Nat) (code : Word) (stall : DWord) (ncanc : Nat) : List Word :=
  [BitVec.ofNat 32 (cause * 2 ^ 24 + detail), code] ++ splitDWord stall
  ++ [x.tnext ++ x.hz, BitVec.ofNat 32 ncanc,
      BitVec.ofNat 32 (x.esc.mark.toNat * 2 ^ 31 + x.esc.n * 2 ^ 16 + x.esc.w.toNat), 0]
  ++ ((x.esc.log.flatMap fun (e : Word × Nat) => [e.1, BitVec.ofNat 32 e.2]) ++ List.replicate 8 0).take 8
  ++ List.replicate 16 0

/-- A thread's frame (R161). -/
def Block.frame (k : Block) (t : Nat) : DWord := k.tfa + BitVec.ofNat 64 (4224 * t)

/-- The entries of a frame: for cause 1 the failed operation first, with V = 0; then the operations not settled
(R161). -/
def Thread.entries (x : Thread) (cause : Nat) : List (Op × Bool × Nat) :=
  match cause, x.win with
  | 1, o :: os => (o, false, o.cause) :: ((os.filter (·.st ≠ .settled)).map fun o => (o, true, 0))
  | _, os => (os.filter (·.st ≠ .settled)).map fun o => (o, true, 0)

/-- The frame's writes: the header and the entries filled, entry 0 at least; w0 of every other entry 0 (R161, R164). -/
def writeFrame (s : State) (k : Block) (b t : Nat) (x : Thread) (cause detail : Nat) (code : Word) (stall : DWord) :
    Except NoWrite State :=
  let es := x.entries cause
  let ncanc := if cause = 1 then es.length - 1 else es.length
  let body : List Word := if es = [] then List.replicate 32 0 else es.flatMap fun (e : Op × Bool × Nat) => e.1.entryWords e.2.1 e.2.2
  let F := k.frame t
  let n := max 1 es.length
  (List.range (32 - n)).foldl (fun r i => r.bind fun s =>
      gwrite s k.ctx (some k.core) (.frame b t) (F + BitVec.ofNat 64 (128 * (n + i + 1))) (wordBytes [0]))
    (gwrite s k.ctx (some k.core) (.frame b t) F (wordBytes (x.headerWords cause detail code stall ncanc ++ body)))

/-- Whether the frame of one of some threads is still being written: none of them issues before it is (R161). -/
def State.framing (s : State) (b : Nat) (ts : List Nat) : Bool :=
  s.dev.reqs.any fun e => match e.2.who with
    | .frame b' t => b' = b && ts.contains t
    | _ => false

/-- Requests of a thread's operations are forgotten (R161, R257). -/
def State.forget (s : State) (b t : Nat) : State :=
  s.forgetReqs fun p => match p.who with
    | .op b' t' _ _ => b' = b && t' = t
    | _ => false

/-- What the device keeps for the entries of the frame (log entry 8). -/
def Thread.keep (x : Thread) (cause : Nat) : Tab Kept :=
  (x.entries cause).zipIdx.map fun e =>
    (e.2, { kind := opKind e.1.1.insn, pc := e.1.1.pc, aux := e.1.1.aux, buf := e.1.1.buf })

/-- TRAP_ENTRY (R161, R122): with no vector, or in a handler, or where the frame cannot be written, the gang is killed;
else the frame is written, the operations are cancelled, the handler flag is set and the PC is the trap vector. A replay
that traps is abandoned (R359). None where the frame's writes wait for a tag: the thread then traps later.

DESIGN CHOICE: R39 has the horizon stand still at a trap's entry and R161 sets `sr.hz := sr.tnext`; with the operations
cancelled the window is empty, and R161 is followed. DESIGN CHOICE: the spec does not say what becomes of a FENCE whose
orders are still open at the entry; its invalidations are made at once and the fence is forgotten, so that replayed
operations keep no order of it (log entry 60). -/
def State.trapOr (s : State) (b t cause detail : Nat) (code : Word) (stall : DWord) : Option State :=
  match s.blk b with
  | none => some s
  | some k => match Tab.find k.thr t with
    | none => some s
    | some x =>
      if (Tab.find s.gangs k.gang).any (·.replay.isSome) then some (s.abandon k.gang)
      else if k.tvec = 0 then some (s.killGang k.gang k 18 t 0 0)
      else if x.handler then some (s.killGang k.gang k 17 t 0 0)
      else match writeFrame s k b t x cause detail code stall with
        | .error .waits => none
        | .error .failed => some (s.killGang k.gang k 20 t 0 0)
        | .ok s =>
          let s := x.fences.foldl (fun s f => if f.inv || f.kind = 2 then s else s.acquire k.core k.ctx f.scope) s
          let rest := s.stopping k
          some ((s.forget b t).modThr b t fun x =>
            ({ x.clearLatches with handler := true, win := [], esc := {}, fences := [], kept := x.keep cause
                                   rest := rest } : Thread).goto k.entry (pcAdd k.entry k.tvec.toNat))

/-- The trap of a thread at its instruction; one whose frame waits for a tag meets its instruction again. -/
def State.trap (s : State) (b t cause detail : Nat) (code : Word) (stall : DWord) : State :=
  (s.trapOr b t cause detail code stall).getD s

/-- Frees the drain buffers kept for a thread's frame (R143, R164). -/
def State.freeKept (s : State) (b t : Nat) (which : Nat → Bool) : State :=
  match s.blk b, s.thr b t with
  | some k, some x =>
    (x.kept.filter fun e => which e.1).foldl (fun s e => match e.2.buf with
      | some n => s.modCore k.core fun c => { c with drain := Tab.del c.drain n }
      | none => s) s
  | _, _ => s

/-- The return from a handler (R143, R174): the flag clears and nothing more is kept for the frame; the thread then goes
to the address that RTT or HRESUME gives it. -/
def Thread.leaveHandler (x : Thread) : Thread := { x.clearLatches with handler := false, kept := [] }

/-! ## What becomes of the threads of an instruction -/

/-- The fate of one thread: it goes on at a PC (`sw`: at a switch point, R134), stands at its instruction, waits with a
token, exits, or traps with a stall PC. -/
inductive Fate where
  | go (pc : DWord) (sw : Bool)
  | stand
  | wait (tok : Word)
  | exit
  | trap (cause detail : Nat) (code : Word) (stall : DWord)
  deriving DecidableEq, Repr

def Fate.stands : Fate → Bool
  | .stand | .wait _ => true
  | _ => false

/-- The fate of one thread, traps apart. Arrival at its meeting address is a switch point too (R134). -/
def State.moveThread (s : State) (k : Block) (b : Nat) (e : Nat × Fate) : State :=
  match e.2 with
  | .go pc sw => s.modThr b e.1 fun x =>
    let y := x.goto k.entry pc
    { y with rest := (sw || y.st = .held) && s.stopping k }
  | .stand => s
  | .wait tok => s.modThr b e.1 fun x => { x with st := .waiting, wtok := tok }
  | .exit => s.modThr b e.1 fun x => { x.clearLatches with st := .exited }
  | .trap .. => s

/-- A ripple of a STOPPING gang, formed of the threads `ts` of an instruction, rests as one. DESIGN CHOICE: R134 does not say
what becomes of a ripple only some of whose threads are at a switch point, such as a guarded branch to PC + length taken by
some; the others rest with them, their latches as they are, since the ripple stays one (R124) and none of its threads may
issue past the switch point (log entry 69). -/
def State.restTogether (s : State) (b : Nat) (ts : List Nat) : State :=
  s.modBlk b fun k =>
    let rests (t : Nat) : Bool := (Tab.find k.thr t).any (·.rest)
    (ts.filter fun t => k.rip.any fun e => e.2.threads.contains t && ts.any fun u => e.2.threads.contains u && rests u).foldl
      (fun k t => k.modThr t fun x => { x with rest := true }) k

/-- Carries out the fates that instruction `i` gives a ripple's threads: traps in slot order, then the rest, then regrouping
(R124), then the ends of blocks and gangs that exits bring about. -/
def State.apply (s : State) (b r : Nat) (i : Instr) (fs : List (Nat × Fate)) : State :=
  let s := fs.foldl (fun s e => match e.2 with
    | .trap c d w pc => s.trap b e.1 c d w pc
    | _ => s) s
  match s.blk b with
  | none => s
  | some k =>
    let s := fs.foldl (fun s e => s.moveThread k b e) s
    let s := (s.regroup b r (some i) none ((fs.filter fun e => e.2.stands).map Prod.fst)).restTogether b (fs.map Prod.fst)
    if fs.any fun e => e.2 = .exit then (s.gangBarChecks k.gang).blockCheck b else s

/-! ## Issuing -/

/-- An instruction at issue. -/
structure Iss where
  b : Nat
  r : Nat
  k : Block
  rp : Ripple
  i : Instr
  pc : DWord
  /-- PC + length. -/
  next : DWord
  /-- The ripple's threads in slot order, and those whose guard is true (R23). -/
  ts : List Nat
  on : List Nat
  deriving DecidableEq, Repr

/-- The ripple that issues, with the guard evaluated for each of its threads. -/
def State.iss (s : State) (i : Instr) : Option Iss :=
  s.cur.bind fun c => (s.blk c.1).bind fun k => (Tab.find k.rip c.2).bind fun rp =>
    rp.threads.head?.bind fun t => (Tab.find k.thr t).map fun x =>
      { b := c.1, r := c.2, k := k, rp := rp, i := i, pc := x.pc, next := pcAdd x.pc i.length, ts := rp.threads
        on := rp.threads.filter fun t => (Tab.find k.thr t).any fun x => guardHolds (instrGuard i) x.p }

/-- A thread of the issuing block. -/
def Iss.thr (q : Iss) (t : Nat) : Thread := (Tab.find q.k.thr t).getD { pc := 0 }

/-- What a thread reads and writes in the instruction: of DRAWR's parameter groups, that of the guard-true thread of the
lowest slot alone is read (R330). -/
def Iss.uses (q : Iss) (t : Nat) : Uses :=
  match q.i with
  | .drawr f => drawrUses f (q.on.head? = some t)
  | i => instrUses i

/-- Whether the ripple may issue: its threads run, nothing of theirs is at rest, and every register, predicate and
latch that the instruction uses is available (R126, R153). -/
def Iss.ready (q : Iss) : Bool :=
  q.rp.busy.isNone && q.rp.stall.isNone
  && q.ts.all fun t => (q.thr t).st = .running && !(q.thr t).rest && (q.thr t).available (q.uses t) (instrGuard q.i)

/-- The latch-clear point of an instruction that reads a register last written by a long-latency instruction (R47). -/
def clearLong (q : Iss) (s : State) : State :=
  q.ts.foldl (fun s t =>
    if (q.uses t).rd.any (q.thr t).longMark then s.modThr q.b t Thread.clearLatches else s) s

/-- Every thread of the ripple takes a trap (R39). -/
def trapAll (q : Iss) (cause detail : Nat) (code : Word) (s : State) : State :=
  s.apply q.b q.r q.i (q.ts.map fun t => (t, .trap cause detail code q.pc))

/-- Issues an instruction: no ripple to issue it, the illegal-instruction trap (R39), not ready, or `run`. `rdy` holds
what the instruction's unit asks beside. -/
def issue (i : Instr) (rdy : Iss → State → Bool) (run : Iss → State → State) (s : State) :
    Host.Outcome State Fault Refusal :=
  match s.iss i with
  | none => .fault .noRipple
  | some q =>
    match i.violation (s.env q.k) with
    | some d => .next (trapAll q trapIllegal d 0 s)
    | none => if q.ready && rdy q s then .next (run q s) else .next s

/-- Nothing more is asked of the unit. -/
def always (_ : Iss) (_ : State) : Bool := true

/-- All threads go on to PC + length, but for those whose fate is given. -/
def Iss.fates (q : Iss) (special : List (Nat × Fate)) : List (Nat × Fate) :=
  q.ts.map fun t => match special.find? fun e => e.1 = t with
    | some e => e
    | none => (t, .go q.next false)

/-- Ends an instruction: the threads with a fate of their own, the others to PC + length. -/
def finish (q : Iss) (special : List (Nat × Fate)) (s : State) : State := s.apply q.b q.r q.i (q.fates special)

/-- The first invalid latch that a thread would read (R48). -/
def Thread.lostLatch (x : Thread) (u : Uses) : Option (BitVec 2) :=
  u.lat.find? fun n => x.latch n = .invalid

/-- The latch-lost traps of an instruction's guard-true threads (R48). -/
def latchTraps (q : Iss) (s : State) : List (Nat × Fate) :=
  q.on.filterMap fun t => ((s.thr q.b t).bind fun x => x.lostLatch (instrUses q.i)).map fun n =>
    (t, .trap trapLatch 0 ((Sel.l n).code.setWidth 32) q.pc)

/-- The shape trap of every guard-true thread (R56). -/
def shapeTraps (q : Iss) (detail : Nat) (sel : Sel) : List (Nat × Fate) :=
  q.on.map fun t => (t, .trap trapShape detail (sel.code.setWidth 32) q.pc)

/-- The guard-true threads without a trap. -/
def Iss.good (q : Iss) (traps : List (Nat × Fate)) : List Nat := q.on.filter fun t => !traps.any fun e => e.1 = t

/-- The PC's offset from E (R157). -/
def Iss.off (q : Iss) : Word := lo32 (q.pc - q.k.entry)

/-- A choice of the branch target of a constant offset (R138). -/
def Iss.target (q : Iss) (t : Nat) (f : Std) (sel : Sel) : DWord :=
  pcAdd q.pc (4 * (q.k.src32 t (q.thr t) f.lit sel).toInt)

/-- The threads whose state a later rule reads: the issuing block as it stands in `s`. -/
def Iss.now (q : Iss) (s : State) (t : Nat) : Thread := (s.thr q.b t).getD { pc := 0 }
def Iss.blkNow (q : Iss) (s : State) : Block := (s.blk q.b).getD q.k

end Sys2Proof.Machine
end

