-- ==== Sys2Proof/Machine/Int.lean ====
section
/-! DEFINITION. Instructions that compute a result per thread: the shared operation, the shapes of results (R53), and
the integer instructions (spec/04_integer.md). -/

namespace Sys2Proof.Machine

/-- The rule of an instruction in the M or L form. -/
def ruleOf (i : Instr) : Rule := ((i.rule ⟨256, true, true⟩).map Prod.snd).getD {}

/-- The shape of a source of `n` registers (R53). -/
def Block.selShape (k : Block) (s : Sel) (n : Nat) : Shape :=
  match s with
  | .v m =>
    let vs := (List.range n).map fun i => k.vreg (m.toNat + i)
    if vs.any (·.tag = 2) then .g
    else match vs.find? (·.tag = 1) with
      | some (.a _ st) => .a st
      | _ => .u
  | .o _ | .l _ => .g
  | .p m => if m = 7 then .u else .g
  | _ => .u

/-- The shape of a source by its role; a field that is no source counts as U. -/
def Block.roleShape (k : Block) (ty : Ty) (r : SrcRole) (s : Sel) : Shape :=
  match r with
  | .unused | .barred | .modifier _ | .own => .u
  | r => k.selShape s (srcCount ty r)

def Shape.isU : Shape → Bool
  | .u => true
  | _ => false
def Shape.isG : Shape → Bool
  | .g => true
  | _ => false
def Shape.stride : Shape → Word
  | .a s => s
  | _ => 0

/-- The rows of R53 for affine sources, in the plain 32-bit types: `u` reads a U source. -/
def affineShape (i : Instr) (f : Std) (sa sb sc : Shape) (u : Sel → Word) : Shape :=
  let plain := f.ty = .b32 || f.ty = .i32 || f.ty = .n32
  let mulOk := f.ty = .i32 || f.ty = .n32
  let sat := f.func.getLsbD 0
  let prod : Option Word :=
    match sa, sb with
    | .a s, .u => some (s * u f.b)
    | .u, .a s => some (s * u f.a)
    | .u, .u => some 0
    | _, _ => none
  match i with
  | .add _ => if plain && !sat then .a (sa.stride + sb.stride) else .g
  | .sub _ => if plain && !sat then .a (sa.stride - sb.stride) else .g
  | .neg _ => if plain && !sat then .a (-sa.stride) else .g
  | .mov _ => if plain then .a sa.stride else .g
  | .mul _ => if mulOk && !sat then
      match prod with
      | some st => .a st
      | none => .g
    else .g
  | .mad _ => if mulOk then
      match prod with
      | some st => .a (st + sc.stride)
      | none => .g
    else .g
  | .lea _ => if f.ty = .n32 then
      match sa, sb with
      | .a s, .u => .a s
      | .u, .a s => .a (s <<< f.func.toNat)
      | _, _ => .g
    else .g
  | .shl _ => if plain && sb.isU then
      let n := (u f.b).toNat % 256
      if n < 32 then .a (sa.stride <<< n) else .u
    else .g
  | _ => .g

/-- The instructions whose results are always G (R53, R135). -/
def alwaysG (i : Instr) : Bool :=
  match i with
  | .ld _ | .lds _ | .ldnr _ | .atom _ | .atoms _ | .mldr _ | .mxread _ | .cwptr _ | .enq _ | .clstart _ | .hread _
  | .tick _ | .shfl _ | .vote _ | .matchReg _ | .redr _ | .drawr _ | .lmap _ | .opsave _ | .shape _ | .bara _ | .bars _
  | .meet _ => true
  | _ => false

/-- The shape of an instruction's result (R53). -/
def resultShape (k : Block) (i : Instr) (f : Std) (r : Rule) (u : Sel → Word) : Shape :=
  let sa := k.roleShape f.ty r.a f.a
  let sb := k.roleShape f.ty r.b f.b
  let sc := k.roleShape f.ty r.c f.c
  let viaPred := match i with
    | .madc _ => f.func ≠ 7
    | _ => false
  if alwaysG i || sa.isG || sb.isG || sc.isG || viaPred then .g
  else if sa.isU && sb.isU && sc.isU then .u
  else if f.ty.wide || f.ty.packed || f.ty = .f32 then .g
  else affineShape i f sa sb sc u

/-- The operands of a thread. -/
def Iss.args (q : Iss) (f : Std) (r : Rule) (t : Nat) : Args :=
  let x := q.thr t
  { a := q.k.srcVal t x f r.a f.pa f.a, b := q.k.srcVal t x f r.b f.pb f.b, c := q.k.srcVal t x f r.c f.pc f.c
    p := x.p, tid := t }

/-- A predicate written (R57). -/
def Thread.setPred (x : Thread) (n : Nat) (on : Bool) : Thread :=
  { x with p := if on then x.p ||| BitVec.twoPow 7 n else x.p &&& ~~~BitVec.twoPow 7 n }

/-- A thread's predicates and flags after an instruction: `d` its predicate destination, if it is one. -/
def Thread.side (x : Thread) (d : Sel) (r : Res) : Thread :=
  let x := { x with fflags := x.fflags ||| r.flags }
  let x := match r.pred, d with
    | some v, .p n => x.setPred n.toNat v
    | _, _ => x
  match r.carry with
  | some (n, v) => x.setPred n v
  | none => x

/-- Writes what each thread computed: predicates, flags, the result and its pushes. -/
def writeRes (b : Nat) (d : Sel) (n : Nat) (k : Shape) (res : List (Nat × Res)) (s : State) : State :=
  let s := res.foldl (fun s e => s.modThr b e.1 fun x => x.side d e.2) s
  s.putResult b d n k (res.filterMap fun e => e.2.val.map fun v => (e.1, v))

/-- The whole of an instruction that computes per thread: the shape trap, latch-lost traps, the traps of its own that
`faults` gives, the results (R48, R54, R56). `sem` is given the threads that complete it, and one of them. -/
def computeFaults (faults : Iss → List Nat → List (Nat × Fate)) (d : Sel) (n : Nat) (shape : Iss → Shape)
    (sem : Iss → List Nat → Nat → Res) (q : Iss) (s : State) : State :=
  let s := clearLong q s
  let k := shape q
  if k.isG && q.k.narrow d n && !q.on.isEmpty then finish q (shapeTraps q 1 d) s
  else
    let lost := latchTraps q s
    let traps := lost ++ faults q (q.good lost)
    let good := q.good traps
    finish q traps (writeRes q.b d n k (good.map fun t => (t, sem q good t)) s)

/-- The same, where the instruction has no trap of its own. -/
def computeRun (d : Sel) (n : Nat) (shape : Iss → Shape) (sem : Iss → List Nat → Nat → Res) (q : Iss) (s : State) :
    State :=
  computeFaults (fun _ _ => []) d n shape sem q s

/-- An instruction of the M or L form that computes per thread. -/
def compute (i : Instr) (f : Std) (sem : Std → Args → Res) (s : State) : Host.Outcome State Fault Refusal :=
  let r := ruleOf i
  issue i always (computeRun f.d (dstCount f.ty r.d)
    (fun q => resultShape q.k i f r fun sel => q.k.src32 0 { pc := 0 } f.lit sel)
    (fun q _ t => sem f (q.args f r t))) s

/-- MOV_S (R83): the S form of MOV, as `b32`. -/
def execMovS (f : SForm) (s : State) : Host.Outcome State Fault Refusal :=
  issue (.movS f) always (computeRun f.d 1 (fun q => q.k.selShape f.a 1)
    (fun q _ t => .word (q.k.src32 t (q.thr t) none f.a))) s

def execAdd (f : Std) (s : State) := compute (.add f) f addRes s
def execAddc (f : Std) (s : State) := compute (.addc f) f addcRes s
def execSub (f : Std) (s : State) := compute (.sub f) f subRes s
def execSubb (f : Std) (s : State) := compute (.subb f) f subbRes s
def execMul (f : Std) (s : State) := compute (.mul f) f mulRes s
def execMulh (f : Std) (s : State) := compute (.mulh f) f mulhRes s
def execMad (f : Std) (s : State) := compute (.mad f) f madRes s
def execMadc (f : Std) (s : State) := compute (.madc f) f madcRes s
def execMadw (f : Std) (s : State) := compute (.madw f) f madwRes s
def execAbsd (f : Std) (s : State) := compute (.absd f) f absdRes s
def execMin (f : Std) (s : State) := compute (.min f) f minRes s
def execMax (f : Std) (s : State) := compute (.max f) f maxRes s
def execNeg (f : Std) (s : State) := compute (.neg f) f negRes s
def execDot4 (f : Std) (s : State) := compute (.dot4 f) f dot4Res s
def execLea (f : Std) (s : State) := compute (.lea f) f leaRes s
def execMov (f : Std) (s : State) := compute (.mov f) f (fun _ x => movRes x) s
def execShl (f : Std) (s : State) := compute (.shl f) f shlRes s
def execShr (f : Std) (s : State) := compute (.shr f) f shrRes s
def execSar (f : Std) (s : State) := compute (.sar f) f sarRes s
def execFsh (f : Std) (s : State) := compute (.fsh f) f fshRes s
def execTern (f : Std) (s : State) := compute (.tern f) f ternRes s
def execPopc (f : Std) (s : State) := compute (.popc f) f popcRes s
def execClz (f : Std) (s : State) := compute (.clz f) f clzRes s
def execBrev (f : Std) (s : State) := compute (.brev f) f brevRes s
def execBfx (f : Std) (s : State) := compute (.bfx f) f bfxRes s
def execBfi (f : Std) (s : State) := compute (.bfi f) f bfiRes s
def execPerm (f : Std) (s : State) := compute (.perm f) f permRes s
def execIcmp (f : Std) (s : State) := compute (.icmp f) f icmpRes s
def execSel (f : Std) (s : State) := compute (.sel f) f selRes s
def execPset (f : Std) (s : State) := compute (.pset f) f psetRes s

end Sys2Proof.Machine
end

