-- ==== Sys2Proof/Machine/Group.lean ====
section
/-! DEFINITION. Control flow, traps, meetings, and exchange within a ripple (spec/07_group.md R128 to R149). -/

namespace Sys2Proof.Machine

/-- Latches of all the ripple's threads clear: a branch or a wait, whatever the guard (R47). -/
def clearAll (q : Iss) (s : State) : State := s.modThrs q.b q.ts fun _ x => x.clearLatches

/-- A ripple loses selection (R126). -/
def State.dropPick (s : State) (core b r : Nat) : State :=
  s.modCore core fun c => { c with pick := c.pick.filter fun e => !(e.2.blk = b && e.2.rip = r) }

/-- The issuing ripple loses selection (R126). -/
def unpick (q : Iss) (s : State) : State := s.dropPick q.k.core q.b q.r

/-- NOP (R140). -/
def execNop (f : SForm) (s : State) : Host.Outcome State Fault Refusal :=
  issue (.nop f) always (fun q s => finish q [] s) s

/-- A branch (R138): the sources are read, the latches clear, each thread that takes it goes to its target. -/
def branchRun (target : Iss → Nat → DWord) (taken : Iss → Nat → Bool) (q : Iss) (s : State) : State :=
  finish q ((q.on.filter (taken q)).map fun t => (t, .go (target q t) true)) (clearAll q s)

/-- T's address, read from a thread's pair (R138). -/
def pairTarget (a : Sel) (q : Iss) (t : Nat) : DWord := targetOf (q.k.pair t (q.thr t) a)

def execBra (f : Std) (s : State) : Host.Outcome State Fault Refusal :=
  issue (.bra f) always (branchRun (fun q t => q.target t f f.a) fun _ _ => true) s
def execBrx (f : Std) (s : State) : Host.Outcome State Fault Refusal :=
  issue (.brx f) always (branchRun (pairTarget f.a) fun _ _ => true) s
def execRet (f : SForm) (s : State) : Host.Outcome State Fault Refusal :=
  issue (.ret f) always (branchRun (pairTarget f.a) fun _ _ => true) s

/-- CALL (R138): the pair D receives PC + length. -/
def execCall (f : Std) (s : State) : Host.Outcome State Fault Refusal :=
  issue (.call f) always (fun q s =>
    let x := f.func = 1
    let sh : Shape := match if x then q.k.selShape f.a 2 else .u with
      | .u => .u
      | _ => .g
    if sh.isG && q.k.narrow f.d 2 && !q.on.isEmpty then finish q (shapeTraps q 1 f.d) (clearAll q s)
    else
      branchRun (fun q t => if x then pairTarget f.a q t else q.target t f f.a) (fun _ _ => true) q
        (s.putResult q.b f.d 2 sh (q.on.map fun t => (t, q.next)))) s

/-- MEET (R139). -/
def execMeet (f : Std) (s : State) : Host.Outcome State Fault Refusal :=
  issue (.meet f) always (fun q s =>
    let s := clearLong q s
    if q.k.narrow f.d 1 && !q.on.isEmpty then finish q (shapeTraps q 1 f.d) s
    else
      let traps := latchTraps q s
      let good := q.good traps
      let new (t : Nat) : Word :=
        if f.func = 1 then q.k.src32 t (q.thr t) f.lit f.a else lo32 (q.target t f f.a - q.k.entry)
      let s := s.modThrs q.b good fun t x => { x with meet := new t }
      finish q traps (s.putResult q.b f.d 1 .g (good.map fun t => (t, (q.thr t).meet.setWidth 64)))) s

/-- EXIT (R141): a guard-true thread exits once nothing of it is unsettled, and stands at the EXIT until then. -/
def execExit (f : SForm) (s : State) : Host.Outcome State Fault Refusal :=
  issue (.exit f) always (fun q s =>
    finish q (q.on.map fun t => (t, if (q.thr t).settled then .exit else .stand)) s) s

/-- YIELD (R140). DESIGN CHOICE: with a guard-true thread in the ripple it is a switch point, and a latch-clear point, for
all the ripple's threads: the rule's "those threads" may be read as the ripple's or as the guard-true ones, and a ripple
rests as one (`State.restTogether`; log entry 70). -/
def execYield (f : SForm) (s : State) : Host.Outcome State Fault Refusal :=
  issue (.yield f) always (fun q s =>
    let s := clearAll q s
    if q.on.isEmpty then finish q [] s
    else finish q (q.ts.map fun t => (t, .go q.next true)) (unpick q s)) s

/-- BKPT (R142). -/
def execBkpt (f : SForm) (s : State) : Host.Outcome State Fault Refusal :=
  issue (.bkpt f) always (fun q s => finish q (q.on.map fun t => (t, .trap trapBreak 0 0 q.next)) s) s

/-- TRAP and `TRAP.kill` (R142, R282). -/
def execTrap (f : Std) (s : State) : Host.Outcome State Fault Refusal :=
  issue (.trap f) always (fun q s =>
    let s := clearLong q s
    let traps := latchTraps q s
    let code (t : Nat) : Word := q.k.src32 t (q.thr t) f.lit f.a
    match f.func.toNat, q.good traps with
    | 1, t :: _ => s.killGang q.k.gang q.k 19 t 0 (code t).toNat
    | _, good => finish q (traps ++ good.map fun t => (t, .trap trapSoft 0 (code t) q.next)) s) s

/-- RTT (R143): outside a handler the illegal-instruction trap with detail 11. -/
def execRtt (f : Std) (s : State) : Host.Outcome State Fault Refusal :=
  issue (.rtt f) always (fun q s =>
    let back := q.on.filter fun t => (q.thr t).handler
    let bad := q.on.filter fun t => !(q.thr t).handler
    let s := clearAll q (clearLong q s)
    let s := back.foldl (fun s t => (s.freeKept q.b t fun _ => true).modThr q.b t Thread.leaveHandler) s
    finish q (back.map (fun t => (t, .go (pairTarget f.a q t) true))
      ++ bad.map fun t => (t, .trap trapIllegal 11 0 q.pc)) s) s

/-! ## Exchange within the ripple (R144) -/

/-- The thread in a slot. -/
def Iss.inSlot (q : Iss) (n : Int) : Option Nat := if 0 ≤ n ∧ n ≤ 31 then Tab.find q.rp.slots n.toNat else none

/-- The slot of a thread. -/
def Iss.slotOf (q : Iss) (t : Nat) : Option Nat := (q.rp.slots.find? fun e => e.2 = t).map Prod.fst

/-- A 32-bit mask over the slots: bit k is 1 if slot k holds a thread for which `p` holds (R146, R147). -/
def Iss.slotMask (q : Iss) (p : Nat → Bool) : Word :=
  (List.range 32).foldl (fun m (k : Nat) => if (q.inSlot k).any p then m ||| BitVec.twoPow 32 k else m) 0

/-- A delivery from threads of the ripple to others (R144, R157): an escape of kind 3. DESIGN CHOICE: one escape for each
supplying thread and instruction, however many threads receive its value; the spec does not say whether each delivery
counts (log entry 71). -/
def deliver (q : Iss) (from_ : List Nat) (s : State) : State := s.modThrs q.b from_ fun _ x => x.escape 3 q.off

/-- The slot that SHFL reads (R145). -/
def shflSlot (q : Iss) (f : Std) (t : Nat) : Int :=
  let j : Int := (q.slotOf t).getD 0
  let d := (q.k.src32 t (q.thr t) f.lit f.b).toNat
  match f.func.toNat % 4 with
  | 0 => if f.func.getLsbD 2 then
      match q.slotOf d with
      | some k => k
      | none => -1
    else d
  | 1 => j - d
  | 2 => j + d
  | _ => (j.toNat ^^^ d : Nat)

/-- The thread whose value SHFL delivers to a thread: its own where the slot is out of range or empty. -/
def shflFrom (q : Iss) (f : Std) (t : Nat) : Nat := (q.inSlot (shflSlot q f t)).getD t

/-- Whether a thread reads an invalid latch through a selector. -/
def lostSel (s : State) (b t : Nat) (sel : Sel) : Bool :=
  match sel with
  | .l n => (s.thr b t).any fun x => x.latch n = .invalid
  | _ => false

/-- SHFL (R145). DESIGN CHOICE: where source B is an invalid latch no slot is chosen; if the thread's own latch of source A
is invalid too, its frame records A, the first of its own source fields by R48 (log entry 73). -/
def execShfl (f : Std) (s : State) : Host.Outcome State Fault Refusal :=
  let r := ruleOf (.shfl f)
  issue (.shfl f) always (fun q s =>
    let s := clearLong q s
    let n := dstCount f.ty r.d
    if q.k.narrow f.d n && !q.on.isEmpty then finish q (shapeTraps q 1 f.d) s
    else
      let lost (t : Nat) : Option Sel :=
        if lostSel s q.b t f.b then some (if lostSel s q.b t f.a then f.a else f.b)
        else if lostSel s q.b (shflFrom q f t) f.a then some f.a else none
      let traps := q.on.filterMap fun t => (lost t).map fun sel =>
        (t, Fate.trap trapLatch 0 (sel.code.setWidth 32) q.pc)
      let good := q.good traps
      let s := deliver q ((good.map (shflFrom q f)).filter fun y => good.any fun t => t ≠ y && shflFrom q f t = y).eraseDups s
      let val (t : Nat) : DWord := let y := shflFrom q f t; q.k.srcVal y (q.thr y) f .val f.pa f.a
      finish q traps (s.putResult q.b f.d n .g (good.map fun t => (t, val t)))) s

/-- An exchange to which guard-true threads contribute and whose result each of them receives. -/
def exchange (i : Instr) (f : Std) (sem : Iss → List Nat → Nat → Res) (s : State) : Host.Outcome State Fault Refusal :=
  let r := ruleOf i
  issue i always (fun q s =>
    let good := q.good (latchTraps q (clearLong q s))
    let shape := resultShape q.k i f r fun _ => 0
    let narrow := shape.isG && q.k.narrow f.d (dstCount f.ty r.d)
    computeRun f.d (dstCount f.ty r.d) (fun _ => shape) sem q
      (if good.length ≥ 2 && !narrow then deliver q good s else s)) s

/-- VOTE (R146). -/
def execVote (f : Std) (s : State) : Host.Outcome State Fault Refusal :=
  exchange (.vote f) f (fun q good _ =>
    let pa (t : Nat) : Bool := (q.thr t).predSel f.a
    match f.func.toNat with
    | 0 => { pred := some (good.all pa) }
    | 1 => { pred := some (good.any pa) }
    | 2 => { pred := some (good.all pa || !good.any pa) }
    | _ => .word (q.slotMask fun t => good.contains t && pa t)) s

/-- MATCH (R147). -/
def execMatchReg (f : Std) (s : State) : Host.Outcome State Fault Refusal :=
  exchange (.matchReg f) f (fun q good t =>
    let val (t : Nat) : DWord := q.k.srcVal t (q.thr t) f .val f.pa f.a
    .word (q.slotMask fun y => good.contains y && val y = val t)) s

/-- REDR's operation on two values (R148). -/
def redrOp (op : Nat) (ty : Ty) (a b : Nat × FFlags) : Nat × FFlags :=
  let w := ty.ew
  let fl (r : Nat × FFlags) : Nat × FFlags := (r.1, a.2 ||| b.2 ||| r.2)
  let less := asInt ty.signed w a.1 < asInt ty.signed w b.1
  if ty = .f32 then
    match op with
    | 0 => fl (fSum .fp32 .rne (Fmt.fp32.value a.1) (Fmt.fp32.value b.1))
    | 1 => fl (fMinMax .fp32 false false a.1 b.1)
    | _ => fl (fMinMax .fp32 true false a.1 b.1)
  else match op with
    | 0 => ((a.1 + b.1) % 2 ^ w, 0)
    | 1 => (if less then a.1 else b.1, 0)
    | 2 => (if less then b.1 else a.1, 0)
    | 3 => (a.1 &&& b.1, 0)
    | 4 => (a.1 ||| b.1, 0)
    | _ => (a.1 ^^^ b.1, 0)

/-- The 32 slots, with a value where a contributing thread is. -/
def Iss.slots32 {α : Type} (q : Iss) (good : List Nat) (val : Nat → α) : List (Option α) :=
  (List.range 32).map fun n => ((Tab.find q.rp.slots n).filter fun t => good.contains t).map val

/-- A result of a type: a NaN is the canonical one (R93). -/
def canonical (ty : Ty) (v : Nat) : Nat := if ty = .f32 && (Fmt.fp32.value v).isNan then 0x7FC00000 else v

/-- REDR (R148). -/
def execRedr (f : Std) (s : State) : Host.Outcome State Fault Refusal :=
  exchange (.redr f) f (fun q good _ =>
    let val (t : Nat) : Nat × FFlags := ((q.k.srcVal t (q.thr t) f .val f.pa f.a).toNat % 2 ^ f.ty.ew, 0)
    match slotTree (redrOp f.func.toNat f.ty) (q.slots32 good val) with
    | some (v, fl) => { val := some (BitVec.ofNat 64 (canonical f.ty v)), flags := fl }
    | none => {}) s

/-- LMAP (R149). -/
def execLmap (f : Std) (s : State) : Host.Outcome State Fault Refusal :=
  issue (.lmap f) always (computeRun f.d 1 (fun _ => .g) (fun q _ t =>
    let n := (q.k.src32 t (q.thr t) f.lit f.a).toNat
    let r := if f.func = 1 then q.slotOf n else q.inSlot n
    .word (match r with
      | some x => BitVec.ofNat 32 x
      | none => 0xFFFF_FFFF#32))) s

/-! ## Events -/

/-- Whether an EXIT that stands waits at a thread: it has been issued and the thread runs. -/
def Block.standsAt (k : Block) (t : Nat) : Bool :=
  (k.ripOf t).any fun e => e.2.2.busy.isSome && (Tab.find k.thr t).any (·.st = .running)

/-- MEETING_RELEASE (R129): the threads HELD at a value are released when every live thread with that value is HELD or
WAITING. In a STOPPING gang they rest: they stand at a switch point (R133, R134). -/
def execMeetingRelease (b : Nat) (v : Word) (s : State) : Host.Outcome State Fault Refusal :=
  match s.blk b with
  | none => .next s
  | some k =>
    let live := k.live.filterMap fun t => (Tab.find k.thr t).map fun x => (t, x)
    let at_ := live.filter fun e => e.2.meet = v
    let held := (at_.filter fun e => e.2.st = .held).map Prod.fst
    if held = [] || !at_.all (fun e => e.2.st = .held || e.2.st = .waiting) then .next s
    else
      let s := s.modBlk b fun k =>
        { k with rip := (k.rip.map fun e => (e.1, { e.2 with slots := e.2.slots.filter fun p => !held.contains p.2 })).filter
                   fun e => e.2.slots ≠ [] }
      .next (((s.modThrs b held fun _ x => { x with st := .running, rest := s.stopping k }).pack b held none none).restTogether b held)

/-- The illegal-instruction trap of words that are no instruction (R37, R39): every thread of the ripple. -/
def execUnassignedOpcodeExecute (detail : Nat) (s : State) : Host.Outcome State Fault Refusal :=
  match s.iss (.unassignedOpcodeExecute detail) with
  | none => .fault .noRipple
  | some q => .next (trapAll q trapIllegal detail 0 s)

end Sys2Proof.Machine
end

