-- ==== Sys2Proof/Machine/Register.lean ====
section
/-! DEFINITION. The register instructions: special registers, runs of registers, shape tags (spec/03_register.md R60 to
R65, R382). -/

namespace Sys2Proof.Machine

/-- `sr.bsr` (R61). -/
def Block.bsr (k : Block) : Word := BitVec.ofNat 32 (k.reln.toNat * 2 + k.rfail.toNat)

/-- What SREAD gives a thread (R60, R382). -/
def readSr (s : State) (q : Iss) (n t : Nat) : Word :=
  let x := q.thr t
  let k := q.k
  match n with
  | 0 => BitVec.ofNat 32 t
  | 1 => k.bid
  | 2 => k.gidx
  | 3 => BitVec.ofNat 32 k.gblk
  | 4 => BitVec.ofNat 32 k.nthr
  | 5 => BitVec.ofNat 32 ((q.slotOf t).getD 0)
  | 6 => BitVec.ofNat 32 (k.core / 8 * 256 + k.core)
  | 7 => BitVec.ofNat 32 s.dev.rank
  | 8 => (s.core k.core).clock.extractLsb' 0 32
  | 9 => x.clkhi
  | 10 => x.hz.setWidth 32
  | 11 => x.tnext.setWidth 32
  | 12 => x.meet
  | 13 => x.fflags.setWidth 32
  | 14 => k.bsr
  | 15 => if x.esc.mark then 1 else 0
  | 16 => BitVec.ofNat 32 k.ctx
  | 17 => if s.sysMode k then 1 else 0
  | _ => k.tfa.extractLsb' 0 32

/-- The shape of a special register (R60). -/
def srShape (n : Nat) : Shape :=
  if n = 0 then .a 1
  else if n = 5 ∨ (8 ≤ n ∧ n ≤ 13) ∨ n = 15 then .g else .u

/-- The number of a special-register selector. -/
def srNum : Sel → Nat
  | .sr n => n.toNat
  | _ => 0

/-- SREAD (R62): reading `sr.clock` copies the counter's upper half to `sr.clkhi`. -/
def execSread (f : SForm) (s : State) : Host.Outcome State Fault Refusal :=
  issue (.sread f) always (fun q s =>
    let n := srNum f.a
    let s' := if n = 8 then s.modThrs q.b q.on fun _ x =>
      { x with clkhi := (s.core q.k.core).clock.extractLsb' 32 32 } else s
    if (srShape n).isG && q.k.narrow f.d 1 && !q.on.isEmpty then finish q (shapeTraps q 1 f.d) s
    else computeRun f.d 1 (fun _ => srShape n) (fun q _ t => .word (readSr s q n t)) q s') s

/-- SWRT to a special register by a thread (R60, R61, R63, R382). -/
def writeSr (b t n : Nat) (w : Word) (s : State) : State :=
  match n with
  | 13 => s.modThr b t fun x => { x with fflags := w.extractLsb' 0 5 }
  | 12 => s.modThr b t fun x => { x with meet := w }
  | 18 => s.modBlk b fun k => { k with tfa := k.tfa.extractLsb' 32 32 ++ (w &&& ~~~127#32) }
  | _ => s

/-- SWRT (R63): the threads write in slot order. -/
def execSwrt (f : SForm) (s : State) : Host.Outcome State Fault Refusal :=
  issue (.swrt f) always (fun q s =>
    let s := clearLong q s
    let traps := latchTraps q s
    finish q traps ((q.good traps).foldl (fun s t =>
      writeSr q.b t (srNum f.d) (q.k.src32 t (q.thr t) none f.a) s) s)) s

/-- The word `i` of a run that starts at a selector. -/
def runSel (sel : Sel) (i : Nat) : Sel :=
  match sel with
  | .v n => .v (n + BitVec.ofNat 8 i)
  | .o n => .o (n + BitVec.ofNat 4 i)
  | x => x

/-- A run of registers copied, in ascending order, each write of shape G (R64). -/
def copyRun (q : Iss) (d a : Sel) (n : Nat) (s : State) : State :=
  (List.range n).foldl (fun s i => s.modBlk q.b fun blk =>
    let blk' := blk.putReg (runSel d i) 0 (.g (q.on.map fun t => (t, q.k.regWord t (q.thr t) a i))) q.on (blk.covered q.on)
    q.on.foldl (fun blk t => blk.modThr t fun x => x.setLong false (runRegs (runSel d i) 1)) blk') s

/-- OPREF (R64). -/
def execOpref (f : Std) (s : State) : Host.Outcome State Fault Refusal :=
  issue (.opref f) always (fun q s => finish q [] (copyRun q f.d f.a ((runCount f).getD 0).toNat s)) s

/-- OPSAVE (R64): a narrow register in the run raises the shape trap before any register is written. -/
def execOpsave (f : Std) (s : State) : Host.Outcome State Fault Refusal :=
  issue (.opsave f) always (fun q s =>
    let n := ((runCount f).getD 0).toNat
    if q.k.narrow f.d n && !q.on.isEmpty then finish q (shapeTraps q 1 f.d) s
    else finish q [] (copyRun q f.d f.a n s)) s

/-- The number of a v register. -/
def vNum : Sel → Nat
  | .v n => n.toNat
  | _ => 0

/-- SHAPE (R65). -/
def execShape (f : Std) (s : State) : Host.Outcome State Fault Refusal :=
  issue (.shape f) always (fun q s =>
    match f.func.toNat with
    | 0 => computeRun f.d 1 (fun _ => .g) (fun q _ _ => .word (BitVec.ofNat 32 (q.k.vreg (vNum f.a)).tag)) q s
    | 1 =>
      if q.on.isEmpty then finish q [] s
      else if q.k.narrow f.d 1 then finish q (shapeTraps q 3 f.d) s
      else finish q [] (s.modBlk q.b fun k =>
        { k with v := Tab.put k.v (vNum f.d) (.g ((k.vreg (vNum f.d)).spread k.nthr)) })
    | _ =>
      let s := clearLong q s
      if (q.k.vreg (vNum f.a)).tag = 2 then finish q (shapeTraps q 2 f.a) s else finish q [] s) s

end Sys2Proof.Machine
end

