-- ==== Sys2Proof/Machine/Access.lean ====
section
/-! DEFINITION. Accesses to global memory and to the scratchpad (spec/09_memory.md R175 to R197; spec/08_operation.md
R150 to R156; spec/20_ordering.md R311 to R313). -/

namespace Sys2Proof.Machine

/-! ## The checks of an access (R184, R185) -/

/-- What an access asks. -/
structure Acc where
  size : Nat
  rd : Bool := false
  wr : Bool := false
  /-- It carries an acquire or release annotation (check 6). -/
  ann : Bool := false
  /-- The granules that it reads may not be marked (check 7). -/
  poison : Bool := false
  /-- LDNR: what would park reads as 0 (R193). -/
  nr : Bool := false
  /-- An atomic: operation and type (checks 1, 8, 9). -/
  atom : Option (Nat × Ty) := none
  /-- The gang that reads (R356). -/
  gang : Option Nat := none
  deriving DecidableEq, Repr

/-- The access of an instruction to the bytes at its own address. -/
def accOf (i : Instr) : Option Acc :=
  match i with
  | .ld f => some { size := 2 ^ f.size, rd := true, ann := f.ord = 1, poison := true }
  | .ldnr f => some { size := 2 ^ f.size, rd := true, poison := true, nr := true }
  | .st f => some { size := 2 ^ f.size, wr := true, ann := f.ord = 2 }
  | .atom f => some { size := atomBytes f.ty, rd := true, wr := true, ann := f.ord ≠ 0, poison := true
                      atom := some (f.size, f.ty) }
  | .red f => some { size := atomBytes f.ty, rd := true, wr := true, ann := f.ord ≠ 0, atom := some (f.size, f.ty) }
  | .pgreq _ => some { size := 1, rd := true }
  | _ => none

/-- Checks 5 to 8 on a translated part, as far as the issuer makes them. -/
def lateChecks (s : State) (cn : Nat) (a : Acc) (t : Trans) (addr : DWord) (n : Nat) : Option Nat :=
  let peer := ownerOf s (s.ctx cn).ldom t.att.peer (pageNo addr)
  if (a.rd && !t.att.rd) || (a.wr && !t.att.wr) then some 1
  else if a.ann && t.att.ord = 2 then some 10
  else if a.poison && t.att.loc = 0 && !(granules (t.frame + addr.toNat % 65536) n).all (s.granuleOk a.gang) then some 3
  else match a.atom with
    | some (op, ty) =>
      if t.att.loc = 1 && !s.capable peer (capBit op ty) then some 6 else none
    | none => none

/-- What one page part meets. -/
inductive Meets where
  | fail (cause : Nat)
  | park (cause gfn : Nat)
  | absent
  | ok (t : Trans)
  deriving DecidableEq, Repr

/-- Checks 2 to 8 of a page part. -/
def judgePart (s : State) (core cn : Nat) (lane : Option Nat) (a : Acc) (addr : DWord) (n : Nat) : Meets × State :=
  match lookup s core cn lane addr n with
  | (.fail c, s) => (.fail c, s)
  | (.park c g, s) => (if a.nr then .absent else .park c g, s)
  | (.ok t, s) => (match lateChecks s cn a t addr n with
    | some c => .fail c
    | none => .ok t, s)

/-- What a whole access meets: its parts, each with its translation, where it may be performed. -/
inductive Judged where
  | fail (cause : Nat)
  | park (cause gfn : Nat) (addr : DWord)
  | ok (ps : List (Nat × DWord × Nat × Option Trans))
  deriving DecidableEq, Repr

/-- The outcome of an access from what its parts meet (R184). -/
def outcome (ms : List ((Nat × DWord × Nat) × Meets)) : Judged :=
  let fails := ms.filterMap fun e => match e.2 with
    | .fail c => some (e.1.2.1.toNat, c)
    | _ => none
  let parks := ms.filterMap fun e => match e.2 with
    | .park c g => some (e.1.2.1, c, g)
    | _ => none
  match fails, parks with
  | f :: fs, _ => .fail (fs.foldl (fun (x : Nat × Nat) y => if y.1 < x.1 then y else x) f).2
  | [], (ad, c, g) :: _ => .park c g ad
  | [], [] => .ok (ms.map fun e => (e.1.1, e.1.2.1, e.1.2.2, match e.2 with
      | .ok t => some t
      | _ => none))

/-- The parts judged one after another. -/
def judgeParts (s : State) (core cn : Nat) (lane : Option Nat) (a : Acc) (ps : List (Nat × DWord × Nat)) :
    Judged × State :=
  let r := ps.foldl (fun (acc : List ((Nat × DWord × Nat) × Meets) × State) p =>
    let m := judgePart acc.2 core cn lane a p.2.1 p.2.2
    (acc.1 ++ [(p, m.1)], m.2)) ([], s)
  (outcome r.1, r.2)

/-- The checks of an access of one thread (R185). -/
def judge (s : State) (core cn : Nat) (lane : Option Nat) (a : Acc) (addr : DWord) : Judged × State :=
  if a.atom.isSome && addr.toNat % a.size ≠ 0 then (.fail 11, s)
  else judgeParts s core cn lane a (pageParts addr a.size)

/-! ## Performing one piece -/

/-- A load's piece from where it may be served at once (R313): its bytes; an error found fresh (R356); or it must be
asked for. `copy` says that a cache held them. -/
inductive Served where
  | bytes (bs : List Byte) (copy : Bool) (s : State)
  | fresh (addr : DWord) (s : State)
  | away
  deriving DecidableEq, Repr

/-- The bytes of a load's piece. A local line enters its slice of the device cache (R10); the bytes that the slice holds of
it are the same as those of HBM, where every access to them is performed (DESIGN CHOICE, log entry 61). -/
def serve (s : State) (core cn : Nat) (t : Trans) (addr : DWord) (n : Nat) : Served :=
  let so := t.att.ord = 0
  let a := t.key addr
  let base := lineBase a
  let hit (l : CLine) : Bool := l.ctx = cn && l.loc = t.att.loc && l.addr = base
  let cut (l : CLine) : List Byte := (l.data.drop (a - base)).take n
  match if so then none else (s.core core).l1.find? hit with
  | some l => .bytes (cut l) true s
  | none => match if so || t.att.loc ≠ 1 || t.att.mode ≠ 2 then none else s.dev.cache.find? hit with
    | some l => .bytes (cut l) true (s.fillL1 core l)
    | none =>
      if t.att.loc ≠ 0 then .away
      else
        let from_ := if so then a else base
        let len := if so then n else 128
        match s.latentIn from_ len with
        | some x => .fresh (addr + BitVec.ofNat 64 x - BitVec.ofNat 64 a) (s.found x)
        | none => .bytes (s.placeRead 0 a n) false (if so then s else
            (s.fillL1 core { ctx := cn, loc := 0, addr := base, data := s.placeRead 0 base 128 }).fillDev
              { ctx := cn, loc := 0, addr := base, data := [] })

/-- What becomes of a piece: performed or sent, waiting for a tag, or the gang dies of an error found fresh. -/
inductive Done where
  | part (p : Part) (s : State)
  | wait
  | kill (addr : DWord) (s : State)
  deriving DecidableEq, Repr

/-- A piece that went out, or waits. -/
def Done.of (e : Option Part × State) : Done :=
  match e.1 with
  | some p => .part p e.2
  | none => .wait

/-- A gang that is a replay (R359). -/
def State.isReplay (s : State) (g : Nat) : Bool := (Tab.find s.gangs g).any (·.replay.isSome)

/-- One piece of an atomic (R191, R313); one that host memory does not carry fails check 9. -/
def State.atomPiece (s : State) (core : Nat) (cn : Nat) (t : Trans) (r : FabReq) (who : Waiter) : Done :=
  let n := atomBytes r.ty
  let a := t.key r.addr
  let here (s : State) : Done :=
    if t.att.loc ≠ 0 then .of ((s.noFills t.att.loc a n).ask t 0 n r who none)
    else match s.latentIn a n with
      | some x => .kill (r.addr + BitVec.ofNat 64 x - BitVec.ofNat 64 a) (s.found x)
      | none =>
        let e := s.performAtom cn r.addr 0 a r.aop r.ty r.data
        .part { key := 0, len := n, done := some 0, data := e.1 } ((e.2.dropCopies (some core) 0 a n).noteWrite who a n)
  if t.att.loc = 2 && !hostAtom r.aop r.ty then .part { key := 0, len := n, done := some 7 } s
  else match s.moveOf cn (pageNo r.addr) with
  | some (m, v) => if v.ph = .pass ∨ t.att.loc = 1 then here s else .of (s.holdWrite m t.att.loc a 0 n r who)
  | none => here s

/-- The request that an operation makes for a piece. -/
def Op.req (o : Op) (kind : ReqKind) (s : State) (cn : Nat) (a : Acc) (t : Trans) (addr : DWord) (n : Nat) : FabReq :=
  { kind := kind, src := s.dev.rank, tag := 0, ldom := (s.ctx cn).ldom, addr := addr, size := n
    aop := (a.atom.map Prod.fst).getD 0, ty := (a.atom.map Prod.snd).getD .b32
    counted := t.att.mode = 3 && o.lines.contains (addr.toNat / 128), annotated := a.ann }

/-- An operation with its block and thread. -/
def State.opAt (s : State) (b t : Nat) (tk : BitVec 16) : Option (Block × Thread × Op) :=
  (s.blk b).bind fun k => (Tab.find k.thr t).bind fun x => (x.op tk).map fun o => (k, x, o)

def State.modOp (s : State) (b t : Nat) (tk : BitVec 16) (f : Op → Op) : State := s.modThr b t fun x => x.modOp tk f

/-- An operation makes a line's request for its instruction: the others that share the line make none (R184, R222). -/
def State.claimLine (s : State) (b : Nat) (o : Op) (addr : DWord) : State :=
  o.mates.foldl (fun s e => s.modOp b e.1 e.2 fun p => { p with lines := p.lines.filter (· ≠ addr.toNat / 128) }) s

/-- What a store's piece adds to its gang's signature once it is performed (R358): the handler's stores add nothing. -/
def State.signFor (s : State) (gang : Nat) (hnd : Bool) (addr : DWord) (bs : List Byte) : State :=
  if hnd then s else s.sign gang addr bs

/-- The format of a drain (R307). -/
def drainFmt (f : Std) : Nat := f.func.toNat / 2

/-- The bytes of a row of a drain. -/
def drainRow (fmt : Nat) (els : Tab Word) (i : Nat) : List Byte :=
  (List.range 128).flatMap fun j => leBytes (if fmt = 0 then 4 else 2) (Tab.get 0 els (128 * i + j)).toNat

/-- The bytes that a drain stores at a key: 4096 × row + offset. -/
def State.drainBytes (s : State) (core : Nat) (o : Op) (f : Std) (key n : Nat) : List Byte :=
  let els := ((o.buf.bind fun n => Tab.find (s.core core).drain n).map Drain.els).getD []
  ((drainRow (drainFmt f) els (key / 4096)).drop (key % 4096)).take n

/-- One piece of a load, store, drain, atomic or residency request is performed, or goes to its target. A replay's stores
write nothing (R359). DESIGN CHOICE: what an L1 or device-cache copy serves makes no request, and is not counted (log entry
76). -/
def State.doPiece (s : State) (b t : Nat) (k : Block) (o : Op) (a : Acc) (off : Nat) (addr : DWord) (n : Nat)
    (m : Option Trans) : Done :=
  let who : Waiter := .op b t o.tk off
  match m with
  | none => .part { key := off, len := n, done := some 0, data := List.replicate n 0, absent := true } s
  | some tr =>
    let req (kind : ReqKind) : FabReq := o.req kind s k.ctx a tr addr n
    let heat (s : State) : State :=
      if !(req .load).counted then s
      else
        let s := s.claimLine b o addr
        if tr.att.loc ≠ 1 then s.countHeat k.ctx (pageNo addr) tr.att s.dev.rank else s
    let load (kind : ReqKind) : Done := match serve s k.core k.ctx tr addr n with
      | .bytes bs copy s =>
        .part { key := off, len := n, done := some 0, data := bs } (if copy then s else heat s)
      | .fresh x s => .kill x s
      | .away =>
        let fill : Option Fill := if tr.att.ord = 0 || s.storeOut tr.att.loc (lineBase (tr.key addr)) 128 then none else
          some { ctx := k.ctx, loc := tr.att.loc, addr := lineBase (tr.key addr), dev := tr.att.loc = 1 && tr.att.mode = 2 }
        .of ((heat s).ask tr off n (req kind) who fill)
    let put (bs : List Byte) : Done :=
      if s.isReplay k.gang then .part { key := off, len := n, done := some 0 } (s.signFor k.gang o.hnd addr bs)
      else match (heat s).writePiece (some k.core) k.ctx tr off { req .store with data := bs } who with
        | (none, _) => .wait
        | (some p, s) => .part p (if p.done = some 0 then s.signFor k.gang o.hnd addr bs else s)
    match o.insn with
    | .ld _ => load .load
    | .ldnr _ => load .loadNr
    | .pgreq _ =>
      if tr.att.loc = 1 then .of (s.ask tr off n (req .pgreq) who none)
      else .part { key := off, len := n, done := some 0 } s
    | .st _ => put ((o.data.drop off).take n)
    | .mxdrain f => put (s.drainBytes k.core o f off n)
    | .atom _ => (heat s).atomPiece k.core k.ctx tr { req .atom with data := o.data } who
    | _ => (heat s).atomPiece k.core k.ctx tr { req .red with data := o.data } who

/-- A page part of a straddling store is checked by whoever performs it, before any part is written (R184): a peer by a
probe, a port by its state. -/
def State.probePart (s : State) (b t : Nat) (k : Block) (o : Op) (a : Acc) (off : Nat) (addr : DWord) (n : Nat)
    (tr : Trans) : Option Part × State :=
  let key := probeKey + off
  if tr.att.loc = 0 then (some { key := key, len := n, done := some 0 }, s)
  else if tr.att.loc = 1 then
    s.ask tr key n { o.req .probe s k.ctx a tr addr n with counted := false } (.op b t o.tk key) none
  else (some { key := key, len := n, done := some (if s.portUp tr.att.loc (tr.key addr) then 0 else 5) }, s)

/-! ## Performing an operation -/

/-- The pieces in ascending order: those of one page part go out together, each page part when the one before it is
performed; the address of an error found fresh. `wait` is the page whose part is under way. The stores of a drain go out one
by one, since later rows may overlap earlier ones (R307). -/
def runPieces (b t : Nat) (tk : BitVec 16) (a : Acc) (wait : Option Nat) :
    List (Nat × DWord × Nat × Option Trans) → State → State × Option DWord
  | [], s => (s, none)
  | p :: ps, s =>
    let page := pageNo p.2.1
    if wait.any (· ≠ page) then (s, none)
    else match s.opAt b t tk with
      | none => (s, none)
      | some (k, _, o) => match o.parts.find? fun q => q.key = p.1 with
        | some q =>
          if q.done = some 0 then runPieces b t tk a wait ps s
          else if q.done = none && opKind o.insn ≠ 10 then runPieces b t tk a (some page) ps s else (s, none)
        | none => match s.doPiece b t k o a p.1 p.2.1 p.2.2.1 p.2.2.2 with
          | .kill x s => (s, some x)
          | .wait => (s, none)
          | .part q s =>
            let s := s.modOp b t tk fun o => { o with parts := o.parts ++ [q] }
            if q.done = some 0 then runPieces b t tk a wait ps s
            else if q.done = none && opKind o.insn ≠ 10 then runPieces b t tk a (some page) ps s else (s, none)

/-- The page parts that the plan of a store or a drain holds, where it straddles pages: key, address, length,
translation. -/
def Op.straddles (o : Op) : List (Nat × DWord × Nat × Option Trans) :=
  let pages := (o.plan.map fun p => pageNo p.2.1).eraseDups
  if (opKind o.insn ≠ 2 && opKind o.insn ≠ 10) || pages.length ≤ 1 then []
  else pages.flatMap fun g =>
    let ps := o.plan.filter fun p => pageNo p.2.1 = g
    ps.head?.toList.map fun p =>
      let lo := ps.foldl (fun m q => min m q.2.1.toNat) p.2.1.toNat
      let hi := ps.foldl (fun m q => max m (q.2.1.toNat + q.2.2.1)) 0
      (p.1, BitVec.ofNat 64 lo, hi - lo, p.2.2.2)

/-- The probes of a straddling store that are not yet made (R184). -/
def State.probe (s : State) (b t : Nat) (k : Block) (o : Op) (a : Acc) : State :=
  o.straddles.foldl (fun s p => match p.2.2.2 with
    | some tr =>
      if o.parts.any fun q => q.key = probeKey + p.1 then s
      else match s.probePart b t k o a p.1 p.2.1 p.2.2.1 tr with
        | (some q, s) => s.modOp b t o.tk fun o => { o with parts := o.parts ++ [q] }
        | (none, s) => s
    | none => s) s

/-- Every part of a straddling store has passed its check. -/
def Op.probed (o : Op) : Bool :=
  o.straddles.all fun p => o.parts.any fun q => q.key = probeKey + p.1 && q.done = some 0

/-- Every piece is performed. -/
def Op.allDone (o : Op) : Bool :=
  o.plan ≠ [] && o.plan.all fun p => o.parts.any fun q => q.key = p.1 && q.done = some 0

/-- Every piece is performed or sent. -/
def Op.allSent (o : Op) : Bool := o.plan ≠ [] && o.plan.all fun p => o.parts.any fun q => q.key = p.1

/-- The bytes that the pieces brought, in order. -/
def Op.bytes (o : Op) : List Byte :=
  o.plan.flatMap fun (p : Nat × DWord × Nat × Option Trans) =>
    ((o.parts.find? fun q => q.key = p.1).map Part.data).getD []

/-- A gang is killed by data found bad (R356, R282). DESIGN CHOICE: an EXITED gang too, whose chains still run, although R133
lets a gang be killed from RUNNING or STOPPING only (log entry 76). -/
def State.killData (s : State) (k : Block) (tid : Nat) (addr : DWord) : State := s.killGang k.gang k 16 tid addr 0

/-- An access that has begun goes on as far as it can now: a straddling store is checked by the owners of its pages before
any part is written; then the pieces (R184). -/
def State.goOn (s : State) (b t : Nat) (tk : BitVec 16) (a : Acc) : State :=
  match s.opAt b t tk with
  | none => s
  | some (k, _, o) =>
    let s := s.probe b t k o a
    if !(s.opAt b t tk).any fun e => e.2.2.probed then s
    else match runPieces b t tk a none o.plan s with
      | (s, some x) => s.killData k t x
      | (s, none) => s

/-- An access begins: every piece of it uses the translation that its page part has now (R218, R219). -/
def State.begin_ (s : State) (b t : Nat) (tk : BitVec 16) (a : Acc) (ps : List (Nat × DWord × Nat × Option Trans)) : State :=
  (s.modOp b t tk fun o => { o with plan := judgedPieces ps, retry := false }).goOn b t tk a

/-! ## The order of one thread's accesses (R182, R196) -/

/-- The rows that an MXDRAIN stores to (R307): address and length; `pitch` is what it captured. -/
def drainRows (f : Std) (addr : DWord) (pitch : Word) : List (Nat × DWord × Nat) :=
  let n := if f.func.toNat / 2 = 0 then 512 else 256
  (List.range 128).map fun i => (i, addOffset addr (i * pitch.toInt), n)

/-- The words that an MLDR reads from each member (R340). -/
def mldrWords (f : MldrForm) : Nat := if f.op.toNat ≥ 6 then 3 else 2 ^ f.cnt.toNat

/-- The address of a slot of a chain (R265). -/
def Block.slotAddr (k : Block) (e n : Nat) : DWord :=
  k.chb + BitVec.ofNat 64 (16384 * k.bid.toNat + 4096 * e + 64 * (n % 64))

/-- The bytes of global memory that an operation touches at its thread's own address. -/
def Op.ranges (o : Op) : List (DWord × Nat) :=
  match o.insn with
  | .mxdrain f => (drainRows f o.addr (wordAt o.aux 0)).map fun r => r.2
  | .mldr f => if o.addr = 0 then [] else [(o.addr, 4 * mldrWords f)]
  | .clstart _ => [(o.addr, 64)]
  | i => match accOf i with
    | some a => if opKind i = 7 then [] else [(o.addr, a.size)]
    | none => []

/-- The bytes of global memory that an operation of a block touches, or may touch: an ENQ writes some slot of its chain. -/
def Op.reach (o : Op) (k : Block) : List (DWord × Nat) :=
  match o.insn with
  | .enq f => [(k.slotAddr f.engine.toNat 0, 4096)]
  | _ => o.ranges

def overlap (x y : DWord × Nat) : Bool := x.1.toNat < y.1.toNat + y.2 && y.1.toNat < x.1.toNat + x.2

/-- Whether an access touches a strongly ordered page of a context, as the tables or a held translation say; `unsure`
what a page that parks counts as. -/
def soAt (s : State) (core cn : Nat) (unsure : Bool) (r : DWord × Nat) : Bool :=
  (pageParts r.1 r.2).any fun p => match (lookup s core cn none p.2.1 p.2.2).1 with
    | .ok t => t.att.ord = 0
    | .park _ _ => unsure
    | .fail _ => false

/-- Whether an earlier operation that is not settled is an access of the total order, or may prove to be one (R318). -/
def Op.maybeSo (o : Op) (s : State) (k : Block) : Bool :=
  if o.plan ≠ [] then o.plan.any fun p => p.2.2.2.any fun t => t.att.ord = 0
  else (o.reach k).any fun r => soAt s k.core k.ctx true r

/-- An acquire (R182, rule 3). -/
def isAcquire (i : Instr) : Bool :=
  match i with
  | .ld f => f.ord = 1
  | .atom f => f.ord = 1 || f.ord = 3
  | _ => false

/-- A release, and its scope (R182, rule 4). -/
def releaseScope (i : Instr) : Option Nat :=
  match i with
  | .st f | .red f => if f.ord = 2 then some f.scope else none
  | .enq f => if f.rel then some f.scope.toNat else none
  | .atom f => if f.ord = 2 || f.ord = 3 then some f.scope else none
  | _ => none

/-- The scope of the release that an operation is: by its own annotation, or because its thread had passed a release fence
(R314). -/
def Op.releases (o : Op) (wr : Bool) : Option Nat :=
  match releaseScope o.insn, if wr then o.rel else none with
  | some m, some n => some (max m n)
  | some m, none => some m
  | none, r => r

/-- What an acquire fence waits for: loads, and atomics with a result (R196). -/
def Op.readsMem (o : Op) : Bool :=
  match o.insn with
  | .ld _ | .ldnr _ | .mldr _ => true
  | .atom _ => o.dest ≠ Sel.zero
  | _ => false

/-- What a later load waits for at a `.ar` fence: stores (R196). -/
def Op.writesMem (o : Op) : Bool :=
  match o.insn with
  | .st _ | .atom _ | .red _ | .mxdrain _ => true
  | _ => false

/-- Whether ticket `x` is older than `y` in a window. -/
def olderTk (x y : BitVec 16) : Bool := x ≠ y && (y - x).toNat ≤ 2 ^ 15

/-- Operations of the thread not settled and older than a ticket. -/
def Thread.before (x : Thread) (tk : BitVec 16) : List Op := x.win.filter fun o => o.st ≠ .settled && olderTk o.tk tk

/-- Fences that stand before a ticket. -/
def Thread.fencesBefore (x : Thread) (tk : BitVec 16) : List Fence := x.fences.filter fun f => f.tk = tk || olderTk f.tk tk

/-- Whether a fence lets a later access be performed: `wr` a store, atomic or ENQ, `rd` a load. -/
def Thread.fenceLets (x : Thread) (f : Fence) (rd wr : Bool) : Bool :=
  (f.kind = 2 || f.inv)
  && (!(wr && f.kind ≠ 1) || (x.before f.tk).isEmpty)
  && (!(rd && f.kind = 3) || !(x.before f.tk).any Op.writesMem)

/-- Stores of other threads that have reached the core's L1 path and not their targets (R315). -/
def State.pathBusy (s : State) (core b t : Nat) : Bool :=
  s.blocks.any fun e => e.2.core = core && e.2.thr.any fun y =>
    !(e.1 = b && y.1 = t) && y.2.win.any fun o => (o.perf || o.parts ≠ []) && o.st = .outstanding && o.writesMem

/-- Whether a release at a scope may be performed: what its thread did before is settled, and, at a scope wider than the
block's, what other threads had in the core's L1 path is performed (R315). -/
def State.releaseLets (s : State) (core b t scope : Nat) (older : List Op) : Bool :=
  older.isEmpty && (scope = 0 || !s.pathBusy core b t)

/-- Whether an operation may be performed now as far as the thread's earlier accesses go (R182, R196, R315, R318). -/
def mayPerform (s : State) (b t : Nat) (k : Block) (x : Thread) (o : Op) : Bool :=
  let older := x.before o.tk
  let rs := o.reach k
  let so := rs.any fun r => soAt s k.core k.ctx false r
  let wr := o.writesMem || opKind o.insn = 9
  older.all (fun y =>
    !isAcquire y.insn
    && !((y.reach k).any fun r => rs.any fun q => overlap r q)
    && !(so && y.maybeSo s k))
  && (x.fencesBefore o.tk).all (fun f => x.fenceLets f (o.readsMem && !o.writesMem) wr)
  && (o.releases wr).all (fun n => s.releaseLets k.core b t n older)
  && o.prior.all fun e => match s.opAt b e.1 e.2 with
      | some (_, _, p) => p.st = .settled || p.st = .failed || (p.perf && p.allDone)
      | none => true

/-- Fences do what they can: the invalidations once the earlier loads are performed; a fence with nothing unsettled
before it is done (R196). That later writes are releases the thread keeps apart (R314). -/
def State.fenceStep (s : State) (b t : Nat) : State :=
  match s.blk b, s.thr b t with
  | some k, some x =>
    let due := x.fences.filter fun f => f.kind ≠ 2 && !f.inv && !(x.before f.tk).any Op.readsMem
    let s := due.foldl (fun s f => s.acquire k.core k.ctx f.scope) s
    s.modThr b t fun x =>
      { x with fences := (x.fences.map fun f => if due.contains f then { f with inv := true } else f).filter fun f =>
          !(x.before f.tk).isEmpty }
  | _, _ => s

/-! ## Settling (R154, R155) -/

/-- Results written to a register destination, shape G, and to the latches that wait for them. -/
def State.deposit (s : State) (b t : Nat) (tk : BitVec 16) (d : Sel) (ws : List Word) : State :=
  let n := ws.length
  let s := s.modBlk b fun k =>
    (List.range n).foldl (fun k i => k.putReg d i (.g [(t, wordAt ws i)]) [t] (k.covered [t])) k
  let v : DWord := if n = 2 then dwordAt ws 0 else (wordAt ws 0).setWidth 64
  let fix (l : Latch) : Latch := if l = .pending tk then .val v else l
  s.modThr b t fun x => { x.setLong true (runRegs d n) with l0 := fix x.l0, l1 := fix x.l1, l2 := fix x.l2, l3 := fix x.l3 }

/-- An operation settles: the horizon moves, an acquire invalidates, fences go on. -/
def State.settleOp (s : State) (b t : Nat) (tk : BitVec 16) : State :=
  match s.opAt b t tk with
  | none => s
  | some (k, _, o) =>
    let sc := match o.insn with
      | .ld f | .atom f => f.scope
      | _ => 0
    let s := if isAcquire o.insn then s.acquire k.core k.ctx sc else s
    (s.modThr b t fun x => (x.modOp tk fun o => { o with st := .settled }).settleTail).fenceStep b t

/-- The words that a load of a size and type writes (R188). -/
def loadWords (size : Nat) (ty : Ty) (bs : List Byte) : List Word :=
  let x := leNat bs
  match size with
  | 0 => [if ty = .i32 then (BitVec.ofNat 8 x).signExtend 32 else BitVec.ofNat 32 x]
  | 1 => [if ty = .i32 then (BitVec.ofNat 16 x).signExtend 32 else BitVec.ofNat 32 x]
  | n => bytesWords (sizeRegs n) bs

/-- A finished load, store, atomic or residency request settles with its result (R155, R193). -/
def State.settleAccess (s : State) (b t : Nat) (o : Op) : State :=
  let quiet := o.parts.any (·.quiet)
  let s := if quiet then s.modBlk b fun k => { k with rfail := true } else s
  let loaded (f : Std) : List Word :=
    if quiet then List.replicate (sizeRegs f.size) 0xFFFF_FFFF#32 else loadWords f.size f.ty o.bytes
  let s := match o.insn with
    | .ld f => s.deposit b t o.tk o.dest (loaded f)
    | .ldnr f =>
      let s := s.deposit b t o.tk o.dest (loaded f)
      match f.c with
      | .p n => s.modThr b t fun x => x.setPred n.toNat (quiet || !o.parts.any (·.absent))
      | _ => s
    | .atom f => if o.dest = Sel.zero then s else s.deposit b t o.tk o.dest (bytesWords (atomBytes f.ty / 4) o.bytes)
    | _ => s
  s.settleOp b t o.tk

/-! ## Issuing fallible instructions (R150, R151, R153) -/

/-- Whether every window has room (R151). -/
def windowRoom (q : Iss) (s : State) : Bool :=
  q.on.all (fun t => (q.thr t).span < 32) && s.coreWindow q.k.core + q.on.length ≤ 16384

/-- A new operation of a thread; `push` whether its result is pushed. -/
def State.addOp (s : State) (b t : Nat) (o : Op) (push : Bool) : State :=
  s.modThr b t fun x =>
    let x : Thread := { x with win := x.win ++ [{ o with tk := x.tnext, rel := x.rel }], tnext := x.tnext + 1 }
    if push then x.push (.pending (x.tnext - 1)) else x

/-- The kinds that a replay does not execute (R359). -/
def endsReplay (i : Instr) : Bool :=
  match i with
  | .atom _ | .red _ | .enq _ | .mldr _ | .agdef _ | .clstart _ | .pgmove _ | .pgreq _ => true
  | _ => false

/-- The operations of one instruction, with what each knows of the others: those in lower slots that name the same bytes
(R192), and those that share a line, or the page of a move request (R184, R246). -/
def withMates (i : Instr) (q : Iss) (ops : List (Nat × Op)) : List (Nat × Op) :=
  let name (e : Nat × Op) : Nat × BitVec 16 := (e.1, (q.thr e.1).tnext)
  ops.zipIdx.map fun e =>
    let o := e.1.2
    let lower := ops.take e.2
    (e.1.1, { o with
      hnd := (q.thr e.1.1).handler
      mates := if o.lines = [] then [] else
        (ops.filter fun f => f.1 ≠ e.1.1 && f.2.lines.any o.lines.contains).map name
      prior := match i with
        | .atom _ | .red _ | .enq _ => ((lower.filter fun f => f.2.addr = o.addr).map name).reverse.take 1
        | _ => [] })

/-- Issues a fallible instruction: `d` its destination, of `n` registers; `mk` the operation of a thread. -/
def fallible (i : Instr) (d : Sel) (n : Nat) (mk : Iss → Nat → State → Op × State) (q : Iss) (s : State) : State :=
  let s := clearLong q s
  if q.k.narrow d n && !q.on.isEmpty then finish q (shapeTraps q 1 d) s
  else
    let traps := latchTraps q s
    let good := q.good traps
    if !good.isEmpty && endsReplay i && s.isReplay q.k.gang then s.abandon q.k.gang
    else
      let r := good.foldl (fun (acc : List (Nat × Op) × State) t =>
        let (o, s) := mk q t acc.2
        (acc.1 ++ [(t, o)], s)) ([], s)
      finish q traps ((withMates i q r.1).foldl (fun s e => s.addOp q.b e.1 e.2 d.isReg) r.2)

/-- The address of a thread's access (R175). -/
def Iss.addr (q : Iss) (f : Std) (t : Nat) : DWord :=
  addOffset (q.k.pair t (q.thr t) f.a) (q.k.src32 t (q.thr t) f.lit f.b).toInt

/-- The lines of an access that may count (R222). -/
def lineNumbers (addr : DWord) (n : Nat) : List Nat := (linePieces addr n).map fun p => p.2.1.toNat / 128

/-- The operation of an access instruction for a thread. -/
def accessOp (i : Instr) (f : Std) (d : Sel) (q : Iss) (t : Nat) (data : List Byte) : Op :=
  { tk := 0, pc := q.pc, insn := i, addr := q.addr f t, data := data, dest := if d.isReg then d else Sel.zero
    lines := match accOf i with
      | some a => if opKind i = 7 then [] else lineNumbers (q.addr f t) a.size
      | none => [] }

/-- The bytes that a store takes from its data source (R188); words of a wider store beyond a 32-bit source that is no
register are free (log entry 11). -/
def storeData (q : Iss) (f : Std) (t : Nat) (s : State) : List Byte × State :=
  let n := 2 ^ f.size
  let x := q.thr t
  let r := sizeRegs f.size
  match f.c with
  | .v _ | .o _ => ((q.k.regBytes t x f.c r).take n, s)
  | .zero => (List.replicate n 0, s)
  | c =>
    let have_ := if f.ty.wide then 8 else match c with
      | .l _ => 8
      | _ => 4
    let v : DWord := if f.ty.wide then q.k.srcIn t x f.lit (tyFmt f.ty) 1 2 c else match c with
      | .l m => (x.latch m).bits
      | _ => (q.k.src32 t x f.lit c).setWidth 64
    let (rest, s) := s.outside (n - have_)
    ((leBytes have_ v.toNat).take n ++ rest, s)

/-- The data of an atomic (R191): `.cas` takes a group, the compare value first. -/
def atomData (q : Iss) (f : Std) (t : Nat) : List Byte :=
  let x := q.thr t
  let n := atomBytes f.ty
  if f.size = 7 then q.k.regBytes t x f.c (n / 2)
  else leBytes n (q.k.srcIn t x f.lit (tyFmt f.ty) f.ty.cnt (n / 4) f.c).toNat

/-- LD (R193). -/
def execLd (f : Std) (s : State) : Host.Outcome State Fault Refusal :=
  issue (.ld f) windowRoom (fallible (.ld f) f.d (sizeRegs f.size) fun q t s => (accessOp (.ld f) f f.d q t [], s)) s

/-- LDNR (R193). -/
def execLdnr (f : Std) (s : State) : Host.Outcome State Fault Refusal :=
  issue (.ldnr f) windowRoom (fallible (.ldnr f) f.d (sizeRegs f.size) fun q t s => (accessOp (.ldnr f) f f.d q t [], s)) s

/-- ST (R193). -/
def execSt (f : Std) (s : State) : Host.Outcome State Fault Refusal :=
  issue (.st f) windowRoom (fallible (.st f) Sel.zero 0 fun q t s =>
    let (bs, s) := storeData q f t s
    (accessOp (.st f) f .zero q t bs, s)) s

/-- ATOM (R191, R192). -/
def execAtom (f : Std) (s : State) : Host.Outcome State Fault Refusal :=
  issue (.atom f) windowRoom (fallible (.atom f) f.d (if f.ty.wide then 2 else 1) fun q t s =>
    (accessOp (.atom f) f f.d q t (atomData q f t), s)) s

/-- RED (R191, R192). -/
def execRed (f : Std) (s : State) : Host.Outcome State Fault Refusal :=
  issue (.red f) windowRoom (fallible (.red f) Sel.zero 0 fun q t s =>
    (accessOp (.red f) f .zero q t (atomData q f t), s)) s

/-- PGREQ (R194). -/
def execPgreq (f : Std) (s : State) : Host.Outcome State Fault Refusal :=
  issue (.pgreq f) windowRoom (fallible (.pgreq f) Sel.zero 0 fun q t s => (accessOp (.pgreq f) f .zero q t [], s)) s

/-! ## The scratchpad (R176 to R178, R193) -/

/-- The scratchpad address of a thread (R176). -/
def Iss.scratchAddr (q : Iss) (f : Std) (t : Nat) : Word :=
  q.k.src32 t (q.thr t) f.lit f.a + q.k.src32 t (q.thr t) f.lit f.b

/-- The block that an address names (R176). -/
def State.scratchBlock (s : State) (k : Block) (a : Word) : Option Nat :=
  (Tab.find s.gangs k.gang).bind fun g => if bits a 23 20 < 8 then g.blocks[bits a 23 20]? else none

/-- The detail of a scratchpad fault (R178): the lowest that applies. -/
def scratchFault (s : State) (k : Block) (a : Word) (n : Nat) (aligned : Bool) : Option Nat :=
  if bits a 19 0 + n > k.scr then some 1
  else if (s.scratchBlock k a).isNone then some 2
  else if bits a 31 24 ≠ 0 then some 3
  else if aligned && a.toNat % n ≠ 0 then some 4
  else none

/-- Scratchpad accesses wait for an acquire of the thread and for its fences (R182, R196); a write after a release fence
is a release (R314, R315). -/
def scratchReady (wr : Bool) (q : Iss) (s : State) : Bool :=
  q.on.all fun t =>
    let x := q.thr t
    x.win.all (fun o => o.st = .settled || !isAcquire o.insn) && x.fences.all (fun f => x.fenceLets f (!wr) wr)
      && (!wr || x.rel.all fun n => s.releaseLets q.k.core q.b t n (x.win.filter (·.st ≠ .settled)))

/-- Scratchpad bytes. -/
def State.scratchRead (s : State) (b : Option Nat) (a : Word) (n : Nat) : List Byte :=
  match b.bind s.blk with
  | some k => Memory.read k.scratch (bits a 19 0) n
  | none => []
def State.scratchWrite (s : State) (b : Option Nat) (a : Word) (bs : List Byte) : State :=
  match b with
  | some b => s.modBlk b fun k => { k with scratch := Memory.write k.scratch (bits a 19 0) bs }
  | none => s

/-- An access to the scratchpad: faults, then the threads in slot order (R178, R193). DESIGN CHOICE: of two traps, that of
a narrow destination comes before that of the address, since the spec orders them nowhere (log entry 28). DESIGN CHOICE:
an access through the cluster window is applied at its target at issue, the earliest place that R193 allows it (log entry
62). -/
def scratchRun (f : Std) (d : Sel) (nd size : Nat) (aligned : Bool) (esc : Nat)
    (act : Iss → Nat → Option Nat → Word → State → List Word × State) (q : Iss) (s : State) : State :=
  let s := clearLong q s
  if q.k.narrow d nd && !q.on.isEmpty then finish q (shapeTraps q 1 d) s
  else
    let lost := latchTraps q s
    let faults := (q.good lost).filterMap fun t =>
      (scratchFault s q.k (q.scratchAddr f t) size aligned).map fun c =>
        (t, Fate.trap trapScratch c (q.scratchAddr f t) q.pc)
    let traps := lost ++ faults
    let good := q.good traps
    let r := good.foldl (fun (acc : State × List (Nat × List Word)) t =>
      let a := q.scratchAddr f t
      let (ws, s) := act q t (acc.1.scratchBlock q.k a) a acc.1
      (if esc = 0 then s else s.modThr q.b t fun x => x.escape esc q.off, acc.2 ++ [(t, ws)])) (s, [])
    let s := r.1
    let s := if d.isReg then
        let s := s.modBlk q.b fun k => (List.range nd).foldl (fun k i =>
          k.putReg d i (.g (r.2.map fun e => (e.1, wordAt e.2 i))) good (k.covered good)) k
        r.2.foldl (fun s e => s.modThr q.b e.1 fun x =>
          (x.setLong true (runRegs d nd)).push
            (.val (if nd = 2 then dwordAt e.2 0 else (wordAt e.2 0).setWidth 64))) s
      else s
    finish q traps s

/-- LDS (R193). -/
def execLds (f : Std) (s : State) : Host.Outcome State Fault Refusal :=
  issue (.lds f) (scratchReady false)
    (scratchRun f f.d (sizeRegs f.size) (2 ^ f.size) false 0 fun _ _ b a s =>
      (loadWords f.size f.ty (s.scratchRead b a (2 ^ f.size)), s)) s

/-- STS (R193). -/
def execSts (f : Std) (s : State) : Host.Outcome State Fault Refusal :=
  issue (.sts f) (scratchReady true)
    (scratchRun f Sel.zero 0 (2 ^ f.size) false 1 fun q t b a s =>
      let (bs, s) := storeData q f t s
      ([], s.scratchWrite b a bs)) s

/-- ATOMS (R191, R193). -/
def execAtoms (f : Std) (s : State) : Host.Outcome State Fault Refusal :=
  let n := atomBytes f.ty
  issue (.atoms f) (scratchReady true)
    (scratchRun f f.d (n / 4) n true 2 fun q t b a s =>
      let old := s.scratchRead b a n
      (bytesWords (n / 4) old, s.scratchWrite b a (atomNew f.size f.ty old (atomData q f t)))) s

/-! ## PF, FENCE, CCTL -/

/-- A line brought near by a run-ahead access (R195, R226): a local page in good order fills the L1; an error found
fresh marks its granule; nothing else happens. -/
def State.runAhead (s : State) (core cn : Nat) (addr : DWord) (l1 : Bool) : State :=
  match judge s core cn none { size := 1, rd := true, poison := true } addr with
  | (.ok [(_, _, _, some t)], s) =>
    if t.att.loc ≠ 0 || !l1 || t.att.ord = 0 then s
    else match serve s core cn t addr 1 with
      | .bytes _ _ s => s
      | .fresh _ s => s
      | .away => s
  | (_, s) => s

/-- PF (R195). -/
def execPf (f : Std) (s : State) : Host.Outcome State Fault Refusal :=
  issue (.pf f) always (fun q s =>
    let s := clearLong q s
    let traps := latchTraps q s
    finish q traps ((q.good traps).foldl (fun s t => s.runAhead q.k.core q.k.ctx (q.addr f t) (f.size = 0)) s)) s

/-- A thread has passed a fence: what it orders, and, of a release fence, that later writes are releases (R196, R314). -/
def Thread.fence (x : Thread) (kind scope : Nat) : Thread :=
  { x with fences := x.fences ++ [{ kind := kind, scope := scope, tk := x.tnext }]
           rel := if kind = 1 then x.rel else some (max scope (x.rel.getD 0)) }

/-- FENCE (R196). -/
def execFence (f : Std) (s : State) : Host.Outcome State Fault Refusal :=
  issue (.fence f) always (fun q s =>
    let s := q.on.foldl (fun s t => (s.modThr q.b t fun x => x.fence f.ord f.scope).fenceStep q.b t) s
    finish q [] s) s

/-- CCTL on one address (R197). -/
def cctlLine (op : Nat) (core cn : Nat) (lane : Option Nat) (addr : DWord) (s : State) : State :=
  match lookup s core cn lane addr 1 with
  | (.ok t, s) =>
    let a := lineBase (t.key addr)
    let far (l : CLine) : Bool := !(l.ctx = cn && l.loc = t.att.loc && l.addr = a)
    match op with
    | 1 => s.modCore core fun k => { k with l1 := k.l1.filter far }
    | 3 => if t.att.loc = 1 && t.att.mode = 2 then s.modDev fun d => { d with cache := d.cache.filter far } else s
    | _ => s
  | (_, s) => s

/-- CCTL (R197). -/
def execCctl (f : Std) (s : State) : Host.Outcome State Fault Refusal :=
  issue (.cctl f) always (fun q s =>
    let s := clearLong q s
    let traps := latchTraps q s
    let good := q.good traps
    if good.isEmpty then finish q traps s
    else match f.size with
      | 0 => finish q traps (s.modCore q.k.core fun k => { k with icache := [] })
      | 2 => finish q traps (s.modCore q.k.core fun k => { k with l1 := k.l1.filter (·.ctx ≠ q.k.ctx) })
      | op => finish q traps (good.foldl (fun s t => cctlLine op q.k.core q.k.ctx (q.k.laneOf t) (q.addr f t) s) s)) s

end Sys2Proof.Machine
end

