-- ==== Sys2Proof/Machine/Fetch.lean ====
section
/-! DEFINITION. Fetching an instruction's bytes, and the fetch fault (spec/02_words.md R21, R40, R41;
spec/08_operation.md R159). -/

namespace Sys2Proof.Machine

/-- The address of the fetch block of a PC (R21). -/
def blockAddr (pc : DWord) : DWord := pc &&& ~~~31#64

/-- What a fetch gives. -/
inductive Fetched where
  | bytes (bs : List Byte) (s : State)
  | park (cause gfn : Nat)
  | fail (cause : Nat)
  /-- It meets an uncorrectable error that is found fresh (R356). -/
  | fresh (addr : DWord) (s : State)
  deriving DecidableEq, Repr

/-- The 32 bytes of a fetch block, from the instruction cache or from memory (R41). -/
def fetchBlock (s : State) (core cn : Nat) (a : DWord) : Fetched :=
  match (s.core core).icache.find? fun e => e.1 = cn && e.2.1 = a with
  | some (_, _, bs) => .bytes bs s
  | none => match gread s cn a 32 true with
    | (.ok bs, s) => match freshAt s cn a 32 with
      | some (x, p) => .fresh x (s.found p)
      | none => .bytes bs (s.modCore core fun k => { k with icache := (cn, a, bs) :: k.icache })
    | (.error (.fail c), _) => .fail c
    | (.error (.park c g), _) => .park c g
    | (.error (.ok _), _) => .fail 13

/-- The instruction at an offset of a fetch block: the words from there to the block's end (R21). -/
def parseAt (off : Nat) (block : List Byte) : Except Detail Instr := parse (block.drop off)

/-- A ripple of block `b` may fetch: its threads run, none is at rest, and none has a frame still being written (R126,
R134, R161). -/
def mayFetch (s : State) (b : Nat) (k : Block) (rp : Ripple) : Bool :=
  rp.busy.isNone && rp.stall.isNone && !s.framing b rp.threads
  && rp.threads.all fun t => (Tab.find k.thr t).any fun x => x.st = .running && !x.rest

/-- FETCH_FAULT (R159): the threads stall at their PC, and each posts a record of kind 0. -/
def execFetchFault (b r : Nat) (s : State) : Host.Outcome State Fault Refusal :=
  match s.blk b with
  | none => .next s
  | some k => match Tab.find k.rip r with
    | none => .next s
    | some rp => match rp.threads.head?.bind fun t => Tab.find k.thr t with
      | none => .next s
      | some x =>
        if !mayFetch s b k rp then .next s
        else match fetchBlock s k.core k.ctx (blockAddr x.pc) with
          | .park c g =>
            let s := rp.threads.foldl (fun s t => s.postFault k c 0 0 t (blockAddr x.pc) g) s
            .next (s.modRip b r fun rp => { rp with stall := some (c, g) })
          | _ => .next s

end Sys2Proof.Machine
end

