-- ==== Sys2Proof/Machine/Horizon.lean ====
section
/-! DEFINITION. The horizon instructions, waits, the failure trap, EXIT's end (spec/08_operation.md R160, R168 to R174;
spec/07_group.md R122, R141). -/

namespace Sys2Proof.Machine

/-! ## Waits (R122, R134) -/

/-- A wait instruction at issue, `bar` the barrier that it names, if one: each guard-true thread whose condition is unmet
waits with its token and the ripple stands, and loses selection (R126); where all are met, `done` follows if there is one,
the latches clear (R47) and the ripple goes on, at a switch point. -/
def waitFaults (faults : Iss → List Nat → List (Nat × Fate)) (bar tok : Iss → Nat → Word) (met : Iss → Nat → State → Bool)
    (done : Iss → State → State) (q : Iss) (s : State) : State :=
  let s := clearLong q s
  let lost := latchTraps q s
  let traps := lost ++ faults q (q.good lost)
  let good := q.good traps
  if good.all fun t => met q t s then
    finish q (traps ++ (q.ts.filter fun t => !traps.any fun e => e.1 = t).map fun t => (t, .go q.next true))
      (clearAll q (if good.isEmpty then s else done q s))
  else
    let s := (unpick q s).modThrs q.b good fun t x => { x with wtok := tok q t, wbar := bar q t }
    finish q (traps ++ (q.ts.filter fun t => !traps.any fun e => e.1 = t).map fun t =>
      (t, if good.contains t && !met q t s then .wait (tok q t) else .stand)) s

/-- The shape trap of a wait's destination: the latches of the guard-false threads clear too, and they go on, at a switch
point (R47, R56). -/
def waitShapeTrap (q : Iss) (d : Sel) (s : State) : State :=
  finish q (shapeTraps q 1 d ++ (q.ts.filter fun t => !q.on.contains t).map fun t => (t, .go q.next true)) (clearAll q s)

/-- The same, where the instruction has no trap of its own. -/
def waitRun (tok : Iss → Nat → Word) (met : Iss → Nat → State → Bool) (done : Iss → State → State) (q : Iss) (s : State) :
    State :=
  waitFaults (fun _ _ => []) (fun _ _ => 0) tok met done q s

/-- Ends the wait at which a ripple stands, if it is one of `kind` and its condition holds for every waiting thread, none
of which need be left where some have trapped out of it (R160). DEDUCED: R122 ends the wait when the condition holds for
every guard-true thread, and R204 ends each thread's own; a thread for which it held at issue is not tested again (log entry
73). `after` is what the end does for the threads whose guard is true (R122); then the latches clear (R47). -/
def endWait (kind : Instr → Bool) (met : Block → Instr → Nat → Thread → State → Bool)
    (after : Block → Instr → List Nat → State → State) (b r : Nat) (s : State) : State :=
  match s.blk b with
  | none => s
  | some k => match Tab.find k.rip r with
    | none => s
    | some rp => match rp.busy with
      | none => s
      | some i =>
        let xs := rp.threads.filterMap fun t => (Tab.find k.thr t).map fun x => (t, x)
        let waiting := xs.filter fun e => e.2.st = .waiting
        if !kind i || !waiting.all (fun e => met k i e.1 e.2 s) then s
        else
          let on := xs.filter fun e => guardHolds (instrGuard i) e.2.p
          let s := (after k i (on.map Prod.fst) s).modThrs b (xs.map Prod.fst) fun _ x => x.clearLatches
          s.apply b r i (xs.map fun e => (e.1, .go (pcAdd e.2.pc i.length) true))

/-- Nothing follows a wait. -/
def noAfter (_ : Block) (_ : Instr) (_ : List Nat) (s : State) : State := s

/-- HWAIT's condition with the ticket (R171). -/
def hwaitMet (f : Std) (x : Thread) (tok : Word) : Bool :=
  if f.func.getLsbD 0 then x.settled else x.passed (tok.extractLsb' 0 16)

/-- HWAIT (R171). -/
def execHwait (f : Std) (s : State) : Host.Outcome State Fault Refusal :=
  issue (.hwait f) always (waitRun (fun q t => q.k.src32 t (q.thr t) f.lit f.a)
    (fun q t _ => hwaitMet f (q.thr t) (q.k.src32 t (q.thr t) f.lit f.a)) fun _ s => s) s

def isHwait (i : Instr) : Bool :=
  match i with
  | .hwait _ => true
  | _ => false

/-- Whether the wait of HWAIT has ended for a thread. -/
def hwaitEnded (_ : Block) (i : Instr) (_ : Nat) (x : Thread) (_ : State) : Bool :=
  match i with
  | .hwait f => hwaitMet f x x.wtok
  | _ => false

/-- HWAIT_END (R171). -/
def execHwaitEnd (b r : Nat) (s : State) : Host.Outcome State Fault Refusal :=
  .next (endWait isHwait hwaitEnded noAfter b r s)

/-! ## Horizon instructions -/

/-- HREAD (R170). -/
def execHread (f : SForm) (s : State) : Host.Outcome State Fault Refusal :=
  issue (.hread f) always (computeRun f.d 1 (fun _ => .g) fun q _ t => .word ((q.thr t).tnext ++ (q.thr t).hz)) s

/-- HBR (R172). -/
def execHbr (f : Std) (s : State) : Host.Outcome State Fault Refusal :=
  issue (.hbr f) always (fun q s =>
    let s := clearLong q s
    let traps := latchTraps q s
    let np := f.func.getLsbD 1
    let taken (t : Nat) : Bool :=
      (if f.func.getLsbD 0 then (q.thr t).settled
       else (q.thr t).passed ((q.k.src32 t (q.thr t) f.lit f.b).extractLsb' 0 16)) != np
    let s := clearAll q s
    finish q (traps ++ ((q.good traps).filter taken).map fun t => (t, .go (q.target t f f.a) true)) s) s

/-- TICK's status word (R173). -/
def tickWord (x : Thread) (tk : BitVec 16) : Word :=
  let a := (x.tnext - tk).toNat
  let issued := 1 ≤ a && a ≤ 2 ^ 15
  let st : Nat :=
    if !issued then 4
    else if x.passed tk then 0
    else match x.op tk with
      | some o => match o.st with
        | .outstanding => 1
        | .parked => 2
        | .failed => 3
        | .settled => 0
      | none => 0
  BitVec.ofNat 32 (x.span % 256 * 2 ^ 16 + st)

/-- TICK (R173). -/
def execTick (f : Std) (s : State) : Host.Outcome State Fault Refusal :=
  issue (.tick f) always (computeRun f.d 1 (fun _ => .g) fun q _ t =>
    .word (tickWord (q.thr t) ((q.k.src32 t (q.thr t) f.lit f.a).extractLsb' 0 16))) s

/-! ## HRESUME (R174) -/

/-- An instruction with another selector in its destination field. -/
def withDest (i : Instr) (d : Sel) : Instr :=
  match i with
  | .ld f => .ld { f with d := d }
  | .ldnr f => .ldnr { f with d := d }
  | .atom f => .atom { f with d := d }
  | .mldr f => .mldr { f with d := d }
  | .enq f => .enq { f with d := d }
  | .clstart f => .clstart { f with d := d }
  | i => i

/-- The kinds that write a register (R174). -/
def writesReg (kind : Nat) : Bool := kind = 1 || kind = 3 || kind = 4 || kind = 6 || kind = 9 || kind = 12

/-- The bytes of DATA that an instruction uses. -/
def dataBytes (i : Instr) : Nat :=
  match i with
  | .st f => 2 ^ f.size
  | .atom f => if f.size = 7 then 2 * atomBytes f.ty else atomBytes f.ty
  | .red f => atomBytes f.ty
  | .enq _ => 64
  | _ => 0

/-- The instruction of an entry that HRESUME re-issues, if the entry passes the checks (R174): `k` what the device keeps
for it. A drain buffer kept for an entry that is now of another kind is of no use to it (R164). -/
def entryInstr (env : Env) (ws : List Word) (k : Option Kept) : Option Instr :=
  let kind := bits (wordAt ws 0) 23 16
  let dest := Sel.ofCode ((wordAt ws 1).extractLsb' 0 9)
  match parseWords ((ws.drop 6).take 4) with
  | .error _ => none
  | .ok i =>
    let i' := if writesReg kind then withDest i dest else i
    if opKind i ≠ kind || kind = 0 || bits (wordAt ws 1) 23 16 > 64 || (!writesReg kind && dest ≠ .zero)
       || (i'.violation env).isSome || (kind = 10 && !(k.bind Kept.buf).isSome) then none
    else some i'

/-- The operation of an entry: bytes of DATA beyond DLEN that it uses are free (log entry 12). Its PC is the one that the
device keeps, since the entry's is not read (R174); `pc` where it keeps none. DESIGN CHOICE: an entry for which the device
kept nothing has 0 for each captured operand that the frame has no field for (an MLDR's offset and parameters, an AGDEF's
mask, a PGMOVE's target word, a CLSTART's group), and HRESUME's own address for its PC (log entry 8). -/
def entryOp (pc : DWord) (ws : List Word) (i : Instr) (k : Option Kept) (s : State) : Op × State :=
  let dlen := bits (wordAt ws 1) 23 16
  let data := (wordBytes (ws.drop 16)).take dlen
  let (more, s) := s.outside (dataBytes i - dlen)
  let d := Sel.ofCode ((wordAt ws 1).extractLsb' 0 9)
  let addr := dwordAt ws 4
  ({ tk := 0, pc := (k.map Kept.pc).getD pc, insn := i, addr := addr, data := data ++ more, dest := if d.isReg then d else Sel.zero
     aux := (k.map Kept.aux).getD [], buf := k.bind Kept.buf
     lines := match i, accOf i with
       | .pgmove _, _ => [pageNo addr]
       | i, some a => if opKind i = 7 then [] else lineNumbers addr a.size
       | _, none => [] }, s)

/-- The 32 entries of a thread's frame as words, and STALL; none where the frame cannot be read. -/
def readFrame (s : State) (k : Block) (t : Nat) : Option (DWord × List (List Word)) :=
  match gread s k.ctx (k.frame t) 4224 false with
  | (.ok bs, _) =>
    let ws := bytesWords 1056 bs
    some (dwordAt ws 2, (List.range 32).map fun i => (ws.drop (32 * (i + 1))).take 32)
  | _ => none

/-- Entries with V = 1. -/
def listed (es : List (List Word)) : List (Nat × List Word) :=
  (es.zipIdx.map fun e => (e.2, e.1)).filter fun e => (wordAt e.2 0).getLsbD 31

/-- HRESUME waits for window room, and for the thread's own stores to its frame (R174, R182). -/
def resumeReady (q : Iss) (s : State) : Bool :=
  let need (t : Nat) : Nat := if (q.thr t).handler then
      match readFrame s q.k t with
      | some (_, es) => (listed es).length
      | none => 0
    else 0
  q.on.all (fun t => (q.thr t).span + need t ≤ 32
    && !(q.thr t).win.any fun o => o.st ≠ .settled && (o.writesMem || opKind o.insn = 9) && (o.reach q.k).any fun r => overlap r (q.k.frame t, 4224))
  && s.coreWindow q.k.core + (q.on.map need).sum ≤ 16384

/-- Re-issues a thread's listed entries in order, and frees the buffers kept for entries that are not listed or are no
MXDRAIN any more (R164). -/
def reissue (b t : Nat) (pc : DWord) (env : Env) (es : List (List Word)) (kept : Tab Kept) (s : State) : State :=
  let s := s.freeKept b t fun n =>
    !(wordAt (es.getD n []) 0).getLsbD 31 || bits (wordAt (es.getD n []) 0) 23 16 ≠ 10
  (listed es).foldl (fun s e =>
    let k := Tab.find kept e.1
    match entryInstr env e.2 k with
    | none => s
    | some i => let (o, s) := entryOp pc e.2 i k s; s.addOp b t o false) s

/-- HRESUME for one thread: where it goes, or the gang's end; a frame in which an error is found fresh ends it too (R356). -/
def resumeThread (q : Iss) (t : Nat) (s : State) : Option DWord × State :=
  match readFrame s q.k t with
  | none => (none, s.killGang q.k.gang q.k 20 t 0 0)
  | some (stall, es) => match freshAt s q.k.ctx (q.k.frame t) 4224 with
    | some (x, p) => (none, (s.found p).killData q.k t x)
    | none =>
      let env := s.env q.k
      let kept := (q.thr t).kept
      if (listed es).all fun e => (entryInstr env e.2 (Tab.find kept e.1)).isSome then
        (some (targetOf stall), (reissue q.b t q.pc env es kept s).modThr q.b t Thread.leaveHandler)
      else (none, s.killGang q.k.gang q.k 17 t 0 0)

/-- HRESUME (R174): outside a handler the illegal-instruction trap with detail 11; an invalid frame is a double trap. -/
def execHresume (f : Std) (s : State) : Host.Outcome State Fault Refusal :=
  issue (.hresume f) resumeReady (fun q s =>
    let back := q.on.filter fun t => (q.thr t).handler
    let bad := q.on.filter fun t => !(q.thr t).handler
    let s := clearAll q s
    let r := back.foldl (fun (acc : State × List (Nat × Fate)) t =>
      match resumeThread q t acc.1 with
      | (some pc, s) => (s, acc.2 ++ [(t, .go pc true)])
      | (none, s) => (s, acc.2)) (s, [])
    finish q (r.2 ++ bad.map fun t => (t, .trap trapIllegal 11 0 q.pc)) r.1) s

/-! ## Events -/

/-- EXIT_COMPLETE (R141): a thread that stands at an EXIT exits once nothing of it is unsettled. -/
def execExitComplete (b t : Nat) (s : State) : Host.Outcome State Fault Refusal :=
  match s.blk b with
  | none => .next s
  | some k => match k.ripOf t, Tab.find k.thr t with
    | some (r, _, rp), some x => match rp.busy with
      | some (.exit f) =>
        if x.settled && x.st = .running then
          .next (s.apply b r (.exit f) (rp.threads.map fun u => (u, if u = t then .exit else .stand)))
        else .next s
      | _ => .next s
    | _, _ => .next s

/-- The waits whose failure trap comes only when they end (R160). -/
def barrierWait (i : Instr) : Bool :=
  match i with
  | .barw _ | .bars _ | .gbar _ => true
  | _ => false

/-- The next instruction that a thread would issue (R160): past an arrival, or a CLABORT, that has taken effect for it while its
ripple waits for others. -/
def Block.stallPc (k : Block) (t : Nat) (x : Thread) : DWord :=
  match (k.ripOf t).bind fun e => e.2.2.busy with
  | some i => if x.arr then pcAdd x.pc i.length else x.pc
  | none => x.pc

/-- FAILURE_TRAP (R160): the oldest unsettled operation has failed; the thread traps, its stall PC the next instruction
that it would have issued, and leaves its ripple. -/
def execFailureTrap (b t : Nat) (s : State) : Host.Outcome State Fault Refusal :=
  match s.blk b with
  | none => .next s
  | some k => match Tab.find k.thr t with
    | none => .next s
    | some x => match x.win with
      | [] => .next s
      | o :: _ =>
        let inBarrier := x.st = .waiting && (k.ripOf t).any fun e => e.2.2.busy.any barrierWait
        if o.st ≠ .failed || inBarrier || x.st = .exited then .next s
        else match (s.modThr b t fun x => { x with st := .running }).trapOr b t trapOp 0 0 (k.stallPc t x) with
          | none => .next s
          | some s => .next (s.leaveRipple b t)

end Sys2Proof.Machine
end

