-- ==== Sys2Proof/Machine/Barrier.lean ====
section
/-! DEFINITION. Named barriers and gang barriers (spec/10_barrier.md R198 to R209). -/

namespace Sys2Proof.Machine

/-! ## The life of a barrier (R199 to R201) -/

/-- The completion check after an event (R200). -/
def Bar.check (b : Bar) : Bar :=
  if b.init && b.arrived ≥ b.expect && b.bytes ≥ b.xbytes then
    { b with ovf := b.ovf || b.arrived > b.expect || b.bytes > b.xbytes, arrived := 0, bytes := 0, mask := 0
             phase := b.phase + 1 }
  else b

/-- BARI (R200). -/
def Bar.set (b : Bar) (count bytes : Nat) : Bar :=
  Bar.check { b with expect := count, xbytes := bytes, init := true, ovf := false }

/-- The arrival of thread `t` at a barrier that is set (R200). -/
def Bar.arrive (b : Bar) (t : Nat) : Bar :=
  Bar.check { b with arrived := min (b.arrived + 1) 2047, mask := b.mask ||| BitVec.twoPow 1024 t }

/-- Bytes delivered (R200, R201). -/
def Bar.deliver (b : Bar) (n : Nat) : Bar :=
  let b : Bar := { b with bytes := min (b.bytes + n) (2 ^ 32 - 1) }
  if b.init then b.check else b

/-- The words that BARQ reads (R199, R206). -/
def Bar.word (b : Bar) (n : Nat) : Word :=
  match n with
  | 0 => BitVec.ofNat 32 (b.phase.toNat * 2 ^ 16 + b.ovf.toNat * 2 ^ 13 + b.init.toNat * 2 ^ 12 + b.arrived)
  | 1 => BitVec.ofNat 32 b.expect
  | 2 => BitVec.ofNat 32 b.xbytes
  | _ => BitVec.ofNat 32 b.bytes

def State.modBar (s : State) (b n : Nat) (f : Bar → Bar) : State :=
  s.modBlk b fun k => { k with bar := Tab.set {} k.bar n (f (k.barOf n)) }

/-! ## Operands and faults (R207) -/

/-- The barrier index of a thread. -/
def Iss.barNo (q : Iss) (f : Std) (t : Nat) : Word := q.k.src32 t (q.thr t) f.lit f.a

/-- The barrier fault traps of threads, by detail. -/
def barTraps (q : Iss) (f : Std) (detail : Nat → Option Nat) (ts : List Nat) : List (Nat × Fate) :=
  ts.filterMap fun t => (detail t).map fun d => (t, .trap trapBarrier d (q.barNo f t) q.pc)

def badBar (q : Iss) (f : Std) (t : Nat) : Bool := (q.barNo f t).toNat ≥ q.k.bars

/-- BARI (R206): the threads in slot order. -/
def execBari (f : Std) (s : State) : Host.Outcome State Fault Refusal :=
  issue (.bari f) always (fun q s =>
    let s := clearLong q s
    let count (t : Nat) : Nat := (q.k.src32 t (q.thr t) f.lit f.b).toNat
    let bytes (t : Nat) : Nat := (q.k.src32 t (q.thr t) f.lit f.c).toNat
    let lost := latchTraps q s
    let traps := lost ++ barTraps q f (fun t =>
      if badBar q f t then some 1
      else if count t > 1024 || (count t = 0 && bytes t = 0) then some 3 else none) (q.good lost)
    finish q traps ((q.good traps).foldl (fun s t =>
      s.modBar q.b (q.barNo f t).toNat fun b => b.set (count t) (bytes t)) s)) s

/-- BARQ (R206). -/
def execBarq (f : Std) (s : State) : Host.Outcome State Fault Refusal :=
  issue (.barq f) always (computeFaults
    (fun q good => barTraps q f (fun t => if badBar q f t then some 1 else none) good) f.d 1
    (fun q => resultShape q.k (.barq f) f (ruleOf (.barq f)) fun _ => 0)
    fun q _ t => .word ((q.k.barOf (q.barNo f t).toNat).word f.func.toNat)) s

/-! ## Arriving (R202, R203) -/

/-- The scope of a barrier instruction (R206). -/
def barScope (f : Std) : Nat := f.func.toNat / 2

/-- The phase of the barrier that an instruction names. -/
def barPhase (s : State) (k : Block) (i : Instr) (n : Nat) : BitVec 16 :=
  match i with
  | .gbar _ => match Tab.find s.gangs k.gang with
    | some g => Tab.get 0 g.gb n
    | none => 0
  | _ => (k.barOf n).phase

/-- The form of an instruction that arrives. -/
def arrives (i : Instr) : Option Std :=
  match i with
  | .bara f | .bars f | .gbar f => some f
  | _ => none

/-- A thread's token goes to the destination, and is pushed (R206). -/
def writeToken (b t : Nat) (d : Sel) (tok : Word) (s : State) : State :=
  let s := if d.isReg then s.modBlk b fun k => k.putReg d 0 (.g [(t, tok)]) [t] (k.covered [t]) else s
  s.modThr b t fun x =>
    let x := if d.isReg then x.setLong false (runRegs d 1) else x
    if d ≠ .zero then x.push (.val (tok.setWidth 64)) else x

/-- A thread's arrival is counted: BARA and BARS, which is a BARA followed by a BARW, write their token; in BARS and GBAR
the thread is then WAITING with its token (R203, R204, R206). The barrier is the one that it named at issue. -/
def countArrival (b t : Nat) (i : Instr) (s : State) : State :=
  match s.blk b, s.thr b t, arrives i with
  | some k, some x, some f =>
    let n := x.wbar.toNat
    let tok : Word := (barPhase s k i n).setWidth 32
    let s := match i with
      | .gbar _ => (s.modBlk b fun k =>
          { k with garr := Tab.put k.garr n (Tab.get 0 k.garr n ||| BitVec.twoPow 1024 t) }).gangBarCheck k.gang n
      | _ => s.modBar b n fun y => y.arrive t
    match i with
    | .bara _ => (writeToken b t f.d tok s).modThr b t fun x => { x with arr := true }
    | i =>
      let s := match i with
        | .bars _ => writeToken b t f.d tok s
        | _ => s
      s.modThr b t fun x => { x with arr := true, st := .waiting, wtok := tok }
  | _, _, _ => s

/-- A ripple that has entered WAITING loses selection (R126). -/
def State.waitUnpick (s : State) (b r : Nat) : State :=
  match s.blk b with
  | none => s
  | some k =>
    if (Tab.find k.rip r).any fun rp => rp.threads.any fun t => (Tab.find k.thr t).any (·.st = .waiting) then
      s.dropPick k.core b r
    else s

/-- Whether an arrival with `.ahead` waits for an operation (R203): it has begun, or it is not held and may be performed. -/
def aheadWaits (s : State) (b t : Nat) (k : Block) (x : Thread) (o : Op) : Bool :=
  o.st = .outstanding && (o.parts ≠ [] || (!heldKind (opKind o.insn) && mayPerform s b t k x o))

/-- Whether a thread's arrival may be counted now: its operations have passed, or, with `.ahead`, those that can be
performed are; and with a scope wider than the block what has reached the core's L1 path is performed (R203, R315). -/
def arrivalDue (b t : Nat) (i : Instr) (s : State) : Bool :=
  match s.blk b, s.thr b t, arrives i with
  | some k, some x, some f =>
    (if f.func.getLsbD 0 then !x.win.any (aheadWaits s b t k x) else x.settled)
    && (barScope f = 0 || !s.pathBusy k.core b t)
  | _, _, _ => false

/-- Whether the wait of BARW, BARS or GBAR has ended for a thread (R204). -/
def barEnded (k : Block) (i : Instr) (_ : Nat) (x : Thread) (s : State) : Bool :=
  match i with
  | .barw _ | .bars _ | .gbar _ => barPhase s k i x.wbar.toNat ≠ x.wtok.extractLsb' 0 16
  | _ => false

/-- The end of a barrier wait: the acquire (R204). -/
def barEnd (k : Block) (i : Instr) (s : State) : State :=
  match i with
  | .barw f | .bars f | .gbar f => s.acquire k.core k.ctx (barScope f)
  | _ => s

/-- A ripple at an arrival goes on, or waits, once all its threads have arrived. -/
def arrivedAll (b r : Nat) (s : State) : State :=
  match s.blk b with
  | none => s
  | some k => match Tab.find k.rip r with
    | none => s
    | some rp => match rp.busy with
      | none => s
      | some i =>
        let xs := rp.threads.filterMap fun t => (Tab.find k.thr t).map fun x => (t, x)
        let next := xs.map fun e => (e.1, Fate.go (pcAdd e.2.pc i.length) (match i with
          | .bara _ => false
          | _ => true))
        if (arrives i).isNone || !xs.all (fun e => e.2.arr) then s.waitUnpick b r
        else match i with
          | .bara _ => s.apply b r i next
          | _ =>
            if xs.all fun e => barEnded k i e.1 e.2 s then
              ((barEnd k i s).modThrs b (xs.map Prod.fst) fun _ x => x.clearLatches).apply b r i next
            else s.waitUnpick b r

/-- An arrival that every guard-true thread completes at once, counted in slot order: the ripple stays whole, and in BARS
and GBAR it waits as in any other wait (R122, R124). -/
def arriveAtOnce (i : Instr) (traps : List (Nat × Fate)) (good : List Nat) (q : Iss) (s : State) : State :=
  let s := good.foldl (fun s t => countArrival q.b t i s) s
  let k := q.blkNow s
  let rest := q.ts.filter fun t => !traps.any fun e => e.1 = t
  match i with
  | .bara _ => finish q traps s
  | _ =>
    if good.all fun t => barEnded k i t (q.now s t) s then
      finish q (traps ++ rest.map fun t => (t, .go q.next true)) (clearAll q (if good.isEmpty then s else barEnd k i s))
    else
      finish q (traps ++ rest.map fun t => (t, if good.contains t then .wait (q.now s t).wtok else .stand)) (unpick q s)

/-- BARA, BARS and GBAR at issue (R203, R207): faults; where a guard-true thread must wait for its horizon, the
guard-false threads go on and the guard-true ones stand, those that need not wait having arrived. -/
def arriveRun (i : Instr) (f : Std) (fault : Iss → Nat → Option Nat) (q : Iss) (s : State) : State :=
  let s := clearLong q s
  let wait := match i with
    | .bara _ => false
    | _ => true
  if q.k.narrow f.d 1 && !q.on.isEmpty then
    if wait then waitShapeTrap q f.d s else finish q (shapeTraps q 1 f.d) s
  else
    let lost := latchTraps q s
    let traps := lost ++ barTraps q f (fault q) (q.good lost)
    let good := q.good traps
    let off := q.ts.filter fun t => !q.on.contains t
    let s := if f.func.getLsbD 0 then s.modThrs q.b good fun _ x => x.escape 5 q.off else s
    let s := s.modThrs q.b good fun t x => { x with wbar := q.barNo f t }
    if good.all fun t => arrivalDue q.b t i s then arriveAtOnce i traps good q s
    else
      let s := if wait then s.modThrs q.b off fun _ x => x.clearLatches else s
      let s := finish q (traps ++ good.map (fun t => (t, Fate.stand)) ++ off.map fun t => (t, .go q.next wait)) s
      let s := good.foldl (fun s t => if arrivalDue q.b t i s then countArrival q.b t i s else s) s
      match good.head?.bind fun t => (s.blk q.b).bind fun k => k.ripOf t with
      | some (r, _, _) => arrivedAll q.b r s
      | none => s

/-- BARA (R206). -/
def execBara (f : Std) (s : State) : Host.Outcome State Fault Refusal :=
  issue (.bara f) always (arriveRun (.bara f) f fun q t =>
    if badBar q f t then some 1 else if !(q.k.barOf (q.barNo f t).toNat).init then some 2 else none) s

/-- BARS (R206). -/
def execBars (f : Std) (s : State) : Host.Outcome State Fault Refusal :=
  issue (.bars f) always (arriveRun (.bars f) f fun q t =>
    if badBar q f t then some 1 else if !(q.k.barOf (q.barNo f t).toNat).init then some 2 else none) s

/-- GBAR (R202, R206). -/
def execGbar (f : Std) (s : State) : Host.Outcome State Fault Refusal :=
  issue (.gbar f) always (arriveRun (.gbar f) f fun q t => if (q.barNo f t).toNat > 3 then some 1 else none) s

/-- BARW (R204, R206). -/
def execBarw (f : Std) (s : State) : Host.Outcome State Fault Refusal :=
  issue (.barw f) always (waitFaults
    (fun q good => barTraps q f (fun t => if badBar q f t then some 1 else none) good)
    (fun q t => q.barNo f t) (fun q t => ((q.k.src32 t (q.thr t) f.lit f.b).extractLsb' 0 16).setWidth 32)
    (fun q t _ => (q.k.barOf (q.barNo f t).toNat).phase ≠ (q.k.src32 t (q.thr t) f.lit f.b).extractLsb' 0 16)
    fun q s => s.acquire q.k.core q.k.ctx (barScope f)) s

/-! ## Events -/

/-- BARRIER_ARRIVE (R203): a guard-true thread that stands at an arrival is counted once its operations have passed. -/
def execBarrierArrive (b t : Nat) (s : State) : Host.Outcome State Fault Refusal :=
  match s.blk b with
  | none => .next s
  | some k => match k.ripOf t, Tab.find k.thr t with
    | some (r, _, rp), some x => match rp.busy with
      | some i =>
        if x.st ≠ .running || (arrives i).isNone || !guardHolds (instrGuard i) x.p then .next s
        else if x.arr then .next (arrivedAll b r s)
        else if arrivalDue b t i s then .next (arrivedAll b r (countArrival b t i s)) else .next s
      | none => .next s
    | _, _ => .next s

/-- A barrier wait that may have met threads beside waiting ones: all guard-true threads must have arrived (R203,
R204). -/
def barWaits (s : State) (b r : Nat) (i : Instr) : Bool :=
  match i with
  | .barw _ => true
  | .bars _ | .gbar _ => (s.blk b).any fun k => (Tab.find k.rip r).any fun rp =>
      rp.threads.all fun t => (Tab.find k.thr t).any fun x => x.arr || !guardHolds (instrGuard i) x.p
  | _ => false

/-- BARRIER_WAIT_END (R204). -/
def execBarrierWaitEnd (b r : Nat) (s : State) : Host.Outcome State Fault Refusal :=
  .next (endWait (barWaits s b r) barEnded (fun k i ts s => if ts.isEmpty then s else barEnd k i s) b r s)

end Sys2Proof.Machine
end

