-- ==== Sys2Proof/Machine/Draw.lean ====
section
/-! DEFINITION. Draws in threads, and the coin (spec/22_draw.md R327 to R331). -/

namespace Sys2Proof.Machine

/-- The three words of a triple written to a group, each pushed in order (R330). -/
def writeTriples (q : Iss) (d : Sel) (k : Shape) (vals : List (Nat × Triple)) (s : State) : State :=
  (List.range 3).foldl (fun s i =>
    s.putResult q.b (runSel d i) 1 k (vals.map fun e => (e.1, (wordAt e.2.words i).setWidth 64))) s

/-- Words of a register group for a thread. -/
def Iss.group (q : Iss) (t : Nat) (sel : Sel) (i : Nat) : Word := q.k.regWord t (q.thr t) sel i

/-- DRAWR (R330): the parameters are those of the guard-true thread of the lowest slot, whether or not it traps. -/
def execDrawr (f : Std) (s : State) : Host.Outcome State Fault Refusal :=
  issue (.drawr f) always (fun q s =>
    let s := clearLong q s
    if q.k.narrow f.d 4 && !q.on.isEmpty then finish q (shapeTraps q 1 f.d) s
    else
      let traps := latchTraps q s
      let good := q.good traps
      match good with
      | [] => finish q traps s
      | _ :: _ =>
        let p := q.on.headD 0
        let wf := f.func.getLsbD 0
        let k := q.group p f.c 0
        let leaf (t : Nat) : Triple × Word × FFlags :=
          let i := q.k.src32 t (q.thr t) f.lit f.b
          (leafOf wf k i (lo32 (q.k.srcVal t (q.thr t) f .val f.pa f.a)), i, 0)
        let comb (a b : Triple × Word × FFlags) : Triple × Word × FFlags :=
          let r := mergeDraw wf k (q.group p f.c 1) (q.group p f.c 2) b.2.1 a.1 b.1
          (r.1, a.2.1, a.2.2 ||| b.2.2 ||| r.2)
        match slotTree comb (q.slots32 good leaf) with
        | none => finish q traps s
        | some (tr, _, fl) =>
          let s := if good.length ≥ 2 then deliver q good s else s
          let s := s.modThrs q.b good fun _ x => { x with fflags := x.fflags ||| fl }
          finish q traps (writeTriples q f.d .g (good.map fun t => (t, tr)) s)) s

/-- A triple in a register group. -/
def Iss.triple (q : Iss) (t : Nat) (sel : Sel) : Triple :=
  { i := q.group t sel 0, m := q.group t sel 1, s := q.group t sel 2 }

/-- DRAWM (R331). -/
def execDrawm (f : DrawmForm) (s : State) : Host.Outcome State Fault Refusal :=
  issue (.drawm f) always (fun q s =>
    let s := clearLong q s
    let sh := [(f.lg, 3), (f.rg, 3), (f.pg, 3), (f.pos, 1)].map fun e => q.k.selShape e.1 e.2
    let k : Shape := if sh.all Shape.isU then .u else .g
    if k.isG && q.k.narrow f.d 3 && !q.on.isEmpty then finish q (shapeTraps q 1 f.d) s
    else
      let traps := latchTraps q s
      let good := q.good traps
      let res (t : Nat) : Triple × FFlags :=
        mergeDraw f.w (q.group t f.pg 0) (q.group t f.pg 1) (q.group t f.pg 2) (q.k.src32 t (q.thr t) none f.pos)
          (q.triple t f.lg) (q.triple t f.rg)
      let s := s.modThrs q.b good fun t x => { x with fflags := x.fflags ||| (res t).2 }
      finish q traps (writeTriples q f.d k (good.map fun t => (t, (res t).1)) s)) s

/-- COIN (R331): with `.sd` the stream is the destination's old value, which is then a source (R327). -/
def execCoin (f : Std) (s : State) : Host.Outcome State Fault Refusal :=
  let r := ruleOf (.coin f)
  let sd := f.func = 4
  issue (.coin f) always (computeRun f.d 1
    (fun q => if sd && (q.k.selShape f.d 1) ≠ .u then .g else resultShape q.k (.coin f) f r fun _ => 0)
    (fun q _ t =>
      let x := q.thr t
      let stream : Word := if sd then q.k.regWord t x f.d 0 else f.func.setWidth 32
      .word (coin (q.k.src32 t x f.lit f.a) (q.k.src32 t x f.lit f.b) (q.k.src32 t x f.lit f.c) stream))) s

end Sys2Proof.Machine
end

