-- ==== Sys2Proof/Machine/Lake.lean ====
section
/-! DEFINITION. Group records of collectives and their abort; the end of an engine's command
(spec/23_collective.md R332 to R339; spec/16_queue.md R265, R268). -/

namespace Sys2Proof.Machine

/-! ## The end of a command (R265 to R268) -/

/-- The gang of a block is reaped if it has exited and its chains are still. -/
def State.reapOf (s : State) (b : Nat) : State :=
  match s.blk b with
  | some k => s.reap k.gang
  | none => s

/-- A command completes: ESEQ rises by one. -/
def State.completeCmd (s : State) (b e : Nat) : State :=
  (s.modChain b e fun c => { c with cmd := none, eseq := c.eseq + 1 }).reapOf b

/-- Requests of a chain's pieces are forgotten. -/
def State.forgetPieces (s : State) (b e : Nat) (which : Nat → Bool) : State :=
  s.forgetReqs fun p => match p.who with
    | .piece b' e' k _ => b' = b && e' = e && which k
    | _ => false

/-- A command in ERROR: issued pieces run to their end, all others are withdrawn; with none under way it is gone. -/
def Chain.settleError (c : Chain) : Chain :=
  { c with park := none
           cmd := c.cmd.bind fun m =>
             let ps := m.pieces.filter fun p => p.st = .flying
             if ps.isEmpty then none else some { m with pieces := ps } }

/-- CHAIN_ERROR (R268): nothing further is executed; the fires of a command are dropped. -/
def State.chainError (s : State) (b e err cause : Nat) : State :=
  let s := if e = 2 then s.modDev fun d => { d with fires := d.fires.filter (·.by_ ≠ .chain b) } else s
  (s.modChain b e fun c =>
    if c.err ≠ 0 then c.settleError else { c with err := err, cause := cause }.settleError).reapOf b

/-! ## Group records (R332, R334) -/

/-- The record of a group in a domain. -/
def State.grp (s : State) (ldom g : Nat) : Option Grp := s.dev.grps.find? fun r => r.ldom = ldom && r.grp = g

def State.modGrp (s : State) (ldom g : Nat) (f : Grp → Grp) : State :=
  s.modDev fun d => { d with grps := modWhere (fun r => r.ldom = ldom && r.grp = g) f d.grps }

/-- The ranks of a mask, ascending. -/
def ranksOf (m : DWord) : List Nat := (List.range 64).filter fun r => m.getLsbD r

/-- Descriptor fields (R332). -/
def descMask (d : List Word) : DWord := dwordAt d 8
def descChunk (d : List Word) : Nat := (wordAt d 1).toNat
def descCount (d : List Word) : Nat := (wordAt d 2).toNat
def descOp (d : List Word) : Nat := bits (wordAt d 0) 31 28
def descIfmt (d : List Word) : Nat := bits (wordAt d 0) 27 24
def descOfmt (d : List Word) : Nat := bits (wordAt d 0) 23 20

/-- Bytes of an element in a format of R332. -/
def elemSize (fmt : Nat) : Nat :=
  match fmt with
  | 0 => 4
  | 1 => 2
  | 2 | 3 => 1
  | _ => 12

def Grp.members (r : Grp) : List Nat := ranksOf (descMask r.desc)

/-- A rank's position in a group. -/
def Grp.posOf (r : Grp) (rank : Nat) : Nat := (r.members.takeWhile (· ≠ rank)).length

/-! ## Aborts (R334, R339) -/

/-- The children of a position in the abort tree of M members. -/
def treeKids (p m : Nat) : List Nat := ((List.range 6).map fun j => p + 2 ^ j).filter fun q => p < q - p && q < m

/-- Whether a rank is this device or can be reached on some route now. -/
def State.reachable (s : State) (r : Nat) : Bool := r = s.dev.rank || (s.firstRoute r).isSome

/-- The members to which an abort goes in place of children that cannot be reached. -/
def abortTargets (s : State) (members : List Nat) : Nat → List Nat → List Nat
  | 0, _ => []
  | fuel + 1, ps => ps.flatMap fun p =>
      let rank := members.getD p 0
      if s.reachable rank then [rank] else abortTargets s members fuel (treeKids p members.length)

/-- A fire is accepted: what asked for it goes on (R280, R337). -/
def State.fireDone (s : State) (f : Fire) : State :=
  match f.by_ with
  | .node k => s.modNode k fun n => { n with fires := n.fires - 1 }
  | .chain b => if f.n ≤ 1 then s.completeCmd b 2 else s

/-- The first record of a list that is `x` makes way for others. -/
def replaceFirst {α : Type} [DecidableEq α] (x : α) (ys : List α) : List α → List α
  | [] => []
  | z :: zs => if z = x then ys ++ zs else z :: replaceFirst x ys zs

/-- A waiting fire loses its first chunk; one like it stays (R280). -/
def State.dropFire (s : State) (f : Fire) : State :=
  let rest : List Fire := if f.n ≤ 1 then [] else [{ f with chunk := f.chunk + 1, n := f.n - 1, sent := false }]
  (s.modDev fun d => { d with fires := replaceFirst f rest d.fires }).fireDone f

/-- All of a waiting fire is discarded and counts as accepted. -/
def State.dropFires (s : State) (p : Fire → Bool) : State :=
  (s.dev.fires.filter p).foldl (fun s f =>
    (s.modDev fun d => { d with fires := d.fires.filter (· ≠ f) }).fireDone { f with n := 1 }) s

/-- What the reducers here still hold and write of an instance is dropped (R339). -/
def State.dropResults (s : State) (ldom g : Nat) (n : Word) : State :=
  let mine (l h : Nat) (m : Word) : Bool := l = ldom && h = g && m = n
  (s.modDev fun d =>
    { d with cmdq := d.cmdq.filter fun c => !mine c.ldom c.grp c.n
             contribs := d.contribs.filter fun c => !mine c.ldom c.grp c.n
             results := d.results.filter fun c => !mine c.ldom c.grp c.n }).forgetReqs fun p => match p.who with
    | .line l h m _ _ _ => mine l h m
    | _ => false

/-- The instance's commands, contributions, partial results and waiting fires are dropped (R339). -/
def State.dropInstance (s : State) (r : Grp) : State :=
  ((s.dropResults r.ldom r.grp r.cur).forgetReqs fun p => match p.who with
    | .fire c g _ _ => c = r.ctx && g = r.grp
    | _ => false).dropFires fun f => f.ctx = r.ctx && f.grp = r.grp

/-- The children of a member in the abort tree (R339). -/
def State.abortKids (s : State) (r : Grp) : List Nat :=
  abortTargets s r.members 7 (treeKids (r.posOf s.dev.rank) r.members.length)

/-- The abort goes to the children. -/
def State.passAbort (s : State) (r : Grp) (status : Nat) : State :=
  (s.abortKids r).foldl (fun s k => s.say (.abort k r.ldom r.grp r.cur status)) s

/-- A member passes the abort on to its children and waits for them (R339). -/
def State.forwardAbort (s : State) (r : Grp) (status : Nat) : State :=
  (s.modGrp r.ldom r.grp fun r => { r with kids := s.abortKids r }).passAbort r status

/-- The member that starts an abort sends it to position 0, or, where that cannot be reached, to those that position 0 would
tell (R339; log entry 14). -/
def State.abortUp (s : State) (r : Grp) (status : Nat) : State :=
  if r.posOf s.dev.rank = 0 then s
  else ((abortTargets s r.members 8 [0]).filter (· ≠ s.dev.rank)).foldl
    (fun s k => s.say (.abort k r.ldom r.grp r.cur status)) s

/-- The checks that arm a queued instance, or none (R334). -/
def Grp.arm (r : Grp) (desc : List Word) : Grp :=
  { r with st := .armed, cur := r.cur + 1, out1 := r.out0, out0 := 0, desc := desc, queued := none, bad := false, fired := []
           written := [], status := 0, parent := none, kids := [] }

/-- The 32-bit check of a descriptor's w0 to w3 and w8 to w13 (R333). -/
def descCheck (d : List Word) : Word := Config.descCheck ([0, 1, 2, 3, 8, 9, 10, 11, 12, 13].map (wordAt d))

/-- Every member's notice for CUR or a later instance is held (R334). -/
def Grp.allArmed (r : Grp) (me : Nat) : Bool :=
  r.members.all fun m => m = me || r.notices.any fun (x : Nat × Word × Word) => x.1 = m && seqGe x.2.1 r.cur

/-- A notice for CUR is held whose check differs from this member's own (R333). -/
def Grp.differs (r : Grp) : Bool :=
  r.notices.any fun (x : Nat × Word × Word) => r.members.contains x.1 && x.2.1 = r.cur && x.2.2 ≠ descCheck r.desc

/-- An abort ends at this member when every child has acknowledged (R334). -/
def State.abortEnd (s : State) (ldom g : Nat) : State :=
  match s.grp ldom g with
  | none => s
  | some r =>
    if r.st ≠ .aborting ∨ r.kids ≠ [] then s
    else
      let s := s.modGrp ldom g fun r => { r with st := .idle, out0 := r.status, parent := none }
      match r.parent with
      | some p => s.say (.abortAck p ldom g r.cur)
      | none => s

/-- An abort of the current instance starts at this member (R334, R339): it is sent to position 0, and forwarded to this
member's children. -/
def State.beginAbort (s : State) (ldom g status : Nat) : State :=
  match s.grp ldom g with
  | none => s
  | some r =>
    if r.st ≠ .armed ∧ r.st ≠ .running then s
    else
      let r : Grp := { r with st := .aborting, status := status, kids := [], parent := none }
      let s := (s.modGrp ldom g fun _ => r).dropInstance r
      ((s.abortUp r status).forwardAbort r status).abortEnd ldom g

/-- A group arms: CUR rises, and every member is sent the arming notice; a notice held already whose check differs aborts
the instance, and with those of all members it runs (R333, R334). The instance of a CLSTART that failed aborts at once
(R343, log entry 14). -/
def State.armGroup (s : State) (ldom g : Nat) (desc : List Word) : State :=
  let bad := (s.grp ldom g).any (·.bad)
  let s := s.modGrp ldom g fun r => r.arm desc
  if bad then s.beginAbort ldom g 3
  else
  match s.grp ldom g with
  | none => s
  | some r =>
    let s := (r.members.filter (· ≠ s.dev.rank)).foldl (fun s m => s.say (.arming m ldom g r.cur (descCheck desc))) s
    if r.differs then s.beginAbort ldom g 4
    else if r.allArmed s.dev.rank then s.modGrp ldom g fun r => { r with st := .running }
    else s

/-- After an abort that has ended the queued instance arms (R334). -/
def State.armQueued (s : State) (ldom g : Nat) : State :=
  match s.grp ldom g with
  | none => s
  | some r => match r.st, r.queued with
    | .idle, some d => s.armGroup ldom g d
    | _, _ => s

/-- An abort ends where it may, and a queued instance arms. -/
def State.abortCheck (s : State) (ldom g : Nat) : State := (s.abortEnd ldom g).armQueued ldom g

/-- Children of an abort that can no longer be reached count as acknowledged, and it goes to their children instead
(R339). -/
def State.abortLost (s : State) (r : Grp) : State :=
  let gone := if r.st = .aborting then r.kids.filter fun k => !s.reachable k else []
  if gone = [] then s
  else
    let new := gone.flatMap fun k => abortTargets s r.members 7 (treeKids (r.posOf k) r.members.length)
    let s := s.modGrp r.ldom r.grp fun x => { x with kids := (x.kids.filter fun k => !gone.contains k) ++ new }
    (new.foldl (fun s k => s.say (.abort k r.ldom r.grp r.cur r.status)) s).abortCheck r.ldom r.grp

/-- An abort of the current instance starts, and a queued instance arms where it ends at once. -/
def State.startAbort (s : State) (ldom g status : Nat) : State := (s.beginAbort ldom g status).armQueued ldom g

/-- A result line cannot reach its member after all detours: the instance aborts with status 3; at a member that is DONE
the abort only passes on to the others (R334, R339). -/
def State.lineLost (s : State) (ldom g : Nat) (n : Word) : State :=
  match s.grp ldom g with
  | none => s
  | some r =>
    if r.cur ≠ n then s
    else if r.st ≠ .done then s.startAbort ldom g 3
    else
      let s := s.dropResults ldom g n
      (s.abortUp r 3).passAbort r 3

/-- A held notice for CUR whose check differs from this member's own aborts the instance (R333). -/
def State.armCheck (s : State) (ldom g : Nat) : State :=
  if (s.grp ldom g).any Grp.differs then s.startAbort ldom g 4 else s

end Sys2Proof.Machine
end

