-- ==== Sys2Proof/Machine/Serve.lean ====
section
/-! DEFINITION. Answers at a requester, and requests performed at the owner of their page (spec/14_link.md R253 to R257;
spec/13_migration.md R235 to R239; spec/25_context.md R383). -/

namespace Sys2Proof.Machine

/-! ## The context that serves a domain (R383) -/

/-- Whether a context is bound to a lake domain on the device of a rank. -/
def Ctx.boundTo (c : Ctx) (rank ldom : Nat) : Bool :=
  (c.st = .active || c.st = .preempted) && c.ldom = ldom && c.lmask &&& ~~~BitVec.twoPow 64 rank ≠ 0

def State.boundCtx (s : State) (ldom : Nat) : Option Nat :=
  (s.ctxs.find? fun e => e.2.boundTo s.dev.rank ldom).map Prod.fst

/-! ## Redirects (R238, R239) -/

/-- Whether a request to an entry's owner for its page is in flight. -/
def State.ownerBusy (s : State) (e : OwnEntry) : Bool :=
  s.dev.reqs.any fun r => r.2.dst = e.owner && r.2.req.ldom = e.ldom && pageNo r.2.req.addr = e.page && !r.2.held

/-- The owner cache with the least recently used free entry of a page's half left out, where that half is full (R11,
R238). -/
def State.ownerRoom (s : State) (page : Nat) (es : List OwnEntry) : Option (List OwnEntry) :=
  let mine (e : OwnEntry) : Bool := halfOf e.page = halfOf page
  if (es.filter mine).length < 4096 then some es
  else (es.reverse.find? fun e => mine e && !s.ownerBusy e).map fun v => es.filter (· ≠ v)

/-- A redirect records the owner of a page, if there is room. -/
def State.recordOwner (s : State) (ldom page owner : Nat) : State :=
  match s.ownerRoom page (s.dev.owners.filter fun e => !(e.ldom = ldom && e.page = page)) with
  | some es => s.modDev fun d => { d with owners := { ldom := ldom, page := page, owner := owner } :: es }
  | none => s

/-- Whether a request of this device goes, or went, to another device for a page. -/
def Pend.forPage (p : Pend) (ldom page me : Nat) : Bool :=
  reqPaged p.req && p.req.ldom = ldom && pageNo p.req.addr = page && p.port.isNone && p.dst ≠ me

/-- A hold is over: no request for the page issued before it is unanswered. -/
def State.holdOver (s : State) (h : Hold) : Bool :=
  s.dev.reqs.all fun e => e.2.held || e.2.seq ≥ h.seq || !e.2.forPage h.ldom h.page s.dev.rank

/-! ## Answers at the requester -/

/-- Changes the part for which a request was made. A part of a trap frame that is not written kills the gang (R161). A
result line whose member cannot be reached aborts its instance, if that is still current (R334, R339); another failure of
a line does nothing more, for the spec names none (log entry 63). -/
def State.setPart (s : State) (w : Waiter) (f : Part → Part) : State :=
  let done := ((f { key := 0 }).done).getD 0
  match w with
  | .op b t tk key => s.modOp b t tk fun o => { o with parts := modWhere (fun p => p.key = key) f o.parts }
  | .piece b e k key => s.modChain b e fun c =>
    { c with cmd := c.cmd.map fun m =>
        { m with pieces := modWhere (fun p => p.off = k) (fun p =>
            { p with parts := modWhere (fun q => q.key = key) f p.parts }) m.pieces } }
  | .slot b e key => s.modChain b e fun c => { c with got := modWhere (fun q => q.key = key) f c.got }
  | .frame b t => match s.blk b with
    | some k => if done = 0 then s else s.killGang k.gang k 20 t 0 0
    | none => s
  | .line ldom g n _ _ _ => if done = 5 then s.lineLost ldom g n else s
  | .fire c g chunk by_ =>
    match s.dev.fires.find? fun f => f.sent && f.ctx = c && f.grp = g && f.chunk = chunk && f.by_ = by_ with
    | none => s
    | some f =>
      if done = 0 then s.dropFire f
      else if done = 5 then (s.dropFire f).startAbort (s.ctx c).ldom g 3 else s.dropFire f
  | .move m i => s.modDev fun d => { d with moves := Tab.modify d.moves m fun v =>
      if i = 64 then { v with ack := some done } else { v with lost := v.lost || done ≠ 0 } }
  | .release r l p => if done = 0 then s else s.modDev fun d => { d with frees := d.frees ++ [(r, l, p)] }
  | .job src tag key =>
    let put (j : Errand) : Errand := { j with parts := modWhere (fun p => p.key = key) f j.parts }
    s.modDev fun d => { d with jobs := modWhere (fun j => j.req.src = src && j.req.tag = tag) put d.jobs }

/-- Whether a request is a load. -/
def kindLoads (k : ReqKind) : Bool :=
  match k with
  | .load | .loadNr => true
  | _ => false

/-- The copies that an answer leaves (R311, R313): of a load, its line, where that still may be kept; of a store, the
writer's copies with its bytes, where no other write to the line is under way, whose place in the coherence order is not
known yet; else none of the bytes' copies stays. -/
def State.settleCopies (s : State) (p : Pend) (data : List Byte) : State :=
  let core := (p.who.block.bind s.blk).map Block.core
  let n := p.req.size
  let line := lineBase p.place
  let writer (core : Option Nat) : State :=
    if p.req.kind = .store && !s.storeOut p.loc line (lineBase (p.place + n + 127) - line) then
      s.patchCaches core p.loc p.place p.req.data
    else s.dropCopies core p.loc p.place n
  match p.fill, p.who with
  | some f, _ => match core with
    | some c =>
      if kindLoads p.req.kind && data.length = 128 then
        let l : CLine := { ctx := f.ctx, loc := f.loc, addr := f.addr, data := data }
        let s := (s.dropCopies core f.loc f.addr 128).fillL1 c l
        if f.dev then s.fillDev l else s
      else s
    | none => s
  | none, .op .. | none, .frame .. => if core.isSome then writer core else s
  | none, .piece .. | none, .slot .. => s.dropCopies none p.loc p.place n
  | none, .job .. => writer none
  | none, _ => s

/-- What a write that has been performed counts for: its gang's signature (R358), and the marked granules that the gang
has written (R356). -/
def State.credit (s : State) (p : Pend) : State :=
  let s := if p.loc = 0 && kindWrites p.req.kind then s.noteWrite p.who p.place p.req.size else s
  match p.who, p.req.kind with
  | .op b t tk _, .store => match s.opAt b t tk with
    | some (k, _, o) => s.signFor k.gang o.hnd p.req.addr p.req.data
    | none => s
  | _, _ => s

/-- The first answer to a request (R255): its part has its outcome; a load of a quiet-fail page that its target does not
deliver reads as all ones (R155, R185 row 9, R256). A write that fails with cause 5 may have been performed, and no copy of
its bytes stays (R256, R311). Later answers find nothing. -/
def State.answerPart (s : State) (tag status : Nat) (data : List Byte) (absent : Bool) : State :=
  match Tab.find s.dev.reqs tag with
  | none => s
  | some p =>
    let s := s.modDev fun d => { d with reqs := Tab.del d.reqs tag }
    let quiet := (status = 5 || status = 7) && p.qf && (kindLoads p.req.kind || p.req.kind = .mldr)
    let s := if status = 0 && !absent then (s.settleCopies p data).credit p
      else if status = 5 && kindWrites p.req.kind then s.dropRange p.loc p.place p.req.size else s
    let bs := if data.length = 128 && p.req.size < 128 then (data.drop (p.req.addr.toNat % 128)).take p.req.size else data
    (p.who :: p.also).foldl (fun s w => s.setPart w fun q =>
      if quiet then { q with done := some 0, quiet := true, data := List.replicate p.req.size 0xFF#8 }
      else { q with done := some status, data := if absent then List.replicate p.req.size 0 else bs
                    absent := absent }) s

/-- The capability that a request needs of its target (R252, R253). -/
def reqCap (r : FabReq) : Option Nat :=
  match r.kind with
  | .atom | .red => some (capBit r.aop r.ty)
  | .mldr => some 5
  | .reducer => some 6
  | _ => none

/-- A held request leaves for the page's owner, or for the one rank that it is for (R239): with the revision of that rank,
and only if the rank has the capability that it needs (R253). With no usable route it has failed (R256); a residency request
waits for one, since only rows 2 to 5 of R185 fail it (R194). -/
def State.sendHeld (s : State) (tag : Nat) : State :=
  match Tab.find s.dev.reqs tag with
  | none => s
  | some p =>
    let dst := if reqFixed p.req then p.dst else ownerOf s p.req.ldom p.dst (pageNo p.req.addr)
    if (reqCap p.req).any fun n => !s.capable dst n then s.answerPart tag 6 [] false
    else match s.firstRoute dst with
      | some e =>
        let r : FabReq := { p.req with rev := s.revOf dst }
        let p : Pend := { p with req := r, dst := dst, held := false, route := e.1, via := e.2.1
                                 mid := if e.1 = 2 then e.2.1 else 0, tried := [e.1] }
        (s.modDev fun d => { d with reqs := Tab.put d.reqs tag p }).say (.req dst e.1 r)
      | none => if p.req.kind = .pgreq then s else s.answerPart tag 5 [] false

/-- Tags in the order in which their requests were issued. -/
def State.bySeq (s : State) (p : Pend → Bool) : List Nat :=
  let mine := s.dev.reqs.filter fun e => p e.2
  (sortNat (mine.map fun e => e.2.seq)).flatMap fun n => (mine.filter fun e => e.2.seq = n).map Prod.fst

/-- A hold with no earlier request unanswered ends, and what it held leaves, in issue order (R239). -/
def State.endHolds (s : State) : State :=
  let isOver := s.dev.holds.filter s.holdOver
  let s := s.modDev fun d => { d with holds := d.holds.filter fun h => !isOver.contains h }
  isOver.foldl (fun s h =>
    (s.bySeq fun p => p.held && p.req.ldom = h.ldom && pageNo p.req.addr = h.page).foldl State.sendHeld s) s

/-- An answer, and the holds that it ends. -/
def State.answer (s : State) (tag status : Nat) (data : List Byte) (absent : Bool) : State :=
  (s.answerPart tag status data absent).endHolds

/-- A redirect for a page (R239). -/
def State.redirect (s : State) (ldom page owner : Nat) : State :=
  let s := s.recordOwner ldom page owner
  if s.dev.holds.any fun h => h.ldom = ldom && h.page = page then s
  else (s.modDev fun d => { d with holds := { ldom := ldom, page := page, seq := d.nextSeq } :: d.holds }).endHolds

/-- A request that no route is left for (R256): answers to its tries come too late (R257). -/
def State.fail5 (s : State) (tag : Nat) : State :=
  (s.bury tag (((Tab.find s.dev.reqs tag).map Pend.answers).getD 0)).answer tag 5 [] false

/-- A residency request that has been in vain goes out anew when it can (R194): answers to its tries may still come. -/
def State.waitRoute (s : State) (tag : Nat) : State :=
  (s.bury tag (((Tab.find s.dev.reqs tag).map Pend.answers).getD 0)).modDev fun d =>
    { d with reqs := Tab.modify d.reqs tag fun p => { p with held := true, tried := [] } }

/-- A request with no route left has failed after all detours, a residency request excepted (R194, R256). -/
def State.noRouteLeft (s : State) (tag : Nat) : State :=
  if (Tab.find s.dev.reqs tag).any fun p => p.req.kind = .pgreq then s.waitRoute tag else s.fail5 tag

/-- Held requests for whose page no hold stands leave (R194). -/
def State.sendLoose (s : State) : State :=
  (s.bySeq fun p => p.held && !s.dev.holds.any fun h => h.ldom = p.req.ldom && h.page = pageNo p.req.addr).foldl
    State.sendHeld s

/-- A request whose failure no QF bit makes quiet (R383). -/
def State.strict (s : State) (tag : Nat) : State :=
  s.modDev fun d => { d with reqs := Tab.modify d.reqs tag fun p => { p with qf := false } }

/-! ## Answers of the owner -/

/-- Whether a target keeps a record of a request of this kind once performed (R255). -/
def kindRecorded (k : ReqKind) : Bool :=
  match k with
  | .store | .red | .atom | .mldr | .copyWrite | .result | .chunk | .install | .reducer | .pgmove | .agdef | .frame
  | .release => true
  | _ => false

/-- The answer to a request: to this device's own at once, to a peer's as a response, kept where it must be; a forwarded
request's answer names the owner (R237). -/
def State.respond (s : State) (r : FabReq) (status : Nat) (data : List Byte) (absent : Bool) : State :=
  if r.src = s.dev.rank then s.answer r.tag status data absent
  else
    let a : FabResp := { src := s.dev.rank, tag := r.tag, status := status, data := data, absent := absent
                         owner := if r.hops > 0 then some s.dev.rank else none }
    let s := if kindRecorded r.kind && status = 0 then
        s.modDev fun d => { d with performed := { a with src := r.src } :: d.performed }
      else s
    s.say (.resp r.src a)

/-- The answer of a device with no context bound to the domain (R383): a failure whatever the QF bit. -/
def State.refuse (s : State) (r : FabReq) (status : Nat) : State :=
  if r.src = s.dev.rank then (s.strict r.tag).answer r.tag status [] false
  else s.say (.resp r.src { src := s.dev.rank, tag := r.tag, status := status, unbound := true })

/-- A request of a peer as it comes: one performed before is answered from its record (R255). -/
def State.onceFor (s : State) (src tag : Nat) (act : State → State) : State :=
  match s.dev.performed.find? fun a => a.src = src && a.tag = tag with
  | some a => s.say (.resp src { a with src := s.dev.rank })
  | none => act s

/-! ## Performing a request -/

/-- Where chunk `c` of a member's result begins (R332). -/
def resultBase (d : List Word) (c : Nat) : DWord :=
  dwordAt d 6 + BitVec.ofNat 64 (c * descChunk d * elemSize (descOfmt d))

/-- Result bytes have been written here: `off` their offset in chunk `c` of group `g`. With all of them the member is
DONE and a queued instance arms (R334, R338). -/
def State.resultWritten (s : State) (ldom g c off n : Nat) : State :=
  match s.grp ldom g with
  | none => s
  | some x =>
    if x.st ≠ .running then s
    else
      let x : Grp := { x with written := if x.written.contains (c, off, n) then x.written else (c, off, n) :: x.written }
      let size := descChunk x.desc * elemSize (descOfmt x.desc)
      let all := (List.range (descCount x.desc)).all fun c =>
        ((x.written.filter fun (w : Nat × Nat × Nat) => w.1 = c).map fun (w : Nat × Nat × Nat) => w.2.2).sum ≥ size
      let x : Grp := if all then { x with st := .done, out0 := 0 } else x
      let s := s.modGrp ldom g fun _ => x
      match all, x.queued with
      | true, some d => s.armGroup ldom g d
      | _, _ => s

/-- A request performed in its page's frame, at place `a` of local HBM or the CXL tier, in context `cn`: status, bytes
(R180, R356). -/
def State.performReq (s : State) (cn loc a : Nat) (r : FabReq) : Nat × List Byte × State :=
  let fresh (n : Nat) : Option Nat := if loc = 0 then s.latentIn a n else none
  let put (s : State) (bs : List Byte) : State :=
    ((s.patchCaches none loc a bs).noFills loc a bs.length).performWrite cn r.addr loc a bs
  match r.kind with
  | .load | .loadNr | .copyRead | .mldr =>
    if loc = 3 && s.cxlBad a r.size then (3, [], s)
    else match fresh r.size with
    | some x => (3, [], s.found x)
    | none => (0, s.placeRead loc a r.size, s)
  | .store | .copyWrite | .result => (0, [], put s r.data)
  | .atom | .red =>
    let n := atomBytes r.ty
    if loc = 3 && s.cxlBad a n then (3, [], s)
    else match fresh n with
    | some x => (3, [], s.found x)
    | none =>
      let old := s.placeRead loc a n
      (0, if r.kind = .atom then old else [], put s (atomNew r.aop r.ty old r.data))
  | _ => (0, [], s)

/-- What a kind of request asks of its page (R185, R237). -/
def reqAcc (r : FabReq) : Acc :=
  match r.kind with
  | .load | .copyRead => { size := r.size, rd := true, ann := r.annotated, poison := true }
  | .loadNr => { size := r.size, rd := true, poison := true, nr := true }
  | .mldr => { size := r.size, rd := true, poison := true }
  | .store | .copyWrite | .result | .probe => { size := r.size, wr := true, ann := r.annotated }
  | .atom => { size := atomBytes r.ty, rd := true, wr := true, ann := r.annotated, poison := true, atom := some (r.aop, r.ty) }
  | .red => { size := atomBytes r.ty, rd := true, wr := true, ann := r.annotated, atom := some (r.aop, r.ty) }
  | _ => { size := 1, rd := true }

/-- Checks 5 to 7 that the owner makes on its own translation (R185). -/
def earlyChecks (s : State) (a : Acc) (t : Trans) (addr : DWord) : Option Nat :=
  if (a.rd && !t.att.rd) || (a.wr && !t.att.wr) then some 1
  else if a.ann && t.att.ord = 2 then some 10
  else if a.poison && t.att.loc = 0 && s.poisonedIn (t.frame + addr.toNat % 65536) a.size then some 3
  else none

/-- Check 9 at the owner (R185); `port` whether what follows needs the page's port, which a residency request does not
(R194). -/
def portCheck (s : State) (a : Acc) (t : Trans) (addr : DWord) (port : Bool) : Option Nat :=
  if port && t.att.loc ≥ 2 && !s.portUp t.att.loc (t.frame + addr.toNat % 65536) then some 5
  else match a.atom with
    | some (op, ty) => if t.att.loc = 2 && !hostAtom op ty then some 7 else none
    | none => none

/-- The owner's checks 5 to 9. -/
def ownerChecks (s : State) (a : Acc) (t : Trans) (addr : DWord) (port : Bool) : Option Nat :=
  (earlyChecks s a t addr).or (portCheck s a t addr port)

/-- The counted lines of a request that has passed checks 1 to 8 (R222): an MLDR's part names how many it has. -/
def State.countReq (s : State) (cn : Nat) (att : Att) (rank : Nat) (r : FabReq) : State :=
  if r.counted && r.hops = 0 then
    (List.range (if r.kind = .mldr then max 1 (min 2 r.aop) else 1)).foldl
      (fun s _ => s.countHeat cn (pageNo r.addr) att rank) s
  else s

/-- The context for which a request was made. -/
def State.waiterCtx (s : State) (w : Waiter) : Option Nat :=
  match w with
  | .job src tag _ => (s.dev.jobs.find? fun j => j.req.src = src && j.req.tag = tag).map Errand.cn
  | w => (w.block.bind s.blk).map Block.ctx

/-! ## What this device performs elsewhere for another (R235 to R237, R366) -/

/-- Whether a request that has come is under way here: one that comes again joins it (R255). -/
def State.underWay (s : State) (src tag : Nat) : Bool :=
  (s.dev.jobs.any fun j => j.req.src = src && j.req.tag = tag)
  || s.dev.moves.any fun e => e.2.held.any fun r => r.src = src && r.tag = tag

/-- A job that has not asked its port does so, if a tag is free. -/
def State.jobAsk (s : State) (j : Errand) : State :=
  let set (p : Part) (s : State) : State := s.modDev fun d =>
    { d with jobs := d.jobs.map fun x => if x = j then { j with parts := [p] } else x }
  if j.parts ≠ [] then s
  else match s.portRequest j.loc j.place j.req false (.job j.req.src j.req.tag 0) none with
    | .out tag s => set { key := 0, len := j.req.size, tag := some tag } s
    | .noRoute => set { key := 0, len := j.req.size, done := some 5 } s
    | .noTag => s

/-- A request that a port of this device carries: performed, and answered, when the port completes it (R191, R366). -/
def State.addJob (s : State) (cn loc a : Nat) (r : FabReq) : State :=
  let j : Errand := { cn := cn, req := r, loc := loc, place := a }
  (s.modDev fun d => { d with jobs := d.jobs ++ [j] }).jobAsk j

/-- A job whose parts have all come is answered: the first failure, or the bytes. -/
def State.jobDone (s : State) (j : Errand) : State :=
  if j.parts = [] ∨ j.parts.any (·.done.isNone) then s
  else
    let s := s.modDev fun d => { d with jobs := d.jobs.filter fun x => !(x.req.src = j.req.src && x.req.tag = j.req.tag) }
    match j.parts.findSome? fun p => p.done.filter (· ≠ 0) with
    | some c => s.respond j.req c [] false
    | none =>
      let s := if j.req.kind = .result then
          s.resultWritten j.req.ldom (j.req.arg % 2048) (j.req.arg / 2048) j.req.addr.toNat j.req.data.length
        else s
      s.respond j.req 0 (j.parts.flatMap Part.data) false

/-- Jobs that are over are answered. -/
def State.jobsDone (s : State) : State := s.dev.jobs.foldl State.jobDone s

/-- Jobs that wait for a tag ask their ports. -/
def State.jobsAsk (s : State) : State := s.dev.jobs.foldl State.jobAsk s

/-- A load, store, atomic, residency request or engine access of a peer at the owner of its page, in the bound context
`cn` (R237): none where its page parks, and the request then waits where it is. -/
def State.serveReq (s : State) (cn : Nat) (r : FabReq) : Option State :=
  match walk s cn r.addr (reqAcc r).size with
  | .fail c => some (s.respond r c [] false)
  | .park _ _ => if r.kind = .loadNr then some (s.respond r 0 [] true) else none
  | .ok t =>
    let a := t.frame + r.addr.toNat % 65536
    if t.att.loc = 1 then some (s.respond r 5 [] false)
    else match earlyChecks s (reqAcc r) t r.addr with
      | some c => some (s.respond r c [] false)
      | none =>
        let s := s.countReq cn t.att r.src r
        match portCheck s (reqAcc r) t r.addr (r.kind ≠ .pgreq) with
        | some c => some (s.respond r c [] false)
        | none =>
          let here : State :=
            if t.att.loc ≥ 2 && r.kind ≠ .pgreq && r.kind ≠ .probe then s.addJob cn t.att.loc a r
            else let e := s.performReq cn t.att.loc a r; e.2.2.respond r e.1 e.2.1 false
          match s.moveOf cn (pageNo r.addr) with
          | some (m, v) =>
            if v.ph ≠ .pass && kindWrites r.kind then
              some (s.modDev fun d => { d with moves := Tab.modify d.moves m fun v => { v with held := v.held ++ [r] } })
            else some here
          | none => some here

end Sys2Proof.Machine
end

