-- ==== Sys2Proof/Machine/Migrate.lean ====
section
/-! DEFINITION. The migration engine: frame rings, moves, stubs, PGMOVE (spec/13_migration.md R231 to R246). -/

namespace Sys2Proof.Machine

/-! ## Event records (R243) -/

/-- Writes a record of seven words and its SEQ to the migration event queue (R224, R243). -/
def State.writeEvent (s : State) (c : Nat) (ws : List Word) : State :=
  let x := s.ctx c
  match taddr s x (x.meb.toNat + 32 * (x.mep.toNat % 2 ^ x.mek)) with
  | .ok a =>
    if tableOk a 32 then
      (({ s with hbm := Memory.write s.hbm a (wordBytes (ws ++ [x.mep])) } : State).modCtx c fun x =>
        { x with mep := x.mep + 1 }).notify5 c
    else s.ctxFault c 3
  | .error _ => s.ctxFault c 3

/-- A record for the event queue: written, or kept until room frees, unless the context takes none (R350). -/
def State.putEvent (s : State) (c : Nat) (ws : List Word) : State :=
  let x := s.ctx c
  if !x.records then s
  else if (x.mep - x.mec).toNat ≥ 2 ^ x.mek ∨ x.ewait ≠ [] then s.modCtx c fun x => { x with ewait := x.ewait ++ [ws] }
  else s.writeEvent c ws

/-- Posts the event records that waited, while there is room. -/
def State.drainEvents (s : State) (c : Nat) : Nat → State
  | 0 => s
  | n + 1 =>
    let x := s.ctx c
    match x.ewait with
    | ws :: rest =>
      if (x.mep - x.mec).toNat < 2 ^ x.mek ∧ x.records then
        ((s.modCtx c fun x => { x with ewait := rest }).writeEvent c ws).drainEvents c n
      else s
    | [] => s

/-- w0 of a move's record, STATUS apart (R243). -/
def moveWord (r : MoveReq) (loc passes me : Nat) : Nat :=
  r.asked.toNat * 2 ^ 23 + loc * 2 ^ 18 + (if r.tier = 1 then 3 else 0) * 2 ^ 16 + passes * 2 ^ 12 + me % 64 * 64 + r.rank % 64

/-- The record of a move (R243). -/
def State.moveRecord (s : State) (r : MoveReq) (status loc passes frame : Nat) : State :=
  s.putEvent r.ctx
    ([BitVec.ofNat 32 (status * 2 ^ 24 + moveWord r loc passes s.dev.rank), BitVec.ofNat 32 (r.ctx * 2 ^ 16)]
     ++ splitDWord (BitVec.ofNat 64 (r.page * 65536)) ++ splitDWord (BitVec.ofNat 64 frame) ++ [0])

/-! ## Heat at the end of a move (R244) -/

def State.heatReset (s : State) (ctx page : Nat) : State :=
  s.modDev fun d => { d with heat := modWhere (fun h => h.page = page && h.ctx = ctx)
                               (fun h => { page := h.page, ctx := h.ctx }) d.heat }
def State.heatFree (s : State) (ctx page : Nat) : State :=
  s.modDev fun d => { d with heat := d.heat.filter fun h => !(h.page = page && h.ctx = ctx) }

/-! ## Sweeps (R230) -/

/-- Cached translations and owner-cache entries leave the device. The lines of the contexts concerned leave the caches too,
since a line of a local frame has no other tie to its page (R311, R313; log entry 61). -/
def State.sweep (s : State) (p : Trans → Bool) (ctx : Nat → Bool) (own : OwnEntry → Bool) : State :=
  let clear (k : Core) : Core :=
    { k with tlb := k.tlb.filter fun t => !p t, lpr := k.lpr.filter fun (e : Nat × Trans) => !p e.2
             l1 := k.l1.filter fun l => !ctx l.ctx }
  (({ s with cores := s.cores.map fun (e : Nat × Core) => (e.1, clear e.2) } : State).modDev fun d =>
    { d with owners := d.owners.filter fun e => !own e, cache := d.cache.filter fun l => !ctx l.ctx }).modFills fun _ f =>
      if ctx f.ctx then none else some f

/-- The sweep of one page of a context. -/
def State.sweepPage (s : State) (cn page : Nat) : State :=
  let a : DWord := BitVec.ofNat 64 (page * 65536)
  s.sweep (fun t => t.ctx = cn && t.obj = objOf a && t.page = pageOf a) (· = cn)
    (fun e => e.ldom = (s.ctx cn).ldom && e.page = page)

/-- Whether an operation has begun an access with a translation and has not yet begun its pieces with it (R219). -/
def Op.holds (o : Op) (p : Trans → Bool) : Bool :=
  o.st = .outstanding && o.plan.any fun q => q.2.2.2.any p && !o.parts.any fun r => r.key = q.1

/-- Whether an access of a context to a page has begun and not ended under a translation that the device holds (R230): a
piece that is still to come, or a request that a peer or a port has. A write that the page's own move holds is none. -/
def State.pageBusy (s : State) (cn page : Nat) : Bool :=
  let a : DWord := BitVec.ofNat 64 (page * 65536)
  (s.blocks.any fun e => e.2.ctx = cn && e.2.thr.any fun x => x.2.win.any fun o => o.holds fun t => t.hits cn a)
  || s.dev.reqs.any fun e => reqPaged e.2.req && !e.2.held && pageNo e.2.req.addr = page
    && (e.2.port.isSome || e.2.dst ≠ s.dev.rank) && s.waiterCtx e.2.who = some cn

/-! ## Frames (R232) -/

/-- Where a frame that a page entry of a context names lies. -/
def framePlace (s : State) (cn loc frame : Nat) : Option Nat :=
  let c := s.ctx cn
  if c.gst then
    match stage2 s c (frame / 65536) loc with
    | .ok r => some r.1
    | .error _ => none
  else some frame

/-- Takes a frame from a context's ring of a tier: none where the ring is empty or the entry is bad. -/
def State.takeFrame (s : State) (cn tier : Nat) : Option Nat × State :=
  let c := s.ctx cn
  let (b, k, p, n) := if tier = 0 then (c.hrb, c.hrk, c.hrp, c.hrc) else (c.crb, c.crk, c.crp, c.crc)
  if p = n then (none, s)
  else
    let s' := s.modCtx cn fun c => if tier = 0 then { c with hrc := c.hrc + 1 } else { c with crc := c.crc + 1 }
    match tableRead s c (b.toNat + 8 * (n.toNat % 2 ^ k)) 8 with
    | .error _ => (none, s')
    | .ok ws =>
      let e := (dwordAt ws 0).toNat
      let ok := e % 65536 = 0 && match framePlace s cn (if tier = 0 then 0 else 3) e with
        | some a => tier ≠ 0 || a < poisonBase
        | none => false
      (if ok then some e else none, s')

/-! ## Page entries -/

/-- w0 of a page entry with given attributes, present and with D = 0 (R212). -/
def attWord (a : Att) : Word :=
  BitVec.ofNat 32 (2 ^ 31 + a.loc * 2 ^ 29 + a.peer * 2 ^ 23 + a.mode * 2 ^ 21 + a.qf.toNat * 2 ^ 20 + a.ord * 2 ^ 18
    + a.rd.toNat * 2 ^ 17 + a.wr.toNat * 2 ^ 16 + a.ex.toNat * 2 ^ 15 + a.mh.toNat * 2 ^ 14 + a.ht * 2 ^ 10
    + a.hm.toNat * 2 ^ 9)

/-- The page entry of a page in a context's table: its attributes with DEF applied, its words, and where it lies. The poison
bitmap of a hypervisor has none (R220). -/
def entryOf (s : State) (cn page : Nat) : Option (Att × List Word × Nat) :=
  let c := s.ctx cn
  if c.hv && objOf (BitVec.ofNat 64 (page * 65536)) = 0xFFFFFF then none
  else match walkTables s c (BitVec.ofNat 64 (page * 65536)) 1 with
  | .error _ => none
  | .ok (oe, pe, pea) =>
    let own := attOf (wordAt pe 0)
    let a := if (wordAt pe 0).getLsbD 8 then attDef own (wordAt oe 3) else own
    match taddr s c pea with
    | .ok x => if !(wordAt pe 0).getLsbD 31 || peBad pe a c.gst then none else some (a, pe, x)
    | .error _ => none

/-- Writes a page entry: attributes and frame; its last word stays. -/
def State.putEntry (s : State) (at_ : Nat) (pe : List Word) (a : Att) (frame : Nat) : State :=
  { s with hbm := Memory.write s.hbm at_ (wordBytes [attWord a, BitVec.ofNat 32 (frame / 65536),
      BitVec.ofNat 32 (frame / 2 ^ 48), wordAt pe 3]) }

/-! ## Requests for a move (R231, R246) -/

/-- The moves that R231 allows. -/
def moveAllowed (me loc rank tier : Nat) : Bool :=
  match loc with
  | 0 => (tier = 0 && rank ≠ me) || (tier = 1 && rank = me)
  | 1 => false
  | _ => tier = 0

/-- Whether the half of the request queue that serves a page is full: 128 of the 256 (R11, R231). -/
def State.queueFull (s : State) (page : Nat) : Bool :=
  (s.dev.mqueue.filter fun r => halfOf r.page = halfOf page).length ≥ 128

/-- A PGMOVE or an engine-3 request at the owner: queued, or refused with a record (R237, R244). DESIGN CHOICE: of several
statuses 6 comes before 9, and 9 before 10 (log entry 74). -/
def State.submitMove (s : State) (cn page tw : Nat) : State :=
  let r : MoveReq :=
    { ctx := cn, ldom := (s.ctx cn).ldom, page := page, rank := tw % 64, tier := tw / 64 % 2, asked := true }
  let loc := ((entryOf s cn page).map fun e => e.1.loc).getD 0
  if (s.moveOf cn page).isSome then s.moveRecord r 6 loc 0 0
  else if !moveAllowed s.dev.rank loc r.rank r.tier then s.moveRecord r 9 loc 0 0
  else if s.queueFull page then s.moveRecord r 10 loc 0 0
  else s.modDev fun d => { d with mqueue := d.mqueue ++ [r] }

/-! ## Stubs (R237, R240, R241) -/

def State.stub (s : State) (ldom page : Nat) : Option Stub := s.dev.stubs.find? fun x => x.ldom = ldom && x.page = page
def State.modStub (s : State) (ldom page : Nat) (f : Stub → Stub) : State :=
  s.modDev fun d => { d with stubs := modWhere (fun x => x.ldom = ldom && x.page = page) f d.stubs }

/-- A request passes a stub: the sharer mask takes its rank, and it goes on with one hop more (R237, R241). -/
def State.forward (s : State) (x : Stub) (r : FabReq) : State :=
  let new := x.reclaiming && !x.mask.getLsbD r.src
  let s := s.modStub x.ldom x.page fun x =>
    { x with mask := x.mask ||| BitVec.twoPow 64 r.src, left := if new then x.left ||| BitVec.twoPow 64 r.src else x.left }
  let s := if new then s.say (.invalidate r.src x.ldom x.page) else s
  match s.firstRoute x.target with
  | some e => s.say (.req x.target e.1 { r with hops := r.hops + 1 })
  | none => s

/-- A stub whose sharers have all acknowledged is freed: stub-gone goes along the path, and a record is posted. -/
def State.stubCheck (s : State) (ldom page : Nat) : State :=
  match s.stub ldom page with
  | none => s
  | some x =>
    if !x.reclaiming ∨ x.left ≠ 0 then s
    else
      let s := (s.modDev fun d => { d with stubs := d.stubs.filter fun y => !(y.ldom = ldom && y.page = page) }).say
        (.stubGone x.target s.dev.rank ldom page)
      s.putEvent x.ctx ([BitVec.ofNat 32 (3 * 2 ^ 24 + x.w0.toNat % 2 ^ 24), BitVec.ofNat 32 (x.ctx * 2 ^ 16)]
        ++ splitDWord (BitVec.ofNat 64 (page * 65536)) ++ [0, 0, 0])

/-- Entries-updated (R241): the stub sends invalidations to its sharers; no effect without one, or where it reclaims
already. -/
def State.entriesUpdated (s : State) (ldom page : Nat) : State :=
  match s.stub ldom page with
  | none => s
  | some x =>
    if x.reclaiming then s
    else
      let s := s.modStub ldom page fun x => { x with reclaiming := true, left := x.mask }
      ((ranksOf x.mask).foldl (fun s r => s.say (.invalidate r ldom page)) s).stubCheck ldom page

/-- A rank counts as acknowledged in the stubs of a domain (R351, R352). -/
def State.ackStubs (s : State) (ldom rank : Nat) : State :=
  (s.dev.stubs.filter fun x => x.ldom = ldom).foldl (fun s x =>
    (s.modStub ldom x.page fun x => { x with left := x.left &&& ~~~BitVec.twoPow 64 rank
                                             mask := x.mask &&& ~~~BitVec.twoPow 64 rank }).stubCheck ldom x.page) s

/-! ## The end of a move (R233, R236) -/

/-- The move and its chunks' requests leave the engine. -/
def State.endMove (s : State) (m : Nat) : State :=
  (s.modDev fun d => { d with moves := Tab.del d.moves m }).forgetReqs fun p => match p.who with
    | .move n _ => n = m
    | _ => false

/-- A held write of this device goes out through its port, under its tag. -/
def State.portHeld (s : State) (loc a : Nat) (r : FabReq) : State :=
  match Tab.find s.dev.reqs r.tag with
  | none => s
  | some p =>
    let s := s.modDev fun d => { d with reqs := Tab.put d.reqs r.tag { p with loc := loc, place := a } }
    if !s.portUp loc a then s.answer r.tag 5 [] false
    else (s.modDev fun d => { d with reqs := Tab.modify d.reqs r.tag fun p => { p with port := some loc } }).say
      (.portReq r.tag loc true a r)

/-- A held write performed at its page's place: at once in local HBM, elsewhere through a port (R235, R366). -/
def State.performOne (s : State) (cn loc a : Nat) (r : FabReq) : State :=
  let mine := r.src = s.dev.rank
  if loc ≠ 0 then (if mine then s.portHeld loc a r else s.addJob cn loc a r)
  else
    let s := if mine then s.modDev fun d =>
        { d with reqs := Tab.modify d.reqs r.tag fun p => { p with loc := loc, place := a } } else s
    let e := s.performReq cn loc a r
    e.2.2.respond r e.1 e.2.1 false

/-- Held writes performed in a frame of this device, in arrival order. -/
def State.performHeld (s : State) (cn loc frame : Nat) (rs : List FabReq) : State :=
  match framePlace s cn loc frame with
  | none => rs.foldl (fun s r => s.respond r 7 [] false) s
  | some f => rs.foldl (fun s r => s.performOne cn loc (f + r.addr.toNat % 65536) r) s

/-- Another device is asked to free the arrival slot that it keeps for a page; where nothing carries the request now, it is
made later (R233). -/
def State.askRelease (s : State) (rank ldom page : Nat) : State :=
  match s.request rank { kind := .release, src := s.dev.rank, tag := 0, ldom := ldom, addr := BitVec.ofNat 64 (page * 65536) }
      false (.release rank ldom page) none 0 with
  | .out _ s => s
  | _ => s.modDev fun d => { d with frees := d.frees ++ [(rank, ldom, page)] }

/-- The destination of a move that ends without an install is asked to free its arrival slot (R233). -/
def State.releaseSlot (s : State) (r : MoveReq) : State :=
  if r.rank = s.dev.rank then s else s.askRelease r.rank r.ldom r.page

/-- Releases that could not be made before are tried again. -/
def State.retryFrees (s : State) : State :=
  s.dev.frees.foldl (fun s f => s.askRelease f.1 f.2.1 f.2.2) (s.modDev fun d => { d with frees := [] })

/-- MOVE_ABORT (R233): the held writes at the old frame, the new frame and the slots released, the heat reset, the
record. DESIGN CHOICE: a destination that has installed the page already keeps its entry and its arrival record (log entry
74). -/
def State.abortMove (s : State) (m status : Nat) : State :=
  match Tab.find s.dev.moves m with
  | none => s
  | some v =>
    let s := ((s.endMove m).performHeld v.r.ctx v.loc v.old v.held).releaseSlot v.r
    (s.heatReset v.r.ctx v.r.page).moveRecord v.r status v.loc v.passes v.new

/-- A held write goes to the new owner (R236): this device's own under its tag, a peer's through the stub. -/
def State.forwardHeld (s : State) (x : Stub) (cn : Nat) (r : FabReq) : State :=
  if r.src ≠ s.dev.rank then s.forward x r
  else match Tab.find s.dev.reqs r.tag with
    | none => s
    | some p =>
      let p : Pend := { p with dst := x.target, held := true, loc := 1, place := cn * 2 ^ 64 + r.addr.toNat }
      (s.modDev fun d => { d with reqs := Tab.put d.reqs r.tag p }).sendHeld r.tag

/-- FLIP (R236): the owner's entry, the stub, the heat entry, the held writes, the record and the sweep. -/
def State.flip (s : State) (m : Nat) : State :=
  match Tab.find s.dev.moves m with
  | none => s
  | some v =>
    let r := v.r
    let away := r.rank ≠ s.dev.rank
    let s := s.endMove m
    let s := match entryOf s r.ctx r.page with
      | none => s
      | some (a, pe, at_) =>
        if away then s.putEntry at_ pe
          { a with loc := 1, peer := r.rank, mode := if a.mode = 0 then 1 else a.mode, hm := false } (peFrame pe)
        else if r.tier = 0 then s.putEntry at_ pe
          { a with loc := 0, peer := 0, mode := if a.mode = 3 then 3 else 0, hm := false } v.new
        else s.putEntry at_ pe { a with loc := 3, peer := 0, mode := if a.mode = 3 then 3 else 1, hm := true } v.new
    let s := s.heatFree r.ctx r.page
    let x : Stub := { ldom := r.ldom, page := r.page, target := r.rank, ctx := r.ctx
                      w0 := BitVec.ofNat 32 (moveWord r v.loc v.passes s.dev.rank) }
    let s := if away then
        v.held.foldl (fun s q => s.forwardHeld x r.ctx q) (s.modDev fun d =>
          { d with stubs := x :: d.stubs
                   arrivals := d.arrivals.filter fun y => !(y.ldom = r.ldom && y.page = r.page) })
      else s.performHeld r.ctx (if r.tier = 0 then 0 else 3) v.new v.held
    (s.moveRecord r (if away then 1 else 2) v.loc v.passes v.old).sweepPage r.ctx r.page

/-! ## Starting and copying (R231 to R235) -/

/-- Whether the half of the stub table that serves a page has no free slot: 2,048 of the 4,096, in use or reserved (R11,
R240). -/
def State.stubsFull (s : State) (page : Nat) : Bool :=
  let mine (n : Nat) : Bool := halfOf n = halfOf page
  let d := s.dev
  (d.stubs.filter fun x => mine x.page).length + (d.arrivals.filter fun x => mine x.page).length
    + (d.slots.filter fun x => mine x.page).length
    + (d.moves.filter fun e => e.2.r.rank ≠ d.rank && mine e.2.r.page).length ≥ 2048

/-- Ranks of the arrival record of a page. -/
def State.arrivalRanks (s : State) (ldom page : Nat) : List Nat :=
  ((s.dev.arrivals.find? fun y => y.ldom = ldom && y.page = page).map Arrival.ranks).getD []

/-- A queued request that must wait by the chain rules (R240): `far` whether its destination has no free slot, or holds a
stub for the page. -/
def State.moveWaits (s : State) (r : MoveReq) (far : Bool) : Bool :=
  r.rank ≠ s.dev.rank && ((s.arrivalRanks r.ldom r.page).length ≥ 2 || s.stubsFull r.page || far)

/-- A request that has entered the queue is refused. -/
def State.refuseMove (s : State) (r : MoveReq) (status loc : Nat) : State :=
  (s.moveRecord r status loc 0 0).heatReset r.ctx r.page

/-- Whether the half of the engine that serves a page has no room for a move: 16 of the 32 (R11, R231). -/
def State.engineFull (s : State) (page : Nat) : Bool :=
  (s.dev.moves.filter fun e => halfOf e.2.r.page = halfOf page).length ≥ 16

/-- MOVE_START (R231 to R233): the first queued request of a half with room that need not wait starts, or is refused. A move
within the device takes its frame from the ring of the context bound to the page's domain (R232, R383). DESIGN CHOICE: a
page whose old frame stage 2 does not place is refused with status 9 (log entry 74). -/
def execMoveStart (o : MoveOffer) (s : State) : Host.Outcome State Fault Refusal :=
  match s.dev.mqueue.zipIdx.find? fun e => !s.engineFull e.1.page && !s.moveWaits e.1 (o.skip.contains e.2) with
    | none => .next s
    | some (r, n) =>
      let s := s.modDev fun d => { d with mqueue := d.mqueue.eraseIdx n }
      match entryOf s r.ctx r.page with
      | none => .next (s.refuseMove r 9 0)
      | some (a, pe, _) =>
        if (s.moveOf r.ctx r.page).isSome then .next (s.refuseMove r 6 a.loc)
        else if !moveAllowed s.dev.rank a.loc r.rank r.tier || (framePlace s r.ctx a.loc (peFrame pe)).isNone then
          .next (s.refuseMove r 9 a.loc)
        else
          let (f, s) := if r.rank ≠ s.dev.rank then (o.frame, s)
            else match s.boundCtx r.ldom with
              | some cn => s.takeFrame cn r.tier
              | none => (none, s)
          match f with
          | none => .next (s.refuseMove r 5 a.loc)
          | some new => .next (s.modDev fun d =>
              { d with moves := Tab.put d.moves (Tab.freeFrom d.moves 0)
                         { r := r, loc := a.loc, old := peFrame pe, new := new } })

/-- The lowest chunk of a mask. -/
def lowestBit (x : DWord) : Option Nat := (List.range 64).find? x.getLsbD

/-- A chunk as it is read from an old frame (R234): its bytes and whether it is marked, an error found fresh marking its
granule; none where a port does not deliver it. -/
def State.chunkRead (s : State) (loc a : Nat) : Option (List Byte × Bool) × State :=
  if loc = 0 then
    let s := (s.latent.filter fun x => a ≤ x && x < a + 1024).foldl State.found s
    (some (s.placeRead 0 a 1024, s.poisoned a), s)
  else if !s.portUp loc a then (none, s)
  else if loc = 3 then (some (s.placeRead 3 a 1024, s.cxlBad a 1024), s)
  else
    let (c, s) := s.outsideEnd
    let (bs, s) := s.outside 1024
    (if c = 0 ∨ c = 3 then some (bs, c = 3) else none, s)

/-- A chunk written in a new frame of this device, at place `a` of a tier: no copy of its lines stays (R311), and marks go
with the data. -/
def State.chunkWrite (s : State) (loc a : Nat) (bs : List Byte) (mark : Bool) : State :=
  let s := (s.placeWrite loc a bs).dropRange loc a bs.length
  if !mark then s
  else if loc = 0 then s.setPoison a true
  else { s with cxlPoison := (List.range bs.length).foldl (fun l i => insNat (a + i) l) s.cxlPoison }

/-- A chunk is copied (R234), here or to the destination; one that the new frame's tables do not place, or that finds no
free tag, waits. -/
def State.copyChunk (s : State) (m : Nat) : State :=
  match Tab.find s.dev.moves m with
  | none => s
  | some v => match lowestBit v.todo, framePlace s v.r.ctx v.loc v.old with
    | some i, some old =>
      let set (s : State) (f : Move → Move) : State := s.modDev fun d => { d with moves := Tab.modify d.moves m f }
      let took (s : State) : State := set s fun v => { v with todo := v.todo &&& ~~~BitVec.twoPow 64 i }
      let here := v.r.rank = s.dev.rank
      let loc := if v.r.tier = 0 then 0 else 3
      match s.chunkRead v.loc (old + 1024 * i) with
      | (none, s) => set s fun v => { v with lost := true }
      | (some (bs, mark), s) =>
        if here then match framePlace s v.r.ctx loc v.new with
          | none => s
          | some f => (took s).chunkWrite loc (f + 1024 * i) bs mark
        else
          let r : FabReq := { kind := .chunk, src := s.dev.rank, tag := 0, ldom := v.r.ldom, size := 1024, data := bs
                              addr := BitVec.ofNat 64 (v.r.page * 65536 + 1024 * i), arg := v.new, aop := mark.toNat }
          match (took s).request v.r.rank r false (.move m i) none 0 with
          | .out _ s => s
          | .noRoute => set s fun v => { v with lost := true }
          | .noTag => s
    | _, _ => s

/-- Whether a move still waits for answers: chunks, and, before the final phase, writes to its page that a port
carries. -/
def State.moveBusy (s : State) (m : Nat) (v : Move) : Bool :=
  s.dev.reqs.any fun e => (match e.2.who with
    | .move n _ => n = m
    | _ => false)
    || (v.ph = .pass && e.2.port.isSome && kindWrites e.2.req.kind && e.2.req.ldom = v.r.ldom
        && pageNo e.2.req.addr = v.r.page)

/-- The request that installs a page at its new owner (R236). -/
def installReq (s : State) (v : Move) (a : Att) : FabReq :=
  { kind := .install, src := s.dev.rank, tag := 0, ldom := v.r.ldom, addr := BitVec.ofNat 64 (v.r.page * 65536)
    arg := v.new, data := leBytes 4 (attWord a).toNat ++
      (s.arrivalRanks v.r.ldom v.r.page ++ [s.dev.rank]).map (BitVec.ofNat 8) }

/-- The end of a move whose copies are done (R233, R236): the flip, once no access under the old translation is under way,
or the abort of an install that was refused or whose destination cannot be reached. -/
def State.finishMove (s : State) (m : Nat) (v : Move) : State :=
  match v.ack with
  | none => s
  | some 0 => if s.pageBusy v.r.ctx v.r.page then s else s.flip m
  | some c => s.abortMove m (if c = 5 then 8 else 7)

/-- COPY_PASS_END (R233, R234): the next pass, the final phase, or, at the end of that, the install or the flip. -/
def execCopyPassEnd (m : Nat) (s : State) : Host.Outcome State Fault Refusal :=
  match Tab.find s.dev.moves m with
  | none => .next s
  | some v =>
    if v.lost then .next (s.abortMove m 8)
    else if v.ph = .install then .next (s.finishMove m v)
    else if v.todo ≠ 0 ∨ s.moveBusy m v then .next s
    else
      let set (s : State) (f : Move → Move) : State := s.modDev fun d => { d with moves := Tab.modify d.moves m f }
      match v.ph with
      | .pass =>
        if v.dirty ≠ 0 ∧ v.passes < 3 then
          .next (set s fun v => { v with passes := v.passes + 1, todo := v.dirty, dirty := 0 })
        else .next (set s fun v => { v with ph := .final, todo := v.dirty, dirty := 0 })
      | _ =>
        if v.r.rank = s.dev.rank then .next (s.finishMove m { v with ack := some 0 })
        else match entryOf s v.r.ctx v.r.page with
          | none => .next (s.abortMove m 8)
          | some (a, _, _) => match s.request v.r.rank (installReq s v a) false (.move m 64) none 0 with
            | .out _ s => .next (set s fun v => { v with ph := .install })
            | .noRoute => .next (s.abortMove m 8)
            | .noTag => .next s

/-- HOLD_LIMIT_EXPIRY (R235): counted from the first write held, until the move is to flip. -/
def execHoldLimitExpiry (m : Nat) (s : State) : Host.Outcome State Fault Refusal :=
  match Tab.find s.dev.moves m with
  | none => .next s
  | some v => if v.ph = .pass ∨ v.held = [] ∨ v.ack = some 0 then .next s else .next (s.abortMove m 4)

/-- An install at the destination of a move (R236): the status, and the state with the entry written, the page swept, the
arrival recorded in the slot kept for it, and no heat entry (R244). None while accesses under the old translation are
under way, which the sweep waits for (R230). -/
def State.installPage (s : State) (src ldom n frame att : Nat) (ranks : List Nat) : Option (Nat × State) :=
  let freed := s.modDev fun d => { d with slots := d.slots.filter fun x => !(x.src = src && x.ldom = ldom && x.page = n) }
  match s.boundCtx ldom with
  | none => some (7, freed)
  | some cn => match entryOf s cn n with
    | none => some (7, freed)
    | some (a, pe, at_) =>
      if (s.stub ldom n).isSome || freed.stubsFull n then some (7, freed)
      else if s.pageBusy cn n then none
      else
        let b := attOf (BitVec.ofNat 32 att)
        let new : Att := { loc := 0, peer := 0, mode := if a.mode = 3 then 3 else 0, mh := a.mh, hm := false
                           qf := b.qf, ord := b.ord, rd := b.rd, wr := b.wr, ex := b.ex, ht := b.ht }
        some (0, (((freed.putEntry at_ pe new frame).sweepPage cn n).heatFree cn n).modDev fun d =>
          { d with arrivals := { ldom := ldom, page := n, ranks := ranks } ::
                     d.arrivals.filter fun y => !(y.ldom = ldom && y.page = n) })

/-- The install that a request asks for: its answer. -/
def State.serveInstall (s : State) (r : FabReq) : Option State :=
  (s.installPage r.src r.ldom (pageNo r.addr) r.arg (leNat (r.data.take 4)) ((r.data.drop 4).map BitVec.toNat)).map fun e =>
    e.2.respond r e.1 [] false

/-- INSTALL (R236): the destination writes its entry, sweeps, records the arrival and acknowledges, or refuses. One
performed before is answered from its record (R255). -/
def execInstall (a : Asker) (ldom : Nat) (page : DWord) (frame att : Nat) (ranks : List Nat) (s : State) :
    Host.Outcome State Fault Refusal :=
  .next (s.onceFor a.src a.tag fun s => (s.serveInstall
    { kind := .install, src := a.src, tag := a.tag, ldom := ldom, addr := page, arg := frame
      data := leBytes 4 att ++ ranks.map (BitVec.ofNat 8) }).getD s)

/-- INSTALL_ACK (R236): the flip, or the abort of a refused install. -/
def execInstallAck (m status : Nat) (s : State) : Host.Outcome State Fault Refusal :=
  match Tab.find s.dev.moves m with
  | none => .next s
  | some v =>
    if v.ph ≠ .install ∨ v.ack.isSome then .next s
    else
      let v : Move := { v with ack := some status }
      let s := s.modDev fun d => { d with moves := Tab.put d.moves m v
                                          reqs := d.reqs.filter fun e => e.2.who ≠ .move m 64 }
      .next (s.finishMove m v)

/-- What a destination does for a move of a peer (R232 to R234): the next frame of its ring, with an arrival slot kept for
the page; a chunk written; the slot freed. -/
def State.serveMove (s : State) (cn : Nat) (r : FabReq) : State :=
  let n := pageNo r.addr
  let slot : Slot := { src := r.src, ldom := r.ldom, page := n }
  match r.kind with
  | .frame =>
    if s.stubsFull n ∨ (s.stub r.ldom n).isSome then s
    else match s.takeFrame cn r.arg with
      | (some f, s) => (s.modDev fun d => { d with slots := slot :: d.slots.filter (· ≠ slot) }).respond r 0 (leBytes 8 f) false
      | (none, s) => s.respond r 5 [] false
  | .release => (s.modDev fun d => { d with slots := d.slots.filter (· ≠ slot) }).respond r 0 [] false
  | _ => match framePlace s cn 0 r.arg with
    | none => s.respond r 7 [] false
    | some f => (s.chunkWrite 0 (f + r.addr.toNat % 65536) r.data (r.aop = 1)).respond r 0 [] false

/-- REDIRECT (R239). -/
def execRedirect (ldom : Nat) (page : DWord) (owner : Nat) (s : State) : Host.Outcome State Fault Refusal :=
  .next (s.redirect ldom (pageNo page) owner)

/-- ENTRIES_UPDATED (R241): taken, and answered. -/
def execEntriesUpdated (src tag ldom : Nat) (page : DWord) (s : State) : Host.Outcome State Fault Refusal :=
  .next (s.onceFor src tag fun s => (s.entriesUpdated ldom (pageNo page)).respond
    { kind := .pgmove, src := src, tag := tag, ldom := ldom, addr := page, aop := 1 } 0 [] false)

/-- The acknowledgements that are due (R241): every request for the page that had gone to the stub holder is answered. -/
def State.sendAcks (s : State) : State :=
  let due (a : Nat × Nat × Nat × Nat) : Bool := s.dev.reqs.all fun e =>
    e.2.held || e.2.seq ≥ a.2.2.2 || e.2.dst ≠ a.1 || !e.2.forPage a.2.1 a.2.2.1 s.dev.rank
  let now := s.dev.acks.filter due
  now.foldl (fun s a => s.say (.invalidateAck a.1 a.2.1 a.2.2.1))
    (s.modDev fun d => { d with acks := d.acks.filter fun a => !now.contains a })

/-- OWNER_CACHE_INVALIDATE (R241): the sharer's entry goes at once, and it acknowledges once its requests for the page to
the stub holder are answered. -/
def execOwnerCacheInvalidate (src ldom : Nat) (page : DWord) (s : State) : Host.Outcome State Fault Refusal :=
  let n := pageNo page
  .next ((s.modDev fun d =>
    { d with owners := d.owners.filter fun e => !(e.ldom = ldom && e.page = n)
             acks := d.acks ++ [(src, ldom, n, d.nextSeq)] }).sendAcks)

/-- What waits in the fabric goes on: holds that are over end, due acknowledgements are sent, requests, releases and jobs
that found no route or tag are tried again, and the children of an abort that are lost are replaced (R194, R233, R239, R241,
R339). -/
def State.fabricStep (s : State) : State :=
  let s := s.endHolds.sendAcks.sendLoose.jobsAsk.jobsDone.retryFrees
  s.dev.grps.foldl State.abortLost s

/-- INVALIDATE_ACK (R233, R241). -/
def execInvalidateAck (src ldom : Nat) (page : DWord) (s : State) : Host.Outcome State Fault Refusal :=
  .next ((s.modStub ldom (pageNo page) fun x => { x with left := x.left &&& ~~~BitVec.twoPow 64 src }).stubCheck ldom
    (pageNo page))

/-- STUB_GONE (R240): passed on where a stub for the page stands, else the arrival record loses the rank. -/
def execStubGone (src ldom : Nat) (page : DWord) (s : State) : Host.Outcome State Fault Refusal :=
  let n := pageNo page
  match s.stub ldom n with
  | some x => .next (s.say (.stubGone x.target src ldom n))
  | none => .next (s.modDev fun d =>
      { d with arrivals := (modWhere (fun y => y.ldom = ldom && y.page = n)
                 (fun y => { y with ranks := y.ranks.filter (· ≠ src) }) d.arrivals).filter fun y => y.ranks ≠ [] })

/-- MEMBER_RESET_NOTICE (R351): moves to the rank abort, stubs count it as acknowledged, owner-cache entries that name it
go, and collective instances with it abort. -/
def execMemberResetNotice (src ldom : Nat) (s : State) : Host.Outcome State Fault Refusal :=
  let s := ((s.dev.moves.filter fun e => e.2.r.ldom = ldom && e.2.r.rank = src).map Prod.fst).foldl
    (fun s m => s.abortMove m 8) s
  let s := (s.ackStubs ldom src).modDev fun d =>
    { d with owners := d.owners.filter fun e => !(e.ldom = ldom && e.owner = src)
             slots := d.slots.filter fun x => !(x.src = src && x.ldom = ldom)
             frees := d.frees.filter fun x => !(x.1 = src && x.2.1 = ldom)
             acks := d.acks.filter fun a => !(a.1 = src && a.2.1 = ldom) }
  .next (((s.dev.grps.filter fun g => g.ldom = ldom && g.members.contains src).map Grp.grp).foldl
    (fun s g => s.startAbort ldom g 3) s)

/-! ## PGMOVE (R245, R246) -/

/-- PGMOVE: the target word is captured with the address. -/
def execPgmove (f : Std) (s : State) : Host.Outcome State Fault Refusal :=
  issue (.pgmove f) windowRoom (fallible (.pgmove f) Sel.zero 0 fun q t s =>
    ({ accessOp (.pgmove f) f .zero q t [] with
       aux := [q.k.src32 t (q.thr t) f.lit f.c], lines := [pageNo (q.addr f t)] }, s)) s

/-- Checks 2 and 3 of an entries-updated request (R246); object 0xFF_FFFF of a hypervisor is the bitmap (R220). -/
def judgeUpd (s : State) (cn : Nat) (addr : DWord) : Judged :=
  let c := s.ctx cn
  if c.hv && objOf addr = 0xFFFFFF then (if offOf addr + 1 > 25165824 then .fail 2 else .ok [])
  else match objectEntry s c addr 1 with
    | .ok _ => .ok []
    | .error (.park p g) => .park p g addr
    | .error (.fail n) => .fail n
    | .error (.ok _) => .ok []

/-- What a request for a move meets at its issuer (R246): checks 2 to 6, and the destination's membership. -/
def judgeMove (s : State) (core cn : Nat) (lane : Option Nat) (addr : DWord) (tw : Word) (upd : Bool) : Judged × State :=
  if upd then (judgeUpd s cn addr, s)
  else match judge s core cn lane { size := 1, rd := true, wr := true } addr with
    | (.ok ps, s) =>
      if bits tw 6 6 = 0 && !(s.ctx cn).lmask.getLsbD (bits tw 5 0) then (.fail 1, s) else (.ok ps, s)
    | r => r

/-- The request goes to the owner, this device's own engine among them, or the stub holder: the part that waits for it, or
none where it cannot go yet. -/
def State.sendMove (s : State) (cn : Nat) (addr : DWord) (tw : Word) (upd : Bool) (ps : List (Nat × DWord × Nat × Option Trans))
    (who : Waiter) : Option Part × State :=
  let r : FabReq := { kind := .pgmove, src := s.dev.rank, tag := 0, ldom := (s.ctx cn).ldom, addr := addr, size := 1
                      aop := upd.toNat, arg := tw.toNat }
  let done : Part := { key := 0, done := some 0 }
  if upd then
    let dst := bits tw 5 0
    if dst = s.dev.rank then (some done, s.entriesUpdated r.ldom (pageNo addr))
    else match s.request dst r false who none 0 with
      | .out tag s => (some { key := 0, tag := some tag }, s)
      | .noRoute => (some { key := 0, done := some 5 }, s)
      | .noTag => (none, s)
  else match ps with
    | (_, _, _, some t) :: _ =>
      if t.att.loc = 1 then s.ask t 0 1 r who none else (some done, s.submitMove cn (pageNo addr) tw.toNat)
    | _ => (some done, s)

/-- An operation of the same instruction for the same page shares a request that goes out as `p`, if its own checks pass
(R246). -/
def State.shareMove (s : State) (b t : Nat) (tk : BitVec 16) (upd : Bool) (p : Part) : State :=
  match s.opAt b t tk with
  | none => s
  | some (k, _, m) =>
    if m.st ≠ .outstanding ∨ m.parts ≠ [] then s
    else match judgeMove s k.core k.ctx (k.laneOf t) m.addr (wordAt m.aux 0) upd with
      | (.ok _, s) =>
        let s := s.modOp b t tk fun m => { m with parts := [p] }
        match p.tag with
        | some tag => s.modDev fun d =>
            { d with reqs := Tab.modify d.reqs tag fun r => { r with also := r.also ++ [.op b t tk 0] } }
        | none => s
      | (_, s) => s

/-- A PGMOVE of a thread sends its request, and those of its instruction for the same page share it (R246). -/
def State.moveStep (s : State) (b t : Nat) (k : Block) (o : Op) (f : Std) : State :=
  let tw := wordAt o.aux 0
  let upd := f.func.getLsbD 0
  if o.parts ≠ [] then s
  else match judgeMove s k.core k.ctx (k.laneOf t) o.addr tw upd with
  | (.ok ps, s) => match s.sendMove k.ctx o.addr tw upd ps (.op b t o.tk 0) with
    | (none, s) => s
    | (some p, s) => o.mates.foldl (fun s e => s.shareMove b e.1 e.2 upd p)
        (s.modOp b t o.tk fun o => { o with parts := [p] })
  | (_, s) => s

end Sys2Proof.Machine
end

