-- ==== Sys2Proof/Machine/Reserve.lean ====
section
/-! DEFINITION. Reservations of the operand pool: their parts, their fill pointers, their life
(spec/19_tile.md R284 to R289). -/

namespace Sys2Proof.Machine

/-- Fields of a reservation record (R284). -/
def Rsv.fmt (r : Rsv) : Nat := bits (wordAt r.ws 0) 31 28
def Rsv.bl (r : Rsv) : Nat := bits (wordAt r.ws 0) 27 27
def Rsv.sl (r : Rsv) : Nat := bits (wordAt r.ws 0) 26 25
def Rsv.sp (r : Rsv) : Bool := (wordAt r.ws 0).getLsbD 24
def Rsv.scratch (r : Rsv) : Bool := (wordAt r.ws 0).getLsbD 23
def Rsv.units (r : Rsv) : Nat := bits (wordAt r.ws 0) 12 0

/-- TB (R285). -/
def Rsv.tileBytes (r : Rsv) : Nat := if r.fmt ≤ 1 then 16384 else if r.fmt = 2 then 8192 else 32768
/-- NT (R285). -/
def Rsv.tiles (r : Rsv) : Nat := r.units * 128 / r.tileBytes
def Rsv.scaleBytes (r : Rsv) : Nat := match r.sl with
  | 0 => 0
  | 2 => 4
  | _ => 512

/-- A part's length and base (R284, R287): 0 data, 1 scales, 2 metadata. -/
def Rsv.partLen (r : Rsv) (part : Nat) : Nat :=
  match part with
  | 0 => r.units * 128
  | 1 => r.tiles * r.scaleBytes
  | _ => if r.sp then r.tiles * 2048 else 0
def Rsv.partBase (r : Rsv) (part : Nat) : Nat := (wordAt r.ws (part + 1)).toNat

/-- The fill pointer of a part (R287). -/
def Rsv.ptr (r : Rsv) (part : Nat) : Nat :=
  match part with
  | 0 => r.fp
  | 1 => r.sfp
  | _ => r.mfp
def Rsv.setPtr (r : Rsv) (part n : Nat) : Rsv :=
  match part with
  | 0 => { r with fp := n }
  | 1 => { r with sfp := n }
  | _ => { r with mfp := n }

/-- Every part is complete (R287). -/
def Rsv.complete (r : Rsv) : Bool := [0, 1, 2].all fun p => r.ptr p ≥ r.partLen p

/-- A pointer moves on over bytes written above it (R288). -/
def Rsv.climb (r : Rsv) (part : Nat) : Nat → Rsv
  | 0 => r
  | n + 1 => match r.ext.find? fun (x : Nat × Nat × Nat) => x.1 = part && x.2.1 ≤ r.ptr part && r.ptr part < x.2.1 + x.2.2 with
    | some x => ({ r.setPtr part (x.2.1 + x.2.2) with ext := r.ext.erase x } : Rsv).climb part n
    | none => { r with ext := r.ext.filter fun (x : Nat × Nat × Nat) => x.1 ≠ part || x.2.1 + x.2.2 > r.ptr part }

/-- Bytes of a part have been written (R287, R288). -/
def Rsv.wrote (r : Rsv) (part off len : Nat) : Rsv :=
  let r := ({ r with ext := (part, off, len) :: r.ext } : Rsv).climb part (r.ext.length + 2)
  if r.st = .reserved then { r with st := .filling } else r

/-- A fill may have completed the last part; `named` says that a loop names the reservation (R287). -/
def Rsv.filled (r : Rsv) (named : Bool) : Rsv :=
  if r.st = .filling && r.complete then { r with st := if named then .inUse else .ready } else r

/-- Whether a queued loop names a slot of its block (R287). -/
def Loop.names (l : Loop) (slot : Nat) : Bool := l.f.rb.toNat = slot || (!l.f.ab && l.f.ra.toNat = slot)

def State.slotNamed (s : State) (b slot : Nat) : Bool :=
  (s.blk b).any fun k => (s.core k.core).loops.any fun l => l.blk = b && l.names slot

def State.modRsv (s : State) (b n : Nat) (f : Rsv → Rsv) : State :=
  s.modBlk b fun k => { k with rsv := Tab.set {} k.rsv n (f (k.rsvOf n)) }

/-! ## 2:4 expansion (R289) -/

/-- One group of four dense bytes from two values and its metadata nibble. -/
def expandGroup (v0 v1 : Byte) (n : Nat) : List Byte :=
  (List.range 4).map fun i => if i = n / 4 % 4 then v1 else if i = n % 4 then v0 else 0

/-- The dense bytes of `n` groups. -/
def expand (vals md : List Byte) (n : Nat) : List Byte :=
  (List.range n).flatMap fun g =>
    let m := (md.getD (g / 2) 0).toNat
    expandGroup (vals.getD (2 * g) 0) (vals.getD (2 * g + 1) 0) (if g % 2 = 0 then m % 16 else m / 16)

end Sys2Proof.Machine
end

