-- ==== Sys2Proof/Machine/Queue.lean ====
section
/-! DEFINITION. Engine chains: ENQ and the waits on chains, commands, copy pieces (spec/16_queue.md R265 to R273;
spec/19_tile.md R288, R289; spec/20_ordering.md R320). -/

namespace Sys2Proof.Machine

/-! ## Instructions -/

/-- ENQ (R270): sixteen words are captured. -/
def execEnq (f : EnqForm) (s : State) : Host.Outcome State Fault Refusal :=
  issue (.enq f) windowRoom (fallible (.enq f) f.d 1 fun q t s =>
    ({ tk := 0, pc := q.pc, insn := .enq f, data := q.k.regBytes t (q.thr t) f.grp 16
       dest := if f.d.isReg then f.d else Sel.zero }, s)) s

/-- The status word of `ESEQ.st` (R271). -/
def chainWord (k : Block) (e : Nat) : Word :=
  let c := k.chainOf e
  let st := if k.chb = 0 then 0 else if c.err ≠ 0 then 2 else 1
  BitVec.ofNat 32 (st * 2 ^ 30 + c.err * 2 ^ 24 + c.cause * 2 ^ 16 + (c.nq - c.head).toNat)

/-- ESEQ (R271). -/
def execEseq (f : Std) (s : State) : Host.Outcome State Fault Refusal :=
  let e := f.func.toNat % 4
  issue (.eseq f) always (computeRun f.d 1 (fun _ => .u) fun q _ _ =>
    .word (if f.func.getLsbD 2 then chainWord q.k e else (q.k.chainOf e).eseq)) s

/-- CWPTR (R272): long-latency. -/
def execCwptr (f : Std) (s : State) : Host.Outcome State Fault Refusal :=
  issue (.cwptr f) always (fun q s =>
    let s := computeRun f.d 1 (fun _ => .g) (fun q _ _ => .word (q.k.chainOf (f.func.toNat % 2)).wp) q s
    if q.k.narrow f.d 1 then s else s.modThrs q.b q.on fun _ x => x.setLong true (runRegs f.d 1)) s

/-- BSRCLR (R273). -/
def execBsrclr (f : Std) (s : State) : Host.Outcome State Fault Refusal :=
  issue (.bsrclr f) always (fun q s =>
    let s := clearLong q s
    let traps := latchTraps q s
    let clear := (q.good traps).any fun t => (q.k.src32 t (q.thr t) f.lit f.a).getLsbD 0
    finish q traps (if clear then s.modBlk q.b fun k => { k with rfail := false } else s)) s

/-- The chain and the count that EWAIT or CWAIT waits for (R272). -/
def chainTarget (k : Block) (i : Instr) : Option (Chain × Word) :=
  match i with
  | .ewait f => let c := k.chainOf (f.func.toNat % 4); some (c, c.eseq)
  | .cwait f => let c := k.chainOf (f.func.toNat % 2); some (c, c.wp)
  | _ => none

/-- Whether the target is reached. -/
def chainReached (s : State) (b : Nat) (i : Instr) (target : Word) : Bool :=
  ((s.blk b).bind fun k => chainTarget k i).any fun c => seqGe c.2 target

/-- Whether the wait is over: the target reached, the chain in ERROR or not enabled. -/
def chainEnded (s : State) (b : Nat) (i : Instr) (target : Word) : Bool :=
  chainReached s b i target || (s.blk b).any fun k => k.chb = 0 || (chainTarget k i).any fun c => c.1.err ≠ 0

/-- Whether the result of EWAIT, CWAIT or CLWAIT is G, by the tags at issue (R53). -/
def waitWide (k : Block) (i : Instr) (f : Std) : Bool :=
  (resultShape k i f (ruleOf i) fun sel => k.src32 0 { pc := 0 } f.lit sel).isG

/-- The end of the wait (R272): the acquire at `.dev`, D written in the shape that the tags gave at issue, the latches
cleared. -/
def chainAfter (b : Nat) (i : Instr) (f : Std) (wide : Bool) (ts : List (Nat × Word)) (s : State) : State :=
  match s.blk b with
  | none => s
  | some k =>
    if ts.isEmpty then s
    else
      let s := s.acquire k.core k.ctx 2
      let vals : List (Nat × DWord) := ts.map fun e => (e.1, if chainReached s b i e.2 then 0 else 1)
      let s := s.putResult b f.d 1 (if wide then .g else .u) vals
      s.modThrs b (ts.map Prod.fst) fun _ x => x.clearLatches

/-- EWAIT and CWAIT at issue. -/
def chainWait (i : Instr) (f : Std) (q : Iss) (s : State) : State :=
  let tgt (t : Nat) : Word := q.k.src32 t (q.thr t) f.lit f.a
  let wide := waitWide q.k i f
  if wide && q.k.narrow f.d 1 && !q.on.isEmpty then waitShapeTrap q f.d s
  else waitFaults (fun _ _ => []) (fun _ _ => if wide then 1 else 0) (fun _ t => tgt t)
    (fun q t s => chainEnded s q.b i (tgt t))
    (fun q s => chainAfter q.b i f wide ((q.good (latchTraps q s)).map fun t => (t, tgt t)) s) q s

/-- EWAIT (R272). -/
def execEwait (f : Std) (s : State) : Host.Outcome State Fault Refusal := issue (.ewait f) always (chainWait (.ewait f) f) s
/-- CWAIT (R272). -/
def execCwait (f : Std) (s : State) : Host.Outcome State Fault Refusal := issue (.cwait f) always (chainWait (.cwait f) f) s

def isEwait (i : Instr) : Bool :=
  match i with
  | .ewait _ => true
  | _ => false
def isCwait (i : Instr) : Bool :=
  match i with
  | .cwait _ => true
  | _ => false

/-- What the end of EWAIT or CWAIT does for the guard-true threads, whose targets the wait holds. -/
def chainDone (b : Nat) (_ : Block) (i : Instr) (ts : List Nat) (s : State) : State :=
  let xs := ts.map fun t => (t, ((s.thr b t).map Thread.wtok).getD 0)
  match i with
  | .ewait f | .cwait f => chainAfter b i f (ts.any fun t => (s.thr b t).any (·.wbar ≠ 0)) xs s
  | _ => s

/-- EWAIT_END (R272). -/
def execEwaitEnd (b r : Nat) (s : State) : Host.Outcome State Fault Refusal :=
  .next (endWait isEwait (fun _ i _ x s => chainEnded s b i x.wtok) (chainDone b) b r s)
/-- CWAIT_END (R272). -/
def execCwaitEnd (b r : Nat) (s : State) : Host.Outcome State Fault Refusal :=
  .next (endWait isCwait (fun _ i _ x s => chainEnded s b i x.wtok) (chainDone b) b r s)

/-! ## ENQ is performed (R270) -/

/-- Whether another ENQ is writing its slot of the chain. -/
def Block.enqFlying (k : Block) (e : Nat) : Bool :=
  k.thr.any fun (x : Nat × Thread) => x.2.win.any fun o => o.perf && o.st = .outstanding && match o.insn with
    | .enq f => f.engine.toNat = e
    | _ => false

/-- An ENQ that is due fails with cause 12 (R270). -/
def enqDead (k : Block) (e : Nat) : Bool := k.chb = 0 || (k.chainOf e).err ≠ 0

/-- An ENQ may write its slot: the chain is enabled and has room. -/
def enqRoom (k : Block) (e : Nat) : Bool :=
  !enqDead k e && ((k.chainOf e).nq - (k.chainOf e).head).toNat < 64 && !k.enqFlying e

/-- The store of an ENQ to its slot, as the tables have it now. DESIGN CHOICE: the slot write of `ENQ.rel` carries no
annotation, so check 6 of R185 lets it pass on a UO page: R270 orders the write as a release and gives the ENQ no cause 10
(log entry 72). -/
def enqJudge (s : State) (k : Block) (t e : Nat) : Judged × State :=
  judge s k.core k.ctx (k.laneOf t) { size := 64, wr := true } (k.slotAddr e (k.chainOf e).nq.toNat)

/-- Pieces that go out together: none where one of them finds no free tag. -/
def goOut {α : Type} (f : α → State → Option Part × State) (ps : List α) (s : State) : Option (List Part × State) :=
  ps.foldl (fun acc p => acc.bind fun (a : List Part × State) => match f p a.2 with
    | (some q, s) => some (a.1 ++ [q], s)
    | (none, _) => none) (some ([], s))

/-- An ENQ that is due, in a chain with room, writes its slot (R270). -/
def State.enqWrite (s : State) (b t : Nat) (k : Block) (o : Op) (e : Nat) : State :=
  if !enqRoom k e then s
  else match enqJudge s k t e with
    | (.ok ps, s) =>
      let put (p : Nat × DWord × Nat × Option Trans) (s : State) : Option Part × State := match p.2.2.2 with
        | some tr => s.writePiece (some k.core) k.ctx tr p.1
            { kind := .store, src := s.dev.rank, tag := 0, ldom := (s.ctx k.ctx).ldom, addr := p.2.1
              size := p.2.2.1, data := (o.data.drop p.1).take p.2.2.1 } (.op b t o.tk p.1)
        | none => (none, s)
      match goOut put (judgedPieces ps) s with
      | some (qs, s) => s.modOp b t o.tk fun o => { o with perf := true, parts := qs }
      | none => s
    | _ => s

/-- An ENQ whose slot is written settles: NQ and D (R270). -/
def State.enqSettle (s : State) (b t : Nat) (o : Op) (e : Nat) : State :=
  let s := s.modChain b e fun c => { c with who := Tab.put c.who (c.nq.toNat % 64) t, nq := c.nq + 1 }
  let n : Word := ((s.blk b).map fun k => (k.chainOf e).nq).getD 0
  let s := if o.dest = Sel.zero then s else s.deposit b t o.tk o.dest [n]
  s.settleOp b t o.tk

/-! ## Commands (R266, R268, R288) -/

/-- Fields of a copy command. -/
def cmdOp (ws : List Word) : Nat := bits (wordAt ws 0) 31 24
def cmdBv (ws : List Word) : Bool := (wordAt ws 0).getLsbD 23
def cmdBar (ws : List Word) : Nat := bits (wordAt ws 0) 22 16
def cmdAcq (ws : List Word) : Bool := (wordAt ws 0).getLsbD 15
def cmdAsc (ws : List Word) : Nat := bits (wordAt ws 0) 14 12
def cmdRel (ws : List Word) : Bool := (wordAt ws 0).getLsbD 11
def cmdRsc (ws : List Word) : Nat := bits (wordAt ws 0) 10 8
def cmdDsp (ws : List Word) : Bool := (wordAt ws 0).getLsbD 7
def cmdLen (ws : List Word) : Nat := (wordAt ws 1).toNat
def cmdPart (ws : List Word) : Nat := bits (wordAt ws 4) 4 3
def cmdSlot (ws : List Word) : Nat := bits (wordAt ws 4) 2 0

/-- Whether words from `i` on are all zero. -/
def zeroFrom (ws : List Word) (i : Nat) : Bool := (ws.drop i).all (· = 0)

/-- A reservation fill outside its reservation (R288). -/
def fillBad (k : Block) (ws : List Word) : Bool :=
  let r := k.rsvOf (cmdSlot ws)
  let off := (wordAt ws 5).toNat
  r.st = .free || r.st = .released || r.scratch || cmdPart ws = 3 || off + cmdLen ws > r.partLen (cmdPart ws)
  || (r.sp && cmdPart ws = 0 && (off % 8 ≠ 0 || cmdLen ws % 8 ≠ 0))

/-- A data fill of an SP reservation (R289). -/
def fillSparse (k : Block) (ws : List Word) : Bool := cmdOp ws = 2 && cmdPart ws = 0 && (k.rsvOf (cmdSlot ws)).sp

/-- The ERR code of a command that may not start (R268, R288, R337). -/
def cmdErr (k : Block) (e : Nat) (ws : List Word) : Option Nat :=
  let w0 := wordAt ws 0
  if e = 2 then (if cmdOp ws ≠ 1 || bits w0 23 11 ≠ 0 || !zeroFrom ws 3 then some 1 else none)
  else if e = 3 then (if cmdOp ws ≠ 1 || bits w0 23 0 ≠ 0 || wordAt ws 1 ≠ 0 || !zeroFrom ws 5 then some 1 else none)
  else
    let scopes := (!cmdAcq ws && cmdAsc ws ≠ 0) || (!cmdRel ws && cmdRsc ws ≠ 0) || cmdAsc ws > 4 || cmdRsc ws > 4
    let form := match cmdOp ws with
      | 1 => zeroFrom ws 6 && (!cmdDsp ws || wordAt ws 5 = 0)
      | 2 => !cmdDsp ws && bits (wordAt ws 4) 31 5 = 0 && zeroFrom ws 8
      | _ => false
    if !form || scopes || bits w0 6 0 ≠ 0 then some 1
    else if cmdBv ws && cmdBar ws ≥ k.bars then some 2
    else if cmdOp ws = 2 && fillBad k ws then some 5
    else none

/-- Whether a chain has a slot that its engine may read (R265). -/
def State.slotDue (s : State) (k : Block) (e : Nat) : Bool :=
  let c := k.chainOf e
  e ≤ 3 && k.chb ≠ 0 && c.err = 0 && c.cmd.isNone && c.park.isNone && c.head ≠ c.nq && !s.stopping k

/-- Whether it is a chain's turn: its engine takes one command from each chain with work before it takes another from any
(R265). -/
def State.chainTurn (s : State) (b : Nat) (k : Block) (e : Nat) : Bool :=
  let served := Tab.get [] (s.core k.core).served e
  !served.contains b || s.blocks.all fun x => x.2.core ≠ k.core || served.contains x.1 || !s.slotDue x.2 e

/-- The chain has had its turn. -/
def State.tookTurn (s : State) (b core e : Nat) : State :=
  s.modCore core fun c =>
    let l := Tab.get [] c.served e
    { c with served := Tab.put c.served e (if l.contains b then [b] else b :: l) }

/-- A command whose slot has been read starts, or puts the chain in ERROR (R265, R268, R320, R337). -/
def State.startCmd (s : State) (b e : Nat) (k : Block) (ws : List Word) : State :=
  let c := k.chainOf e
  let s := (s.modChain b e fun c => { c with head := c.head + 1, got := [] }).tookTurn b k.core e
  match cmdErr k e ws with
  | some n => s.chainError b e n 0
  | none =>
    let m : Cmd := { ws := ws, tid := Tab.get 0 c.who (c.head.toNat % 64), base := c.wp }
    let run := s.modChain b e fun c => { c with cmd := some m }
    if e = 3 then run
    else if e = 2 then
      if wordAt ws 2 = 0 then s.completeCmd b e
      else run.modDev fun d =>
        let f : Fire := { ctx := k.ctx, grp := bits (wordAt ws 0) 10 0, chunk := (wordAt ws 1).toNat
                          n := (wordAt ws 2).toNat, by_ := .chain b }
        { d with fires := d.fires ++ [f] }
    else
      let acq (s : State) : State := if cmdAcq ws && cmdAsc ws ≥ 3 then s.acquireDev k.ctx else s
      if cmdLen ws = 0 then (acq s).completeCmd b e else acq run

/-- The bytes of a peer's line that the device cache holds, for a whole range (R313). -/
def State.devCached (s : State) (cn : Nat) (t : Trans) (addr : DWord) (n : Nat) : Option (List Byte) :=
  if t.att.loc ≠ 1 || t.att.mode ≠ 2 || t.att.ord = 0 then none
  else
    let hit (a : Nat) : Option CLine := s.dev.cache.find? fun l => l.ctx = cn && l.loc = 1 && l.addr = lineBase a
    (linePieces addr n).foldl (fun r (p : Nat × DWord × Nat) => r.bind fun bs =>
      let a := t.key p.2.1
      (hit a).map fun l => bs ++ (l.data.drop (a - l.addr)).take p.2.2) (some [])

/-- One page part that an engine reads, at the target or in the device cache: none where it waits for a tag; the address of
an error that is found fresh (R356). -/
def State.readPart (s : State) (cn : Nat) (t : Trans) (key : Nat) (addr : DWord) (n : Nat) (who : Waiter) :
    Except (DWord × State) (Option (Part × State)) :=
  let a := t.key addr
  let r : FabReq := { kind := .copyRead, src := s.dev.rank, tag := 0, ldom := (s.ctx cn).ldom, addr := addr, size := n }
  match s.devCached cn t addr n with
  | some bs => .ok (some ({ key := key, len := n, done := some 0, data := bs }, s))
  | none =>
    if t.att.loc ≠ 0 then .ok (match s.ask t key n r who none with
      | (some p, s) => some (p, s)
      | (none, _) => none)
    else match s.latentIn a n with
      | some x => .error (addr + BitVec.ofNat 64 x - BitVec.ofNat 64 a, s.found x)
      | none => .ok (some ({ key := key, len := n, done := some 0, data := s.placeRead 0 a n }, s))

/-- The page parts that an engine reads for a context; `who` waits for the part of a key. -/
def State.readParts (s : State) (cn : Nat) (ps : List (Nat × DWord × Nat × Option Trans)) (who : Nat → Waiter) :
    Except (DWord × State) (Option (List Part × State)) :=
  ps.foldl (fun acc q => acc.bind fun r => match r, q.2.2.2 with
    | some (l, s), some t => (s.readPart cn t q.1 q.2.1 q.2.2.1 (who q.1)).map fun w => w.map fun e => (l ++ [e.1], e.2)
    | r, _ => .ok r) (.ok (some ([], s)))

/-- The answers of a slot read: the first failure puts the chain in ERROR; with all bytes there the command starts. -/
def State.slotRead (s : State) (b e : Nat) : State :=
  match s.blk b with
  | none => s
  | some k =>
    let got := (k.chainOf e).got
    match got.findSome? fun q => q.done.filter (· ≠ 0) with
    | some f => (s.modChain b e fun c => { c with got := [] }).chainError b e 3 f
    | none =>
      if got.any fun q => q.done.isNone then s else s.startCmd b e k (bytesWords 16 (got.flatMap Part.data))

/-- CHAIN_SLOT_READ (R265): in its chain's turn, the next slot is read under the checks of a load; once all its bytes are
there, its command starts. An error found fresh kills the gang in the name of TID 0 (R282, R356). -/
def execChainSlotRead (b e : Nat) (s : State) : Host.Outcome State Fault Refusal :=
  match s.blk b with
  | none => .next s
  | some k =>
    let c := k.chainOf e
    if !s.slotDue k e then .next s
    else if c.got ≠ [] then .next (s.slotRead b e)
    else if !s.chainTurn b k e then .next s
    else
      let a := k.slotAddr e c.head.toNat
      match judge s k.core k.ctx none { size := 64, rd := true, poison := true, gang := some k.gang } a with
      | (.park pc g _, s) =>
        .next ((s.modChain b e fun c => { c with park := some (pc, g) }).postFault k pc 14 0 0 a g)
      | (.fail f, s) => .next (s.chainError b e 3 f)
      | (.ok ps, s) => match s.readParts k.ctx ps fun key => .slot b e key with
        | .error (x, s) => .next (s.killData k 0 x)
        | .ok none => .next s
        | .ok (some (got, s)) => .next ((s.modChain b e fun c => { c with got := got }).slotRead b e)

/-! ## Pieces (R267) -/

/-- The length of the piece at an offset: cut at 4 KiB of the destination and, for a copy, of the source. -/
def pieceLen (ws : List Word) (off : Nat) : Nat :=
  let left := cmdLen ws - off
  let room (a : Nat) : Nat := 4096 - a % 4096
  if cmdOp ws = 2 then Nat.min left (room ((wordAt ws 5).toNat + off))
  else Nat.min left (Nat.min (room ((dwordAt ws 2).toNat + off))
    (room ((if cmdDsp ws then (wordAt ws 4).toNat else (dwordAt ws 4).toNat) + off)))

/-- Sixteen pieces of a command are in flight (R267). -/
def Cmd.full (m : Cmd) : Bool := (m.pieces.filter fun p => p.st = .flying).length ≥ 16

/-- The piece at an offset, or the one that would be issued next: in order, at most 16 in flight, those that a resume
sends again among them, none in ERROR. -/
def Chain.pieceAt (c : Chain) (e : Nat) (m : Cmd) (off : Nat) : Option Piece :=
  match m.pieces.find? fun p => p.off = off with
  | some p => if (c.err ≠ 0 && p.st ≠ .flying) || (p.st = .ready && m.full) then none else some p
  | none =>
    if off ≠ m.next || c.err ≠ 0 || m.full then none
    else if e = 3 then (if m.pieces.isEmpty then some { off := 0, len := 0 } else none)
    else if off < cmdLen m.ws then some { off := off, len := pieceLen m.ws off } else none

/-- A chain with its command and a piece. -/
def State.pieceOf (s : State) (b e off : Nat) : Option (Block × Chain × Cmd × Piece) :=
  (s.blk b).bind fun k => let c := k.chainOf e
    c.cmd.bind fun m => (c.pieceAt e m off).map fun p => (k, c, m, p)

/-- The bytes that a piece reads: key, address, length (R266, R289). -/
def pieceReads (k : Block) (m : Cmd) (p : Piece) : List (Nat × DWord × Nat) :=
  let cut (base : Nat) (a : DWord) (n : Nat) : List (Nat × DWord × Nat) :=
    (pageParts a n).map fun (q : Nat × DWord × Nat) => (base + q.1, q.2.1, q.2.2)
  if fillSparse k m.ws then
    cut 0 (dwordAt m.ws 2 + BitVec.ofNat 64 (p.off / 2)) (p.len / 2)
    ++ cut 65536 (dwordAt m.ws 6 + BitVec.ofNat 64 (p.off / 8)) (p.len / 8)
  else cut 0 (dwordAt m.ws 2 + BitVec.ofNat 64 p.off) p.len

/-- The global bytes that a copy's piece writes. -/
def pieceWrites (m : Cmd) (p : Piece) : List (Nat × DWord × Nat) :=
  pageParts (dwordAt m.ws 4 + BitVec.ofNat 64 p.off) p.len

/-- A piece whose reads are all answered. -/
def Piece.readDone (p : Piece) : Bool := p.st = .flying && !p.wr && p.parts.all fun q => q.done = some 0

/-- Whether a command's writes go to global memory. -/
def Cmd.toGlobal (m : Cmd) : Bool := cmdOp m.ws = 1 && !cmdDsp m.ws

/-- What the next stage of a piece meets (R185, R268): its reads, then its writes. -/
def judgePiece (s : State) (e : Nat) (k : Block) (m : Cmd) (p : Piece) : Judged × State :=
  if e = 3 then judgeMove s k.core k.ctx none (dwordAt m.ws 2) (wordAt m.ws 4) false
  else if p.st = .ready then
    judgeParts s k.core k.ctx none { size := p.len, rd := true, poison := true, gang := some k.gang } (pieceReads k m p)
  else if m.toGlobal && p.readDone then judgeParts s k.core k.ctx none { size := p.len, wr := true } (pieceWrites m p)
  else (.ok [], s)

/-- Puts a piece back, a new one at the end. -/
def Cmd.putPiece (m : Cmd) (p : Piece) : Cmd :=
  if m.pieces.any (fun q => q.off = p.off) then { m with pieces := modWhere (fun q => q.off = p.off) (fun _ => p) m.pieces }
  else { m with pieces := m.pieces ++ [p], next := p.off + p.len }
def State.putPiece (s : State) (b e : Nat) (p : Piece) : State :=
  s.modChain b e fun c => { c with cmd := c.cmd.map fun m => m.putPiece p }

/-- A piece fails: its requests are forgotten and the chain is in ERROR (R268). -/
def State.failPiece (s : State) (b e : Nat) (p : Piece) (err cause : Nat) : State :=
  ((s.forgetPieces b e fun k => k = p.off).putPiece b e { p with st := .failed, parts := [], data := [] }).chainError b e
    err cause

/-- The reads of a piece go out; an error found fresh kills the gang in the name of TID 0 (R282, R356). -/
def State.readPiece (s : State) (b e : Nat) (k : Block) (p : Piece) (ps : List (Nat × DWord × Nat × Option Trans)) : State :=
  match s.readParts k.ctx ps fun key => .piece b e p.off key with
  | .error (x, s) => s.killData k 0 x
  | .ok none => s
  | .ok (some (parts, s)) => s.putPiece b e { p with st := .flying, parts := parts }

/-- The writes of a piece go out: to global memory, the scratchpad, or a reservation (R267, R288, R289). -/
def State.writePieces (s : State) (b e : Nat) (k : Block) (m : Cmd) (p : Piece) (ps : List (Nat × DWord × Nat × Option Trans)) :
    State :=
  let get (lo hi : Nat) : List Byte := (p.parts.filter fun q => lo ≤ q.key && q.key < hi).flatMap Part.data
  let vals := get 0 65536
  let ended (s : State) (parts : List Part) : State :=
    s.putPiece b e { p with wr := true, parts := parts, rsv := (k.rsvOf (cmdSlot m.ws)).id }
  if m.toGlobal then
    let put (q : Nat × DWord × Nat × Option Trans) (s : State) : Option Part × State := match q.2.2.2 with
      | some t => s.writePiece none k.ctx t q.1
          { kind := .copyWrite, src := s.dev.rank, tag := 0, ldom := (s.ctx k.ctx).ldom, addr := q.2.1
            size := q.2.2.1, data := (vals.drop q.1).take q.2.2.1 } (.piece b e p.off q.1)
      | none => (none, s)
    match goOut put ps s with
    | some (qs, s) => ended s qs
    | none => s
  else if cmdOp m.ws = 1 then
    let a := wordAt m.ws 4 + BitVec.ofNat 32 p.off
    if (scratchFault s k a p.len false).isSome then s.failPiece b e p 4 0
    else ended (s.scratchWrite (s.scratchBlock k a) a vals) []
  else if fillBad k m.ws then s.failPiece b e p 5 0
  else
    let r := k.rsvOf (cmdSlot m.ws)
    let off := (wordAt m.ws 5).toNat + p.off
    let put (s : State) (part off : Nat) (bs : List Byte) : State :=
      s.modBlk b fun k => { k with poolMem := Memory.write k.poolMem (r.partBase part + off) bs }
    if fillSparse k m.ws then
      let md := get 65536 131072
      ended (put (put s 0 off (expand vals md (p.len / 4))) 2 (off / 8) md) []
    else ended (put s (cmdPart m.ws) off vals) []

/-- The next stage of a piece (R267): its reads, its writes, or the request of engine 3 (R266). DESIGN CHOICE: R266 says only
that the outcome of an engine-3 move is in the event record; where the move's own checks fail, or park, the chain does what it
does for a copy's piece: ERROR with ERR 3, or a record of KIND 13 (R268; log entry 72). -/
def State.pieceStep (s : State) (b e off : Nat) : State :=
  match s.pieceOf b e off with
  | none => s
  | some (k, _, m, p) =>
    if p.st ≠ .ready && !p.readDone then s
    else if e = 3 && p.st ≠ .ready then s
    else match judgePiece s e k m p with
      | (.fail c, s) => s.failPiece b e p 3 c
      | (.park _ _ _, s) => s
      | (.ok ps, s) =>
        if e = 3 then match s.sendMove k.ctx (dwordAt m.ws 2) (wordAt m.ws 4) false ps (.piece b e 0 0) with
          | (some q, s) => s.putPiece b e { p with st := .flying, parts := [q] }
          | (none, s) => s
        else if p.st = .ready then s.readPiece b e k p ps
        else s.writePieces b e k m p ps

/-- Bytes of a command below which every piece has counted (R267). -/
def Cmd.prefix_ (m : Cmd) : Nat :=
  (m.pieces.foldl (fun (acc : Nat × Bool) p =>
    if acc.2 && p.off = acc.1 && p.st = .done then (acc.1 + p.len, true) else (acc.1, false)) (0, true)).1

/-- A piece counts (R201, R267, R288). -/
def State.countPiece (s : State) (b e : Nat) (k : Block) (c : Chain) (m : Cmd) (p : Piece) : State :=
  let s := s.putPiece b e { p with st := .done, parts := [], data := [] }
  let s := if cmdBv m.ws then s.modBar b (cmdBar m.ws) fun x => x.deliver p.len else s
  if c.err ≠ 0 then s.chainError b e c.err c.cause
  else
    let s := if cmdOp m.ws = 2 then
        let n := cmdSlot m.ws
        let off := (wordAt m.ws 5).toNat + p.off
        let named := s.slotNamed b n
        -- A reservation made anew in the slot has received nothing of it.
        if (k.rsvOf n).id ≠ p.rsv then s
        else if fillSparse k m.ws then
          s.modRsv b n fun r => ((r.wrote 0 off p.len).wrote 2 (off / 8) (p.len / 8)).filled named
        else s.modRsv b n fun r => (r.wrote (cmdPart m.ws) off p.len).filled named
      else s
    let s := s.modChain b e fun c => match c.cmd with
      | some m => { c with wp := m.base + BitVec.ofNat 32 m.prefix_ }
      | none => c
    let isOver := ((s.blk b).bind fun k => (k.chainOf e).cmd).any fun m => m.prefix_ = cmdLen m.ws
    if isOver then s.completeCmd b e else s

/-- COPY_PIECE_DONE (R267): the piece's bytes are performed, or a part of it has failed. -/
def execCopyPieceDone (b e off : Nat) (s : State) : Host.Outcome State Fault Refusal :=
  match s.pieceOf b e off with
  | none => .next s
  | some (k, c, m, p) =>
    if p.st ≠ .flying then .next s
    else match p.parts.findSome? fun q => q.done.filter (· ≠ 0) with
      | some f => .next (s.failPiece b e p 3 f)
      | none =>
        let all := p.parts.all fun q => q.done = some 0
        if e = 3 then (if all then .next (s.completeCmd b e) else .next s)
        else if p.wr && all then .next (s.countPiece b e k c m p) else .next s

/-- COPY_PIECE_PARK (R268): a piece that meets a resolvable fault parks, with a record of kind 13; in ERROR it is
withdrawn. -/
def execCopyPiecePark (b e off : Nat) (s : State) : Host.Outcome State Fault Refusal :=
  match s.pieceOf b e off with
  | none => .next s
  | some (k, c, m, p) =>
    if p.st ≠ .ready && !(p.readDone && e ≠ 3) then .next s
    else match judgePiece s e k m p with
      | (.park pc g a, s) =>
        if c.err ≠ 0 then .next (s.failPiece b e p c.err c.cause)
        else .next ((s.putPiece b e { p with st := .parked, wr := false, parts := [], data := [], cause := pc, addr := a
                                             gfn := g }).postFault k pc 13 0 m.tid a g)
      | _ => .next s

/-- COPY_PIECE_STALL_TIMEOUT (R267): a piece with a request unanswered for CSTL clocks fails with cause 5. -/
def execCopyPieceStallTimeout (b e off : Nat) (s : State) : Host.Outcome State Fault Refusal :=
  match s.pieceOf b e off with
  | none => .next s
  | some (_, _, _, p) =>
    if e < 2 && p.st = .flying && p.parts.any (fun q => q.done.isNone) then .next (s.failPiece b e p 3 5) else .next s

end Sys2Proof.Machine
end

