-- ==== Sys2Proof/Machine/Page.lean ====
section
/-! DEFINITION. Resumes, and the page instructions (spec/12_page.md R221, R225, R227 to R230). -/

namespace Sys2Proof.Machine

/-! ## Resumes (R158, R225) -/

/-- What a resume or a sweep names (R230): a page, an object, a context, a guest frame of a partition. -/
inductive Target where
  | page (ctx page : Nat)
  | obj (ctx obj : Nat)
  | ctx (ctx : Nat)
  | frame (part gfn : Nat)
  deriving DecidableEq, Repr

/-- Whether something that parked at an address of a context, with an R223 cause and guest frame, is covered. -/
def Target.covers (x : Target) (s : State) (c : Nat) (addr : DWord) (cause gfn : Nat) : Bool :=
  match x with
  | .page d p => c = d && pageNo addr = p
  | .obj d o => c = d && objOf addr = o
  | .ctx d => c = d
  | .frame p g => (s.ctx c).part = p && cause = 2 && gfn = g

/-- Whether a cached translation is swept (R230). -/
def Target.trans (x : Target) (s : State) (t : Trans) : Bool :=
  match x with
  | .page d p => t.ctx = d && t.obj * 2 ^ 24 + t.page = p
  | .obj d o => t.ctx = d && t.obj = o
  | .ctx d => t.ctx = d
  | .frame p g => (s.ctx t.ctx).part = p && t.gfn = some g

/-- Whether an entry of the owner cache is swept. -/
def Target.owner (x : Target) (s : State) (e : OwnEntry) : Bool :=
  match x with
  | .page d p => e.ldom = (s.ctx d).ldom && e.page = p
  | .obj d o => e.ldom = (s.ctx d).ldom && e.page / 2 ^ 24 = o
  | .ctx d => e.ldom = (s.ctx d).ldom
  | .frame _ _ => false

/-- Whether a target lies in a context. -/
def Target.inCtx (x : Target) (s : State) (c : Nat) : Bool :=
  match x with
  | .page d _ | .obj d _ | .ctx d => c = d
  | .frame p _ => (s.ctx c).part = p

/-- A parked operation returns to OUTSTANDING (R158): it is judged afresh. -/
def Op.resumed (o : Op) : Op := { o with st := .outstanding, parts := [], plan := [], retry := true, cause := 0, gfn := 0 }

/-- What a resume does in a block: operations, fetches, slot reads, pieces. A fetch of a STOPPING gang stays stalled, a switch
point past which its threads may not issue (R133, R134): it is retried when the gang is restored. -/
def Block.resume (k : Block) (x : Target) (s : State) : Block :=
  let hit (addr : DWord) (cause gfn : Nat) : Bool := x.covers s k.ctx addr cause gfn
  let op (o : Op) : Op := if o.st = .parked && hit o.paddr o.cause o.gfn then o.resumed else o
  let thread (e : Nat × Thread) : Nat × Thread := (e.1, { e.2 with win := e.2.win.map op })
  let ripple (e : Nat × Ripple) : Nat × Ripple :=
    match e.2.stall, e.2.threads.head?.bind fun t => Tab.find k.thr t with
    | some (c, g), some y => if hit (y.pc &&& ~~~31#64) c g && !s.stopping k then (e.1, { e.2 with stall := none }) else e
    | _, _ => e
  let piece (p : Piece) : Piece :=
    if p.st = .parked && hit p.addr p.cause p.gfn then { p with st := .ready, cause := 0, gfn := 0 } else p
  let chain (e : Nat × Chain) : Nat × Chain :=
    let c : Chain := { e.2 with cmd := e.2.cmd.map fun m => { m with pieces := m.pieces.map piece } }
    match c.park with
    | some (pc, g) => (e.1, if hit (k.slotAddr e.1 c.head.toNat) pc g then { c with park := none } else c)
    | none => (e.1, c)
  { k with thr := k.thr.map thread, rip := k.rip.map ripple, chain := k.chain.map chain }

/-- Whether a waiting fault record is of something covered. -/
def Target.record (x : Target) (s : State) (ws : List Word) : Bool :=
  let c := bits (wordAt ws 0) 31 24
  1 ≤ c && c ≤ 4 && x.covers s (bits (wordAt ws 1) 31 16) (dwordAt ws 4) c (wordAt ws 6).toNat

/-- RESUME (R225): everything parked on the target is retried, and records not yet written are withdrawn. -/
def State.resume (s : State) (x : Target) : State :=
  { s with blocks := s.blocks.map fun (e : Nat × Block) => (e.1, e.2.resume x s)
           ctxs := s.ctxs.map fun (e : Nat × Ctx) => (e.1, { e.2 with fwait := e.2.fwait.filter fun ws => !x.record s ws }) }

/-! ## PGHEAT (R221, R227, R228) -/

/-- The heat word (R221). -/
def Heat.word (h : Heat) : Word :=
  BitVec.ofNat 32 (h.heat * 2 ^ 20 + h.top * 2 ^ 14 + h.topc * 4 + 2 + h.pend.toNat)

/-- The translation that PGQ and PGHEAT form: RES, or the attributes (R229). -/
def effective (s : State) (cn : Nat) (addr : DWord) : Except Nat Att :=
  let c := s.ctx cn
  if c.hv && objOf addr = 0xFFFFFF then
    if offOf addr ≥ 25165824 then .error 2 else .ok (bitmapTrans cn 0).att
  else match walkTables s c addr 1 with
    | .error (.fail 4) => .error 1
    | .error (.fail 2) => .error 2
    | .error (.fail _) => .error 5
    | .error (.park 2 _) => .error 4
    | .error _ => .error 3
    | .ok (oe, pe, _) =>
      let own := attOf (wordAt pe 0)
      let a := if (wordAt pe 0).getLsbD 8 then attDef own (wordAt oe 3) else own
      if peBad pe a c.gst then .error 5
      else if !(wordAt pe 0).getLsbD 31 then .error 3
      else if c.gst && a.loc ≠ 1 then
        match stage2 s c (peFrame pe / 65536) a.loc with
        | .error (.park _ _) => .error 4
        | .error _ => .error 5
        | .ok (_, r, w, x) => .ok { a with rd := a.rd && r, wr := a.wr && w, ex := a.ex && x, s2 := true }
      else .ok a

/-- The heat word of the page of an address (R228). -/
def heatOf (s : State) (cn : Nat) (addr : DWord) : Word :=
  match effective s cn addr with
  | .error _ => 0
  | .ok a =>
    if a.loc = 1 then 0
    else match s.dev.heat.find? fun h => h.ctx = cn && h.page = pageNo addr with
      | some h => h.word
      | none => 0

/-- `.clr` of a page's entry: PEND goes only if no move is under way (R228). -/
def State.heatClear (s : State) (cn : Nat) (addr : DWord) : State :=
  let p := pageNo addr
  if heatOf s cn addr = 0 then s
  else
    let moving := (s.moveOf cn p).isSome
    let clear (h : Heat) : Heat := { page := p, ctx := cn, pend := h.pend && moving }
    s.modDev fun d => { d with heat := modWhere (fun h => h.ctx = cn && h.page = p) clear d.heat }

/-- The shape of the result of a page instruction. -/
def pageShape (i : Instr) (f : Std) (q : Iss) : Shape :=
  resultShape q.k i f (ruleOf i) fun sel => q.k.src32 0 { pc := 0 } f.lit sel

/-- PGHEAT (R228). -/
def execPgheat (f : Std) (s : State) : Host.Outcome State Fault Refusal :=
  issue (.pgheat f) always (fun q s =>
    let shape := pageShape (.pgheat f) f q
    let good := if shape.isG && q.k.narrow f.d 1 then [] else q.good (latchTraps q (clearLong q s))
    let s' := computeRun f.d 1 (fun _ => shape) (fun q _ t => .word (heatOf s q.k.ctx (q.addr f t))) q s
    if f.func.getLsbD 0 then good.foldl (fun s t => s.heatClear q.k.ctx (q.addr f t)) s' else s') s

/-! ## PGQ (R229) -/

/-- The result of PGQ. -/
def pgqWord (s : State) (cn : Nat) (addr : DWord) : Word :=
  match effective s cn addr with
  | .error n => BitVec.ofNat 32 n
  | .ok a =>
    let a := if a.loc = 1 then { a with peer := ownerOf s (s.ctx cn).ldom a.peer (pageNo addr) } else a
    attWord a ||| BitVec.ofNat 32 (a.s2.toNat * 256)

/-- PGQ (R229). -/
def execPgq (f : Std) (s : State) : Host.Outcome State Fault Refusal :=
  issue (.pgq f) always (fun q s =>
    computeRun f.d 1 (pageShape (.pgq f) f) (fun q _ t => .word (pgqWord s q.k.ctx (q.addr f t))) q s) s

/-! ## PGINV (R230) -/

/-- What a thread's PGINV names. -/
def Iss.invTarget (q : Iss) (f : Std) (t : Nat) (s : State) : Target :=
  let c := q.k.ctx
  match f.func.toNat % 4 with
  | 0 => .page c (pageNo (q.addr f t))
  | 1 => .obj c (objOf (q.addr f t))
  | 2 => .ctx c
  | _ => .frame (s.ctx c).part (pageNo (q.addr f t))

/-- Whether a request under way was translated by what a target names. -/
def Target.flying (x : Target) (s : State) (p : Pend) : Bool :=
  match (p.who.block.bind s.blk).map Block.ctx with
  | none => false
  | some c => match x with
    | .frame n _ => p.port.isSome && (s.ctx c).part = n
    | x => x.covers s c p.req.addr 0 0

/-- PGINV waits for the threads' earlier accesses, and until every access that has begun with a translation that it sweeps
has been performed, parked or failed (R230). -/
def invReady (f : Std) (q : Iss) (s : State) : Bool :=
  q.on.all (fun t => (q.thr t).settled && !s.pathBusy q.k.core q.b t)
  && q.on.all fun t =>
    let x := q.invTarget f t s
    (s.dev.reqs.all fun e => !x.flying s e.2)
    && !s.blocks.any fun k => k.2.thr.any fun y => y.2.win.any fun o => o.holds (x.trans s)

/-- PGINV (R230): the sweep of each target, then the resume. -/
def execPginv (f : Std) (s : State) : Host.Outcome State Fault Refusal :=
  issue (.pginv f) (invReady f) (fun q s =>
    let s := clearLong q s
    let traps := latchTraps q s
    let xs := ((q.good traps).map fun t => q.invTarget f t s).eraseDups
    let s := xs.foldl (fun s x => s.sweep (x.trans s) (x.inCtx s) (x.owner s)) s
    let s := if f.func.getLsbD 2 then xs.foldl State.resume s else s
    finish q traps s) s

end Sys2Proof.Machine
end

