-- ==== Sys2Proof/Machine/TileMath.lean ====
section
/-! DEFINITION. The arithmetic of a matrix step (spec/19_tile.md R285, R295 to R297). A NaN here is `nan true` where it is
produced from operands without one. -/

namespace Sys2Proof.Machine

/-- The element formats of a reservation (R284). -/
def tileFmt : Nat → Fmt
  | 0 => .e4m3 | 1 => .e5m2 | 2 => .e2m1 | 3 => .bf16 | _ => .fp16

/-- An operand's value: a NaN in it is no produced one. -/
def operandValue (F : Fmt) (x : Nat) : FV :=
  match F.value x with
  | .nan _ => .nan false
  | v => v

/-- A NaN from two values: produced only where neither is a NaN that an operand held. -/
def joinNan (a b : FV) : FV := if a = .nan false || b = .nan false then .nan false else .nan true

/-- Exact product (R296). -/
def mulX (a b : FV) : FV :=
  if a.isNan || b.isNan then joinNan a b
  else if (a.isInf && b.isZero) || (a.isZero && b.isInf) then .nan true
  else if a.isInf || b.isInf then .inf (a.sign != b.sign)
  else
    let x := a.exact.mul b.exact
    .fin x.s x.k x.e

/-- Exact sum; a zero is +0 (R296). -/
def addX (a b : FV) : FV :=
  if a.isNan || b.isNan then joinNan a b
  else match a, b with
    | .inf s, .inf t => if s = t then .inf s else .nan true
    | .inf s, _ => .inf s
    | _, .inf t => .inf t
    | a, b =>
      if b.isZero then (if a.isZero then .fin false 0 0 else a)
      else let x := a.exact.add b.exact; .fin x.s x.k x.e

/-- The exact sum of products. -/
def dotX : List FV → List FV → FV
  | a :: as, b :: bs => addX (dotX as bs) (mulX a b)
  | _, _ => .fin false 0 0

/-- RNE32 of an exact value; an exact zero is +0 (R296). -/
def rnd32 (x : FV) : Nat × FFlags :=
  match x with
  | .nan fresh => (0x7FC00000, flagIf fresh flNV)
  | .inf s => (Fmt.fp32.signed s Fmt.fp32.infPat, 0)
  | .fin s k e => roundOrZero .fp32 .rne false false { s := s, k := k, e := e }

/-- C + RNE32(P) (R295). -/
def accumulate (c : Nat × FFlags) (p : FV) : Nat × FFlags :=
  let r := rnd32 p
  let s := fSum .fp32 .rne (operandValue .fp32 c.1) (operandValue .fp32 r.1)
  (s.1, c.2 ||| r.2 ||| s.2)

/-- RNE32(C + S) in one rounding, for BF16 and FP16 (R295). -/
def accumulateOnce (c : Nat × FFlags) (s : FV) : Nat × FFlags :=
  let r := rnd32 (addX (operandValue .fp32 c.1) s)
  (r.1, c.2 ||| r.2)

/-- The scales of a row or a column. -/
inductive Scale where
  /-- One FP32 scale, or 1. -/
  | one (x : FV)
  /-- One E8M0 scale per 32 elements. -/
  | four (xs : List FV)
  deriving DecidableEq, Repr

def Scale.at (s : Scale) (q : Nat) : FV :=
  match s with
  | .one x => x
  | .four xs => xs.getD q (.fin false 1 0)

/-- Elements `n q` to `n q + n − 1`. -/
def slice (n q : Nat) (xs : List FV) : List FV := (xs.drop (n * q)).take n

/-- One element of a step (R295): `half` for BF16 and FP16, `bl` the BL bit. -/
def stepElem (half : Bool) (bl : Nat) (a b : List FV) (sa sb : Scale) (c : Nat) : Nat × FFlags :=
  if half then (List.range 8).foldl (fun r g => accumulateOnce r (dotX (slice 16 g a) (slice 16 g b))) (c, 0)
  else if bl = 1 then accumulate (c, 0) (mulX (mulX (dotX a b) (sa.at 0)) (sb.at 0))
  else (List.range 4).foldl (fun r q =>
    accumulate r (mulX (mulX (dotX (slice 32 q a) (slice 32 q b)) (sa.at q)) (sb.at q))) (c, 0)

/-! ## Elements and scales from bytes (R285, R286) -/

/-- Elements from bytes, in storage order. -/
def elemsFrom (F : Fmt) (bs : List Byte) : List FV :=
  match F.width with
  | 4 => bs.flatMap fun (x : Byte) => [operandValue F (x.toNat % 16), operandValue F (x.toNat / 16)]
  | 8 => bs.map fun (x : Byte) => operandValue F x.toNat
  | _ => (List.range (bs.length / 2)).map fun i =>
      operandValue F ((bs.getD (2 * i) 0).toNat + 256 * (bs.getD (2 * i + 1) 0).toNat)

/-- The rows of 128 elements of a tile. -/
def tileRows (xs : List FV) : List (List FV) := (List.range 128).map fun i => (xs.drop (128 * i)).take 128

/-- Columns from rows. -/
def transpose : Nat → List (List FV) → List (List FV)
  | 0, _ => []
  | n + 1, rows => rows.map (fun r => r.headD (.fin false 0 0)) :: transpose n (rows.map fun r => r.drop 1)

/-- The elements that sparse metadata names, the others +0 (R297). -/
def maskSparse (md : List Byte) (xs : List FV) : List FV :=
  (xs.zipIdx.map fun (e : FV × Nat) =>
    let n := (md.getD (e.2 / 8) 0).toNat / (if e.2 / 4 % 2 = 0 then 1 else 16) % 16
    let i := e.2 % 4
    if i = n % 4 || i = n / 4 then e.1 else .fin false 0 0)

/-- The scales of 128 rows or columns: SL and the scale bytes of a tile. -/
def scalesFrom (sl : Nat) (bs : List Byte) : List Scale :=
  let w (i : Nat) : Nat := (bs.getD i 0).toNat
  let f32 (i : Nat) : FV := operandValue .fp32 (w i + 256 * w (i + 1) + 65536 * w (i + 2) + 16777216 * w (i + 3))
  match sl with
  | 0 => List.replicate 128 (.one (.fin false 1 0))
  | 1 => (List.range 128).map fun i => .one (f32 (4 * i))
  | 2 => List.replicate 128 (.one (f32 0))
  | _ => (List.range 128).map fun i => .four ((List.range 4).map fun q => e8m0Value (w (4 * i + q)))

end Sys2Proof.Machine
end

