-- ==== Sys2Proof/Machine/Tile.lean ====
section
/-! DEFINITION. Reservations, accumulator banks, matrix loops and drains (spec/19_tile.md R287, R290 to R310). -/

namespace Sys2Proof.Machine

/-! ## The actor (R290) and tile faults (R294) -/

def tileTrap (q : Iss) (t detail : Nat) (code : Word) : Nat × Fate := (t, .trap trapTile detail code q.pc)

/-- An actor instruction: `code` the slot or bank that a thread's fault with a detail concerns, `fault` the detail that
the actor meets, `act` the effect. -/
def actorRun (code : Iss → Nat → Nat → Word) (fault : Iss → Nat → State → Option Nat) (act : Iss → Nat → State → State) (q : Iss)
    (s : State) : State :=
  let s := clearLong q s
  let lost := latchTraps q s
  let good := q.good lost
  if q.on.length > 1 then finish q (lost ++ good.map fun t => tileTrap q t 1 (code q t 1)) s
  else match good with
    | [] => finish q lost s
    | t :: _ => match fault q t s with
      | some d => finish q [tileTrap q t d (code q t d)] s
      | none => finish q [] (act q t s)

/-! ## PRSV and PREL (R287, R294, R302) -/

/-- The (BL, SL) pairs that a format allows for A and for B (R286). -/
def pairA (fmt bl sl : Nat) : Bool :=
  match fmt with
  | 0 | 1 => (bl = 1 && sl ≤ 1) || (bl = 0 && sl = 3)
  | 2 => bl = 0 && sl = 3
  | _ => bl = 1 && sl = 0
def pairB (fmt bl sl : Nat) : Bool :=
  match fmt with
  | 0 | 1 => (bl = 1 && (sl = 0 || sl = 2)) || (bl = 0 && sl = 3)
  | 2 => bl = 0 && sl = 3
  | _ => bl = 1 && sl = 0

/-- The parts of a record that it uses: base and length. -/
def Rsv.extents (r : Rsv) : List (Nat × Nat) :=
  [(r.partBase 0, r.partLen 0)] ++ (if r.sl = 0 then [] else [(r.partBase 1, r.partLen 1)])
  ++ (if r.sp then [(r.partBase 2, r.partLen 2)] else [])

def clash (x y : Nat × Nat) : Bool := x.1 < y.1 + y.2 && y.1 < x.1 + x.2

/-- Overlap within one list. -/
def anyClash : List (Nat × Nat) → Bool
  | [] => false
  | x :: xs => xs.any (clash x) || anyClash xs

/-- A record that R294 calls malformed. -/
def recordBad (s : State) (b : Nat) (k : Block) (r : Rsv) : Bool :=
  let w0 := wordAt r.ws 0
  r.fmt > 4 || !(pairA r.fmt r.bl r.sl || pairB r.fmt r.bl r.sl) || (r.sp && r.fmt > 1) || bits w0 22 13 ≠ 0
  || r.units = 0 || r.units > 4096 || r.units * 128 % r.tileBytes ≠ 0
  || r.partBase 0 % 128 ≠ 0 || r.partBase 1 % 16 ≠ 0 || r.partBase 2 % 16 ≠ 0
  || (r.sl = 0 && r.partBase 1 ≠ 0) || (!r.sp && r.partBase 2 ≠ 0)
  || (if r.scratch then r.extents.any fun x => (scratchFault s k (BitVec.ofNat 32 x.1) x.2 false).isSome
      else r.extents.any (fun x => x.1 + x.2 > k.pool)
        || anyClash (r.extents ++ ((List.range 8).filter fun n => (k.rsvOf n).st ≠ .free && !(k.rsvOf n).scratch).flatMap
            fun n => (((s.blk b).getD k).rsvOf n).extents))

/-- The slot operand. -/
def Iss.slotNo (q : Iss) (f : Std) (t : Nat) : Word := q.k.src32 t (q.thr t) f.lit f.a

/-- The record that PRSV captures. -/
def Iss.record (q : Iss) (f : Std) (t : Nat) : Rsv :=
  { ws := (List.range 4).map fun i => q.k.regWord t (q.thr t) f.b i }

/-- PRSV (R302). -/
def execPrsv (f : Std) (s : State) : Host.Outcome State Fault Refusal :=
  issue (.prsv f) always (actorRun (fun q t _ => q.slotNo f t)
    (fun q t s =>
      let n := (q.slotNo f t).toNat
      if n > 7 || (q.k.rsvOf n).st ≠ .free then some 2
      else if recordBad s q.b q.k (q.record f t) then some 3 else none)
    (fun q t s => (s.modBlk q.b fun k => { k with prsvs := q.k.prsvs + 1 }).modRsv q.b (q.slotNo f t).toNat fun _ =>
      let r := q.record f t
      { r with st := if r.scratch then .ready else .reserved, id := q.k.prsvs + 1 })) s

/-- A RELEASED slot that no loop names is FREE; one IN USE that none names is READY (R287). -/
def State.slotCheck (s : State) (b n : Nat) : State :=
  if s.slotNamed b n then s
  else s.modRsv b n fun r => match r.st with
    | .released => {}
    | .inUse => { r with st := .ready }
    | _ => r

/-- Whether a slot can be named (R294, detail 2). -/
def slotGone (k : Block) (n : Nat) : Bool := n > 7 || (k.rsvOf n).st = .free || (k.rsvOf n).st = .released

/-- PREL (R302). -/
def execPrel (f : Std) (s : State) : Host.Outcome State Fault Refusal :=
  issue (.prel f) always (actorRun (fun q t _ => q.slotNo f t)
    (fun q t _ => if slotGone q.k (q.slotNo f t).toNat then some 2 else none)
    (fun q t s =>
      let n := (q.slotNo f t).toNat
      (s.modRsv q.b n fun r => { r with st := .released }).slotCheck q.b n)) s

/-! ## Banks (R291) -/

/-- Loops of a block on a bank, queued or running. -/
def State.bankLoops (s : State) (k : Block) (b n : Nat) : List Loop :=
  (s.core k.core).loops.filter fun l => l.blk = b && l.f.bank.toNat = n

/-- A bank that another block holds. -/
def State.bankTaken (s : State) (k : Block) (b n : Nat) : Bool :=
  ((s.core k.core).bankOf n).owner.any fun o => o ≠ b

/-- A FREE bank is claimed: every element +0, flags 0. -/
def State.claim (s : State) (k : Block) (b n : Nat) : State :=
  if ((s.core k.core).bankOf n).owner = some b then s else s.modBank k.core n fun _ => { owner := some b }

def bankCode (n : Nat) : Word := BitVec.ofNat 32 n

/-- Whether a block's instruction with guard-true threads `on` waits for its bank (R291, R293, R304, R307): another block
holds it, or loops of its own block keep it BUSY. -/
def State.bankWaits (s : State) (k : Block) (b : Nat) (on : List Nat) (i : Instr) : Bool :=
  let one := on.length = 1
  let busy (n : Nat) : Bool := !(s.bankLoops k b n).isEmpty
  match i with
  | .mxzero f =>
    let n := f.func.toNat % 2
    let gone := f.func.getLsbD 1 && ((s.core k.core).bankOf n).owner ≠ some b
    one && !gone && (s.bankTaken k b n || busy n)
  | .mxdrain f => one && (s.bankTaken k b (f.func.toNat % 2) || busy (f.func.toNat % 2))
  | .mxread f => busy (f.func.toNat % 2)
  | .mxloop f => one && s.bankTaken k b f.bank.toNat
  | _ => false

/-- The same, for the instruction that issues. -/
def bankReady (q : Iss) (s : State) : Bool := !s.bankWaits q.k q.b q.on q.i

/-- MXZERO (R305). -/
def execMxzero (f : Std) (s : State) : Host.Outcome State Fault Refusal :=
  let n := f.func.toNat % 2
  let rel := f.func.getLsbD 1
  let held (q : Iss) (s : State) : Bool := ((s.core q.k.core).bankOf n).owner = some q.b
  issue (.mxzero f) bankReady
    (actorRun (fun _ _ _ => bankCode n) (fun _ _ _ => none) (fun q _ s =>
      if rel then (if held q s then s.modBank q.k.core n fun _ => {} else s)
      else s.modBank q.k.core n fun _ => { owner := some q.b })) s

/-! ## MXLOOP (R293, R294, R297 to R299) -/


end Sys2Proof.Machine

namespace Sys2Proof

def mxSteps (f : MxLoopForm) : Nat := f.km1.toNat + 1
def mxGroups (f : MxLoopForm) : Nat := f.ngm1.toNat + 1

end Sys2Proof

namespace Sys2Proof.Machine

/-- Row counts of the groups (R298). -/
def rowCounts (f : MxLoopForm) (pg : List Word) : List Nat :=
  ((wordBytes (pg.take 4)).map BitVec.toNat).take (mxGroups f)

/-- BGI (R298). -/
def groupStep (pg : List Word) : Int := (wordAt pg 5).toInt

/-- The tiles that step `s` names: A's, and the B tiles of the nonempty groups with their rows: first row and count. -/
def tileA (f : MxLoopForm) (s : Nat) : Int := f.a0.toNat + s * f.ai.toInt
def tilesB (f : MxLoopForm) (pg : List Word) (s : Nat) : List (Int × Nat × Nat) :=
  let b : Int := f.b0.toNat + s * f.bi.toInt
  if !f.gr then [(b, 0, 128)]
  else
    let rs := rowCounts f pg
    ((List.range rs.length).filter fun g => rs.getD g 0 ≠ 0).map fun (g : Nat) =>
      (b + (g : Int) * groupStep pg, (rs.take g).sum, rs.getD g 0)

def inTiles (r : Rsv) (n : Int) : Bool := 0 ≤ n && n < r.tiles

/-- The tiles of A that the first and the last step read lie in their slot. -/
def aInTiles (f : MxLoopForm) (k : Block) : Bool :=
  f.ab || [0, mxSteps f - 1].all fun i => inTiles (k.rsvOf f.ra.toNat) (tileA f i)

/-- The slot or bank that an MXLOOP's fault with a detail concerns (R294): of two slots, A's where it breaks the rule. -/
def loopCode (f : MxLoopForm) (k : Block) (d : Nat) : Word :=
  let slot (n : BitVec 3) : Word := n.setWidth 32
  match d with
  | 2 => slot (if !f.ab && slotGone k f.ra.toNat then f.ra else f.rb)
  | 4 => slot (if f.ab then f.rb else f.ra)
  | 5 => slot (if aInTiles f k then f.rb else f.ra)
  | _ => bankCode f.bank.toNat

/-- The detail with which an MXLOOP faults, the lowest (R294). -/
def loopFault (f : MxLoopForm) (k : Block) (b : Nat) (pg : List Word) (s : State) : Option Nat :=
  let ra := k.rsvOf f.ra.toNat
  let rb := k.rsvOf f.rb.toNat
  let n := mxSteps f
  let same := (ra.fmt ≤ 1 && rb.fmt ≤ 1) || (ra.fmt = 2 && rb.fmt = 2) || (ra.fmt = rb.fmt)
  let other := (s.core k.core).bankOf (1 - f.bank.toNat)
  if (!f.ab && slotGone k f.ra.toNat) || slotGone k f.rb.toNat then some 2
  else if !pairB rb.fmt rb.bl rb.sl
      || (!f.ab && (!same || !pairA ra.fmt ra.bl ra.sl || ra.bl ≠ rb.bl))
      || (f.spb && (!rb.sp || !f.tb || rb.fmt > 1)) || (f.ab && (n ≠ 1 || other.owner ≠ some b)) || (f.dr && f.gr) then some 4
  else if !aInTiles f k || [0, n - 1].any fun i =>
      (tilesB f pg i).any fun (x : Int × Nat × Nat) => !inTiles rb x.1 then some 5
  else if f.gr && (rowCounts f pg).sum > 128 then some 6
  else if f.dr && (scratchFault s k (wordAt pg 4) 1536 false).isSome then some 7
  else none

/-- The parameter group, as the actor's registers have it. -/
def Iss.params (q : Iss) (f : MxLoopForm) (t : Nat) : List Word :=
  if f.dr || f.gr then (List.range 6).map fun i => q.k.regWord t (q.thr t) f.p i else []

/-- MXLOOP (R293): the bank is claimed, the loop queued, and the slots that it names are IN USE. -/
def execMxloop (f : MxLoopForm) (s : State) : Host.Outcome State Fault Refusal :=
  let n := f.bank.toNat
  issue (.mxloop f) (fun q s => bankReady q s && (q.on.length ≠ 1 || (s.core q.k.core).loops.length < 4))
    (actorRun (fun q _ d => loopCode f q.k d) (fun q t s => loopFault f q.k q.b (q.params f t) s) (fun q t s =>
      let s := s.claim q.k q.b n
      let l : Loop := { blk := q.b, f := f, pg := q.params f t, id := (q.blkNow s).loops }
      let s := (s.modBlk q.b fun k => { k with loops := k.loops + 1 }).modCore q.k.core fun c =>
        { c with loops := c.loops ++ [l] }
      let use (r : Rsv) : Rsv := if r.st = .ready then { r with st := .inUse } else r
      let s := s.modRsv q.b f.rb.toNat use
      let s := if f.ab then s else s.modRsv q.b f.ra.toNat use
      if f.dr then s.modThr q.b t fun x => x.escape 6 q.off else s)) s

/-! ## Steps (R292, R295) -/

/-- Whether the fill pointers of a LOC 0 reservation cover a tile (R292). -/
def Rsv.covers (r : Rsv) (n : Nat) : Bool :=
  r.scratch || (r.fp ≥ (n + 1) * r.tileBytes && r.sfp ≥ (n + 1) * r.scaleBytes && (!r.sp || r.mfp ≥ (n + 1) * 2048))

/-- Whether the next step of a loop can run: the tiles that it reads are there (a step of groups that are all empty reads
none, R298), and, with AB, no loop queued before it is on the other bank. -/
def canStep (k : Block) (before : List Loop) (l : Loop) : Bool :=
  (l.f.ab || tilesB l.f l.pg l.steps = [] || (k.rsvOf l.f.ra.toNat).covers (tileA l.f l.steps).toNat)
  && (tilesB l.f l.pg l.steps).all (fun (x : Int × Nat × Nat) => (k.rsvOf l.f.rb.toNat).covers x.1.toNat)
  && (!l.f.ab || !before.any fun y => y.f.bank ≠ l.f.bank)

/-- The loop that the sequencer steps next (R292): the oldest, or, where that waits for fill pointers, the oldest able one
on the other bank. Loops of a STOPPING gang do not run (R309). -/
def nextLoop (s : State) (ls : List Loop) : Option Loop :=
  let live := ls.filter fun l => (s.blk l.blk).any fun k => !s.stopping k
  let able (l : Loop) : Bool := (s.blk l.blk).any fun k => canStep k (ls.takeWhile (· ≠ l)) l
  match live with
  | [] => none
  | h :: _ => if able h then some h
    else ((live.filter fun l => l.f.bank ≠ h.f.bank).head?).filter able

/-- MATRIX_STEP_START (R292). -/
def execMatrixStepStart (core : Nat) (s : State) : Host.Outcome State Fault Refusal :=
  let ls := (s.core core).loops
  if ls.any fun l => l.running then .next s
  else match nextLoop s ls with
    | none => .next s
    | some l => .next (s.modCore core fun c =>
        { c with loops := c.loops.map fun x => if x = l then { x with running := true } else x })

/-- Bytes of a part of a tile (R285, R300). -/
def tileBytesOf (s : State) (k : Block) (r : Rsv) (part off n : Nat) : List Byte :=
  let a := r.partBase part + off
  if r.scratch then
    let w : Word := BitVec.ofNat 32 a
    s.scratchRead (s.scratchBlock k w) w n
  else Memory.read k.poolMem a n

/-- The rows of a step that its groups cover (R298). -/
def inRows (ts : List (Int × Nat × Nat)) (i : Nat) : Bool := ts.any fun x => x.2.1 ≤ i && i < x.2.1 + x.2.2

/-- The other bank as the A operand of a step with AB: the rows that it reads in B's format, and the flags OF and NX of their
conversions (R296, R297, R298). -/
def bankRows (F : Fmt) (els : Tab Word) (rows : Nat → Bool) : List (List FV) × FFlags :=
  let xs := (List.range 16384).map fun i =>
    if rows (i / 128) then convertF F .rne true (Fmt.fp32.value (Tab.get 0 els i).toNat) else (0, 0)
  (tileRows (xs.map fun x => operandValue F x.1), xs.foldl (fun fl x => fl ||| x.2) 0 &&& (flOF ||| flNX))

/-- The A operand of a step: rows and their scales, and what its conversion raises (R286, R297). -/
def loadA (s : State) (k : Block) (l : Loop) : (List (List FV) × List Scale) × FFlags :=
  if l.f.ab then
    let r := bankRows (tileFmt (k.rsvOf l.f.rb.toNat).fmt) ((s.core k.core).bankOf (1 - l.f.bank.toNat)).els
      (inRows (tilesB l.f l.pg l.steps))
    ((r.1, List.replicate 128 (.one (.fin false 1 0))), r.2)
  else
    let r := k.rsvOf l.f.ra.toNat
    let n := (tileA l.f l.steps).toNat
    ((tileRows (elemsFrom (tileFmt r.fmt) (tileBytesOf s k r 0 (n * r.tileBytes) r.tileBytes)),
      scalesFrom r.sl (tileBytesOf s k r 1 (n * r.scaleBytes) r.scaleBytes)), 0)

/-- The B operand of a step: columns and their scales. -/
def loadB (s : State) (k : Block) (l : Loop) (n : Nat) : List (List FV) × List Scale :=
  let r := k.rsvOf l.f.rb.toNat
  let xs := elemsFrom (tileFmt r.fmt) (tileBytesOf s k r 0 (n * r.tileBytes) r.tileBytes)
  let xs := if l.f.spb then maskSparse (tileBytesOf s k r 2 (n * 2048) 2048) xs else xs
  let rows := tileRows xs
  (if l.f.tb then rows else transpose 128 rows, scalesFrom r.sl (tileBytesOf s k r 1 (n * r.scaleBytes) r.scaleBytes))

/-- A bank's flags from those of operations: NV, OF, NX in bits 2 to 0 (R291, R296). -/
def bankFlags (f : FFlags) : BitVec 3 :=
  BitVec.ofNat 3 ((f.getLsbD 4).toNat * 4 + (f.getLsbD 2).toNat * 2 + (f.getLsbD 0).toNat)

/-- The rows of a bank that a step writes. -/
def stepRows (half : Bool) (bl : Nat) (a : List (List FV) × List Scale) (b : List (List FV) × List Scale) (lo n : Nat)
    (bank : Bank) : Bank :=
  (List.range n).foldl (fun bank d =>
    let i := lo + d
    let row := a.1.getD i []
    let sa := a.2.getD i (.one (.fin false 1 0))
    ((b.1.zip b.2).zipIdx).foldl (fun (bank : Bank) (c : (List FV × Scale) × Nat) =>
      let key := 128 * i + c.2
      let r := stepElem half bl row c.1.1 sa c.1.2 (Tab.get 0 bank.els key).toNat
      { bank with els := Tab.set 0 bank.els key (BitVec.ofNat 32 r.1), fl := bank.fl ||| bankFlags r.2 }) bank) bank

/-- One step of a loop on its bank (R295, R297, R298). -/
def runStep (s : State) (k : Block) (l : Loop) (bank : Bank) : Bank :=
  let rb := k.rsvOf l.f.rb.toNat
  let ts := tilesB l.f l.pg l.steps
  let a := loadA s k l
  let cleared (e : Nat × Word) : Bool := inRows ts (e.1 / 128)
  let bank := if l.f.zc && l.steps = 0 then { bank with els := bank.els.filter fun e => !cleared e } else bank
  let bank : Bank := { bank with fl := bank.fl ||| bankFlags a.2 }
  ts.foldl (fun bank (x : Int × Nat × Nat) =>
    stepRows (rb.fmt ≥ 3) rb.bl a.1 (loadB s k l x.1.toNat) x.2.1 x.2.2 bank) bank

/-- The epilogue draw of one row (R299). -/
def rowDraw (pg : List Word) (els : Tab Word) (i : Nat) : Triple × FFlags :=
  let kk := wordAt pg 0
  let leaves := (List.range 128).map fun j =>
    leafOf false kk (wordAt pg 3 + BitVec.ofNat 32 j) (Tab.get 0 els (128 * i + j))
  ctree false kk (wordAt pg 1) (wordAt pg 2) (fun p => wordAt pg 3 + BitVec.ofNat 32 p) 8 0 leaves

/-- The draws of a loop's end: triples to scratchpad, NV and OF to the bank. -/
def State.epilogue (s : State) (k : Block) (l : Loop) : State :=
  let n := l.f.bank.toNat
  (List.range 128).foldl (fun s i =>
    let r := rowDraw l.pg ((s.core k.core).bankOf n).els i
    let a := wordAt l.pg 4 + BitVec.ofNat 32 (12 * i)
    (s.scratchWrite (s.scratchBlock k a) a (wordBytes r.1.words)).modBank k.core n fun x =>
      { x with fl := x.fl ||| bankFlags (r.2 &&& (flNV ||| flOF)) }) s

/-- MATRIX_STEP_END (R295): the step that runs ends; after its last the loop completes. -/
def execMatrixStepEnd (core : Nat) (s : State) : Host.Outcome State Fault Refusal :=
  match (s.core core).loops.find? fun l => l.running with
  | none => .next s
  | some l => match s.blk l.blk with
    | none => .next s
    | some k =>
      let s := s.modBank core l.f.bank.toNat fun x => runStep s k l x
      if l.steps + 1 < mxSteps l.f then .next (s.modCore core fun c =>
        { c with loops := c.loops.map fun x => if x = l then { x with running := false, steps := l.steps + 1 } else x })
      else
        let s := if l.f.dr then s.epilogue k l else s
        let s := s.modCore core fun c => { c with loops := c.loops.erase l }
        let s := s.slotCheck l.blk l.f.rb.toNat
        .next (if l.f.ab then s else s.slotCheck l.blk l.f.ra.toNat)

/-! ## MXWAIT, MXREAD, MXSTAT -/

/-- Whether every loop of the block with a number below `tok` is complete on the banks of an MXWAIT (R303). -/
def loopsOver (s : State) (b : Nat) (f : Std) (tok : Word) : Bool :=
  (s.blk b).all fun k => !(s.core k.core).loops.any fun l =>
    l.blk = b && (f.func = 2 || l.f.bank.toNat = f.func.toNat) && !seqGe l.id tok

/-- MXWAIT (R303). -/
def execMxwait (f : Std) (s : State) : Host.Outcome State Fault Refusal :=
  issue (.mxwait f) always (waitRun (fun q _ => q.k.loops) (fun q _ s => loopsOver s q.b f q.k.loops)
    fun q s => s.acquire q.k.core q.k.ctx 0) s

def isMxwait (i : Instr) : Bool :=
  match i with
  | .mxwait _ => true
  | _ => false

/-- MXWAIT_END (R303). -/
def execMxwaitEnd (b r : Nat) (s : State) : Host.Outcome State Fault Refusal :=
  .next (endWait isMxwait (fun _ i _ x s => match i with
    | .mxwait f => loopsOver s b f x.wtok
    | _ => false) (fun k _ _ s => s.acquire k.core k.ctx 0) b r s)

/-- MXREAD (R304): long-latency. -/
def execMxread (f : Std) (s : State) : Host.Outcome State Fault Refusal :=
  let n := f.func.toNat % 2
  let row (q : Iss) (t : Nat) : Nat := (q.k.src32 t (q.thr t) f.lit f.a).toNat
  let col (q : Iss) (t : Nat) : Nat := (q.k.src32 t (q.thr t) f.lit f.b).toNat
  issue (.mxread f) bankReady (fun q s =>
    let bank := (s.core q.k.core).bankOf n
    let bad (t : Nat) : Bool := row q t > 127 || col q t > 127 || bank.owner ≠ some q.b
    let good := (q.good (latchTraps q (clearLong q s))).filter fun t => !bad t
    let s := computeFaults (fun q good => (good.filter bad).map fun t => tileTrap q t 7 (bankCode n)) f.d 1 (fun _ => .g)
      (fun q _ t => .word (Tab.get 0 bank.els (128 * row q t + col q t))) q s
    if q.k.narrow f.d 1 then s
    else s.modThrs q.b good fun _ x => x.setLong true (runRegs f.d 1)) s

/-- The status word of a bank (R306). -/
def bankWord (s : State) (k : Block) (b n : Nat) : Word :=
  let x := (s.core k.core).bankOf n
  let ls := s.bankLoops k b n
  let left := (ls.map fun l => mxSteps l.f - l.steps).sum
  let st := match x.owner with
    | none => 0
    | some o => if o = b then 1 else 2
  BitVec.ofNat 32 (st * 2 ^ 30 + (!ls.isEmpty).toNat * 2 ^ 29 + (if st = 1 then x.fl.toNat else 0) * 2 ^ 23 + min 4095 left)

/-- The status word of a slot (R306). -/
def slotWord (r : Rsv) : Word :=
  let st := match r.st with
    | .free => 0
    | .reserved => 1
    | .filling => 2
    | .ready => 3
    | .inUse => 4
    | .released => 5
  BitVec.ofNat 32 (st * 2 ^ 29 + if r.scratch then r.units else r.fp / 128)

/-- MXSTAT (R306). -/
def execMxstat (f : Std) (s : State) : Host.Outcome State Fault Refusal :=
  let rs := f.func.getLsbD 1
  issue (.mxstat f) always (fun q s => computeFaults
    (fun q good => if !rs then [] else
      (good.filter fun t => slotGone q.k (q.slotNo f t).toNat).map fun t => tileTrap q t 2 (q.slotNo f t)) f.d 1
    (pageShape (.mxstat f) f)
    (fun q _ t => .word (if rs then slotWord (q.k.rsvOf (q.slotNo f t).toNat) else bankWord s q.k q.b (f.func.toNat % 2))) q s) s

/-! ## MXDRAIN (R307, R308) -/

/-- An element of a bank in the drain's format. -/
def drainElem (fmt : Nat) (w : Word) : Word :=
  match fmt with
  | 0 => w
  | 1 => BitVec.ofNat 32 (convertF .bf16 .rne false (Fmt.fp32.value w.toNat)).1
  | _ => BitVec.ofNat 32 (convertF .fp16 .rne false (Fmt.fp32.value w.toNat)).1

/-- A drain buffer that is free. -/
def Core.freeDrain (c : Core) : Option Nat := [0, 1].find? fun n => (Tab.find c.drain n).isNone

/-- The pitch operand. -/
def Iss.pitch (q : Iss) (f : Std) (t : Nat) : Word := q.k.src32 t (q.thr t) f.lit f.c

/-- The bank goes to a drain buffer and is free (R307). -/
def State.drainBank (s : State) (k : Block) (b bank buf fmt : Nat) : State :=
  let x := (s.core k.core).bankOf bank
  let els : Tab Word := if x.owner = some b then
      (x.els.map fun (e : Nat × Word) => (e.1, drainElem fmt e.2)).filter fun (e : Nat × Word) => e.2 ≠ 0
    else []
  (s.modCore k.core fun c => { c with drain := Tab.put c.drain buf { blk := b, els := els } }).modBank k.core bank fun _ => {}

/-- MXDRAIN at issue. -/
def drainRun (f : Std) (q : Iss) (s : State) : State :=
  let n := f.func.toNat % 2
  let lost := latchTraps q (clearLong q s)
  if q.on.length > 1 then
    finish q (lost ++ (q.good lost).map fun t => tileTrap q t 1 (bankCode n)) (clearLong q s)
  else match q.good lost, (s.core q.k.core).freeDrain with
    | t :: _, some buf =>
      if (q.pitch f t).toNat % 16 ≠ 0 then finish q [tileTrap q t 7 (bankCode n)] (clearLong q s)
      else fallible (.mxdrain f) Sel.zero 0 (fun q t s =>
        ({ tk := 0, pc := q.pc, insn := .mxdrain f, addr := q.addr f t, aux := [q.pitch f t], buf := some buf },
          s.drainBank q.k q.b n buf (drainFmt f))) q s
    | _, _ => finish q lost (clearLong q s)

/-- MXDRAIN (R307). -/
def execMxdrain (f : Std) (s : State) : Host.Outcome State Fault Refusal :=
  issue (.mxdrain f) (fun q s => windowRoom q s && bankReady q s
    && (q.on.length ≠ 1 || (s.core q.k.core).freeDrain.isSome)) (drainRun f) s

/-- The page parts of a drain's rows: keys are 4096 × row + offset. -/
def Op.drainParts (o : Op) (f : Std) : List (Nat × DWord × Nat) :=
  (drainRows f o.addr (wordAt o.aux 0)).flatMap fun (r : Nat × DWord × Nat) =>
    (pageParts r.2.1 r.2.2).map fun (p : Nat × DWord × Nat) => (4096 * r.1 + p.1, p.2.1, p.2.2)

/-- What a drain meets (R184, R185). -/
def drainJudge (s : State) (k : Block) (t : Nat) (o : Op) (f : Std) : Judged × State :=
  judgeParts s k.core k.ctx (k.laneOf t) { size := 0, wr := true } (o.drainParts f)

/-- A drain is performed, as far as it can go now (R307, R358, R359). -/
def State.drainStep (s : State) (b t : Nat) (k : Block) (o : Op) (f : Std) : State :=
  let a : Acc := { size := 0, wr := true }
  if o.plan ≠ [] then s.goOn b t o.tk a
  else match drainJudge s k t o f with
  | (.ok ps, s) => s.begin_ b t o.tk a ps
  | (_, s) => s

/-- A drain settles: its buffer is free. -/
def State.drainSettle (s : State) (b t : Nat) (k : Block) (o : Op) : State :=
  let s := match o.buf with
    | some n => s.modCore k.core fun c => { c with drain := Tab.del c.drain n }
    | none => s
  s.settleOp b t o.tk

end Sys2Proof.Machine
end

