-- ==== Sys2Proof/Machine/Collective.lean ====
section
/-! DEFINITION. Address groups, MLDR, collective instances and reducers (spec/23_collective.md R332 to R345). -/

namespace Sys2Proof.Machine

/-! ## Address groups (R341) -/

/-- The entry of an address group. -/
def State.agEntry (s : State) (ldom agn : Nat) : Option AgEntry := s.dev.ags.find? fun e => e.ldom = ldom && e.agn = agn

/-- Records or removes an entry. -/
def State.setAg (s : State) (ldom agn : Nat) (del : Bool) (base mask : DWord) : State :=
  s.modDev fun d =>
    let rest := d.ags.filter fun e => !(e.ldom = ldom && e.agn = agn)
    { d with ags := if del then rest else { ldom := ldom, agn := agn, base := base, mask := mask } :: rest }

/-- AGDEF (R341): base and mask are captured. -/
def execAgdef (f : AgdefForm) (s : State) : Host.Outcome State Fault Refusal :=
  issue (.agdef f) windowRoom (fallible (.agdef f) Sel.zero 0 fun q t s =>
    let x := q.thr t
    ({ tk := 0, pc := q.pc, insn := .agdef f, addr := if f.del then 0 else q.k.pair t x f.base
       aux := splitDWord (q.k.pair t x f.mask) }, s)) s

/-- Whether the context of a block is bound to its domain, and so may itself be a member (R383). -/
def State.isBound (s : State) (cn : Nat) : Bool := (s.ctx cn).boundTo s.dev.rank (s.ctx cn).ldom

/-- An AGDEF with a rank outside the lake domain, or with this rank where the context is not bound to the domain (R341,
R383). -/
def agdefBad (s : State) (k : Block) (o : Op) : Bool :=
  dwordAt o.aux 0 &&& ~~~(s.ctx k.ctx).lmask ≠ 0 || (!s.isBound k.ctx && (dwordAt o.aux 0).getLsbD s.dev.rank)

/-- An AGDEF is performed: recorded here, sent to every other rank of its mask (R341). -/
def State.agdefStep (s : State) (b t : Nat) (k : Block) (o : Op) (f : AgdefForm) : State :=
  if agdefBad s k o || o.perf then s
  else
    let mask := dwordAt o.aux 0
    let ldom := (s.ctx k.ctx).ldom
    let tell (rank : Nat) (s : State) : Option Part × State :=
      let r : FabReq := { kind := .agdef, src := s.dev.rank, tag := 0, ldom := ldom, addr := o.addr
                          data := leBytes 8 mask.toNat, arg := f.agn.toNat + 256 * f.del.toNat }
      match s.request rank r false (.op b t o.tk rank) none 0 with
      | .out tag s => (some { key := rank, tag := some tag }, s)
      | .noRoute => (some { key := rank, done := some 5 }, s)
      | .noTag => (none, s)
    match goOut tell ((ranksOf mask).filter (· ≠ s.dev.rank)) s with
    | some (ps, s) =>
      (if s.isBound k.ctx then s.setAg ldom f.agn.toNat f.del o.addr mask else s).modOp b t o.tk fun o =>
        { o with perf := true, parts := ps }
    | none => s

/-- A member records an entry, or refuses (R341, R383). -/
def State.agdefServe (s : State) (r : FabReq) : State :=
  match s.boundCtx r.ldom with
  | none => s.respond r 1 [] false
  | some _ => (s.setAg r.ldom (r.arg % 256) (r.arg / 256 = 1) r.addr (BitVec.ofNat 64 (leNat r.data))).respond r 0 [] false

/-- ADDRESS_GROUP_DEFINE (R341). -/
def execAddressGroupDefine (src tag ldom agn : Nat) (del : Bool) (base mask : DWord) (s : State) :
    Host.Outcome State Fault Refusal :=
  .next (s.onceFor src tag fun s => s.agdefServe
    { kind := .agdef, src := src, tag := tag, ldom := ldom, addr := base, data := leBytes 8 mask.toNat
      arg := agn + 256 * del.toNat })

/-! ## MLDR (R342) -/

/-- MLDR: the offset and the draw's parameters are captured. -/
def execMldr (f : MldrForm) (s : State) : Host.Outcome State Fault Refusal :=
  issue (.mldr f) windowRoom (fallible (.mldr f) f.d (mldrGroup f).1 fun q t s =>
    let x := q.thr t
    let off := q.k.src32 t x none f.off
    let pg := if f.op.toNat ≥ 6 then (List.range 4).map fun i => q.k.regWord t x f.pg i else []
    let addr := match s.agEntry (s.ctx q.k.ctx).ldom f.agn.toNat with
      | some e => addOffset e.base off.toInt
      | none => 0
    ({ tk := 0, pc := q.pc, insn := .mldr f, dest := f.d, aux := off :: pg, addr := addr
       lines := lineNumbers addr (4 * mldrWords f) }, s)) s

/-- The address that an MLDR reads at every member, and the members; none without a usable entry, as in a context that is
not bound to its domain (R342, R383). -/
def mldrEntry (s : State) (k : Block) (o : Op) (f : MldrForm) : Option (DWord × List Nat) :=
  ((s.agEntry (s.ctx k.ctx).ldom f.agn.toNat).filter fun e => e.mask ≠ 0 && s.isBound k.ctx).map fun e =>
    (addOffset e.base (wordAt o.aux 0).toInt, ranksOf e.mask)

/-- Whether a rank has a capability: this device's own mask, or the peer table's (R252). -/
def State.canDo (s : State) (rank bit : Nat) : Bool :=
  if rank = s.dev.rank then s.dev.caps.getLsbD bit else s.capable rank bit

/-- This device's own checks as a member of an MLDR, if it is one. -/
def mldrOwnJudge (s : State) (k : Block) (t : Nat) (f : MldrForm) (addr : DWord) (ranks : List Nat) : Judged × State :=
  if ranks.contains s.dev.rank then
    judge s k.core k.ctx (k.laneOf t) { size := 4 * mldrWords f, rd := true, poison := true, gang := some k.gang } addr
  else (.ok [], s)

/-- Every member of a lower rank than this device has delivered its words. -/
def Op.lowerCame (o : Op) (me : Nat) (f : MldrForm) (addr : DWord) (ranks : List Nat) : Bool :=
  (ranks.filter (· < me)).all fun r => (pageParts addr (4 * mldrWords f)).all fun p =>
    o.parts.any fun q => q.key = 16 * r + p.1 && q.done = some 0

/-- What an MLDR meets: its entry, the members' capability before anything is sent, and this device's own checks in the
order of the ranks, once those below it have delivered (R342). -/
def mldrJudge (s : State) (k : Block) (t : Nat) (o : Op) (f : MldrForm) : Judged × State :=
  match mldrEntry s k o f with
  | none => (.fail 8, s)
  | some (addr, ranks) =>
    if !ranks.all fun r => s.canDo r 5 then (.fail 6, s)
    else if o.lowerCame s.dev.rank f addr ranks then mldrOwnJudge s k t f addr ranks
    else (.ok [], s)

/-- QF of the issuer's own translation, and whether its requests count heat; neither where there is none (R221, R342). -/
def mldrQuiet (s : State) (cn : Nat) (addr : DWord) : Bool × Bool :=
  match effective s cn addr with
  | .ok a => (a.qf, a.mode = 3)
  | .error _ => (false, false)

/-- A part of an MLDR that nothing brings: failed with cause 5, or all ones (R155, R256). -/
def lostPart (qf : Bool) (key n : Nat) : Part :=
  if qf then { key := key, len := n, done := some 0, quiet := true, data := List.replicate n 0xFF#8 }
  else { key := key, len := n, done := some 5 }

/-- A part of an MLDR that is asked for. -/
def Sent.part (x : Sent) (s : State) (qf : Bool) (key n : Nat) : Option (Part × State) :=
  match x with
  | .out tag s => some ({ key := key, len := n, tag := some tag }, s)
  | .noRoute => some (lostPart qf key n, s)
  | .noTag => none

/-- A part of an MLDR read at this device itself: none where it waits for a tag; or the address of an error found fresh. A
page that its own entry places on a peer is misdirected, or forwarded by its stub (R237). -/
def State.mldrOwn (s : State) (cn : Nat) (t : Trans) (qf : Bool) (r : FabReq) (who : Waiter) (key : Nat) :
    Except (DWord × State) (Option (Part × State)) :=
  let n := r.size
  let s := if t.att.loc ≠ 1 then s.countReq cn t.att s.dev.rank r else s
  match t.att.loc with
  | 0 => match serve s 0 cn { t with att := { t.att with ord := 0 } } r.addr n with
    | .bytes bs _ s => .ok (some ({ key := key, len := n, done := some 0, data := bs }, s))
    | .fresh x s => .error (x, s)
    | .away => .ok (some (lostPart qf key n, s))
  | 1 => .ok (match s.stub r.ldom (pageNo r.addr) with
    | some x => (s.request x.target { r with hops := 1 } qf who none (t.key r.addr)).part s qf key n
    | none => some (lostPart qf key n, s))
  | l => .ok ((s.portRequest l (t.key r.addr) r qf who none).part s qf key n)

/-- An MLDR is sent: the parts of each member's words, keyed 16 × rank + offset; what goes out goes together, or none of it
does. Where this device's own checks do not pass, only the members of lower ranks are asked: what they answer comes first
(R342). A page part is one request, since its page may be strongly ordered (R318); `aop` counts the lines that it is to be
counted for (R222). -/
def State.mldrStep (s : State) (b t : Nat) (k : Block) (o : Op) (f : MldrForm) : State :=
  match mldrEntry s k o f with
  | none => s
  | some (addr, ranks) =>
    if o.perf || !ranks.all (fun r => s.canDo r 5) then s
    else
      let judged := mldrOwnJudge s k t f addr ranks
      let (own, all) : List (Nat × DWord × Nat × Option Trans) × Bool := match judged.1 with
        | .ok ps => (judgedPieces ps, true)
        | _ => ([], false)
      let s₁ := judged.2
      let due := ranks.filter fun r => (all || r < s.dev.rank) && !o.parts.any fun p => p.key / 16 = r
      let (qf, heat) := mldrQuiet s₁ k.ctx addr
      let ls := pageParts addr (4 * mldrWords f)
      let req (s : State) (a : DWord) (len : Nat) : FabReq :=
        let lines := (lineNumbers a len).filter o.lines.contains
        { kind := .mldr, src := s.dev.rank, tag := 0, ldom := (s.ctx k.ctx).ldom, addr := a, size := len, arg := f.agn.toNat
          counted := heat && lines ≠ [], aop := lines.length }
      let one (rank : Nat) (p : Nat × DWord × Nat × Option Trans) (s : State) :
          Except (DWord × State) (Option (Part × State)) :=
        let key := 16 * rank + p.1
        let who : Waiter := .op b t o.tk key
        match p.2.2.2 with
        | some tr => s.mldrOwn k.ctx tr qf (req s p.2.1 p.2.2.1) who key
        | none => .ok ((s.request rank (req s p.2.1 p.2.2.1) qf who none 0).part s qf key p.2.2.1)
      let parts (rank : Nat) : List (Nat × DWord × Nat × Option Trans) :=
        if rank = s.dev.rank then own else ls.map fun p => (p.1, p.2.1, p.2.2, none)
      let r := (due.flatMap fun rank => (parts rank).map fun p => (rank, p)).foldl
        (fun (acc : Except (DWord × State) (Option (List Part × State))) (e : Nat × Nat × DWord × Nat × Option Trans) => acc.bind fun a => match a with
          | some (l, s) => (one e.1 e.2 s).map fun w => w.map fun x => (l ++ [x.1], x.2)
          | none => .ok none) (.ok (some ([], s₁)))
      match r with
      | .error (x, s) => s.killData k t x
      | .ok none => s
      | .ok (some (parts, s)) =>
        if due = [] then s
        else ((linePieces addr (4 * mldrWords f)).foldl (fun s p => s.claimLine b o p.2.1) s).modOp b t o.tk fun o =>
          { o with parts := o.parts ++ parts, perf := all }

/-- The words of one member. -/
def Op.memberWords (o : Op) (rank n : Nat) : List Word :=
  bytesWords n ((o.parts.filter fun p => p.key / 16 = rank).flatMap Part.data)

/-- A half widened to FP32 (R336, R342). -/
def widen (h : Nat) : Nat := (convertF .fp32 .rne false (Fmt.bf16.value h)).1

/-- A word's canonical form where it is a NaN (R93, R336). -/
def quietNan (w : Nat) : Nat := if (Fmt.fp32.value w).isNan then Fmt.fp32.nan else w

/-- A triple with canonical NaNs, as a merge of one member's leaf writes it (R93, R336). -/
def Triple.quiet (x : Triple) : Triple :=
  { x with m := BitVec.ofNat 32 (quietNan x.m.toNat), s := BitVec.ofNat 32 (quietNan x.s.toNat) }

/-- The members' words combined in ascending rank (R336, R342): the result's words and the flags raised. -/
def mldrCombine (f : MldrForm) (aux : List Word) (xs : List (List Word)) : List Word × FFlags :=
  if f.op.toNat ≥ 6 then
    let pos (p : Nat) : Word := wordAt aux 4 * BitVec.ofNat 32 p
    let r := ctree (f.op.toNat = 7) (wordAt aux 1) (wordAt aux 2) (wordAt aux 3) pos 8 0
      (xs.map fun w => { i := wordAt w 0, m := wordAt w 1, s := wordAt w 2 })
    (r.1.quiet.words, r.2)
  else
    let half := f.ty = .bf16x2
    let ty : Ty := if half then .f32 else f.ty
    let start (ws : List Word) : List (Nat × FFlags) :=
      if half then ws.flatMap fun w => [bits w 15 0, bits w 31 16].map fun h =>
        (widen h, (convertF .fp32 .rne false (Fmt.bf16.value h)).2)
      else ws.map fun w => (w.toNat, 0)
    let sum := (xs.map start).tail.foldl (fun acc ws => acc.zipWith (redrOp f.op.toNat ty) ws)
      ((xs.map start).headD [])
    let fin (w : Nat) : Nat := if ty = .f32 then quietNan w else w
    (sum.map fun e => BitVec.ofNat 32 (fin e.1), sum.foldl (fun fl e => fl ||| e.2) 0)

/-- An MLDR whose parts have all come settles (R342). -/
def State.mldrSettle (s : State) (b t : Nat) (o : Op) (f : MldrForm) : State :=
  let ranks := sortNat ((o.parts.map fun p => p.key / 16).eraseDups)
  let r := mldrCombine f o.aux (ranks.map fun rank => o.memberWords rank (mldrWords f))
  let s := if o.parts.any (·.quiet) then s.modBlk b fun k => { k with rfail := true } else s
  let s := s.modThr b t fun x => { x with fflags := x.fflags ||| r.2 }
  (s.deposit b t o.tk o.dest r.1).settleOp b t o.tk

/-! ## Descriptors and CLSTART (R332 to R334, R343) -/

/-- The pairs of OP and formats (R333). -/
def descPair (op i o : Nat) : Bool :=
  match op with
  | 0 | 1 | 2 => i ≤ 1 && o ≤ 1
  | 3 => (i = 4 || i = 5) && o = i
  | 4 => i ≤ 1 && 1 ≤ o && o ≤ 3
  | _ => false

/-- A malformed descriptor (R333). -/
def descBad (d : List Word) (me : Nat) : Bool :=
  !descPair (descOp d) (descIfmt d) (descOfmt d) || bits (wordAt d 0) 19 0 ≠ 0 || wordAt d 14 ≠ 0 || wordAt d 15 ≠ 0
  || descChunk d = 0 || descChunk d > 2 ^ 20 || descCount d = 0 || descCount d > 65536 || !(descMask d).getLsbD me

/-- Every member's capability for a descriptor's commands (R335). -/
def descCaps (s : State) (d : List Word) : Bool :=
  (ranksOf (descMask d)).all fun r =>
    s.canDo r 6 && (descOp d ≠ 3 || s.canDo r 7) && (descOp d ≠ 4 || s.canDo r 8)

/-- The group number of an operand (R340). -/
def groupNo (w : Word) : Nat := bits w 10 0

/-- CLSTART (R343): the descriptor's address and the group are captured. -/
def execClstart (f : Std) (s : State) : Host.Outcome State Fault Refusal :=
  issue (.clstart f) windowRoom (fallible (.clstart f) f.d 1 fun q t s =>
    ({ tk := 0, pc := q.pc, insn := .clstart f, addr := q.addr f t, dest := if f.d.isReg then f.d else Sel.zero
       aux := [q.k.src32 t (q.thr t) f.lit f.c] }, s)) s

/-- The group record of a context, as it is at context creation where there is none (R334), or where the context is not
bound to its domain (R383). -/
def State.grpOr (s : State) (cn g : Nat) : Grp :=
  ((s.grp (s.ctx cn).ldom g).filter fun _ => s.isBound cn).getD { ldom := (s.ctx cn).ldom, grp := g, ctx := cn }

/-- The record of a group of a context is there. -/
def State.needGrp (s : State) (cn g : Nat) : State :=
  if (s.grp (s.ctx cn).ldom g).isSome then s.modGrp (s.ctx cn).ldom g fun r => { r with ctx := cn }
  else s.modDev fun d => { d with grps := s.grpOr cn g :: d.grps }

/-- What a CLSTART meets when it is performed, and its descriptor. In a context that is not bound to its domain this device
is no member, and its member cannot be reached (R343, R383; log entry 45). -/
def clstartJudge (s : State) (k : Block) (t : Nat) (o : Op) : Judged × List Word × State :=
  match judge s k.core k.ctx (k.laneOf t) { size := 64, rd := true, poison := true, gang := some k.gang } o.addr with
  | (.ok ps, s) => match gread s k.ctx o.addr 64 false with
    | (.ok bs, s) =>
      let d := bytesWords 16 bs
      let r := s.grpOr k.ctx (groupNo (wordAt o.aux 0))
      if descBad d s.dev.rank then (.fail 14, d, s)
      else if !s.isBound k.ctx then (.fail 8, d, s)
      else if !descCaps s d then (.fail 6, d, s)
      else if r.st ≠ .idle && r.st ≠ .done && r.queued.isSome then (.fail 9, d, s)
      else (.ok ps, d, s)
    | (.error (.fail c), s) => (.fail c, [], s)
    | (_, s) => (.fail 13, [], s)
  | (j, s) => (j, [], s)

/-- The first error not yet found in the local parts of a judged access. -/
def latentAt (s : State) (ps : List (Nat × DWord × Nat × Option Trans)) : Option (DWord × Nat) :=
  ps.findSome? fun p => p.2.2.2.bind fun t =>
    if t.att.loc = 0 then (s.latentIn (t.key p.2.1) p.2.2.1).map fun x =>
      (p.2.1 + BitVec.ofNat 64 x - BitVec.ofNat 64 (t.key p.2.1), x)
    else none

/-- A CLSTART is performed (R334, R343): its instance arms, or waits queued; the part's key is the instance. -/
def State.clstartStep (s : State) (b t : Nat) (k : Block) (o : Op) : State :=
  if o.perf then s
  else match clstartJudge s k t o with
    | (.ok ps, d, s) =>
      match latentAt s ps with
      | some (x, a) => (s.found a).killData k t x
      | none =>
        let g := groupNo (wordAt o.aux 0)
        let ldom := (s.ctx k.ctx).ldom
        let s := s.needGrp k.ctx g
        let r := s.grpOr k.ctx g
        let s := s.modOp b t o.tk fun o => { o with perf := true, parts := [{ key := (r.cur + 1).toNat }] }
        if r.st = .idle ∨ r.st = .done then s.armGroup ldom g d
        else s.modGrp ldom g fun r => { r with queued := some d }
    | (_, _, s) => s

/-- What remains of the descriptor of a CLSTART that failed: one without this rank, or that could not be read, concerns this
member alone. -/
def failedDesc (d : List Word) (me : Nat) : List Word :=
  if (descMask d).getLsbD me then d
  else (List.range 8).map (wordAt d) ++ splitDWord (BitVec.twoPow 64 me) ++ (List.range 6).map fun i => wordAt d (10 + i)

/-- A CLSTART that fails starts an abort with status 3 (R343): one that has armed aborts its instance; one whose descriptor
cannot be read, is malformed or finds a capability missing takes the next number and aborts that, at once or when it would
arm, so that the members that have armed it end too (log entry 14). An overrun has no instance (R334), and none has a
context that is not bound to its domain (R383). -/
def State.clstartFailed (s : State) (k : Block) (t : Nat) (o : Op) (cause : Nat) : State :=
  let ldom := (s.ctx k.ctx).ldom
  let g := groupNo (wordAt o.aux 0)
  if !s.isBound k.ctx then s
  else if cause = 8 then s.startAbort ldom g 3
  else if cause = 9 then s
  else
    let d := failedDesc (clstartJudge s k t o).2.1 s.dev.rank
    let s := s.needGrp k.ctx g
    let r := s.grpOr k.ctx g
    if r.st = .idle ∨ r.st = .done then (s.modGrp ldom g fun r => { r with bad := true }).armGroup ldom g d
    else if r.queued.isNone then s.modGrp ldom g fun r => { r with queued := some d, bad := true }
    else s

/-- The record of a CLSTART that has been performed, and its instance. -/
def clstartGrp (s : State) (k : Block) (o : Op) : Option (Grp × Word) :=
  o.parts.head?.bind fun p => (s.grp (s.ctx k.ctx).ldom (groupNo (wordAt o.aux 0))).map fun r => (r, BitVec.ofNat 32 p.key)

/-- Whether a CLSTART's instance is RUNNING, or has been (R343; log entry 14 where it was aborted before). -/
def clstartMet (s : State) (k : Block) (o : Op) : Bool :=
  (clstartGrp s k o).any fun e => seqGe e.1.cur e.2 && !(e.1.cur = e.2 && e.1.st = .armed)

/-- A CLSTART whose instance is ARMED and has a member that cannot be reached fails with cause 8 (R343). -/
def clstartLost (s : State) (k : Block) (o : Op) : Bool :=
  (clstartGrp s k o).any fun e => e.1.cur = e.2 && e.1.st = .armed && !e.1.members.all s.reachable

/-- A CLSTART settles with its instance number. -/
def State.clstartSettle (s : State) (b t : Nat) (o : Op) : State :=
  let n : Word := ((o.parts.head?.map fun p => BitVec.ofNat 32 p.key)).getD 0
  let s := if o.dest = Sel.zero then s else s.deposit b t o.tk o.dest [n]
  s.settleOp b t o.tk

/-! ## CLWAIT (R344) -/

/-- The status word of an instance, once CLWAIT's wait for it is over; instance numbers compare as plain numbers (R344). -/
def clOutcome (r : Grp) (n : Word) : Option Word :=
  let done (st : Nat) : Word := if st = 0 then 0 else BitVec.ofNat 32 (st * 16 + 1)
  if n = r.cur then
    match r.st with
    | .done => some 0
    | .idle => if r.out0 = 0 then none else some (done r.out0)
    | _ => none
  else if n.toNat + 1 = r.cur.toNat then some (done r.out1)
  else if n.toNat = r.cur.toNat + 1 then none
  else if n.toNat > r.cur.toNat then some 2 else some 3

/-- The same, of a group of a context. -/
def clStatus (s : State) (cn g : Nat) (n : Word) : Option Word := clOutcome (s.grpOr cn g) n

/-- The end of a CLWAIT: the acquire at `.lake`, the status words, in the shape that the tags gave at issue (R53). An
instance that is within reach of CUR again, when the ripple's other threads are met, was more than CUR + 1 at issue: it
still reads as not armed. -/
def clwaitAfter (b : Nat) (f : Std) (wide : Bool) (ts : List (Nat × Nat × Word)) (s : State) : State :=
  match s.blk b with
  | none => s
  | some k =>
    if ts.isEmpty then s
    else
      let s := s.acquire k.core k.ctx 3
      let vals : List (Nat × DWord) := ts.map fun e => (e.1, ((clStatus s k.ctx e.2.1 e.2.2).getD 2).setWidth 64)
      let s := s.putResult b f.d 1 (if wide then .g else .u) vals
      s.modThrs b (ts.map Prod.fst) fun _ x => x.clearLatches

/-- CLWAIT (R344). -/
def execClwait (f : Std) (s : State) : Host.Outcome State Fault Refusal :=
  issue (.clwait f) always (fun q s =>
    let grp (t : Nat) : Nat := groupNo (q.k.src32 t (q.thr t) f.lit f.a)
    let inst (t : Nat) : Word := q.k.src32 t (q.thr t) f.lit f.b
    let wide := waitWide q.k (.clwait f) f
    if wide && q.k.narrow f.d 1 && !q.on.isEmpty then waitShapeTrap q f.d s
    else waitFaults (fun _ _ => []) (fun _ t => BitVec.ofNat 32 (2 * grp t + wide.toNat)) (fun _ t => inst t)
      (fun q t s => (clStatus s q.k.ctx (grp t) (inst t)).isSome)
      (fun q s => clwaitAfter q.b f wide ((q.good (latchTraps q s)).map fun t => (t, grp t, inst t)) s) q s) s

/-- The group and the instance for which a thread waits at a CLWAIT, as it read them at issue. -/
def clwaitOf (x : Thread) : Nat × Word := (x.wbar.toNat / 2, x.wtok)

def isClwait (i : Instr) : Bool :=
  match i with
  | .clwait _ => true
  | _ => false

/-- CLWAIT_END (R344). -/
def execClwaitEnd (b r : Nat) (s : State) : Host.Outcome State Fault Refusal :=
  .next (endWait isClwait
    (fun k _ _ x s => (clStatus s k.ctx (clwaitOf x).1 (clwaitOf x).2).isSome)
    (fun _ i ts s => match i with
      | .clwait f =>
        let xs := ts.filterMap fun t => (s.thr b t).map fun x => (t, x)
        clwaitAfter b f (xs.any fun e => e.2.wbar.getLsbD 0) (xs.map fun e => (e.1, clwaitOf e.2)) s
      | _ => s) b r s)

/-! ## CLABORT (R345) -/

/-- A thread's CLABORT takes effect. -/
def clabortThread (b t : Nat) (f : Std) (s : State) : State :=
  match s.blk b, s.thr b t with
  | some k, some x =>
    let g := groupNo (k.src32 t x f.lit f.a)
    let n := k.src32 t x f.lit f.b
    let s := if s.isBound k.ctx && (s.grpOr k.ctx g).cur = n then s.startAbort (s.ctx k.ctx).ldom g 2 else s
    s.modThr b t fun x => { x with arr := true }
  | _, _ => s

/-- The ripple goes on from a CLABORT once it has taken effect for every thread. -/
def clabortAll (b r : Nat) (s : State) : State :=
  match (s.blk b).bind fun k => (Tab.find k.rip r).map fun rp => (k, rp) with
  | some (k, rp) => match rp.busy with
    | some (.clabort f) =>
      let xs := rp.threads.filterMap fun t => (Tab.find k.thr t).map fun x => (t, x)
      if xs.all fun e => e.2.arr then
        s.apply b r (.clabort f) (xs.map fun e => (e.1, .go (pcAdd e.2.pc (Instr.clabort f).length) false))
      else s
    | _ => s
  | none => s

/-- CLABORT (R345): the guard-true threads stand until their horizon passes. -/
def execClabort (f : Std) (s : State) : Host.Outcome State Fault Refusal :=
  issue (.clabort f) always (fun q s =>
    let s := clearLong q s
    let traps := latchTraps q s
    let good := q.good traps
    let off := q.ts.filter fun t => !q.on.contains t
    let s := finish q (traps ++ good.map (fun t => (t, Fate.stand)) ++ off.map fun t => (t, .go q.next false)) s
    let s := good.foldl (fun s t => if (s.thr q.b t).any Thread.settled then clabortThread q.b t f s else s) s
    match good.head?.bind fun t => (s.blk q.b).bind fun k => k.ripOf t with
    | some (r, _, _) => clabortAll q.b r s
    | none => s) s

/-- CLABORT_START (R345). -/
def execClabortStart (b t : Nat) (s : State) : Host.Outcome State Fault Refusal :=
  match (s.blk b).bind fun k => k.ripOf t, s.thr b t with
  | some (r, _, rp), some x => match rp.busy with
    | some (.clabort f) =>
      if x.st = .running && !x.arr && x.settled then .next (clabortAll b r (clabortThread b t f s)) else .next s
    | _ => .next s
  | _, _ => .next s

/-! ## Combining (R336) -/

/-- The elements of a contribution as FP32 patterns, exact (R336). -/
def sumElems (fmt : Nat) (bs : List Byte) (n : Nat) : List Nat :=
  (List.range n).map fun j =>
    if fmt = 0 then leNat ((bs.drop (4 * j)).take 4) else leNat ((bs.drop (2 * j)).take 2) * 65536

/-- The triples of a contribution. -/
def tripleElems (bs : List Byte) (n : Nat) : List Triple :=
  (List.range n).map fun j =>
    let w := bytesWords 3 ((bs.drop (12 * j)).take 12)
    { i := wordAt w 0, m := wordAt w 1, s := wordAt w 2 }

/-- The output format of R332. -/
def outFmt (o : Nat) : Fmt :=
  match o with
  | 0 => .fp32
  | 1 => .bf16
  | 2 => .e4m3
  | _ => .e5m2

/-- The bytes of element `j` of a combined chunk, from its members' elements in ascending rank: `home` the home's rank,
`n` the instance. -/
def combineElem (d : List Word) (home : Nat) (n : Word) (chunk j : Nat) (xs : List Nat) : List Byte :=
  let F := outFmt (descOfmt d)
  let step (a x : Nat) : Nat := match descOp d with
    | 1 => (fMinMax .fp32 true false a x).1
    | 2 => (fMinMax .fp32 false false a x).1
    | _ => (fSum .fp32 .rne (Fmt.fp32.value a) (Fmt.fp32.value x)).1
  let a := quietNan (xs.tail.foldl step (xs.headD 0))
  let key : Word := coin (BitVec.ofNat 32 home) n (BitVec.ofNat 32 (chunk * descChunk d + j)) 2
  let mode : Mode := if descOp d = 4 then .sr key none else .rne
  leBytes (elemSize (descOfmt d)) (if descOfmt d = 0 then a else (convertF F mode false (Fmt.fp32.value a)).1)

/-- The combined bytes of a chunk: `xs` the members' contributions in ascending rank (R336). -/
def combineChunk (d : List Word) (home : Nat) (n : Word) (chunk : Nat) (xs : List (List Byte)) : List Byte :=
  let len := descChunk d
  if descOp d = 3 then
    let ts := xs.map fun bs => tripleElems bs len
    (List.range len).flatMap fun j =>
      wordBytes (ctree (descIfmt d = 5) (wordAt d 10) (wordAt d 11) (wordAt d 12)
        (fun p => wordAt d 13 * BitVec.ofNat 32 p) 8 0 (ts.map fun t => t.getD j tripleInvalid)).1.quiet.words
  else
    let es := xs.map fun bs => sumElems (descIfmt d) bs len
    (List.range len).flatMap fun j => combineElem d home n chunk j (es.map fun e => e.getD j 0)

/-! ## Result writes (R336, R338) -/

/-- Result bytes written at a member, as an ordinary write of its own to each line's page (R336): performed at once in local
HBM, held in the final phase of a move (R235), asked of a port or of the device to which the page has moved. None where a page
parks or no tag is free, and the request waits. -/
def State.serveResult (s : State) (cn : Nat) (r : FabReq) : Option State :=
  let g := r.arg % 2048
  let c := r.arg / 2048
  match s.grp r.ldom g with
  | none => some (s.respond r 7 [] false)
  | some x =>
    if x.cur.toNat ≠ r.aop then some (s.respond r 7 [] false)
    else
      let addr := resultBase x.desc c + r.addr
      let acc : Acc := { size := 0, wr := true }
      let ps := (linePieces addr r.data.length).map fun (p : Nat × DWord × Nat) => (p, walk s cn p.2.1 p.2.2)
      if ps.any fun e => match e.2 with
          | .park _ _ => true
          | _ => false then none
      else match ps.findSome? fun e => match e.2 with
          | .fail c => some c
          | .ok t => ownerChecks s { acc with size := e.1.2.2 } t e.1.2.1 true
          | .park _ _ => none with
        | some f => some (s.respond r f [] false)
        | none => (ps.foldl (fun (acc : Option (List Part × State)) e => acc.bind fun x => match e.2 with
            | .ok t =>
              let bs := (r.data.drop e.1.1).take e.1.2.2
              let w := x.2.writePiece none cn t e.1.1 { kind := .store, src := s.dev.rank, tag := 0, ldom := r.ldom
                                                        addr := e.1.2.1, size := bs.length, data := bs } (.job r.src r.tag e.1.1)
              w.1.map fun p => (x.1 ++ [p], w.2)
            | _ => some x) (some ([], s))).map fun x =>
          let j : Errand := { cn := cn, req := r, parts := x.1 }
          (x.2.modDev fun d => { d with jobs := d.jobs ++ [j] }).jobDone j

/-- A result line of this device to itself that could not be performed yet is tried again. -/
def State.resultRetry (s : State) (tag : Nat) : State :=
  match Tab.find s.dev.reqs tag with
  | none => s
  | some p =>
    if p.req.kind ≠ .result ∨ p.dst ≠ s.dev.rank ∨ s.underWay p.req.src p.req.tag then s
    else ((s.boundCtx p.req.ldom).bind fun cn => s.serveResult cn p.req).getD s

/-- A reducer writes the next line of one of its results, to its own device or to a peer, in ascending line order for each
member (R336). A line that finds no free tag waits. -/
def State.resultStep (s : State) (i : Nat) : State :=
  match s.dev.results[i]? with
  | none => s
  | some x => match x.todo with
    | [] => s.modDev fun d => { d with results := d.results.eraseIdx i }
    | (m, off, n) :: rest =>
      let q : FabReq := { kind := .result, src := s.dev.rank, tag := 0, ldom := x.ldom, addr := BitVec.ofNat 64 off
                          size := n, data := (x.data.drop off).take n, aop := x.n.toNat, arg := x.grp + 2048 * x.chunk }
      let who : Waiter := .line x.ldom x.grp x.n x.chunk m off
      let took (s : State) : State := s.modDev fun d =>
        { d with results := if rest = [] then d.results.eraseIdx i else d.results.set i { x with todo := rest } }
      if m = s.dev.rank then match s.freeTag with
        | none => s
        | some tag => ((took s).keepReq tag { req := { q with tag := tag }, dst := m, who := who }).resultRetry tag
      else match (took s).request m q false who none 0 with
        | .out _ s => s
        | .noRoute => (took s).lineLost x.ldom x.grp x.n
        | .noTag => s

/-! ## Reducers (R335, R336, R339) -/

/-- The stack whose reducer combines a chunk at its home: that of the first byte of the home's own result (R216, R336).
DESIGN CHOICE: stack 0 where that byte is not in this device's HBM, or its page parks (log entry 14). -/
def State.stackOf (s : State) (r : Grp) (chunk : Nat) : Nat :=
  match walk s r.ctx (resultBase r.desc chunk) 1 with
  | .ok t => if t.att.loc = 0 then t.key (resultBase r.desc chunk) / 2 ^ 36 else 0
  | _ => 0

/-- A command joins the queue of its stack's reducer, or waits where that holds 4,096 (R335); one for an instance that is
over is dropped. None where it waits. -/
def State.queueCmd (s : State) (src ldom g : Nat) (n : Word) (chunk : Nat) (data : List Byte) : Option State :=
  match s.grp ldom g with
  | none => some s
  | some r =>
    if r.cur ≠ n ∨ (r.st ≠ .armed ∧ r.st ≠ .running) then some s
    else
      let st := s.stackOf r chunk
      if (s.dev.cmdq.filter fun c => c.stack = st).length ≥ 4096 then none
      else some (s.modDev fun d => { d with cmdq := d.cmdq ++
        [{ stack := st, src := src, ldom := ldom, grp := g, n := n, chunk := chunk, data := data }] })

/-- A reducer takes a contribution: held until all members' have come, then combined. One for another instance, or of a
rank that has contributed, is discarded. -/
def State.collect (s : State) (c : RCmd) : State :=
  match s.grp c.ldom c.grp with
  | none => s
  | some r =>
    if r.cur ≠ c.n ∨ (r.st ≠ .armed ∧ r.st ≠ .running) ∨ !r.members.contains c.src then s
    else
      let mine (x : Contrib) : Bool := x.ldom = c.ldom && x.grp = c.grp && x.n = c.n && x.chunk = c.chunk
      let cur : Contrib := (s.dev.contribs.find? mine).getD
        { stack := c.stack, ldom := c.ldom, grp := c.grp, n := c.n, chunk := c.chunk, xs := [] }
      let xs := if cur.xs.any fun x => x.1 = c.src then cur.xs else cur.xs ++ [(c.src, c.data)]
      let rest := s.dev.contribs.filter fun x => !mine x
      match r.members.mapM fun m => (xs.find? fun x => x.1 = m).map Prod.snd with
      | some all =>
        let bs := combineChunk r.desc s.dev.rank c.n c.chunk all
        let ls := linePieces (resultBase r.desc c.chunk) bs.length
        s.modDev fun d =>
          { d with contribs := rest
                   results := d.results ++ [{ ldom := c.ldom, grp := c.grp, n := c.n, chunk := c.chunk, data := bs
                                              todo := r.members.flatMap fun m => ls.map fun p => (m, p.1, p.2.2) }] }
      | none => s.modDev fun d => { d with contribs := { cur with xs := xs } :: rest }

/-- The reducer of a stack takes the oldest command of its queue (R335). -/
def State.reduceStep (s : State) (stack : Nat) : State :=
  match s.dev.cmdq.find? fun c => c.stack = stack with
  | none => s
  | some c => (s.modDev fun d => { d with cmdq := d.cmdq.erase c }).collect c

/-- A reducer command of a peer at its home: refused where no context is bound to the domain or this device lacks a
capability that the descriptor asks for, else in the queue (R253, R335, R383). None where it waits. -/
def State.serveReducer (s : State) (r : FabReq) : Option State :=
  let g := r.arg % 2048
  let lacks (x : Grp) : Bool := (descOp x.desc = 3 && !s.dev.caps.getLsbD 7) || (descOp x.desc = 4 && !s.dev.caps.getLsbD 8)
  if (s.boundCtx r.ldom).isNone || !s.dev.caps.getLsbD 6 || (s.grp r.ldom g).any lacks then some (s.respond r 7 [] false)
  else (s.queueCmd r.src r.ldom g (BitVec.ofNat 32 r.aop) (r.arg / 2048) r.data).map fun s => s.respond r 0 [] false

/-- The request that carries a contribution to its home. -/
def reducerReq (src tag ldom grp : Nat) (n : Word) (chunk : Nat) (data : List Byte) : FabReq :=
  { kind := .reducer, src := src, tag := tag, ldom := ldom, addr := 0, size := data.length, data := data, aop := n.toNat
    arg := grp + 2048 * chunk }

/-- REDUCER_COMMAND (R335, R336): a contribution of a peer. One performed before is answered from its record (R255). -/
def execReducerCommand (a : Asker) (ldom grp : Nat) (n : Word) (chunk : Nat) (data : List Byte) (s : State) :
    Host.Outcome State Fault Refusal :=
  .next (s.onceFor a.src a.tag fun s => (s.serveReducer (reducerReq a.src a.tag ldom grp n chunk data)).getD s)

/-- MEMBER_LAG_TIMEOUT (R339): a chunk whose first contribution has come still waits for others. -/
def execMemberLagTimeout (ldom grp chunk : Nat) (s : State) : Host.Outcome State Fault Refusal :=
  match s.grp ldom grp with
  | none => .next s
  | some r =>
    if s.dev.contribs.any fun c => c.ldom = ldom && c.grp = grp && c.n = r.cur && c.chunk = chunk then
      .next (s.startAbort ldom grp 1)
    else .next s

/-! ## Fires (R337) -/

/-- The first chunk of a fire is contributed, in an instance that runs: the fire is accepted when the queue of the home's
reducer has taken it (R337). -/
def State.fireChunk (s : State) (f : Fire) (r : Grp) : State :=
  let n := descChunk r.desc * elemSize (descIfmt r.desc)
  let a := dwordAt r.desc 4 + BitVec.ofNat 64 (f.chunk * n)
  let fired (s : State) : State := s.modGrp r.ldom r.grp fun r => { r with fired := f.chunk :: r.fired }
  match judge s 0 f.ctx none { size := n, rd := true, poison := true } a with
  | (.park _ _ _, _) => s
  | (.fail _, _) => (s.dropFire f).startAbort r.ldom r.grp 4
  | (.ok ps, _) => match latentAt s ps, gread s f.ctx a n false with
    | some (_, x), _ => ((s.found x).dropFire f).startAbort r.ldom r.grp 4
    | none, (.ok bs, s') =>
      let home := r.members.getD (f.chunk % r.members.length) 0
      if home = s.dev.rank then match s'.queueCmd home r.ldom r.grp r.cur f.chunk bs with
        | some s => (fired s).dropFire f
        | none => s
      else match s'.request home (reducerReq s.dev.rank 0 r.ldom r.grp r.cur f.chunk bs) false
          (.fire f.ctx f.grp f.chunk f.by_) none 0 with
        | .out _ s => (fired s).modDev fun d =>
          { d with fires := d.fires.map fun g => if g = f then { f with sent := true } else g }
        | .noRoute => s.startAbort r.ldom r.grp 3
        | .noTag => s
    | none, (.error _, s) => (s.dropFire f).startAbort r.ldom r.grp 4

/-- CHUNK_FIRE (R337): a waiting fire, by its place in the list. -/
def execChunkFire (k : Nat) (s : State) : Host.Outcome State Fault Refusal :=
  match s.dev.fires[k]? with
  | none => .next s
  | some f =>
    let r := s.grpOr f.ctx f.grp
    match r.st with
    | .running =>
      if f.sent then .next s
      else if f.chunk ≥ descCount r.desc then .next ((s.dropFire f).startAbort r.ldom r.grp 4)
      else if r.fired.contains f.chunk then .next s
      else .next (s.fireChunk f r)
    | .aborting => .next (s.dropFires fun g => g = f)
    | _ => .next s

/-! ## Arming and aborting (R333, R334, R339) -/

/-- ARMING_NOTICE (R334): held, and the group may start to run; a differing check aborts the instance. -/
def execArmingNotice (src ldom grp : Nat) (n check : Word) (s : State) : Host.Outcome State Fault Refusal :=
  match s.boundCtx ldom with
  | none => .next s
  | some cn =>
    let s := if (s.grp ldom grp).isSome then s else s.needGrp cn grp
    let s := s.modGrp ldom grp fun r =>
      { r with notices := if seqGe n r.cur then (src, n, check) :: r.notices.filter fun (x : Nat × Word × Word) =>
                   !(x.1 = src && x.2.1 = n) && seqGe x.2.1 r.cur
                 else r.notices }
    let s := s.armCheck ldom grp
    match s.grp ldom grp with
    | some r => .next (if r.st = .armed && r.allArmed s.dev.rank then s.modGrp ldom grp fun r => { r with st := .running } else s)
    | none => .next s

/-- COLLECTIVE_ABORT (R339). A member that has finished or ended the instance passes the abort on and acknowledges. -/
def execCollectiveAbort (src ldom grp : Nat) (n : Word) (status : Nat) (s : State) : Host.Outcome State Fault Refusal :=
  let ack (s : State) : State := s.say (.abortAck src ldom grp n)
  match s.grp ldom grp with
  | none => .next (ack s)
  | some r =>
    let top := r.posOf s.dev.rank = 0
    if r.cur ≠ n then .next (ack s)
    else match r.st with
      | .armed | .running =>
        let r : Grp := { r with st := .aborting, status := status, kids := [], parent := if top then none else some src }
        .next ((((s.modGrp ldom grp fun _ => r).dropInstance r).forwardAbort r status).abortCheck ldom grp)
      | .aborting =>
        if top then .next s
        else if r.parent.isSome then .next (if r.parent = some src then s else ack s)
        else .next ((s.modGrp ldom grp fun r => { r with parent := some src }).abortCheck ldom grp)
      | _ =>
        let s := (s.dropResults ldom grp n).passAbort r status
        .next (if top then s else ack s)

/-- COLLECTIVE_ABORT_ACK (R334). -/
def execCollectiveAbortAck (src ldom grp : Nat) (n : Word) (s : State) : Host.Outcome State Fault Refusal :=
  match s.grp ldom grp with
  | none => .next s
  | some r =>
    if r.cur ≠ n ∨ r.st ≠ .aborting then .next s
    else .next ((s.modGrp ldom grp fun r => { r with kids := r.kids.filter (· ≠ src) }).abortCheck ldom grp)

end Sys2Proof.Machine
end

