-- ==== Sys2Proof/Machine/Doorbell.lean ====
section
/-! DEFINITION. Host queues, launch records and the ready pool (spec/16_queue.md R258 to R264; spec/17_kernel.md R274 to
R278). -/

namespace Sys2Proof.Machine

/-! ## Launch records (R259, R274) -/

/-- TYPE. -/
def recType (ws : List Word) : Nat := bits (wordAt ws 0) 31 24
def recGangs (ws : List Word) : Nat := (wordAt ws 4).toNat
def recBpg (ws : List Word) : Nat := bits (wordAt ws 5) 31 28
def recNthr (ws : List Word) : Nat := bits (wordAt ws 5) 27 17
def recRegG (ws : List Word) : Nat := bits (wordAt ws 5) 16 8
def recRegA (ws : List Word) : Nat := bits (wordAt ws 5) 7 0
def recScr (ws : List Word) : Nat := bits (wordAt ws 6) 31 12
def recBars (ws : List Word) : Nat := bits (wordAt ws 6) 11 5
def recPool (ws : List Word) : Nat := bits (wordAt ws 7) 31 13
def recGreedy (ws : List Word) : Nat := bits (wordAt ws 7) 12 0
def recPri (ws : List Word) : Nat := bits (wordAt ws 8) 31 30
def recAud (ws : List Word) : Bool := (wordAt ws 8).getLsbD 29
def recAk (ws : List Word) : Nat := bits (wordAt ws 8) 28 24
/-- QBLK, where 0 means 32. -/
def recQblk (ws : List Word) : Nat := if bits (wordAt ws 8) 19 14 = 0 then 32 else bits (wordAt ws 8) 19 14
def recPreds (ws : List Word) : List Word := [14, 15, 16, 17].map (wordAt ws)

/-! ## Admission (R50, R132) -/

/-- Register pages of a block (R50). -/
def blockPages (regG nthr : Nat) : Nat := (regG + 7) / 8 * ((nthr + 31) / 32)
/-- Scalar words of a block (R50). -/
def blockWords (regG regA : Nat) : Nat := 2 * (regG + regA)

/-- What blocks hold on a core: blocks, threads, named barriers, register pages, scalar words, scratchpad and pool bytes. -/
structure Held where
  blocks : Nat := 0
  thr : Nat := 0
  bars : Nat := 0
  pages : Nat := 0
  words : Nat := 0
  scr : Nat := 0
  pool : Nat := 0
  deriving DecidableEq, Repr

def Held.add (a b : Held) : Held :=
  { blocks := a.blocks + b.blocks, thr := a.thr + b.thr, bars := a.bars + b.bars, pages := a.pages + b.pages
    words := a.words + b.words, scr := a.scr + b.scr, pool := a.pool + b.pool }

def Held.le (a b : Held) : Bool :=
  a.blocks ≤ b.blocks && a.thr ≤ b.thr && a.bars ≤ b.bars && a.pages ≤ b.pages && a.words ≤ b.words && a.scr ≤ b.scr && a.pool ≤ b.pool

/-- What a block holds. -/
def Block.held (k : Block) : Held :=
  { blocks := 1, thr := k.nthr, bars := k.bars, pages := blockPages k.regG k.nthr, words := blockWords k.regG k.regA
    scr := k.scr, pool := k.pool }

/-- What a block of a record takes. -/
def recHeld (ws : List Word) : Held :=
  { blocks := 1, thr := recNthr ws, bars := recBars ws, pages := blockPages (recRegG ws) (recNthr ws)
    words := blockWords (recRegG ws) (recRegA ws), scr := recScr ws, pool := recPool ws }

/-- What a core has (R12, R50, R121, R198). -/
def coreHas : Held := { blocks := 32, thr := 2048, bars := 96, pages := 512, words := 16384, scr := 524288, pool := 262144 }

/-- What a kernel of a context may hold on a core (R348, R274); threads and named barriers have no quota of their own. -/
def quotaOf (c : Ctx) (ws : List Word) : Held :=
  { blocks := min c.qb (recQblk ws), thr := coreHas.thr, bars := coreHas.bars, pages := c.qpg, words := c.qsw, scr := 1024 * c.qscr, pool := 1024 * c.qpool }

/-- Whether no quota field is 0 (R348). -/
def quotaSome (c : Ctx) : Bool := c.qb ≠ 0 && c.qpg ≠ 0 && c.qsw ≠ 0 && c.qscr ≠ 0 && c.qpool ≠ 0

/-! ## The front-end's checks (R127, R276) -/

def greedyOk (g : Nat) : Bool := g ≤ 1 || (64 ≤ g && g ≤ 4096)

/-- A PRED that is not before the entry's SEQ (R259). -/
def predBad (seq p : Word) : Bool := p ≠ 0 && (p = seq || !seqGe seq p)

/-- Whether a record is rejected with ERR 3 (R276). -/
def recBad (c : Ctx) (clusters : Bool) (ws : List Word) : Bool :=
  let preds := (recPreds ws).any (predBad (wordAt ws 1))
  if recType ws = 2 then
    preds || bits (wordAt ws 0) 23 0 ≠ 0
    || ((List.range 32).any fun i => 2 ≤ i && !(14 ≤ i && i ≤ 17) && wordAt ws i ≠ 0)
  else
    preds || bits (wordAt ws 0) 23 0 ≠ 0 || (dwordAt ws 2).toNat % 32 ≠ 0 || recGangs ws = 0
    || recBpg ws = 0 || recBpg ws > 8 || recNthr ws = 0 || recNthr ws > 1024
    || recRegG ws = 0 || recRegG ws + recRegA ws > 256
    || recScr ws > 524288 || recBars ws > 96 || bits (wordAt ws 6) 4 0 ≠ 0 || recPool ws > 262144
    || !greedyOk (recGreedy ws) || recAk ws > 20 || bits (wordAt ws 8) 19 14 > 32 || bits (wordAt ws 8) 13 0 ≠ 0
    || (wordAt ws 9).toNat % 4 ≠ 0 || (dwordAt ws 10).toNat % 128 ≠ 0
    || bits (wordAt ws 19) 7 0 ≠ 0 || bits (wordAt ws 21) 7 0 ≠ 0 || bits (wordAt ws 23) 31 8 ≠ 0
    || recBpg ws * recGangs ws > 2 ^ 32
    || ((List.range 8).any fun i => (wordAt ws 23).getLsbD i && i ≥ recRegG ws + recRegA ws)
    || !(clusters && quotaSome c && (recHeld ws).le (quotaOf c ws) && (recHeld ws).le coreHas)

/-! ## Queues (R258, R260) -/

/-- Port 0, which presents the virtual functions, is UP. -/
def State.hostUp (s : State) : Bool := (Tab.get {} s.dev.ports 0).st = 2

/-- A queue enters ERROR; vector 6 announces it once (R260, R264). -/
def State.qError (s : State) (c q err : Nat) : State :=
  (s.modQueue c q fun x => { x with st := .error, err := err }).say (.msix c 6)

def HQueue.room (x : HQueue) : Bool := (x.comp - x.ccons).toNat < 2 ^ x.ck

/-- The accepted nodes of a queue that have not completed, oldest first. -/
def State.openNodes (s : State) (c q : Nat) : List Node := (s.nodes.filter fun e => e.2.ctx = c && e.2.q = q).map Prod.snd

/-- Whether a context lets its queues fetch and its gangs be placed (R349). -/
def Ctx.runs (c : Ctx) : Bool := c.st = .active && !c.pend

/-- The states that a queue leaves once its accepted nodes are done (R260). -/
def State.queueSettle (s : State) (c q : Nat) : State :=
  let x := s.queue c q
  let idle := (s.openNodes c q).isEmpty && x.wait = []
  match x.st with
  | .running => if idle && x.cons = x.tail then s.modQueue c q fun x => { x with st := .enabled } else s
  | .draining => if idle then s.modQueue c q fun x => { x with st := .disabled, enable := false, drain := false } else s
  | .error =>
    if idle && !x.enable then s.modQueue c q fun x => { x with st := .disabled, err := 0, drain := false } else s
  | _ => s

/-- A completion record (R261). -/
def doneWords (status : Nat) (seq cseq : Word) (reln : Nat) : List Word :=
  [BitVec.ofNat 32 (status * 2 ^ 24), seq, cseq, BitVec.ofNat 32 (min reln (2 ^ 32 - 1)), 0, 0, 0, 0]

/-- Waiting completion records are posted, in order, while the ring has room (R260, R261, R264). -/
def State.postDone (s : State) (c q : Nat) : Nat → State
  | 0 => s
  | n + 1 =>
    let x := s.queue c q
    match x.wait with
    | [] => s.queueSettle c q
    | (status, seq, reln) :: rest =>
      if !(s.ctx c).records then s
      else if !x.room then
        if x.st = .running then s.modQueue c q fun x => { x with st := .stalled } else s
      else if !s.hostUp then
        if x.st = .enabled || x.st = .running || x.st = .stalled then s.qError c q 5 else s
      else
        let cseq := x.comp + 1
        let s := s.say (.hostWrite (x.cbase + BitVec.ofNat 64 (32 * (cseq.toNat % 2 ^ x.ck)))
          (wordBytes (doneWords status seq cseq reln)))
        let s := if x.msg then s else s.say (.msix c q)
        (s.modQueue c q fun x => { x with comp := cseq, wait := rest, msg := true }).postDone c q n

/-- All that waits is posted, as far as there is room. -/
def State.postAll (s : State) (c q : Nat) : State := s.postDone c q ((s.queue c q).wait.length + 1)

/-! ## The ready pool (R277, R278) -/

/-- The frame of a page for which PGQ would answer local HBM (R229, R278). -/
def homeFrame (s : State) (cn : Nat) (addr : DWord) : Option Nat :=
  let c := s.ctx cn
  match effective s cn addr with
  | .error _ => none
  | .ok a =>
    if a.loc ≠ 0 then none
    else if c.hv && objOf addr = 0xFFFFFF then some (poisonBase + 65536 * pageOf addr)
    else match walkTables s c addr 1 with
      | .error _ => none
      | .ok (_, pe, _) =>
        if c.gst then match stage2 s c (peFrame pe / 65536) 0 with
          | .ok r => some r.1
          | .error _ => none
        else some (peFrame pe)

/-- The compute die of a frame: half-stack div 6 (R216, R278). -/
def dieOf (frame : Nat) : Nat := frame / 2 ^ 35 / 6

/-- The preferred die of a record (R278). -/
def prefDie (s : State) (cn : Nat) (ws : List Word) : Option Nat :=
  let of (i : Nat) : Option Nat :=
    if bits (wordAt ws i) 7 0 = 0 then none
    else (homeFrame s cn (BitVec.ofNat 64 (bits (wordAt ws i) 31 8 * 2 ^ 40 + bits (wordAt ws (i + 1)) 31 8 * 65536))).map dieOf
  match of 18 with
  | some d => some d
  | none => of 20

/-- A node leaves the pool with its STATUS; its record is posted or waits (R261, R277, R280). -/
def State.nodeDone (s : State) (key : Nat) (n : Node) (status reln : Nat) : State :=
  let ns : Tab Node := (Tab.del s.nodes key).map fun (e : Nat × Node) =>
    (e.1, if status = 3 && e.2.ctx = n.ctx && e.2.q = n.q && e.2.preds.contains n.seq then { e.2 with predBad := true } else e.2)
  let s := ({ s with nodes := ns } : State).modQueue n.ctx n.q fun x =>
    { x with kept := Tab.put x.kept n.seq.toNat status, wait := x.wait ++ [(status, n.seq, reln)] }
  s.postAll n.ctx n.q

/-- Whether a PRED of a node counts as complete (R277): its record is posted, or it precedes every accepted node of the
queue that has not completed. -/
def State.predDone (s : State) (n : Node) (p : Word) : Bool :=
  let open_ := s.openNodes n.ctx n.q
  if open_.any (·.seq = p) then false
  else if (s.queue n.ctx n.q).wait.any fun (w : Nat × Word × Nat) => w.2.1 = p then
    open_.all fun m => seqGe m.seq p
  else true

/-- The first node that has become eligible, or that a PRED with STATUS 3 completes at once, of those whose contexts keep
records (R277). -/
def State.newlyReady (s : State) : Option (Nat × Node) :=
  s.nodes.find? fun (e : Nat × Node) => !e.2.elig && (s.ctx e.2.ctx).records
    && (e.2.predBad || e.2.preds.all (s.predDone e.2))

/-- The eligibility check, made after every acceptance and completion (R277). -/
def State.settleNodes (s : State) : Nat → State
  | 0 => s
  | fuel + 1 => match s.newlyReady with
    | none => s
    | some (k, n) =>
      if n.predBad then (s.nodeDone k n 3 0).settleNodes fuel
      else if recType n.ws = 2 then (s.nodeDone k n 1 0).settleNodes fuel
      else (s.modNode k fun n => { n with elig := true, die := prefDie s n.ctx n.ws }).settleNodes fuel

/-- All that has become eligible. -/
def State.checkNodes (s : State) : State := s.settleNodes (s.nodes.length + 1)

/-- A key above every node's and every waiting fire's. -/
def State.nodeKey (s : State) : Nat :=
  let fires := s.dev.fires.map fun f => match f.by_ with
    | .node k => k + 1
    | _ => 0
  (s.nodes.map fun e => e.1 + 1).foldl max (fires.foldl max 0)

/-- The code of a context leaves the instruction caches: a kernel launched now fetches it as it stands (R41). -/
def State.dropCode (s : State) (c : Nat) : State :=
  { s with cores := s.cores.map fun (e : Nat × Core) =>
      (e.1, { e.2 with icache := e.2.icache.filter fun (l : Nat × DWord × List Byte) => l.1 ≠ c }) }

/-- An entry is accepted (R41, R261, R277). -/
def State.accept (s : State) (c q : Nat) (ws : List Word) : State :=
  let x := s.queue c q
  let seq := wordAt ws 1
  let preds := (recPreds ws).filter (· ≠ 0)
  let isOpen (p : Word) : Bool := (s.openNodes c q).any (·.seq = p)
  let bad := preds.any fun p => !isOpen p && (seq - p).toNat ≤ 2 ^ x.qk && Tab.find x.kept p.toNat = some 3
  let n : Node := { ctx := c, q := q, seq := seq, ws := ws, preds := preds, predBad := bad }
  let s := s.modQueue c q fun x =>
    { x with cons := seq, kept := x.kept.filter fun e => (seq - BitVec.ofNat 32 e.1).toNat < 2 ^ x.qk }
  ({ s.dropCode c with nodes := Tab.put s.nodes s.nodeKey n } : State).checkNodes

/-! ## Events -/

/-- A TAIL write, and the stored TAIL when a queue is enabled (R260). -/
def State.tailApply (s : State) (c q : Nat) (v : Word) : State :=
  let x := s.queue c q
  let put (s : State) : State := s.modQueue c q fun x => { x with tail := v }
  if x.st = .disabled || x.st = .error || x.st = .draining then put s
  else if !seqGe v x.cons then s
  else if (v - x.cons).toNat > 2 ^ x.qk then (put s).qError c q 4
  else if x.st = .enabled && v ≠ x.cons then
    (put s).modQueue c q fun x => { x with st := if (s.ctx c).runs then .running else .stalled }
  else (put s).queueSettle c q

/-- TAIL_WRITE (R260). -/
def execTailWrite (vf q : Nat) (v : Word) (s : State) : Host.Outcome State Fault Refusal :=
  .next (if q < 4 then s.tailApply vf q v else s)

/-- QUEUE_ENABLE (R258, R260): a queue may enable while its context is ACTIVE (R349). -/
def execQueueEnable (vf q : Nat) (s : State) : Host.Outcome State Fault Refusal :=
  let x := s.queue vf q
  let ok := 4 ≤ x.qk && x.qk ≤ 16 && 4 ≤ x.ck && x.ck ≤ 16 && x.qbase.toNat % 128 = 0 && x.cbase.toNat % 128 = 0
  .next <|
    if q ≥ 4 || (s.ctx vf).st ≠ .active || x.st ≠ .disabled then s
    else
      let s := s.modQueue vf q fun x => { x with enable := true }
      if !ok then s.qError vf q 6
      else
        let s := s.modQueue vf q fun x => { x with st := .enabled }
        if x.tail ≠ x.cons && seqGe x.tail x.cons then s.tailApply vf q x.tail else s

/-- QUEUE_DISABLE (R260): ENABLE := 0 acts in ERROR. -/
def execQueueDisable (vf q : Nat) (s : State) : Host.Outcome State Fault Refusal :=
  .next <| if (s.queue vf q).st = .error then (s.modQueue vf q fun x => { x with enable := false }).queueSettle vf q else s

/-- QUEUE_DRAIN (R260). -/
def execQueueDrain (vf q : Nat) (s : State) : Host.Outcome State Fault Refusal :=
  let st := (s.queue vf q).st
  .next <| if st = .enabled || st = .running || st = .stalled then
      (s.modQueue vf q fun x => { x with st := .draining, drain := true }).queueSettle vf q
    else s

/-- A STALLED queue goes on where its context and its ring allow (R260). -/
def State.unstall (s : State) (c q : Nat) : State :=
  let x := s.queue c q
  if x.st = .stalled && x.room && (s.ctx c).runs then s.modQueue c q fun x => { x with st := .running } else s

/-- CCONS_WRITE (R260, R264). -/
def execCconsWrite (vf q : Nat) (v : Word) (s : State) : Host.Outcome State Fault Refusal :=
  .next <|
    if q ≥ 4 then s
    else
      let unread := (s.queue vf q).comp ≠ v
      let s := s.modQueue vf q fun x => { x with ccons := v, msg := unread }
      let s := if unread then s.say (.msix vf q) else s
      (((s.unstall vf q).postAll vf q).queueSettle vf q).checkNodes

/-- ENTRY_FETCH (R258 to R261, R276): `ws` is the entry as the host's ring holds it. -/
def execEntryFetch (vf q : Nat) (ws : List Word) (s : State) : Host.Outcome State Fault Refusal :=
  let x := s.queue vf q
  let c := s.ctx vf
  let ws := (List.range 32).map (wordAt ws)
  .next <|
    if q ≥ 4 || x.st ≠ .running || !c.runs || x.cons = x.tail || s.nodes.length ≥ 4096 then s
    else if !s.hostUp then s.qError vf q 5
    else if wordAt ws 1 ≠ x.cons + 1 then s.qError vf q 1
    else if recType ws ≠ 1 ∧ recType ws ≠ 2 then s.qError vf q 2
    else if recBad c ((s.part c.part).clusters ≠ 0) ws then s.qError vf q 3
    else s.accept vf q ws

/-- RING_ACCESS_TIMEOUT (R258): a read of the entry ring, or the write of a completion record that the host has not read
yet, is not completed in time. -/
def execRingAccessTimeout (vf q : Nat) (s : State) : Host.Outcome State Fault Refusal :=
  let x := s.queue vf q
  let reads := x.st = .running && (s.ctx vf).runs && x.cons ≠ x.tail && s.nodes.length < 4096
  let writes := (x.st = .enabled || x.st = .running || x.st = .stalled) && x.comp ≠ x.ccons
  .next <| if reads || writes then s.qError vf q 5 else s

end Sys2Proof.Machine
end

