-- ==== Sys2Proof/Machine/Window.lean ====
section
/-! DEFINITION. What becomes of the operations in a thread's window: performed, parked, failed, settled
(spec/08_operation.md R154 to R160), and the end of a wait (spec/07_group.md R122). -/

namespace Sys2Proof.Machine

/-! ## Checks -/

/-- An operation is its thread's oldest unsettled one (R156). -/
def Op.due (o : Op) (x : Thread) : Bool := x.hz = o.tk

/-- What the checks of an operation find now (R155, R185). -/
def opJudge (s : State) (t : Nat) (k : Block) (x : Thread) (o : Op) : Judged × State :=
  let lane := k.laneOf t
  match o.insn with
  | .mxdrain f => drainJudge s k t o f
  | .pgmove f => judgeMove s k.core k.ctx lane o.addr (wordAt o.aux 0) (f.func.getLsbD 0)
  | .enq f =>
    let e := f.engine.toNat
    if !o.due x then (.ok [], s) else if enqDead k e then (.fail 12, s)
    else if enqRoom k e then enqJudge s k t e else (.ok [], s)
  | .agdef _ => (if o.due x && agdefBad s k o then .fail 1 else .ok [], s)
  | .mldr f => mldrJudge s k t o f
  | .clstart _ =>
    -- What fails starts an abort, which no one may see before the thread's older operations (R156, R343).
    let r := clstartJudge s k t o
    (match r.1 with
      | .fail c => if o.due x then .fail c else .ok []
      | j => j, r.2.2)
  | i => match accOf i with
    | some a => judge s k.core k.ctx lane { a with gang := some k.gang } o.addr
    | none => (.ok [], s)

/-- Nothing of an operation is under way: what has been sent is answered. -/
def Op.still (o : Op) : Bool := o.parts.all fun p => p.done = some 0

/-- An operation of which nothing has begun at its target: its checks may still be made (R158, R218). Those of an MLDR at
this device itself come after the answers of the lower ranks (R342). -/
def Op.fresh (o : Op) : Bool := !o.perf && o.plan = [] && (o.parts = [] || opKind o.insn = 6 && o.still)

/-- An operation that a resume made OUTSTANDING and that still waits for an older one of its thread that had parked on the
same page: they retry in ticket order (R158). One that is held has retried once its checks pass. -/
def retryBlocked (s : State) (t : Nat) (k : Block) (x : Thread) (o : Op) : Bool :=
  o.retry && (x.before o.tk).any fun y =>
    y.st = .outstanding && y.retry && y.fresh && pageNo y.paddr = pageNo o.paddr
    && (!heldKind (opKind y.insn) || match (opJudge s t k x y).1 with
      | .ok _ => false
      | _ => true)

/-- Every request of an operation has been sent. -/
def Op.sent (o : Op) : Bool :=
  match o.insn with
  | .enq _ | .agdef _ | .clstart _ | .mldr _ => o.perf
  | .pgmove _ => o.parts ≠ []
  | _ => o.allSent

/-- The cause with which an operation fails by its parts: that of the first in order that is not performed (R184); a member
of an AGDEF that cannot be reached is cause 8 (R341). -/
def Op.partFailed (o : Op) : Option Nat :=
  ((o.parts.find? fun p => p.done ≠ some 0).bind Part.done).map fun c => match o.insn with
    | .agdef _ => if c = 5 then 8 else c
    | _ => c

/-! ## Performing -/

/-- The pieces of an access are performed or sent, as far as they can be now. -/
def State.performAccess (s : State) (b t : Nat) (k : Block) (o : Op) (a : Acc) : State :=
  let a : Acc := { a with gang := some k.gang }
  if o.plan ≠ [] then s.goOn b t o.tk a
  else match judge s k.core k.ctx (k.laneOf t) a o.addr with
  | (.ok ps, s) => s.begin_ b t o.tk a ps
  | (_, s) => s

/-- Whether an operation may go to its target: it has begun, or the thread's earlier accesses let it, and no retry comes
before it. -/
def mayGo (s : State) (b t : Nat) (k : Block) (x : Thread) (o : Op) : Bool :=
  !o.fresh || (mayPerform s b t k x o && !retryBlocked s t k x o)

/-- A store marked `.early` whose pages are all UO (R156). -/
def earlyStore (s : State) (k : Block) (t : Nat) (o : Op) : Bool :=
  match o.insn with
  | .st f => f.ord = 4 && match (judge s k.core k.ctx (k.laneOf t) { size := 2 ^ f.size, wr := true } o.addr).1 with
    | .ok ps => ps.all fun p => p.2.2.2.any fun t => t.att.ord = 2
    | _ => false
  | _ => false

/-- An operation that is not held goes to its target (R155). -/
def State.sendOp (s : State) (b t : Nat) (tk : BitVec 16) : State :=
  let s := s.fenceStep b t
  match s.opAt b t tk with
  | none => s
  | some (k, x, o) =>
    if o.st ≠ .outstanding || heldKind (opKind o.insn) || !mayGo s b t k x o then s
    else match o.insn with
      | .pgmove f => s.moveStep b t k o f
      | .mldr f => s.mldrStep b t k o f
      | i => match accOf i with
        | some a => s.performAccess b t k o a
        | none => s

/-- A held operation that may be performed is performed, as far as it can be now (R156). -/
def State.performOp (s : State) (b t : Nat) (tk : BitVec 16) : State :=
  let s := s.fenceStep b t
  match s.opAt b t tk with
  | none => s
  | some (k, x, o) =>
    if o.st ≠ .outstanding || !heldKind (opKind o.insn) || !mayGo s b t k x o then s
    else
      let early := !o.due x && earlyStore s k t o
      if !o.due x && !early then s
      else
        let s := match o.insn with
          | .mxdrain f => s.drainStep b t k o f
          | .enq f => s.enqWrite b t k o f.engine.toNat
          | .agdef f => s.agdefStep b t k o f
          | .clstart _ => s.clstartStep b t k o
          | i => match accOf i with
            | some a => s.performAccess b t k o a
            | none => s
        let s := if early && !o.begun && (s.opAt b t tk).any (fun e => e.2.2.begun) then
            s.modThr b t fun x => x.escape 4 (lo32 (o.pc - k.entry))
          else s
        s.modOp b t tk fun o => { o with perf := o.perf || o.sent }

/-- Whether an operation's settle condition holds (R155). -/
def opMet (s : State) (k : Block) (o : Op) : Bool :=
  match o.insn with
  | .enq _ | .agdef _ => o.perf && o.still
  | .clstart _ => o.perf && clstartMet s k o
  | .pgmove _ => o.parts ≠ [] && o.still
  | .mldr _ => o.perf && o.still
  | _ => o.allDone

/-- An operation whose condition holds settles. -/
def State.settleAny (s : State) (b t : Nat) (k : Block) (o : Op) : State :=
  match o.insn with
  | .mxdrain _ => s.drainSettle b t k o
  | .enq f => s.enqSettle b t o f.engine.toNat
  | .clstart _ => s.clstartSettle b t o
  | .mldr f => s.mldrSettle b t o f
  | .pgmove _ | .agdef _ => s.settleOp b t o.tk
  | _ => s.settleAccess b t o

/-- Requests of one operation are forgotten (R257). -/
def State.forgetOp (s : State) (b t : Nat) (tk : BitVec 16) : State :=
  s.forgetReqs fun p => match p.who with
    | .op b' t' k _ => b' = b && t' = t && k = tk
    | _ => false

/-! ## Events -/

/-- HELD_OPERATION_PERFORM (R156). -/
def execHeldOperationPerform (blk t tk : Nat) (s : State) : Host.Outcome State Fault Refusal :=
  .next (s.performOp blk t (BitVec.ofNat 16 tk))

/-- ENQ_SLOT_WRITE (R270): a due ENQ writes its slot now that the chain has room. -/
def execEnqSlotWrite (blk t tk : Nat) (s : State) : Host.Outcome State Fault Refusal :=
  match s.opAt blk t (BitVec.ofNat 16 tk) with
  | none => .next s
  | some (_, _, o) => match o.insn with
    | .enq _ => .next (s.performOp blk t o.tk)
    | _ => .next s

/-- OPERATION_SETTLE (R155): what is not held may be performed with it; an operation whose condition then does not hold
stays as it was. -/
def execOperationSettle (blk t tk : Nat) (s : State) : Host.Outcome State Fault Refusal :=
  match s.opAt blk t (BitVec.ofNat 16 tk) with
  | none => .next s
  | some (_, _, o) =>
    if o.st ≠ .outstanding then .next s
    else
      let s' := s.sendOp blk t o.tk
      match s'.opAt blk t o.tk with
      | none => .next s'
      | some (k, _, o) => if opMet s' k o then .next (s'.settleAny blk t k o) else .next s

/-- OPERATION_PARK (R158). -/
def execOperationPark (blk t tk : Nat) (s : State) : Host.Outcome State Fault Refusal :=
  match s.opAt blk t (BitVec.ofNat 16 tk) with
  | none => .next s
  | some (k, x, o) =>
    if o.st ≠ .outstanding || !o.fresh || retryBlocked s t k x o then .next s
    else match opJudge s t k x o with
      | (.park c g a, s) =>
        .next ((s.modOp blk t o.tk fun o => { o with st := .parked, cause := c, gfn := g, paddr := a, retry := false }).postFault
          k c (opKind o.insn) o.tk t a g)
      | _ => .next s

/-- The cause with which an operation fails now: of a part, of a member of its group that cannot be reached, of its
checks. -/
def failCause (s : State) (t : Nat) (k : Block) (x : Thread) (o : Op) : Option Nat :=
  let lost : Option Nat := match o.insn with
    | .clstart _ => if o.perf && clstartLost s k o then some 8 else none
    | _ => none
  match o.partFailed, lost with
  | some c, _ => some c
  | none, some c => some c
  | none, none =>
    if !o.fresh || retryBlocked s t k x o then none
    else match opJudge s t k x o with
      | (.fail c, _) => some c
      | _ => none

/-- OPERATION_FAIL (R160). -/
def execOperationFail (blk t tk : Nat) (s : State) : Host.Outcome State Fault Refusal :=
  match s.opAt blk t (BitVec.ofNat 16 tk) with
  | none => .next s
  | some (k, x, o) =>
    if o.st ≠ .outstanding then .next s
    else match failCause s t k x o with
      | none => .next s
      | some c =>
        let s := match o.insn with
          | .clstart _ => s.clstartFailed k t o c
          | _ => s
        .next ((s.forgetOp blk t o.tk).modOp blk t o.tk fun o => { o with st := .failed, cause := c, retry := false })

/-- WAIT_END (R122): the wait at which a ripple stands, whichever it is. -/
def execWaitEnd (blk rip : Nat) (s : State) : Host.Outcome State Fault Refusal :=
  match ((s.blk blk).bind fun k => Tab.find k.rip rip).bind Ripple.busy with
  | some (.hwait _) => execHwaitEnd blk rip s
  | some (.barw _) | some (.bars _) | some (.gbar _) => execBarrierWaitEnd blk rip s
  | some (.ewait _) => execEwaitEnd blk rip s
  | some (.cwait _) => execCwaitEnd blk rip s
  | some (.mxwait _) => execMxwaitEnd blk rip s
  | some (.clwait _) => execClwaitEnd blk rip s
  | _ => .next s

end Sys2Proof.Machine
end

