-- ==== Sys2Proof/Machine/Save.lean ====
section
/-! DEFINITION. Saving a pre-empted gang (spec/25_context.md R354, R355; spec/08_operation.md R165;
spec/03_register.md R59; spec/10_barrier.md R209; spec/19_tile.md R309). -/

namespace Sys2Proof.Machine

/-! ## When a gang may be saved (R133, R134, R165) -/

/-- Whether a ripple's next instruction waits for a bank (R291). DESIGN CHOICE: the loops of a STOPPING gang do not run
(R309), so an instruction that they keep from its bank stalls for the bank, and so does an MXLOOP where they alone hold every
place of the sequencer's queue, since no place becomes free before the save (log entry 39). -/
def State.bankStall (s : State) (b : Nat) (k : Block) (rp : Ripple) : Bool :=
  match rp.threads.head?.bind fun t => Tab.find k.thr t with
  | none => false
  | some x => match fetchBlock s k.core k.ctx (blockAddr x.pc) with
    | .bytes bs _ => match parseAt (x.pc.toNat % 32) bs with
      | .ok i =>
        let on := rp.threads.filter fun t => (Tab.find k.thr t).any fun x => guardHolds (instrGuard i) x.p
        s.bankWaits k b on i || (match i with
          | .mxloop _ => on.length = 1 && (s.core k.core).loops.length ≥ 4
              && (s.core k.core).loops.all fun l => (s.blk l.blk).any s.stopping
          | _ => false)
      | _ => false
    | _ => false

/-- The wait instructions (R122). -/
def isWait (i : Instr) : Bool :=
  match i with
  | .hwait _ | .ewait _ | .cwait _ | .barw _ | .bars _ | .gbar _ | .mxwait _ | .clwait _ => true
  | _ => false

/-- Whether every thread of a block is at a switch point, HELD, WAITING or EXITED. -/
def State.blockRests (s : State) (b : Nat) (k : Block) : Bool :=
  k.rip.all fun (e : Nat × Ripple) =>
    let rest (t : Nat) : Bool := (Tab.find k.thr t).any fun x => x.rest || x.st ≠ .running
    e.2.stall.isSome || e.2.busy.any isWait || e.2.threads.all rest || (e.2.busy.isNone && s.bankStall b k e.2)

/-- Whether a chain has done what it does of its command before a save (R265). -/
def Chain.quiet (e : Nat) (c : Chain) : Bool :=
  match c.cmd with
  | none => true
  | some m => e = 2 || (m.pieces.all (fun p => p.st = .done || p.st = .parked)
    && if e = 3 then m.pieces ≠ [] else m.next ≥ cmdLen m.ws)

/-- Whether an operation that is OUTSTANDING waits, with nothing begun, for one that has PARKED or FAILED, so that it can
neither settle nor park nor fail before the save: it is cancelled as it stands (R154, R165). An ENQ that is due waits so
for a chain that is quiet and full (R270). -/
def State.opWaits (s : State) (b t : Nat) (k : Block) (x : Thread) (o : Op) : Bool :=
  let stopped (y : Op) : Bool := y.st = .parked || y.st = .failed
  let own := (x.before o.tk).any stopped && ((heldKind (opKind o.insn) && !o.due x) || !mayGo s b t k x o)
  let mate := o.prior.any fun e => (s.opAt b e.1 e.2).any fun r => stopped r.2.2
  let full := match o.insn with
    | .enq f => o.due x && !enqRoom k f.engine.toNat && (k.chainOf f.engine.toNat).quiet f.engine.toNat
    | _ => false
  o.fresh && (own || mate || full)

/-- Whether a thread's operations are quiesced: none is OUTSTANDING but such as wait for one that is not, and none that
FAILED is at the horizon, unless the thread is in a barrier wait, which its trap follows (R160, R165). -/
def State.threadQuiet (s : State) (b t : Nat) (k : Block) (x : Thread) : Bool :=
  let inBarrier := x.st = .waiting && (k.ripOf t).any fun e => e.2.2.busy.any barrierWait
  x.win.all (fun o => o.st ≠ .outstanding || s.opWaits b t k x o)
  && (inBarrier || !(x.win.head?.any fun o => o.st = .failed))

/-- Whether a block of a STOPPING gang may be saved: nothing of it is under way. -/
def State.blockQuiet (s : State) (b : Nat) (k : Block) : Bool :=
  s.blockRests b k && k.thr.all (fun (e : Nat × Thread) => s.threadQuiet b e.1 k e.2)
  && k.chain.all (fun (e : Nat × Chain) => e.2.quiet e.1)
  && !((s.core k.core).loops.any fun l => l.blk = b && l.running)
  && !(s.dev.fires.any fun f => f.by_ = .chain b && f.sent)
  && !(s.dev.reqs.any fun e => match e.2.who with
    | .frame b' _ => b' = b
    | _ => false)

/-! ## The record (R354, R355) -/

/-- The register part (R59). -/
def Block.registerPart (k : Block) : List Word :=
  let n := k.regG + k.regA
  let tag (i : Nat) : Nat := if i < n then (k.vreg i).tag else 0
  let tagWord (w : Nat) : Word := BitVec.ofNat 32 (((List.range 16).map fun j => tag (16 * w + j) * 4 ^ j).sum)
  let value (i : Nat) : List Word := match k.vreg i with
    | .u x => [x]
    | .a x y => [x, y]
    | .g ws => (List.range k.nthr).map (Tab.get 0 ws)
  let threads := (List.range k.nthr).map fun t => (Tab.find k.thr t).getD { pc := 0 }
  BitVec.ofNat 32 (k.nthr * 2 ^ 18 + k.regA * 2 ^ 9 + k.regG) :: (List.range ((n + 15) / 16)).map tagWord
  ++ (List.range n).flatMap value ++ threads.flatMap (fun x => (List.range 16).map (Tab.get 0 x.o))
  ++ threads.map fun x => x.p.setWidth 32

/-- The value and the valid bit of a latch as a thread record holds them. -/
def Latch.valid (l : Latch) : Nat := if l = .invalid then 0 else 1
def Latch.saved (l : Latch) : List Word :=
  match l with
  | .val x => splitDWord x
  | _ => [0, 0]

/-- Whether a thread is at a fetch stall or a bank stall, where it keeps its latches (R47, R134). -/
def State.stalls (s : State) (b : Nat) (k : Block) (t : Nat) : Bool :=
  (k.ripOf t).any fun e => e.2.2.stall.isSome || (e.2.2.busy.isNone && s.bankStall b k e.2.2)

/-- A thread record (R355); `kept` where the thread keeps its latches. -/
def Block.threadRecord (k : Block) (kept : Nat → Bool) (t : Nat) : List Word :=
  match Tab.find k.thr t with
  | none => List.replicate 24 0
  | some x =>
    let at_ := (k.ripOf t).map fun (e : Nat × Nat × Ripple) => (e.1 % 2 ^ 11, e.2.1)
    let st := match x.st with
      | .running => 0
      | .held => 1
      | .waiting => 2
      | .exited => 3
    let l (i : Latch) : Latch := if kept t then i else .invalid
    let lv := (l x.l0).valid + 2 * (l x.l1).valid + 4 * (l x.l2).valid + 8 * (l x.l3).valid
    splitDWord x.pc ++ [x.meet, x.tnext ++ x.tnext,
      BitVec.ofNat 32 (x.handler.toNat * 2 ^ 31 + st * 2 ^ 29 + (at_.map Prod.fst).getD 0 * 2 ^ 16
        + (at_.map Prod.snd).getD 0 * 2 ^ 11 + lv * 2 ^ 6 + x.esc.mark.toNat * 2 ^ 5 + x.fflags.toNat),
      x.clkhi,
      BitVec.ofNat 32 ((x.win.filter (·.st ≠ .settled)).length * 2 ^ 24 + x.esc.n * 2 ^ 16 + x.esc.w.toNat),
      if x.st = .waiting then x.wtok else 0]
    ++ ((x.esc.log.flatMap fun (e : Word × Nat) => [e.1, BitVec.ofNat 32 e.2]) ++ List.replicate 8 0).take 8
    ++ (l x.l0).saved ++ (l x.l1).saved ++ (l x.l2).saved ++ (l x.l3).saved

/-- The words of a bit mask, 32 bits each. -/
def maskWords (m : BitVec 1024) : List Word := (List.range 32).map fun i => m.extractLsb' (32 * i) 32

/-- The pieces of a command counted among the sixteen from its first uncounted one. -/
def Cmd.countedMask (m : Cmd) : Nat :=
  let rest := (m.pieces.filter fun p => p.off ≥ m.prefix_).take 16
  ((rest.zipIdx).map fun e => if e.1.st = .done then 2 ^ e.2 else 0).sum

/-- The eight words of a chain. -/
def Block.chainRecord (k : Block) (e : Nat) : List Word :=
  let c := k.chainOf e
  [c.nq, c.head, c.eseq, c.wp, chainWord k e, BitVec.ofNat 32 ((c.cmd.map Cmd.prefix_).getD 0),
   BitVec.ofNat 32 ((c.cmd.map Cmd.countedMask).getD 0), 0]

/-- The eight words of a reservation. -/
def rsvRecord (r : Rsv) : List Word :=
  (List.range 4).map (wordAt r.ws) ++ [BitVec.ofNat 32 r.fp, BitVec.ofNat 32 r.sfp, BitVec.ofNat 32 r.mfp, slotWord r]

/-- 16,384 elements. -/
def elements (els : Tab Word) : List Word := (List.range 16384).map (Tab.get 0 els)

/-- A bank record. -/
def bankRecord (n loops : Nat) (x : Bank) : List Word :=
  [BitVec.ofNat 32 (n + 2 * x.fl.toNat), BitVec.ofNat 32 loops, 0, 0] ++ elements x.els

/-- A block record without its first word. -/
def State.blockRecord (s : State) (b : Nat) (k : Block) : List Word :=
  let c := s.core k.core
  let held := [0, 1].filter fun n => (c.bankOf n).owner = some b
  let loops (n : Nat) : List Loop := s.bankLoops k b n
  let loopWords (l : Loop) : List Word := insnWords (.mxloop l.f) ++ [BitVec.ofNat 32 l.steps, 0, 0, 0]
  let ts := List.range k.nthr
  [BitVec.ofNat 32 (k.gblk * 2 ^ 8 + k.bars), BitVec.ofNat 32 k.scr, BitVec.ofNat 32 k.pool, 0, 0, 0, 0]
  ++ k.registerPart ++ ts.flatMap (k.threadRecord (s.stalls b k))
  ++ ts.flatMap (fun t => match Tab.find k.thr t with
      | some x => (x.win.filter (·.st ≠ .settled)).flatMap fun o => o.entryWords true 0
      | none => [])
  ++ (List.range k.bars).flatMap (fun n => (List.range 4).map (k.barOf n).word ++ maskWords (k.barOf n).mask)
  ++ (List.range 4).flatMap (fun n => maskWords (Tab.get 0 k.garr n))
  ++ (List.range 4).flatMap k.chainRecord ++ (List.range 8).flatMap (fun n => rsvRecord (k.rsvOf n))
  ++ held.flatMap (fun n => bankRecord n (loops n).length (c.bankOf n)) ++ held.flatMap (fun n => (loops n).flatMap loopWords)
  ++ (c.drain.filter fun e => e.2.blk = b).flatMap (fun e => [BitVec.ofNat 32 e.1, 0] ++ elements e.2.els)
  ++ bytesWords ((k.scr + 3) / 4) (Memory.read k.scratch 0 k.scr)
  ++ bytesWords ((k.pool + 3) / 4) (Memory.read k.poolMem 0 k.pool)

/-- The gang record (R354). -/
def State.gangRecord (s : State) (g : Gang) (ks : List (Nat × Block)) : List Word :=
  let n := Tab.find s.nodes g.node
  let ph (i : Nat) : BitVec 16 := Tab.get 0 g.gb i
  let body := ks.flatMap fun e => let ws := s.blockRecord e.1 e.2
                                  BitVec.ofNat 32 (ws.length + 1) :: ws
  [BitVec.ofNat 32 (body.length + 8), BitVec.ofNat 32 g.gidx, (n.map Node.seq).getD 0, BitVec.ofNat 32 ks.length,
   ph 1 ++ ph 0, ph 3 ++ ph 2, BitVec.ofNat 32 g.rel, 0] ++ body

/-! ## Room in the save area -/

/-- The records that a context keeps: offset and length. -/
def State.savedSpans (s : State) (c : Nat) : List (Nat × Nat) :=
  s.gangs.filterMap fun (e : Nat × Gang) => if e.2.ctx = c then e.2.saved.map fun r => (r.off, (r.len + 127) / 128 * 128) else none

/-- The lowest offset with room for `n` bytes (R354). -/
def saveRoom (spans : List (Nat × Nat)) (size n : Nat) : Option Nat :=
  (sortNat (0 :: spans.map fun e => e.1 + e.2)).find? fun o =>
    o + n ≤ size && spans.all fun e => e.1 + e.2 ≤ o || o + n ≤ e.1

/-- A piece of a save record by page of its table address: where it lies, offset and length (R210, R215). -/
def savePlaces (s : State) (c : Ctx) (a n : Nat) : Option (List (Nat × Nat × Nat)) :=
  (pageParts (BitVec.ofNat 64 a) n).foldr (fun p r => r.bind fun l => match taddr s c p.2.1.toNat with
    | .ok x => if tableOk x p.2.2 then some ((x, p.1, p.2.2) :: l) else none
    | .error _ => none) (some [])

/-! ## GANG_SAVE -/

/-- What the record keeps of a block's share of its core: banks, loops, drain buffers, waiting fires. -/
def State.share (s : State) (pos b : Nat) (k : Block) (r : Saved) : Saved :=
  let c := s.core k.core
  { r with
    banks := r.banks ++ (c.bank.filter fun e => e.2.owner = some b).map fun e => (pos, e.1, e.2)
    loops := r.loops ++ (c.loops.filter fun l => l.blk = b).map fun l => (pos, l)
    drains := r.drains ++ (c.drain.filter fun e => e.2.blk = b).map fun e => (pos, e.1, e.2.els)
    fires := r.fires ++ (s.dev.fires.filter fun f => f.by_ = .chain b).map fun f => (pos, f) }

/-- A STOPPING gang all of whose blocks are quiet is saved and becomes PREEMPTED (R133, R354). -/
def State.saveGang (s : State) (g : Nat) (k : Gang) (ks : List (Nat × Block)) : State :=
  let c := s.ctx k.ctx
  let bs := wordBytes (s.gangRecord k ks)
  match saveRoom (s.savedSpans k.ctx) (4096 * c.savn.toNat) bs.length with
  | none => s.ctxFault k.ctx 2
  | some off => match savePlaces s c (c.savb.toNat + off) bs.length with
    | none => s.ctxFault k.ctx 3
    | some ps =>
      let s := ps.foldl (fun s p => { s with hbm := Memory.write s.hbm p.1 ((bs.drop p.2.1).take p.2.2) }) s
      let r := (ks.zipIdx).foldl (fun r e => s.share e.2 e.1.1 e.1.2 r)
        ({ off := off, len := bs.length, blocks := ks.map Prod.snd } : Saved)
      let s := (ks.map Prod.fst).foldl State.dropBlock s
      let s := s.modGang g fun k => { k with st := .preempted, blocks := [], saved := some r }
      (s.modCtx k.ctx fun c => { c with savu := c.savu + BitVec.ofNat 32 ((bs.length + 127) / 128) }).preemptDone k.ctx

/-- GANG_SAVE (R133). -/
def execGangSave (g : Nat) (s : State) : Host.Outcome State Fault Refusal :=
  match Tab.find s.gangs g with
  | none => .next s
  | some k =>
    let ks := k.blocks.filterMap fun b => (s.blk b).map fun x => (b, x)
    .next <| if k.st = .stopping && ks.all (fun e => s.blockQuiet e.1 e.2) then s.saveGang g k ks else s

end Sys2Proof.Machine
end

