-- ==== Sys2Proof/Machine/Restore.lean ====
section
/-! DEFINITION. Restoring a pre-empted gang from its record in the save area (spec/25_context.md R354, R355;
spec/08_operation.md R165; spec/03_register.md R59; spec/10_barrier.md R209; spec/19_tile.md R309). What the record has
no field for the device keeps in the gang (log entry 38). -/

namespace Sys2Proof.Machine

/-! ## The record, read -/

/-- The table of what a list holds, without the default. -/
def tabOf {α : Type} [DecidableEq α] (d : α) (l : List α) : Tab α := (l.zipIdx.filter fun e => e.1 ≠ d).map fun e => (e.2, e.1)

/-- The mask of 32 words. -/
def maskOf (ws : List Word) : BitVec 1024 := BitVec.ofNat 1024 ((List.range 32).map fun i => (wordAt ws i).toNat * 2 ^ (32 * i)).sum

/-- The v registers with the given tag codes in a block of `n` threads, and the words after them (R59). -/
def readValues (n : Nat) : List Nat → List Word → List VVal × List Word
  | [], ws => ([], ws)
  | t :: ts, ws =>
    let (x, m) : VVal × Nat := match t with
      | 0 => (.u (wordAt ws 0), 1)
      | 1 => (.a (wordAt ws 0) (wordAt ws 1), 2)
      | _ => (.g (tabOf 0 (ws.take n)), n)
    let r := readValues n ts (ws.drop m)
    (x :: r.1, r.2)

/-- The register part, and the words after it (R59). -/
def Block.readRegisters (k : Block) (ws : List Word) : Block × List Word :=
  let n := k.regG + k.regA
  let tags := (List.range n).map fun i => (wordAt ws (1 + i / 16)).toNat / 4 ^ (i % 16) % 4
  let (vs, rest) := readValues k.nthr tags (ws.drop (1 + (n + 15) / 16))
  ({ k with
     v := tabOf (.u 0) vs
     thr := k.thr.map fun (e : Nat × Thread) => (e.1, { e.2 with
       o := tabOf 0 ((rest.drop (16 * e.1)).take 16)
       p := (wordAt rest (16 * k.nthr + e.1)).setWidth 7 }) }, rest.drop (17 * k.nthr))

/-- A replay record's operation (R164, R165); `x` is the thread that was saved. -/
def Thread.readOp (x : Thread) (ws : List Word) : Option Op :=
  let tk := (wordAt ws 0).extractLsb' 0 16
  let old := x.win.find? fun o => o.tk = tk && o.st ≠ .settled
  let dest := Sel.ofCode ((wordAt ws 1).extractLsb' 0 9)
  let insn : Option Instr := match parseWords ((ws.drop 6).take 4) with
    | .ok i => some (if writesReg (opKind i) && old.all (·.dest ≠ dest) then withDest i dest else i)
    | .error _ => old.map Op.insn
  let addr := dwordAt ws 4
  insn.map fun i =>
    let lines : List Nat := match accOf i with
      | some a => if opKind i = 7 then [] else lineNumbers addr a.size
      | none => []
    { old.getD { tk := tk, pc := 0, insn := i } with
      tk := tk, pc := dwordAt ws 2, insn := i, addr := addr, dest := dest
      data := (wordBytes (ws.drop 16)).take (bits (wordAt ws 1) 23 16)
      buf := if (wordAt ws 10).getLsbD 1 then some (bits (wordAt ws 10) 0 0) else none
      lines := match old with
        | some o => if o.insn = i && o.addr = addr then o.lines else lines
        | none => lines }

/-- A latch as its LV bit and LATCH words give it; one that waits for a replayed operation goes on waiting (R46). -/
def Latch.readRecord (l : Latch) (valid : Bool) (x : DWord) (ops : List Op) : Latch :=
  if !valid then .invalid
  else match l with
    | .pending tk => if ops.any (·.tk = tk) then l else .val x
    | _ => .val x

/-- A thread as its thread record gives it, with its replayed operations (R355). -/
def Thread.readRecord (x : Thread) (ws : List Word) (ops : List Op) : Thread :=
  let w4 := wordAt ws 4
  let n := bits (wordAt ws 6) 23 16
  let st : TSt := match bits w4 30 29 with
    | 0 => .running
    | 1 => .held
    | 2 => .waiting
    | _ => .exited
  let latch (i : Nat) (l : Latch) : Latch := l.readRecord (w4.getLsbD (6 + i)) (dwordAt ws (16 + 2 * i)) ops
  { x with
    pc := dwordAt ws 0, st := st, handler := w4.getLsbD 31, meet := wordAt ws 2
    tnext := (wordAt ws 3).extractLsb' 16 16, win := ops
    fflags := w4.extractLsb' 0 5, clkhi := wordAt ws 5
    esc := { mark := w4.getLsbD 5, n := n, w := (wordAt ws 6).extractLsb' 0 16
             log := (List.range (min n 4)).map fun i => (wordAt ws (8 + 2 * i), bits (wordAt ws (9 + 2 * i)) 7 0) }
    wtok := if st = .waiting then wordAt ws 7 else x.wtok
    arr := x.arr || st = .waiting && x.st ≠ .waiting
    l0 := latch 0 x.l0, l1 := latch 1 x.l1, l2 := latch 2 x.l2, l3 := latch 3 x.l3 }

/-- The number of the ripple that RIP names for a thread: of the saved block's ripples the one whose number it is modulo
2048, the thread's own first. -/
def Block.ripNumber (k : Block) (t n : Nat) : Nat :=
  let other := ((k.rip.find? fun e => e.1 % 2 ^ 11 = n).map Prod.fst).getD n
  match k.ripOf t with
  | some (r, _, _) => if r % 2 ^ 11 = n then r else other
  | none => other

/-- The ripples that the RIP and SLOT fields of the threads `thr` give; `k` is the saved block (R355). -/
def Block.readRipples (k : Block) (thr : Tab Thread) (w4 : Nat → Word) : Tab Ripple :=
  thr.foldl (fun (rs : Tab Ripple) e =>
    if e.2.st = .exited then rs
    else
      let r := k.ripNumber e.1 (bits (w4 e.1) 26 16)
      let rp : Ripple := (Tab.find rs r).getD { slots := [], sched := 0, busy := (Tab.find k.rip r).bind Ripple.busy }
      let slot := bits (w4 e.1) 15 11
      let slot := if (Tab.find rp.slots slot).isNone then slot else Tab.freeFrom rp.slots 0
      Tab.put rs r { rp with slots := Tab.put rp.slots slot e.1 }) []

/-- A named barrier (R209). -/
def readBar (ws : List Word) : Bar :=
  let w := wordAt ws 0
  { phase := w.extractLsb' 16 16, ovf := w.getLsbD 13, init := w.getLsbD 12, arrived := bits w 10 0
    expect := bits (wordAt ws 1) 10 0, xbytes := (wordAt ws 2).toNat, bytes := (wordAt ws 3).toNat, mask := maskOf (ws.drop 4) }

/-- A running command's pieces, as the bytes `pre` below which every piece has counted and the mask of the next 16
give them. -/
def Cmd.readRecord (m : Cmd) (pre : Nat) (mask : Word) : Cmd :=
  let rest := (m.pieces.filter fun p => p.off ≥ pre).map Piece.off
  { m with pieces := m.pieces.map fun p => match rest.findIdx? (· = p.off) with
      | none => { p with st := .done }
      | some i =>
        if i < 16 then
          if mask.getLsbD i then { p with st := .done } else if p.st = .done then { p with st := .ready } else p
        else p }

/-- A chain (R271, R354). -/
def Chain.readRecord (c : Chain) (ws : List Word) : Chain :=
  let w := wordAt ws 4
  let bad := bits w 31 30 = 2
  let same := c.head = wordAt ws 1
  { c with
    nq := wordAt ws 0, head := wordAt ws 1, eseq := wordAt ws 2, wp := wordAt ws 3
    err := if bad then bits w 29 24 else 0
    cause := if bad then bits w 23 16 else 0
    park := if same then c.park else none
    cmd := if same then c.cmd.map fun m => m.readRecord (wordAt ws 5).toNat (wordAt ws 6) else none }

/-- A reservation slot (R306, R354). -/
def Rsv.readRecord (r : Rsv) (ws : List Word) : Rsv :=
  let four (l : List Word) : List Word := (List.range 4).map (wordAt l)
  let st : RsvSt := match bits (wordAt ws 7) 31 29 with
    | 0 => .free
    | 1 => .reserved
    | 2 => .filling
    | 3 => .ready
    | 4 => .inUse
    | _ => .released
  { r with st := st, ws := if four r.ws = four ws then r.ws else four ws
           fp := (wordAt ws 4).toNat, sfp := (wordAt ws 5).toNat, mfp := (wordAt ws 6).toNat }

/-- A block as the first parts of its record give it, and the words after them, at its bank records (R354). -/
def Block.readRecord (k : Block) (ws : List Word) : Block × List Word :=
  let (k', ws) := k.readRegisters (ws.drop 8)
  let recs := ws
  let thr := k'.thr.foldl (fun (acc : Tab Thread × List Word) e =>
    let r := (recs.drop (24 * e.1)).take 24
    let n := min 32 (bits (wordAt r 6) 29 24)
    let ops := (List.range n).filterMap fun i => e.2.readOp ((acc.2.drop (32 * i)).take 32)
    (acc.1 ++ [(e.1, e.2.readRecord r ops)], acc.2.drop (32 * n))) ([], ws.drop (24 * k.nthr))
  let rip := k.readRipples thr.1 fun t => wordAt recs (24 * t + 4)
  let ws := thr.2
  let bars := (List.range k.bars).map fun n => readBar (ws.drop (36 * n))
  let ws := ws.drop (36 * k.bars)
  let garr := (List.range 4).map fun n => maskOf (ws.drop (32 * n))
  let ws := ws.drop 128
  let chains := (List.range 4).map fun e => (k.chainOf e).readRecord ((ws.drop (8 * e)).take 8)
  let ws := ws.drop 32
  let rsvs := (List.range 8).map fun n => (k.rsvOf n).readRecord ((ws.drop (8 * n)).take 8)
  ({ k' with
     thr := thr.1, rip := rip, nextRip := rip.foldl (fun n e => max n (e.1 + 1)) k.nextRip
     bar := tabOf {} bars, garr := tabOf 0 garr, chain := tabOf {} chains, rsv := tabOf {} rsvs }, ws.drop 64)

/-- A loop that is found at place `i` of the queued loops of a record (R354). -/
def Loop.readRecord (l : Loop) (i : Nat) (ws : List Word) : Loop :=
  let ws := (ws.drop (8 * i)).take 8
  { l with steps := (wordAt ws 4).toNat
           f := match parseWords (ws.take 4) with
             | .ok (.mxloop f) => { f with bank := l.f.bank }
             | _ => l.f }

/-- What the record gives block `pos` of its core: banks, loops and drain buffers, and the words after them (R354). -/
def Saved.readShare (r : Saved) (pos : Nat) (ws : List Word) :
    List (Nat × Bank) × List Loop × List (Nat × Tab Word) × List Word :=
  let els (ws : List Word) : Tab Word := tabOf 0 (ws.take 16384)
  let mine := (r.banks.filter fun e => e.1 = pos).map Prod.snd
  let banks := mine.zipIdx.map fun e =>
    let ws := ws.drop (16388 * e.2)
    (e.1.1, { e.1.2 with els := els (ws.drop 4), fl := (wordAt ws 0).extractLsb' 1 3 })
  let ws := ws.drop (16388 * mine.length)
  let ls := (r.loops.filter fun e => e.1 = pos).map Prod.snd
  let order := mine.flatMap fun e => (ls.filter fun l => l.f.bank.toNat = e.1).map Loop.id
  let loops := ls.map fun l => match order.findIdx? (· = l.id) with
    | some i => l.readRecord i ws
    | none => l
  let ws := ws.drop (8 * order.length)
  let ds := (r.drains.filter fun e => e.1 = pos).map Prod.snd
  let drains := ds.zipIdx.map fun e => (e.1.1, els (ws.drop (16386 * e.2 + 2)))
  (banks, loops, drains, ws.drop (16386 * ds.length))

/-! ## Restore (R355) -/

/-- A key above every block's and every waiting fire's. -/
def State.blockKey (s : State) : Nat :=
  let fires := s.dev.fires.map fun f => match f.by_ with
    | .chain b => b + 1
    | _ => 0
  (s.blocks.map fun e => e.1 + 1).foldl max (fires.foldl max 0)

/-- The least block slot of a core that is free, one of a gang that has left RUNNING among them, and the next place in the
core's placement order (R126, R133). -/
def State.freeSlot (s : State) (core : Nat) : Nat :=
  let used := (s.blocks.filter fun e => e.2.core = core && (Tab.find s.gangs e.2.gang).all (·.st ≠ .exited)).map fun e => e.2.slot
  ((List.range 32).find? fun n => !used.contains n).getD 32
def State.nextOrder (s : State) (core : Nat) : Nat :=
  ((s.blocks.filter fun e => e.2.core = core).map fun e => e.2.order + 1).foldl max 0

/-- The new ticket of an operation that is re-issued: its place among the thread's replay records (R165). -/
def Thread.newTicket (x : Thread) (tk : BitVec 16) : Option (BitVec 16) :=
  let ops := x.win.filter (·.st ≠ .settled)
  (ops.zipIdx.find? fun e => e.1.tk = tk).map fun e => x.tnext + BitVec.ofNat 16 e.2

/-- A latch that waits for a re-issued operation waits for its new ticket (R46). -/
def Latch.renew (x : Thread) (l : Latch) : Latch :=
  match l with
  | .pending tk => match x.newTicket tk with
    | some n => .pending n
    | none => l
  | _ => l

/-- A thread as restore leaves it: its replay records issued again with new tickets (R165, R355). -/
def Thread.restored (k : Block) (buf : Nat → Nat) (x : Thread) : Thread :=
  let ops := x.win.filter (·.st ≠ .settled)
  let older (tk : BitVec 16) : Nat := (ops.filter fun o => (x.tnext - tk).toNat < (x.tnext - o.tk).toNat).length
  let prior (e : Nat × BitVec 16) : Option (Nat × BitVec 16) :=
    (Tab.find k.thr e.1).bind fun y => (y.newTicket e.2).map fun n => (e.1, n)
  { x with
    rest := false
    tnext := x.tnext + BitVec.ofNat 16 ops.length
    win := ops.zipIdx.map fun e =>
      { e.1 with tk := x.tnext + BitVec.ofNat 16 e.2, st := .outstanding, cause := 0, gfn := 0, perf := false, parts := []
                 plan := [], retry := false, prior := e.1.prior.filterMap prior, mates := e.1.mates.filterMap prior
                 buf := e.1.buf.map buf }
    fences := x.fences.map fun f => { f with tk := x.tnext + BitVec.ofNat 16 (older f.tk) }
    kept := x.kept.map fun (e : Nat × Kept) => (e.1, { e.2 with buf := e.2.buf.map buf })
    l0 := x.l0.renew x, l1 := x.l1.renew x, l2 := x.l2.renew x, l3 := x.l3.renew x }

/-- A chain as restore leaves it: parked reads and pieces are retried, a slot read begins again (R265). -/
def Chain.restored (c : Chain) : Chain :=
  { c with park := none, got := []
           cmd := c.cmd.map fun m =>
             { m with pieces := m.pieces.map fun p => if p.st = .parked then { p with st := .ready, cause := 0, gfn := 0 } else p } }

/-- Whether a core has what block `pos` of a record needs beside its admission: its banks, buffers and loop places, and
room among the core's operations for its replay records (R151). -/
def State.fits (s : State) (r : Saved) (pos core : Nat) : Bool :=
  let c := s.core core
  let ops := ((r.blocks.drop pos).take 1).flatMap fun k => k.thr.map fun (e : Nat × Thread) =>
    (e.2.win.filter (·.st ≠ .settled)).length
  s.coreWindow core + ops.sum ≤ 16384
  && (r.banks.all fun e => e.1 ≠ pos || (c.bankOf e.2.1).owner.isNone)
  && (r.drains.filter fun e => e.1 = pos).length ≤ ([0, 1].filter fun n => (Tab.find c.drain n).isNone).length
  && c.loops.length + (r.loops.filter fun e => e.1 = pos).length ≤ 4

/-- What a restored ripple stands at: what it stood at, or, where the record moves its threads, the instruction at which
one of them is WAITING. -/
def State.standsAt (s : State) (core : Nat) (old k : Block) (rp : Ripple) : Option Instr :=
  let xs := rp.threads.filterMap (Tab.find k.thr)
  if rp.threads.all fun t => (Tab.find old.thr t).map Thread.pc = (Tab.find k.thr t).map Thread.pc then rp.busy
  else (xs.find? fun x => x.st = .waiting).bind fun x => match fetchBlock s core k.ctx (blockAddr x.pc) with
    | .bytes bs _ => (parseAt (x.pc.toNat % 32) bs).toOption
    | _ => none

/-- What a wait reads at issue beside its token, for a thread that the record makes WAITING: the barrier, or the group of a
CLWAIT and whether the result of an engine or collective wait is G. -/
def waitsFor (k : Block) (t : Nat) (x : Thread) (i : Instr) : Word :=
  match i with
  | .barw f | .bars f | .gbar f => k.src32 t x f.lit f.a
  | .ewait f | .cwait f => BitVec.ofNat 32 (waitWide k i f).toNat
  | .clwait f => BitVec.ofNat 32 (2 * groupNo (k.src32 t x f.lit f.a) + (waitWide k i f).toNat)
  | _ => 0

/-- Restores block `pos` of a record on a core, under key `b`: `old` the block that was saved, `ws` its block record; the
completion conditions of its barriers are checked afresh (R209). DESIGN CHOICE: the record does not name the schedulers, so
each ripple is bound as a new one is, to that with the fewest (R123; log entry 38). -/
def State.restoreBlock (s : State) (r : Saved) (g pos b core : Nat) (old : Block) (ws : List Word) : State :=
  let free := [0, 1].filter fun n => (Tab.find (s.core core).drain n).isNone
  let (k, ws) := old.readRecord ws
  let (banks, loops, ds, ws) := r.readShare pos ws
  let buf (n : Nat) : Nat := free.getD (ds.takeWhile fun e => e.1 ≠ n).length 0
  let k' : Block :=
    { k with gang := g, core := core, slot := s.freeSlot core, order := s.nextOrder core, rip := []
             thr := k.thr.map fun (e : Nat × Thread) => (e.1, e.2.restored k buf)
             bar := k.bar.map fun (e : Nat × Bar) => (e.1, e.2.check)
             chain := k.chain.map fun (e : Nat × Chain) => (e.1, e.2.restored)
             scratch := tabOf 0 ((wordBytes (ws.take ((k.scr + 3) / 4))).take k.scr)
             poolMem := tabOf 0 ((wordBytes ((ws.drop ((k.scr + 3) / 4)).take ((k.pool + 3) / 4))).take k.pool) }
  let s := ({ s with blocks := Tab.put s.blocks b k' } : State).modCore core fun c =>
    { c with
      bank := banks.foldl (fun t e => Tab.put t e.1 { e.2 with owner := some b }) c.bank
      loops := c.loops ++ loops.map fun l => { l with blk := b, running := false }
      drain := ds.foldl (fun t e => Tab.put t (buf e.1) { blk := b, els := e.2 }) c.drain }
  let s := k.rip.foldl (fun s e =>
    let rp := { e.2 with busy := s.standsAt core old k e.2, sched := s.pickSched core, stall := none }
    let starts (t : Nat) (x : Thread) : Bool := x.st = .waiting && (Tab.find old.thr t).all (·.st ≠ .waiting)
    (s.modBlk b fun x => { x with rip := Tab.put x.rip e.1 rp }).modThrs b rp.threads fun t x =>
      if starts t x then { x with wbar := (rp.busy.map (waitsFor k t x)).getD 0 } else x) s
  (s.modDev fun d => { d with fires := d.fires ++ (r.fires.filter fun e => e.1 = pos).map fun e => { e.2 with by_ := .chain b } }).acquire
    core k.ctx 2

/-- The block records of a gang record, each as far as the words go (R354). -/
def blockRecords : Nat → List Word → List (List Word)
  | 0, _ => []
  | n + 1, ws => ws :: blockRecords n (ws.drop (max 8 (wordAt ws 0).toNat))

/-- A PREEMPTED gang is restored on cores, one for each block: its record is read and its space freed (R133, R354). A
record that cannot be read is a context fault (R350). -/
def State.restoreGang (s : State) (g : Nat) (k : Gang) (r : Saved) (cores : List Nat) : State :=
  let c := s.ctx k.ctx
  match savePlaces s c (c.savb.toNat + r.off) r.len with
  | none => s.ctxFault k.ctx 4
  | some ps =>
    let bad := s.latent.filter fun x => ps.any fun p => p.1 ≤ x && x < p.1 + p.2.2
    if bad ≠ [] || ps.any fun p => s.poisonedIn p.1 p.2.2 then (bad.foldl State.found s).ctxFault k.ctx 4
    else
      let ws := bytesWords (r.len / 4) (ps.flatMap fun p => Memory.read s.hbm p.1 p.2.2)
      let recs := blockRecords r.blocks.length (ws.drop 8)
      let s := s.modCtx k.ctx fun c => { c with savu := c.savu - BitVec.ofNat 32 ((r.len + 127) / 128) }
      let e := ((r.blocks.zip cores).zipIdx).foldl (fun (acc : State × List Nat) x =>
        let b := acc.1.blockKey
        (acc.1.restoreBlock r g x.2 b x.1.2 x.1.1 (recs.getD x.2 []), acc.2 ++ [b])) (s, [])
      let phase (i : Nat) : BitVec 16 := (wordAt ws (4 + i / 2)).extractLsb' (16 * (i % 2)) 16
      (e.1.modGang g fun k =>
        { k with st := .running, blocks := e.2, saved := none, cluster := cores.headD 0 / 8
                 gb := tabOf 0 ((List.range 4).map phase), rel := (wordAt ws 6).toNat }).gangBarChecks g

end Sys2Proof.Machine
end

