-- ==== Sys2Proof/Machine/Launch.lean ====
section
/-! DEFINITION. The gang placer and the end of a grid (spec/17_kernel.md R275, R279, R280; spec/07_group.md R132, R133;
spec/26_reliability.md R357, R359). -/

namespace Sys2Proof.Machine

/-! ## What is to be placed (R279) -/

/-- The next gang of a node: a pre-empted one, one that waits to run again, or the next of the grid. -/
inductive Job where
  | restore (g : Nat) (k : Gang) (r : Saved)
  | again (a : Again)
  | fresh (j : Nat)
  deriving DecidableEq, Repr

/-- A node's next gang, if it has one to place. -/
def State.nextJob (s : State) (key : Nat) (n : Node) : Option Job :=
  let saved := s.gangs.findSome? fun (e : Nat × Gang) =>
    if e.2.node = key && e.2.st = .preempted then e.2.saved.map fun r => (e.1, e.2, r) else none
  match saved, n.again with
  | some (g, k, r), _ => some (.restore g k r)
  | none, a :: _ => some (.again a)
  | none, [] => if n.next < recGangs n.ws then some (.fresh n.next) else none

/-- The eligible nodes whose context lets gangs be placed: highest PRI first, then oldest acceptance. -/
def State.placeOrder (s : State) : List (Nat × Node) :=
  let ns := s.nodes.filter fun (e : Nat × Node) => e.2.elig && (s.ctx e.2.ctx).runs
  [3, 2, 1, 0].flatMap fun p => ns.filter fun e => recPri e.2.ws = p

/-! ## Where (R132) -/

/-- What blocks hold on a core: all that have not left RUNNING, or those of one node. -/
def State.heldOn (s : State) (core : Nat) (node : Option Nat) : Held :=
  (s.blocks.filter fun (e : Nat × Block) => e.2.core = core && (Tab.find s.gangs e.2.gang).any fun g =>
    g.st ≠ .exited && node.all (· = g.node)).foldl (fun h e => h.add e.2.held) {}

/-- Whether a core admits one more block of a node (R132). -/
def State.admits (s : State) (key : Nat) (n : Node) (core : Nat) : Bool :=
  let c := s.ctx n.ctx
  let x := recHeld n.ws
  quotaSome c && ((s.heldOn core (some key)).add x).le (quotaOf c n.ws) && ((s.heldOn core none).add x).le coreHas

/-- Whether a core takes block `pos` of a job. -/
def State.takes (s : State) (key : Nat) (n : Node) (j : Job) (pos core : Nat) : Bool :=
  s.admits key n core && match j with
    | .restore _ _ r => s.fits r pos core
    | _ => true

/-- A core for each position, none twice: the first such choice in ascending order. -/
def assign (ok : Nat → Nat → Bool) : List Nat → List Nat → Option (List Nat)
  | [], _ => some []
  | p :: ps, cs => cs.findSome? fun c => if ok p c then (assign ok ps (cs.filter (· ≠ c))).map (c :: ·) else none

/-- The cores of a cluster (R13). -/
def coresOf (cluster : Nat) : List Nat := (List.range 8).map fun i => 8 * cluster + i

/-- A gang's place on a cluster: the cores that the placer chooses, if they fit, else the lowest that do. -/
def State.placeOn (s : State) (key : Nat) (n : Node) (j : Job) (choice : List Nat) (cluster : Nat) : Option (List Nat) :=
  let ps := List.range (recBpg n.ws)
  let fit := choice.length = ps.length && choice.Nodup && choice.all ((coresOf cluster).contains ·)
    && (choice.zipIdx).all fun e => s.takes key n j e.2 e.1
  if fit then some choice else assign (s.takes key n j) ps (coresOf cluster)

/-- The clusters in the order in which the placer tries them: the preferred die first (R279); a replay not on its
original's cluster, unless there is no other (R359). -/
def State.clusterOrder (s : State) (n : Node) (j : Job) : List Nat :=
  let all := (List.range 24).filter (s.part (s.ctx n.ctx).part).clusters.getLsbD
  let all := match j with
    | .again { replay := some r, .. } => if all.length > 1 then all.filter (· ≠ r.cluster) else all
    | .restore _ { replay := some r, .. } _ => if all.length > 1 then all.filter (· ≠ r.cluster) else all
    | _ => all
  match n.die with
  | some d => all.filter (fun c => c / 6 = d) ++ all.filter fun c => c / 6 ≠ d
  | none => all

/-- The gang that the placer selects, and its cores (R279). -/
def State.selection (s : State) (choice : List Nat) : Option (Nat × Node × Job × List Nat) :=
  s.placeOrder.findSome? fun e => (s.nextJob e.1 e.2).bind fun j =>
    ((s.clusterOrder e.2 j).findSome? fun c => s.placeOn e.1 e.2 j choice c).map fun cs => (e.1, e.2, j, cs)

/-! ## A gang starts (R275, R357) -/

/-- A block at its start (R51, R275). -/
def newBlock (n : Node) (gang gidx pos core slot order : Nat) (reln : Bool) : Block :=
  let ws := n.ws
  let bid := recBpg ws * gidx + pos
  let inits := ((List.range 8).filter fun i => (wordAt ws 23).getLsbD i && wordAt ws (24 + i) ≠ 0).map fun i =>
    (i, VVal.u (wordAt ws (24 + i)))
  { gang := gang, gblk := pos, bid := BitVec.ofNat 32 bid, gidx := BitVec.ofNat 32 gidx, ctx := n.ctx, core := core
    slot := slot, order := order, nthr := recNthr ws, regG := recRegG ws, regA := recRegA ws, scr := recScr ws
    pool := recPool ws, bars := recBars ws, greedy := recGreedy ws, entry := dwordAt ws 2, tvec := wordAt ws 9
    chb := dwordAt ws 12, tfa := dwordAt ws 10 + BitVec.ofNat 64 (4224 * recNthr ws * bid), reln := reln
    v := inits, thr := (List.range (recNthr ws)).map fun t => (t, { pc := dwordAt ws 2 }) }

/-- Whether a gang is sampled when it is placed (R357). -/
def sampledBy (s : State) (n : Node) (gidx : Nat) (always : Bool) : Bool :=
  recAud n.ws && (always || recAk n.ws = 0
    || (coin s.dev.audSeed n.seq (BitVec.ofNat 32 gidx) 3).toNat / 2 ^ (32 - recAk n.ws) = 0)

/-- A new gang's blocks are delivered and start (R124, R133). -/
def State.startGang (s : State) (key : Nat) (n : Node) (a : Again) (cores : List Nat) : State :=
  let g := (s.gangs.map fun e => e.1 + 1).foldl max 0
  let e := (cores.zipIdx).foldl (fun (acc : State × List Nat) x =>
    let s := acc.1
    let b := s.blockKey
    let k := newBlock n g a.gidx x.2 x.1 (s.freeSlot x.1) (s.nextOrder x.1) (a.rel > 0)
    (({ s with blocks := Tab.put s.blocks b k } : State).pack b (List.range k.nthr) none none, acc.2 ++ [b])) (s, [])
  let k : Gang :=
    { ctx := n.ctx, cluster := cores.headD 0 / 8, node := key, gidx := a.gidx, blocks := e.2, rel := a.rel
      sampled := a.replay.isNone && sampledBy s n a.gidx a.audit, replay := a.replay }
  { e.1 with gangs := Tab.put e.1.gangs g k }

/-- GANG_PLACE (R279): `cores` the cores that the placer chooses within the cluster. -/
def execGangPlace (cores : List Nat) (s : State) : Host.Outcome State Fault Refusal :=
  match s.selection cores with
  | none => .next s
  | some (_, _, .restore g k r, cs) => .next (s.restoreGang g k r cs)
  | some (key, n, .again a, cs) => .next ((s.modNode key fun n => { n with again := n.again.drop 1 }).startGang key n a cs)
  | some (key, n, .fresh j, cs) =>
    .next ((s.modNode key fun n => { n with next := n.next + 1 }).startGang key n { gidx := j } cs)

/-! ## The end of a grid (R280, R281) -/

/-- Whether nothing of a node is left to do. -/
def State.nodeOver (s : State) (key : Nat) (n : Node) : Bool :=
  n.elig && (s.gangsOf fun g => g.node = key).isEmpty && n.again.isEmpty
  && (n.failed || (n.next ≥ recGangs n.ws && n.fires = 0))

/-- NODE_COMPLETE (R280). -/
def execNodeComplete (node : Nat) (s : State) : Host.Outcome State Fault Refusal :=
  match Tab.find s.nodes node with
  | none => .next s
  | some n =>
    .next <| if s.nodeOver node n && (s.ctx n.ctx).records then
        (s.nodeDone node n (if n.failed || n.chainBad then 3 else if n.reln > 0 then 2 else 1) n.reln).checkNodes
      else s

end Sys2Proof.Machine
end

