-- ==== Sys2Proof/Machine/Context.lean ====
section
/-! DEFINITION. Contexts, partitions and virtual functions (spec/25_context.md R346 to R353, R383, R384;
spec/16_queue.md R264), and writes to plain register fields (R3). -/

namespace Sys2Proof.Machine

/-! ## The life of a context (R349) -/

/-- Whether a context's LMASK names another rank. -/
def Ctx.lakes (c : Ctx) (rank : Nat) : Bool := c.lmask &&& ~~~BitVec.twoPow 64 rank ≠ 0

def sizeCode (k : Nat) : Bool := 6 ≤ k && k ≤ 16

/-- The activate check. -/
def State.activateOk (s : State) (c : Nat) : Bool :=
  let x := s.ctx c
  let me := s.dev.rank
  let inHbm := x.gst || (x.otb.toNat + 32 * (x.otl + 1) ≤ poisonBase && x.fqb.toNat + 32 * 2 ^ x.fqk ≤ poisonBase)
  let clash := s.ctxs.any fun (e : Nat × Ctx) => e.1 ≠ c && e.2.ldom = x.ldom && e.2.lakes me
    && (e.2.st = .active || e.2.st = .preempted || e.2.st = .faulted)
  [x.fqk, x.hrk, x.crk, x.mek].all sizeCode
  && x.otb.toNat % 32 = 0 && x.fqb.toNat % 32 = 0 && x.meb.toNat % 32 = 0 && x.hrb.toNat % 8 = 0 && x.crb.toNat % 8 = 0
  && x.savb.toNat % 4096 = 0 && inHbm && x.savn ≠ 0 && x.lmask.getLsbD me && !(x.lakes me && clash)

/-- What the device holds of a lake domain is the context's that is bound to it, from the moment it is (R351, R383). -/
def State.bindLake (s : State) (c : Nat) : State :=
  let ldom := (s.ctx c).ldom
  if (s.ctx c).boundTo s.dev.rank ldom then
    ({ s with ctxs := s.ctxs.map fun (e : Nat × Ctx) => if e.2.ldom = ldom then (e.1, { e.2 with lake := false }) else e } : State).modCtx
      c fun x => { x with lake := true }
  else s

/-- CONTEXT_CREATE. -/
def execContextCreate (c : Nat) (s : State) : Host.Outcome State Fault Refusal :=
  .next <| if c < 96 && s.dev.stage = 5 && (s.ctx c).st = .wiped then s.modCtx c fun x => { x with st := .created } else s

/-- CONTEXT_ACTIVATE. -/
def execContextActivate (c : Nat) (s : State) : Host.Outcome State Fault Refusal :=
  .next <|
    if (s.ctx c).st ≠ .created then s
    else if s.activateOk c then (s.modCtx c fun x => { x with st := .active }).bindLake c
    else s.modCtx c fun x => { x with st := .faulted, fcause := 1 }

/-- CONTEXT_PREEMPT: RUNNING gangs enter STOPPING and RUNNING queues are STALLED. -/
def execContextPreempt (c : Nat) (s : State) : Host.Outcome State Fault Refusal :=
  .next <|
    if (s.ctx c).st ≠ .active || (s.ctx c).pend then s
    else
      let gangs : Tab Gang := s.gangs.map fun (e : Nat × Gang) =>
        if e.2.ctx = c && e.2.st = .running then (e.1, { e.2 with st := .stopping }) else e
      (({ s with gangs := gangs } : State).modCtx c fun x =>
        { x with pend := true
                 queues := x.queues.map fun (e : Nat × HQueue) =>
                   if e.2.st = .running then (e.1, { e.2 with st := .stalled }) else e }).preemptDone c

/-- A resume takes effect: pre-emption ends and STALLED queues go on where they can (R260). -/
def State.resumeCtx (s : State) (c : Nat) : State :=
  let x := s.ctx c
  if x.st = .preempted || (x.st = .active && x.pend) then
    let s := s.modCtx c fun x => { x with st := .active, pend := false }
    ([0, 1, 2, 3].foldl (fun s q => ((s.unstall c q).postAll c q).queueSettle c q) s).checkNodes
  else s

/-- CONTEXT_RESUME; during a checkpoint of the context's partition it waits for its end (R361). -/
def execContextResume (c : Nat) (s : State) : Host.Outcome State Fault Refusal :=
  .next <| match s.dev.chkpt with
    | some k =>
      if k.part = (s.ctx c).part then s.modDev fun d => { d with chkpt := some { k with resumes := k.resumes ++ [c] } }
      else s.resumeCtx c
    | none => s.resumeCtx c

/-! ## Reset (R351) -/

/-- Step 2: queues, nodes, group records, fires, reducer state and address groups go. -/
def State.discardWork (s : State) (c : Nat) (dom : Option Nat) : State :=
  let s := ({ s with nodes := s.nodes.filter fun (e : Nat × Node) => e.2.ctx ≠ c } : State).modCtx c fun x =>
    { x with queues := [], fwait := [], ewait := [], pend := false }
  let gone (ldom grp : Nat) : Bool :=
    dom = some ldom || s.dev.grps.any fun g => g.ctx = c && g.ldom = ldom && g.grp = grp
  let s := s.forgetReqs fun p => match p.who with
    | .line l g _ _ _ _ => gone l g
    | .fire cn _ _ _ => cn = c
    | .job src tag _ => s.dev.jobs.any fun j => j.cn = c && j.req.src = src && j.req.tag = tag
    | _ => false
  s.modDev fun d =>
    { d with
      fires := d.fires.filter fun f => f.ctx ≠ c
      jobs := d.jobs.filter fun j => j.cn ≠ c
      cmdq := d.cmdq.filter fun x => !gone x.ldom x.grp
      contribs := d.contribs.filter fun x => !gone x.ldom x.grp
      results := d.results.filter fun x => !gone x.ldom x.grp
      grps := d.grps.filter fun g => g.ctx ≠ c
      ags := d.ags.filter fun a => dom ≠ some a.ldom }

/-- Step 3: moves, stubs, arrival records and holds of the domain go, and its members are told. What a context that was never
bound to its domain has learnt of its pages' owners goes too; holds of that domain stay where another context is bound to
it. -/
def State.leaveDomain (s : State) (c : Nat) (dom : Option Nat) : State :=
  let mine := (s.dev.moves.filter fun e => e.2.r.ctx = c).map Prod.fst
  let s := s.forgetReqs fun p => match p.who with
    | .move m _ => mine.contains m
    | _ => false
  let l := (s.ctx c).ldom
  let shared := s.ctxs.any fun (e : Nat × Ctx) => e.1 ≠ c && e.2.ldom = l && e.2.lake
  let s := s.modDev fun d =>
    { d with
      moves := d.moves.filter fun e => e.2.r.ctx ≠ c
      mqueue := d.mqueue.filter fun r => r.ctx ≠ c
      slots := d.slots.filter fun x => dom ≠ some x.ldom
      frees := d.frees.filter fun x => dom ≠ some x.2.1
      acks := d.acks.filter fun x => dom ≠ some x.2.1
      stubs := d.stubs.filter fun x => x.ctx ≠ c && dom ≠ some x.ldom
      arrivals := d.arrivals.filter fun a => dom ≠ some a.ldom
      holds := d.holds.filter fun h => h.ldom ≠ l || dom.isNone && shared
      owners := d.owners.filter fun o => o.ldom ≠ l }
  ((ranksOf (s.ctx c).lmask).filter (· ≠ s.dev.rank)).foldl (fun s r => s.say (.resetNotice r (s.ctx c).ldom)) s

/-- Step 4: nothing of a context stays in a core. -/
def State.clearCores (s : State) (cores : Nat → Bool) (of : Nat → Bool) : State :=
  { s with cores := s.cores.map fun (e : Nat × Core) =>
      if cores e.1 then (e.1, { e.2 with l1 := e.2.l1.filter fun l => !of l.ctx, tlb := e.2.tlb.filter fun t => !of t.ctx
                                         lpr := e.2.lpr.filter fun (p : Nat × Trans) => !of p.2.ctx }) else e }

/-- The reset command. -/
def State.resetCtx (s : State) (c : Nat) : State :=
  let x := s.ctx c
  if x.st = .resetting || x.st = .wiped then s
  else
    let dom := if x.lake then some x.ldom else none
    let s := s.modCtx c fun x => { x with st := .resetting, lake := false }
    let s := (s.gangsOf (·.ctx = c)).foldl State.quietKill s
    let s := (s.discardWork c dom).leaveDomain c dom
    (s.clearCores (fun _ => true) (· = c)).modDev fun d =>
      { d with chkpt := d.chkpt.map fun k => { k with resumes := k.resumes.filter (· ≠ c) } }

/-- CONTEXT_RESET (R351). -/
def execContextReset (c : Nat) (s : State) : Host.Outcome State Fault Refusal := .next (s.resetCtx c)

/-- RESET_COMPLETE (R349, R351). -/
def execResetComplete (c : Nat) (s : State) : Host.Outcome State Fault Refusal :=
  .next <| if (s.ctx c).st = .resetting then s.modCtx c fun x => { x with st := .wiped, fcause := 0 } else s

/-! ## Registers with a behaviour of their own -/

/-- LMASK_WRITE (R352). -/
def execLmaskWrite (c : Nat) (v : DWord) (s : State) : Host.Outcome State Fault Refusal :=
  let x := s.ctx c
  .next <|
    if c ≥ 96 || (x.st ≠ .created && !v.getLsbD s.dev.rank) then s
    else
      let gone := if x.lake then ranksOf (x.lmask &&& ~~~v) else []
      gone.foldl (fun s r => s.ackStubs x.ldom r) ((s.modCtx c fun x => { x with lmask := v }).bindLake c)

/-- FQC_WRITE (R158, R264). -/
def execFqcWrite (c : Nat) (v : Word) (s : State) : Host.Outcome State Fault Refusal :=
  .next <|
    if c ≥ 96 then s
    else
      let unread := (s.ctx c).fqp ≠ v
      let s := s.modCtx c fun x => { x with fqc := v, msg4 := unread }
      let s := if unread then s.say (.msix c 4) else s
      s.drainFaults c ((s.ctx c).fwait.length)

/-- MEC_WRITE (R243, R264). -/
def execMecWrite (c : Nat) (v : Word) (s : State) : Host.Outcome State Fault Refusal :=
  .next <|
    if c ≥ 96 then s
    else
      let unread := (s.ctx c).mep ≠ v
      let s := s.modCtx c fun x => { x with mec := v, msg5 := unread }
      let s := if unread then s.say (.msix c 5) else s
      s.drainEvents c ((s.ctx c).ewait.length)

/-! ## Partitions (R346, R353, R384) -/

/-- PARTITION_ASSIGN (R346): a cluster and a half-stack at least, none of another partition. -/
def execPartitionAssign (p : Nat) (s : State) : Host.Outcome State Fault Refusal :=
  let x := s.part p
  let taken := s.parts.any fun (e : Nat × Prt) =>
    e.1 ≠ p && e.2.st ≠ .free && (e.2.cmask &&& x.cmask ≠ 0 || e.2.hmask &&& x.hmask ≠ 0)
  .next <|
    if p < 24 && s.dev.stage = 5 && x.st = .free && x.cmask ≠ 0 && x.hmask ≠ 0 && !taken then
      s.modPart p fun x => { x with st := .open_ }
    else s

/-- The contexts bound to a partition. -/
def State.partCtxs (s : State) (p : Nat) : List Nat :=
  (s.ctxs.filter fun (e : Nat × Ctx) => e.2.bound && e.2.part = p).map Prod.fst

/-- PARTITION_CLOSE (R346). -/
def execPartitionClose (p : Nat) (s : State) : Host.Outcome State Fault Refusal :=
  .next <|
    if (s.part p).st = .open_ && (s.partCtxs p).all fun c => (s.ctx c).st = .wiped then
      s.modPart p fun x => { x with st := .wiping }
    else s

/-- The half-stack of an HBM address (R216). -/
def halfStack (a : Nat) : Nat := a / 2 ^ 35

/-- The granules covered by a byte of the bitmap that hold an error not yet found: their bits stay (R353). -/
def State.badBits (s : State) (byte : Nat) : Byte :=
  BitVec.ofNat 8 (((List.range 8).map fun i =>
    if (s.latentIn ((8 * byte + i) * 4096) 4096).isSome then 2 ^ i else 0).sum)

/-- Half-stacks written with zeros, and the bits of granules written without an error cleared (R353); the range of the
bitmap itself is left untouched (R220). -/
def State.wiped (s : State) (hmask : BitVec 24) : Memory :=
  s.hbm.filterMap fun (e : Nat × Byte) =>
    if e.1 ≥ poisonBase then
      let n := e.1 - poisonBase
      if 32768 * n < poisonBase && hmask.getLsbD (halfStack (32768 * n)) then
        let x := e.2 &&& s.badBits n
        if x = 0 then none else some (e.1, x)
      else some e
    else if hmask.getLsbD (halfStack e.1) then none else some e

/-- The wipe of half-stacks; an error met on the way is found (R360). -/
def State.wipe (s : State) (hmask : BitVec 24) : State :=
  (s.latent.filter fun x => x < poisonBase && hmask.getLsbD (halfStack x)).foldl State.found
    { s with hbm := s.wiped hmask }

/-- WIPE_COMPLETE (R346, R353). -/
def execWipeComplete (p : Nat) (s : State) : Host.Outcome State Fault Refusal :=
  let x := s.part p
  .next <|
    if x.st ≠ .wiping then s
    else
      let cs := s.partCtxs p
      let s := (s.wipe x.hmask).clearCores (fun core => x.cmask.getLsbD (core / 8)) (fun _ => true)
      (s.modDev fun d => { d with cache := d.cache.filter fun l =>
          !(cs.contains l.ctx || l.loc = 0 && x.hmask.getLsbD (halfStack l.addr)) }).modPart p fun x =>
        { x with st := .free }

/-- VF_ENABLE (R347). -/
def execVfEnable (v : Nat) (s : State) : Host.Outcome State Fault Refusal :=
  let x := s.ctx v
  .next <| if v < 96 && x.bound && (s.part x.part).st = .open_ then s.modCtx v fun x => { x with vfOn := true } else s

/-- VF_RESET (R347): a Function Level Reset, or the function's disabling, resets its context. -/
def execVfReset (v : Nat) (disable : Bool) (s : State) : Host.Outcome State Fault Refusal :=
  .next <|
    if v ≥ 96 then s
    else
      let s := s.resetCtx v
      if disable then s.modCtx v fun x => { x with vfOn := false } else s

/-! ## Plain register fields (R3) -/

/-- HV of a context: what object 0xFF_FFFF names changes with it, so no translation of that object stays (R220). -/
def State.setHv (s : State) (c : Nat) (on : Bool) : State :=
  if (s.ctx c).hv = on then s
  else
    let keep (t : Trans) : Bool := !(t.ctx = c && t.obj = 0xFFFFFF)
    let s : State := { s with cores := s.cores.map fun (e : Nat × Core) =>
      (e.1, { e.2 with tlb := e.2.tlb.filter keep, lpr := e.2.lpr.filter fun (p : Nat × Trans) => keep p.2 }) }
    s.modCtx c fun y => { y with hv := on }

/-- HV reads 1 in the context that its partition names, while bound there (R384). -/
def State.syncHv (s : State) (p : Nat) : State :=
  let x := s.part p
  (s.partCtxs p).foldl (fun s c => s.setHv c (x.hvv && x.hvc = c)) s

/-- A write to a bit of VFS (R384). -/
def State.bindVf (s : State) (p v : Nat) (on : Bool) : State :=
  let c := s.ctx v
  if v ≥ 96 || c.vfOn || (s.part p).st ≠ .open_ || (c.bound && c.part ≠ p) then s
  else if on then
    (s.modCtx v fun c => { c with bound := true, part := p, gst := (s.part p).gstm.getLsbD v }).syncHv p
  else (s.setHv v false).modCtx v fun c => { c with bound := false, part := 0, gst := false }

/-- A write to a bit of GSTM (R384). -/
def State.setGst (s : State) (p v : Nat) (on : Bool) : State :=
  if v ≥ 96 || (s.ctx v).vfOn then s
  else
    let s := s.modPart p fun x =>
      { x with gstm := if on then x.gstm ||| BitVec.twoPow 96 v else x.gstm &&& ~~~BitVec.twoPow 96 v }
    if (s.ctx v).bound && (s.ctx v).part = p then s.modCtx v fun c => { c with gst := on } else s

/-- A field of a context descriptor: its new value, and whether it may be written in every state (R348). -/
def ctxField (r : Reg) (v : DWord) : Option (Bool × (Ctx → Ctx)) :=
  let n (w : Nat) : Nat := v.toNat % 2 ^ w
  let w : Word := v.setWidth 32
  match r with
  | .ctxSys => some (false, fun x => { x with sys := v.getLsbD 0 })
  | .ctxLdom => some (false, fun x => { x with ldom := n 16 })
  | .ctxOtb => some (false, fun x => { x with otb := v })
  | .ctxOtl => some (false, fun x => { x with otl := n 24 })
  | .ctxFqb => some (false, fun x => { x with fqb := v })
  | .ctxFqk => some (false, fun x => { x with fqk := n 5 })
  | .ctxHrb => some (false, fun x => { x with hrb := v })
  | .ctxHrk => some (false, fun x => { x with hrk := n 5 })
  | .ctxHrp => some (true, fun x => { x with hrp := w })
  | .ctxCrb => some (false, fun x => { x with crb := v })
  | .ctxCrk => some (false, fun x => { x with crk := n 5 })
  | .ctxCrp => some (true, fun x => { x with crp := w })
  | .ctxMeb => some (false, fun x => { x with meb := v })
  | .ctxMek => some (false, fun x => { x with mek := n 5 })
  | .ctxMhl => some (true, fun x => { x with mhl := n 16 })
  | .ctxSavb => some (false, fun x => { x with savb := v })
  | .ctxSavn => some (false, fun x => { x with savn := w })
  | .ctxCstl => some (false, fun x => { x with cstl := n 24 })
  | .ctxQb => some (false, fun x => { x with qb := n 6 })
  | .ctxQpg => some (false, fun x => { x with qpg := n 10 })
  | .ctxQsw => some (false, fun x => { x with qsw := n 15 })
  | .ctxQscr => some (false, fun x => { x with qscr := n 10 })
  | .ctxQpool => some (false, fun x => { x with qpool := n 9 })
  | _ => none

/-- A field of a queue (R258): its number, its new value, and whether ENABLE = 1 keeps it. -/
def queueField (r : Reg) (v : DWord) : Option (Nat × Bool × (HQueue → HQueue)) :=
  match r with
  | .queueQk q => some (q, true, fun x => { x with qk := v.toNat % 32 })
  | .queueCk q => some (q, true, fun x => { x with ck := v.toNat % 32 })
  | .queueBase q => some (q, true, fun x => { x with qbase := v })
  | .queueCbase q => some (q, true, fun x => { x with cbase := v })
  | .queueQto q => some (q, false, fun x => { x with qto := max 4096 (v.toNat % 2 ^ 20) })
  | _ => none

/-- A field of a partition record (R384): its new value, and whether it may be written while OPEN. -/
def partField (r : Reg) (v : DWord) : Option (Bool × (Prt → Prt)) :=
  match r with
  | .partCmask => some (false, fun x => { x with cmask := v.setWidth 24 })
  | .partHmask => some (false, fun x => { x with hmask := v.setWidth 24 })
  | .partFmb => some (true, fun x => { x with fmb := v })
  | .partFmn => some (true, fun x => { x with fmn := v.setWidth 32 })
  | .partHvv => some (true, fun x => { x with hvv := v.getLsbD 0 })
  | .partHvc => some (true, fun x => { x with hvc := v.toNat % 128 })
  | _ => none

/-- A field of the device (R251, R363, R369), or a bit of a partition's masks. -/
def State.writeField (s : State) (r : Reg) (i : Nat) (v : DWord) : State :=
  match r with
  | .partVfs f => if i < 24 then s.bindVf i f (v.getLsbD 0) else s
  | .partGstm f => if i < 24 then s.setGst i f (v.getLsbD 0) else s
  | .rto => s.modDev fun d => { d with rto := max 1024 (v.toNat % 2 ^ 20) }
  | .powerCap => s.modDev fun d => { d with cap := max 1500 (min 3000 (v.toNat % 2 ^ 12)) }
  | .audSeed => s.modDev fun d => { d with audSeed := v.setWidth 32 }
  | _ => s

/-- REGISTER_WRITE (R3, R258, R348, R384): `i` the context or partition; ignored where the field's rule says so. -/
def execRegisterWrite (r : Reg) (i : Nat) (v : DWord) (s : State) : Host.Outcome State Fault Refusal :=
  .next <| match ctxField r v, queueField r v, partField r v with
    | some (any, f), _, _ => if i < 96 && (any || (s.ctx i).st = .created) then s.modCtx i f else s
    | _, some (q, locked, f), _ =>
      if i < 96 && q < 4 && !(locked && (s.queue i q).enable) then s.modQueue i q f else s
    | _, _, some (open_, f) =>
      if i < 24 && ((s.part i).st = .free || (open_ && (s.part i).st = .open_)) then (s.modPart i f).syncHv i else s
    | _, _, _ => s.writeField r i v

end Sys2Proof.Machine
end

