-- ==== Sys2Proof/Machine/Fabric.lean ====
section
/-! DEFINITION. The fabric: requests and answers as they arrive, links, broadcasts, port completions
(spec/14_link.md R247 to R257; spec/13_migration.md R237; spec/25_context.md R383; spec/27_host.md R366, R367). -/

namespace Sys2Proof.Machine

/-! ## Resending (R254 to R256) -/

/-- The devices that a request passes on a route: `via` is the position that the route goes through, plus one (R248). -/
def routePath (me dst n via : Nat) : List Nat :=
  let b := me / 16
  let b' := dst / 16
  let k := via - 1
  let across : List Nat := [me, 16 * b + k, 16 * b' + k, dst]
  if b = b' then (if n = 1 then [me, dst] else [me, 16 * b + k, dst])
  else if me % 16 = dst % 16 then (if n = 1 then [me, dst] else across)
  else match n with
    | 1 => [me, 16 * b' + me % 16, dst]
    | 2 => [me, 16 * b + dst % 16, dst]
    | _ => across

/-- Whether a path uses the link `j` of a device. -/
def pathUses (owner j : Nat) : List Nat → Bool
  | a :: b :: rest => (a = owner && linkTo a b = some j) || pathUses owner j (b :: rest)
  | _ => false

/-- An unanswered request goes out on a usable route that it has not tried, or has failed after all detours. -/
def State.resend (s : State) (tag : Nat) : State :=
  match Tab.find s.dev.reqs tag with
  | none => s
  | some p => match s.nextRoute p.dst p.route p.mid p.tried with
    | some e =>
      let p : Pend := { p with route := e.1, via := e.2.1, mid := if e.1 = 2 then e.2.1 else p.mid, tried := p.tried ++ [e.1] }
      (s.modDev fun d => { d with reqs := Tab.put d.reqs tag p }).say (.req p.dst e.1 p.req)
    | none => s.noRouteLeft tag

/-- Requests whose route uses a link that has left UP are resent. -/
def State.linkGone (s : State) (owner j : Nat) : State :=
  ((s.dev.reqs.filter fun e => !e.2.held && e.2.port.isNone && e.2.dst ≠ s.dev.rank
    && pathUses owner j (routePath s.dev.rank e.2.dst e.2.route e.2.via)).map Prod.fst).foldl State.resend s

/-! ## Links (R249 to R252) -/

/-- A link of this device changes: a change of state is broadcast, and requests on a link that leaves UP are resent. -/
def State.setLink (s : State) (j : Nat) (l : Link) : State :=
  let old := s.dev.link j
  let s := s.modLink j fun _ => l
  if old.st = l.st then s
  else
    let key := 18 * s.dev.rank + j
    let chg := (Tab.get (.down, 0) s.dev.map key).2 + 1
    let s := (s.modDev fun d => { d with map := Tab.put d.map key (l.st, chg) }).say (.linkState s.dev.rank j l.st chg)
    if old.st = .up then s.linkGone s.dev.rank j else s

/-- News of another device's link: taken if its change number is later (R249); requests on a link that has left UP are
resent (R255). -/
def State.linkNews (s : State) (key : Nat) (st : LinkSt) (chg : BitVec 16) : Option State :=
  let d := chg - (Tab.get (.down, 0) s.dev.map key).2
  if key / 18 = s.dev.rank ∨ key ≥ 1152 ∨ d = 0 ∨ d.toNat ≥ 2 ^ 15 then none
  else
    let s := s.modDev fun v => { v with map := Tab.put v.map key (st, chg) }
    some (if st = .up then s else s.linkGone (key / 18) (key % 18))

/-- A rank's revision and capability mask enter the peer table (R252). -/
def State.putPair (s : State) (rank : Nat) (rev : BitVec 16) (caps : BitVec 32) : State :=
  if rank ≥ 64 ∨ rank = s.dev.rank then s
  else s.modDev fun d => { d with peers := Tab.put d.peers rank (rev, caps) }

/-- The map and the peer table that the peer of a link sends when the link reaches UP are applied, and not passed on
(R249, R252). -/
def State.takeExchange (s : State) (ex : Exchange) : State :=
  ex.pairs.foldl (fun s e => s.putPair e.1 e.2.1 e.2.2)
    (ex.map.foldl (fun s e => (s.linkNews e.1 e.2.1 e.2.2).getD s) s)

/-- A link reaches UP: maps and peer tables are exchanged, the device's own pair is broadcast (R249, R252). -/
def State.linkUp (s : State) (j : Nat) (l : Link) (rev : BitVec 16) (caps : BitVec 32) (ex : Exchange) : State :=
  let s := s.setLink j { l with st := .up, cause := 0, lanes := 8, fails := 0 }
  let mine : Exchange := { map := s.dev.map, pairs := s.dev.peers }
  (((s.say (.exchange j mine)).say (.caps s.dev.rank s.dev.rev s.dev.caps)).takeExchange ex).putPair l.prank.toNat rev caps

/-- An event of one link, in a state of its life: links train from stage 4 of bring-up on (R370). -/
def linkEvent (j : Nat) (on : Link → Bool) (act : Link → State → State) (s : State) :
    Host.Outcome State Fault Refusal :=
  if j < 18 && s.dev.stage ≥ 4 && on (s.dev.link j) then .next (act (s.dev.link j) s) else .next s

/-- LINK_SIGNAL_DETECT (R250). -/
def execLinkSignalDetect (j : Nat) (s : State) : Host.Outcome State Fault Refusal :=
  linkEvent j (fun l => l.st = .down && l.enable) (fun l s => s.setLink j { l with st := .training, retry := false }) s

/-- LINK_TRAINING_DONE (R250): eight good lanes, and the peer's rank as R247 requires. The peer's pair is entered as soon
as it is received (R252). -/
def execLinkTrainingDone (j lanes prank : Nat) (pair : BitVec 16 × BitVec 32) (ex : Exchange) (s : State) :
    Host.Outcome State Fault Refusal :=
  linkEvent j (fun l => l.st = .training) (fun l s =>
    let l : Link := { l with lanes := min 8 lanes, prank := BitVec.ofNat 6 prank }
    if lanes < 8 then (s.putPair l.prank.toNat pair.1 pair.2).setLink j { l with st := .down, retry := true }
    else if l.prank.toNat = linkPeer s.dev.rank j then s.linkUp j l pair.1 pair.2 ex
    else (s.putPair l.prank.toNat pair.1 pair.2).setLink j { l with st := .quarantined, cause := 1 }) s

/-- LINK_TRAINING_TIMEOUT (R250). -/
def execLinkTrainingTimeout (j : Nat) (s : State) : Host.Outcome State Fault Refusal :=
  linkEvent j (fun l => l.st = .training) (fun l s => s.setLink j { l with st := .down, retry := true }) s

/-- LINK_RETRY_TIMER (R250): training that failed is retried. -/
def execLinkRetryTimer (j : Nat) (s : State) : Host.Outcome State Fault Refusal :=
  linkEvent j (fun l => l.st = .down && l.enable && l.retry) (fun l s =>
    s.setLink j { l with st := .training, retry := false }) s

/-- LINK_DEGRADE (R250). -/
def execLinkDegrade (j : Nat) (s : State) : Host.Outcome State Fault Refusal :=
  linkEvent j (fun l => l.st = .up) (fun l s => s.setLink j { l with st := .degraded }) s

/-- LINK_RETRAIN_DONE (R250): back to UP with eight lanes and the same peer; the third failure in a row quarantines. The
pair that was received is entered whatever the outcome (R252); PRANK stays that of the last training (log entry 75). -/
def execLinkRetrainDone (j lanes prank : Nat) (pair : BitVec 16 × BitVec 32) (ex : Exchange) (s : State) :
    Host.Outcome State Fault Refusal :=
  linkEvent j (fun l => l.st = .degraded) (fun l s =>
    let l : Link := { l with retr := min 255 (l.retr + 1), lanes := min 8 lanes }
    if lanes ≥ 8 && BitVec.ofNat 6 prank = l.prank then s.linkUp j l pair.1 pair.2 ex
    else if l.fails ≥ 2 then
      (s.putPair (prank % 64) pair.1 pair.2).setLink j { l with st := .quarantined, cause := 2, fails := 0 }
    else (s.putPair (prank % 64) pair.1 pair.2).setLink j { l with fails := l.fails + 1 }) s

/-- LINK_SIGNAL_LOST (R250). -/
def execLinkSignalLost (j : Nat) (s : State) : Host.Outcome State Fault Refusal :=
  linkEvent j (fun l => l.st = .training || l.st = .up || l.st = .degraded) (fun l s => s.setLink j { l with st := .down }) s

/-- FLIT_REPLAY (R250): the sender repeats the flit from its buffer; nothing that a program or a register shows
changes. -/
def execFlitReplay (j : Nat) (s : State) : Host.Outcome State Fault Refusal :=
  linkEvent j (fun _ => true) (fun _ s => s) s

/-- LINK_ENABLE (R250, R251): 0 takes the link DOWN, whatever its state; a 1 after it clears a quarantine. DEDUCED: a 1 at
a link that QUAR has quarantined since ENABLE was written 0 is stored and does no more (log entry 75). -/
def execLinkEnable (j : Nat) (on : Bool) (s : State) : Host.Outcome State Fault Refusal :=
  linkEvent j (fun _ => true) (fun l s =>
    if !on then s.setLink j { l with st := .down, enable := false, retry := false }
    else if l.enable then s
    else if l.st = .quarantined then s.setLink j { l with enable := true }
    else s.setLink j { l with enable := true, cause := 0, quar := false, fails := 0 }) s

/-- LINK_QUARANTINE (R251). -/
def execLinkQuarantine (j : Nat) (s : State) : Host.Outcome State Fault Refusal :=
  linkEvent j (fun _ => true) (fun l s =>
    s.setLink j { l with st := .quarantined, cause := 3, quar := true, retry := false }) s

/-- LINK_STATE_BROADCAST (R249): applied and passed on if its change number is later. -/
def execLinkStateBroadcast (owner j : Nat) (st : LinkSt) (chg : BitVec 16) (s : State) : Host.Outcome State Fault Refusal :=
  if j ≥ 18 then .next s
  else match s.linkNews (18 * owner + j) st chg with
    | none => .next s
    | some s' => .next (s'.say (.linkState owner j st chg))

/-- CAPABILITY_BROADCAST (R252). DESIGN CHOICE: it is passed on only where it changes the table (log entry 75). -/
def execCapabilityBroadcast (rank : Nat) (rev : BitVec 16) (caps : BitVec 32) (s : State) :
    Host.Outcome State Fault Refusal :=
  if rank = s.dev.rank ∨ rank ≥ 64 ∨ Tab.find s.dev.peers rank = some (rev, caps) then .next s
  else .next ((s.putPair rank rev caps).say (.caps rank rev caps))

/-! ## Requests that arrive (R237, R253, R383) -/

/-- A request of the engine or a thread for a move of a page, at its owner (R237, R246). -/
def State.servePgmove (s : State) (cn : Nat) (r : FabReq) : Option State :=
  match walk s cn r.addr 1 with
  | .fail c => some (s.respond r c [] false)
  | .park _ _ => none
  | .ok t =>
    if t.att.loc = 1 then some (s.respond r 5 [] false)
    else some ((s.submitMove cn (pageNo r.addr) r.arg).respond r 0 [] false)

/-- Whether a request asks for a capability that this device's own mask lacks (R253): an MLDR's at the member, another's
where it is performed. -/
def State.lacksCap (s : State) (r : FabReq) : Bool := (reqCap r).any fun n => !s.dev.caps.getLsbD n

/-- A request for a page, in the bound context (R237, R342): an MLDR's member must have the entry and the service, whether
or not its stub then forwards the request. -/
def State.arrivePage (s : State) (cn : Nat) (r : FabReq) : Option State :=
  if r.kind = .mldr && r.hops = 0 && s.lacksCap r then some (s.respond r 7 [] false)
  else if r.kind = .mldr && r.hops = 0 && (s.agEntry r.ldom r.arg).isNone then some (s.respond r 8 [] false)
  else match s.stub r.ldom (pageNo r.addr) with
    | some x => some (s.forward x r)
    | none =>
      if r.kind = .pgmove then s.servePgmove cn r
      else if r.kind ≠ .mldr && s.lacksCap r then some (s.respond r 7 [] false)
      else s.serveReq cn r

/-- A request served by the device at which it arrives; none where it waits there. -/
def State.arrive (s : State) (r : FabReq) : Option State :=
  match r.kind with
  | .agdef => some (s.agdefServe r)
  | .install => s.serveInstall r
  | .reducer => s.serveReducer r
  | kind =>
    if kind = .pgmove && r.aop = 1 then some ((s.entriesUpdated r.ldom (pageNo r.addr)).respond r 0 [] false)
    else match s.boundCtx r.ldom with
      | none => some (s.refuse r (if kind = .mldr then 8 else if kind = .frame then 5 else 7))
      | some cn => match kind with
        | .result => s.serveResult cn r
        | .frame | .chunk | .release => some (s.serveMove cn r)
        | _ => s.arrivePage cn r

/-- REMOTE_REQUEST (R253, R255): one performed before is answered from its record; one that is under way here joins it; one
that waits leaves all as it was. -/
def execRemoteRequest (r : FabReq) (s : State) : Host.Outcome State Fault Refusal :=
  .next (s.onceFor r.src r.tag fun s => if s.underWay r.src r.tag then s else (s.arrive r).getD s)

/-- REQUEST_RELAY (R248): a passing request goes on over the link to the next device, while that is UP. -/
def execRequestRelay (dst : Nat) (r : FabReq) (s : State) : Host.Outcome State Fault Refusal :=
  .next (if s.hopUp s.dev.rank dst then s.say (.relay dst r) else s)

/-- REMOTE_RESPONSE (R255): the first answer is accepted, with its redirect (R239); one that nobody waits for any more
writes nothing (R257); every answer is acknowledged. A residency request that no row 2 to 5 of R185 has failed goes out anew
(R194). -/
def execRemoteResponse (r : FabResp) (s : State) : Host.Outcome State Fault Refusal :=
  match Tab.find s.dev.reqs r.tag with
  | none => .next ((s.modDev fun d => { d with dead := d.dead.erase r.tag }).say (.ack r.src r.tag))
  | some p =>
    let s := s.bury r.tag (p.answers - 1)
    let vain := p.req.kind = .pgreq && !([0, 1, 2, 4, 13].contains r.status)
    let s := if vain then
        s.modDev fun d => { d with reqs := Tab.modify d.reqs r.tag fun p => { p with held := true, tried := [] } }
      else ((if r.unbound then s.strict r.tag else s).answer r.tag r.status r.data r.absent).jobsDone
    let s := match r.owner with
      | some o => s.redirect p.req.ldom (pageNo p.req.addr) o
      | none => s
    .next (s.say (.ack r.src r.tag))

/-- RESPONSE_ACK (R255). -/
def execResponseAck (src tag : Nat) (s : State) : Host.Outcome State Fault Refusal :=
  .next (s.modDev fun d => { d with performed := d.performed.filter fun a => !(a.src = src && a.tag = tag) })

/-- RESPONSE_TIMEOUT (R255, R256). -/
def execResponseTimeout (tag : Nat) (s : State) : Host.Outcome State Fault Refusal :=
  match Tab.find s.dev.reqs tag with
  | none => .next s
  | some p =>
    if p.dst = s.dev.rank then .next (s.resultRetry tag)
    else if p.held ∨ p.port.isSome then .next s else .next (s.resend tag)

/-! ## Ports (R366, R367) -/

/-- What a read through a port brings: the whole line where a cache is to take it. -/
def Pend.readBytes (p : Pend) : Nat := if p.fill.isSome && kindLoads p.req.kind then 128 else p.req.size

/-- The R160 cause of a completion (R220, R366): 3 poisoned, 5 a port that went down, else Unsupported Request or Completer
Abort. -/
def completionCause (status : Nat) : Nat := if status = 3 || status = 5 then status else 7

/-- PORT_COMPLETION (R366, R367): `status` 0, or how the completion failed. The CXL tier's memory is performed on here; the
bytes of host memory are `data`. -/
def execPortCompletion (tag status : Nat) (data : List Byte) (s : State) : Host.Outcome State Fault Refusal :=
  match Tab.find s.dev.reqs tag with
  | none => .next (s.modDev fun d => { d with dead := d.dead.erase tag })
  | some p => match p.port with
    | none => .next s
    | some loc =>
      let cn := (s.waiterCtx p.who).getD 0
      let r := p.req
      let done (s : State) (status : Nat) (bs : List Byte) : Host.Outcome State Fault Refusal :=
        .next (s.answer tag status bs false).jobsDone
      if status ≠ 0 then done s (completionCause status) []
      else if loc = 3 then
        if kindWrites r.kind then
          let e := s.performReq cn 3 p.place r
          done e.2.2 e.1 e.2.1
        else
          let n := p.readBytes
          let a := if n = 128 then lineBase p.place else p.place
          if s.cxlBad a n then done s 3 [] else done s 0 (s.placeRead 3 a n)
      else if kindWrites r.kind then
        if r.kind = .atom && data.length ≠ atomBytes r.ty then .next s
        else
          let n := if r.kind = .atom || r.kind = .red then atomBytes r.ty else r.data.length
          done (s.markDirty cn r.addr n) 0 data
      else if data.length = p.readBytes then done s 0 data else .next s

end Sys2Proof.Machine
end

