-- ==== Sys2Proof/Machine/Sha.lean ====
section
/-! DEFINITION. SHA-256 and RSASSA-PKCS1-v1_5 with it, by which the security processor hashes, verifies and signs
(spec/26_reliability.md R362). The functions are those that their names say (FIPS 180-4, PKCS #1 v2; log entry 15). -/

namespace Sys2Proof.Machine

def shaK : List Word :=
  [0x428A2F98, 0x71374491, 0xB5C0FBCF, 0xE9B5DBA5, 0x3956C25B, 0x59F111F1, 0x923F82A4, 0xAB1C5ED5,
   0xD807AA98, 0x12835B01, 0x243185BE, 0x550C7DC3, 0x72BE5D74, 0x80DEB1FE, 0x9BDC06A7, 0xC19BF174]
  ++ [0xE49B69C1, 0xEFBE4786, 0x0FC19DC6, 0x240CA1CC, 0x2DE92C6F, 0x4A7484AA, 0x5CB0A9DC, 0x76F988DA,
   0x983E5152, 0xA831C66D, 0xB00327C8, 0xBF597FC7, 0xC6E00BF3, 0xD5A79147, 0x06CA6351, 0x14292967]
  ++ [0x27B70A85, 0x2E1B2138, 0x4D2C6DFC, 0x53380D13, 0x650A7354, 0x766A0ABB, 0x81C2C92E, 0x92722C85,
   0xA2BFE8A1, 0xA81A664B, 0xC24B8B70, 0xC76C51A3, 0xD192E819, 0xD6990624, 0xF40E3585, 0x106AA070]
  ++ [0x19A4C116, 0x1E376C08, 0x2748774C, 0x34B0BCB5, 0x391C0CB3, 0x4ED8AA4A, 0x5B9CCA4F, 0x682E6FF3,
   0x748F82EE, 0x78A5636F, 0x84C87814, 0x8CC70208, 0x90BEFFFA, 0xA4506CEB, 0xBEF9A3F7, 0xC67178F2]

def shaInit : List Word := [0x6A09E667, 0xBB67AE85, 0x3C6EF372, 0xA54FF53A, 0x510E527F, 0x9B05688C, 0x1F83D9AB, 0x5BE0CD19]

/-- The schedule: 64 words from a block's sixteen, the latest first. -/
def shaSchedule : Nat → List Word → List Word
  | 0, ws => ws
  | n + 1, ws =>
    let w (i : Nat) : Word := ws.getD (i - 1) 0
    let s0 := (w 15).rotateRight 7 ^^^ (w 15).rotateRight 18 ^^^ (w 15) >>> 3
    let s1 := (w 2).rotateRight 17 ^^^ (w 2).rotateRight 19 ^^^ (w 2) >>> 10
    shaSchedule n ((w 16 + s0 + w 7 + s1) :: ws)

/-- One round on the eight working words. -/
def shaRound (x : List Word) (kw : Word) : List Word :=
  match x with
  | [a, b, c, d, e, f, g, h] =>
    let s1 := e.rotateRight 6 ^^^ e.rotateRight 11 ^^^ e.rotateRight 25
    let t1 := h + s1 + ((e &&& f) ^^^ (~~~e &&& g)) + kw
    let s0 := a.rotateRight 2 ^^^ a.rotateRight 13 ^^^ a.rotateRight 22
    let t2 := s0 + ((a &&& b) ^^^ (a &&& c) ^^^ (b &&& c))
    [t1 + t2, a, b, c, d + t1, e, f, g]
  | _ => x

/-- One block of sixteen words. -/
def shaBlock (h block : List Word) : List Word :=
  let ws := (shaSchedule 48 block.reverse).reverse
  let x := (ws.zip shaK).foldl (fun x e => shaRound x (e.1 + e.2)) h
  (h.zip x).map fun e => e.1 + e.2

/-- A word from four bytes, the first the highest. -/
def bigWord (bs : List Byte) : Word := BitVec.ofNat 32 (leNat bs.reverse)

/-- Blocks of 64 bytes, hashed in order. -/
def shaBlocks : Nat → List Byte → List Word → List Word
  | 0, _, h => h
  | n + 1, bs, h => shaBlocks n (bs.drop 64) (shaBlock h ((List.range 16).map fun i => bigWord ((bs.drop (4 * i)).take 4)))

/-- A number as `n` bytes, the highest first. -/
def bigBytes (n x : Nat) : List Byte := (List.range n).map fun i => BitVec.ofNat 8 (x / 256 ^ (n - 1 - i))

/-- The number that bytes give, the first the highest. -/
def bigNat (bs : List Byte) : Nat := leNat bs.reverse

/-- The hash of a message of bytes, as eight words. -/
def sha256 (bs : List Byte) : List Word :=
  let padded := bs ++ 0x80#8 :: (List.replicate ((119 - bs.length % 64) % 64) 0 ++ bigBytes 8 (8 * bs.length))
  shaBlocks (padded.length / 64) padded shaInit

/-- A hash as one number, its first word the highest. -/
def hashOf (bs : List Byte) : BitVec 256 := BitVec.ofNat 256 ((sha256 bs).foldl (fun n w => n * 2 ^ 32 + w.toNat) 0)

/-- Powers modulo `n`, for exponents of at most `fuel` bits. -/
def powMod (n : Nat) : Nat → Nat → Nat → Nat
  | 0, _, _ => 1 % n
  | fuel + 1, b, e =>
    if e = 0 then 1 % n
    else
      let h := powMod n fuel (b * b % n) (e / 2)
      if e % 2 = 1 then b * h % n else h

/-- The encoded message of RSASSA-PKCS1-v1_5 with SHA-256 for a 3,072-bit modulus, as a number. -/
def encodedHash (h : BitVec 256) : Nat :=
  bigNat ([0x00#8, 0x01#8] ++ List.replicate 330 0xFF#8 ++ [0x00#8]
    ++ [0x30#8, 0x31#8, 0x30#8, 0x0D#8, 0x06#8, 0x09#8, 0x60#8, 0x86#8, 0x48#8, 0x01#8, 0x65#8, 0x03#8, 0x04#8, 0x02#8,
        0x01#8, 0x05#8, 0x00#8, 0x04#8, 0x20#8] ++ bigBytes 32 h.toNat)

/-- A public key (log entry 15): 384 bytes of modulus, then the exponent, highest bytes first. -/
def keyModulus (key : List Byte) : Nat := bigNat (key.take 384)
def keyExponent (key : List Byte) : Nat := bigNat (key.drop 384)

/-- Whether a signature of a hash verifies under a public key. -/
def rsaVerify (key : List Byte) (h : BitVec 256) (sig : Nat) : Bool :=
  sig < keyModulus key && powMod (keyModulus key) 3072 sig (keyExponent key) = encodedHash h

/-- The signature of a hash under a private key. -/
def rsaSign (modulus exponent : Nat) (h : BitVec 256) : Nat := powMod modulus 3072 (encodedHash h) exponent

end Sys2Proof.Machine
end

