-- ==== Sys2Proof/Machine/Device.lean ====
section
/-! DEFINITION. The device as a whole: bring-up, resets, ports, power, errors found by the device, checkpoints, reports
(spec/27_host.md R364 to R372; spec/26_reliability.md R356, R360 to R363; spec/12_page.md R226; spec/01_organisation.md
R18). -/

namespace Sys2Proof.Machine

/-! ## Bring-up (R362, R364, R370) -/

/-- Whether the firmware is the fused key's (R362): the key's hash is the fused one, and the image's signature verifies. -/
def State.firmwareOk (s : State) (image key : List Byte) (sig : Nat) : Bool :=
  hashOf key = s.dev.fuse && rsaVerify key (hashOf image) sig

/-- FIRMWARE_VERIFY (R362, R370): out of stage 0, which ends with every clock at 0; in stage 1 the firmware's hash is taken,
and with its signature good stage 2 begins and the straps are read: bits 7 to 0 of `roles` the ports' roles, bit 8 the layout of
LOC 3 (R367); else the device holds with ERR 1. Port 0 strapped EXP is ERR 2 (log entry 49). -/
def execFirmwareVerify (image : List Byte) (c : Signed) (rank roles : Nat) (s : State) : Host.Outcome State Fault Refusal :=
  .next <|
    if s.dev.stage > 1 || s.dev.err ≠ 0 then s
    else if s.dev.stage = 0 then
      { s with dev := { s.dev with stage := 1 }, cores := s.cores.map fun (e : Nat × Core) => (e.1, { e.2 with clock := 0 }) }
    else
      let ok := s.firmwareOk image c.key c.sig
      let hash := hashOf image
      s.modDev fun d =>
        if ok then { d with stage := 2, fwHash := hash, rank := rank % 64, roles := BitVec.ofNat 8 roles
                            interleave := roles.testBit 8, err := if roles.testBit 0 then 2 else 0 }
        else { d with fwHash := hash, err := 1 }

/-- The device returns to stage 0 (R371): all is lost but what is outside it, nonvolatile, fused, or counted since
power-on: the CXL tier's memory, the retirement logs, the keys, the corrected errors, and messages already sent. DESIGN CHOICE:
the change number of every link begins anew at 0, as at stage 0 (log entry 75). -/
def State.restart (s : State) : State :=
  let d := s.dev
  { State.reset with
    dev := { retired := d.retired, fixes := d.fixes, failing := d.failing, fuse := d.fuse, idMod := d.idMod, idExp := d.idExp }
    cxl := s.cxl, cxlPoison := s.cxlPoison, latent := s.latent, agenda := s.agenda, out := s.out, fresh := s.fresh }

/-- DEVICE_RESET (R371). -/
def execDeviceReset (s : State) : Host.Outcome State Fault Refusal := .next s.restart

/-- PORT_TRAINING (R364): a port is UP at its generation and width, or DOWN. Port 0 going down is a hot reset (R371). -/
def execPortTraining (port state gen width : Nat) (s : State) : Host.Outcome State Fault Refusal :=
  let up := state = 2 && (gen = 1 || gen = 2) && (width = 8 || width = 16)
  .next <|
    if s.dev.stage < 2 || s.dev.err ≠ 0 || port ≥ 8 || !(up || state ≤ 1) then s
    else if port = 0 && !up && (Tab.get {} s.dev.ports 0).st = 2 then s.restart
    else s.modDev fun d =>
      { d with ports := Tab.put d.ports port (if up then { st := 2, gen := gen, width := width } else { st := state }) }

/-- POWER_ON_WIPE (R360, R370): stage 3 begins; in it the retirement logs are applied and all memory is wiped, poison bits
cleared, ERR 3 where a log is unreadable, rows with an error condemned, and stage 4 begins, in which links train; stage 5 follows, which waits for none of
them (log entry 49). -/
def execPowerOnWipe (logsOk : Bool) (s : State) : Host.Outcome State Fault Refusal :=
  .next <|
    if s.dev.err ≠ 0 then s
    else match s.dev.stage with
      | 2 => s.modDev fun d => { d with stage := 3 }
      | 3 =>
        if !logsOk then s.modDev fun d => { d with err := 3 }
        else
          let bad := (s.latent.filter fun x => x < hbmTop).map rowAt
          { s with dev := { s.dev with stage := 4, failing := s.dev.failing ++ bad }, hbm := [], latent := [] }
      | 4 => s.modDev fun d => { d with stage := 5 }
      | _ => s

/-- CONFIGURATION_REQUEST (R370). -/
def execConfigurationRequest (s : State) : Host.Outcome State Fault Refusal := .next (s.say (.config (s.dev.stage < 5)))

/-! ## Clocks and power (R18, R372) -/

/-- CYCLE_COUNTER_TICK (R18). -/
def execCycleCounterTick (core : Nat) (s : State) : Host.Outcome State Fault Refusal :=
  .next <| if core < 192 then s.modCore core fun c => { c with clock := c.clock + 1 } else s

/-- A die's clock at its step, in MHz: compute dies 0 to 3, then ID0 and ID1 (R369). -/
def dieClock (d : Dev) (die : Nat) : Nat := 1900 - (if die < 4 then 60 else 190) * Tab.get 0 d.steps die

/-- The dies that may be slowed: compute dies while one can be, then I/O dies (R372). -/
def slowable (d : Dev) : List Nat :=
  match [0, 1, 2, 3].filter fun i => Tab.get 0 d.steps i < 15 with
  | [] => [4, 5].filter fun i => Tab.get 0 d.steps i < 3
  | l => l

/-- The die that stands lowest among those that are slowed. -/
def lowestDie (d : Dev) : Option Nat :=
  ((List.range 6).filter fun i => 0 < Tab.get 0 d.steps i).foldl (fun r i => match r with
    | none => some i
    | some j => if dieClock d i < dieClock d j then some i else r) none

/-- POWER_CHECK (R372): the measured power is compared with CAP; what the module draws, and which die draws most, are the
power manager's measurement. -/
def execPowerCheck (s : State) : Host.Outcome State Fault Refusal :=
  let m := Config.measuredPower s.fresh
  let d := s.dev
  let set (i n : Nat) (s : State) : State := s.modDev fun d => { d with steps := Tab.set 0 d.steps i n }
  .next <|
    if m > d.cap then match slowable d with
      | [] => s.tick
      | l => let i := l.getD (Config.hungriestDie s.fresh % l.length) 0
             set i (Tab.get 0 d.steps i + 1) s.tick
    else if 100 * m ≤ 95 * d.cap then match lowestDie d with
      | none => s.tick
      | some i => set i (Tab.get 0 d.steps i - 1) s.tick
    else s.tick

/-! ## Errors that the device finds (R356, R360) -/

/-- The gang of a block that still holds storage is killed with CAUSE 16. -/
def State.scrubKill (s : State) (b : Nat) : State :=
  match s.blk b with
  | none => s
  | some k => if (Tab.find s.gangs k.gang).any (·.st ≠ .exited) then s.killGang k.gang k 16 0 0 0 else s

/-- BACKGROUND_SCRUB (R356). -/
def execBackgroundScrub (f : ScrubFind) (s : State) : Host.Outcome State Fault Refusal :=
  .next <| match f with
    | .block b => s.scrubKill b
    | .bank core n => match ((s.core core).bankOf n.toNat).owner with
      | some b => s.scrubKill b
      | none => s

/-- An uncorrectable error in on-core storage that a block's work reads (R356): its gang is killed with CAUSE 16, the
thread named where one reads (R282). -/
def State.flaw (s : State) (b t : Nat) : State :=
  match s.blk b with
  | none => s
  | some k => if (Tab.find s.gangs k.gang).any (·.st ≠ .exited) then s.killGang k.gang k 16 t 0 0 else s

/-- A corrected error in HBM: the 16th of a row since power-on retires it (R360). -/
def State.corrected (s : State) (a : Nat) : State :=
  let fixes := s.dev.fixes ++ [rowAt a]
  s.modDev fun d =>
    { d with fixes := fixes
             failing := if (fixes.filter (· = rowAt a)).length = 16 then d.failing ++ [rowAt a] else d.failing }

/-- ROW_RETIREMENT (R360): a row that an error has condemned: its data goes to a spare row and the log takes an entry, if
both have room. -/
def execRowRetirement (stack row : Nat) (spare : Bool) (s : State) : Host.Outcome State Fault Refusal :=
  let log := Tab.get [] s.dev.retired stack
  .next <| if !s.dev.failing.contains (stack, row) then s
    else
      let s := s.modDev fun d => { d with failing := d.failing.filter (· ≠ (stack, row)) }
      if stack < 12 && spare && log.length < 2048 then
        s.modDev fun d => { d with retired := Tab.put d.retired stack (log ++ [row]) }
      else s

/-- RUN_AHEAD_ACCESS (R226): what a prefetch fills; an error found fresh marks its granule. -/
def execRunAheadAccess (core ctx : Nat) (addr : DWord) (kind : AheadKind) (s : State) : Host.Outcome State Fault Refusal :=
  .next <|
    if core ≥ 192 || (s.ctx ctx).st ≠ .active then s
    else match kind with
      | .l1 => s.runAhead core ctx addr true
      | .device => s.runAhead core ctx addr false
      | .code => match lookup s core ctx none addr 1 with
        | (.ok t, s) =>
          let a := t.frame + (blockAddr addr).toNat % 65536
          match if t.att.loc = 0 then s.latentIn a 32 else none with
          | some x => s.found x
          | none => match fetchBlock s core ctx (blockAddr addr) with
            | .bytes _ s => s
            | _ => s
        | (_, s) => s

/-! ## Host accesses to device memory (R263) -/

/-- HOST_DEVICE_MEMORY_ACCESS (R263): for a read, `data` has the length that is read, and a marked granule or an error
found fresh gives a poisoned completion, with no bytes. -/
def execHostDeviceMemoryAccess (write : Bool) (addr : Nat) (data : List Byte) (s : State) :
    Host.Outcome State Fault Refusal :=
  let n := data.length
  .next <|
    if s.dev.stage < 5 || addr + n > poisonBase then s
    else if write then ((s.patchCaches none 0 addr data).noFills 0 addr n).placeWrite 0 addr data
    else match s.latentIn addr n with
      | some x => (s.found x).say (.hostData [])
      | none => s.say (.hostData (if s.poisonedIn addr n then [] else s.placeRead 0 addr n))

/-! ## Checkpoints (R361) -/

/-- Entries of a memory in a range, moved to another place. -/
def Memory.slice (m : Memory) (from_ n dst : Nat) : Memory :=
  (m.filter fun e => from_ ≤ e.1 && e.1 < from_ + n).map fun (e : Nat × Byte) => (e.1 - from_ + dst, e.2)

/-- A memory with a range replaced by entries that lie in it. -/
def Memory.splice (m : Memory) (at_ n : Nat) (new : Memory) : Memory :=
  m.filter (fun e => e.1 < at_) ++ new ++ m.filter fun e => e.1 ≥ at_ + n

/-- The half-stacks of a partition, ascending. -/
def Prt.stacks (p : Prt) : List Nat := (List.range 24).filter fun h => p.hmask.getLsbD h

/-- What a checkpoint of a half-stack copies: its memory, then, after all memory, its poison bits (log entry 15): where in
HBM, how many bytes, where in the range. -/
def chkptParts (p : Prt) : List (Nat × Nat × Nat) :=
  let hs := p.stacks
  (hs.zipIdx.map fun e => (2 ^ 35 * e.1, if e.1 = 23 then 2 ^ 35 - 25165824 else 2 ^ 35, 2 ^ 35 * e.2))
  ++ hs.zipIdx.map fun e => (poisonBase + 2 ^ 20 * e.1, 2 ^ 20, 2 ^ 35 * hs.length + 2 ^ 20 * e.2)

/-- Whether a checkpoint or restore of a partition may start. -/
def State.chkptOk (s : State) (p : Nat) : Bool :=
  s.dev.stage = 5 && p < 24 && s.dev.chkpt.isNone && (s.part p).st = .open_
  && (s.partCtxs p).all fun c => (s.ctx c).st = .preempted || (s.ctx c).st = .wiped

/-- CHECKPOINT (R361). -/
def execCheckpoint (p addr : Nat) (s : State) : Host.Outcome State Fault Refusal :=
  .next <| if s.chkptOk p then s.modDev fun d => { d with chkpt := some { part := p, addr := addr, restore := false } } else s

/-- RESTORE (R361). -/
def execRestore (p addr : Nat) (s : State) : Host.Outcome State Fault Refusal :=
  .next <| if s.chkptOk p then s.modDev fun d => { d with chkpt := some { part := p, addr := addr, restore := true } } else s

/-- Memory goes to the CXL tier: an error found fresh marks its granule and is written as poison (R220, R361). -/
def State.copyOut (s : State) (p : Prt) (addr : Nat) : State :=
  let bad := s.latent.filter fun x => p.hmask.getLsbD (halfStack x) && x < poisonBase
  let s := bad.foldl State.found s
  let at_ (x : Nat) : Nat := ((chkptParts p).findSome? fun (e : Nat × Nat × Nat) =>
    if e.1 ≤ x && x < e.1 + e.2.1 then some (addr + e.2.2 + (x - e.1)) else none).getD 0
  (chkptParts p).foldl (fun (s : State) (e : Nat × Nat × Nat) =>
      { s with cxl := Memory.splice s.cxl (addr + e.2.2) e.2.1 (Memory.slice s.hbm e.1 e.2.1 (addr + e.2.2)) })
    { s with cxlPoison := sortNat (bad.map at_ ++ s.cxlPoison.filter fun x =>
        !((chkptParts p).any fun (e : Nat × Nat × Nat) => addr + e.2.2 ≤ x && x < addr + e.2.2 + e.2.1)) }

/-- Memory comes back from the CXL tier, its poison as marks (R220, R361). -/
def State.copyIn (s : State) (p : Prt) (addr : Nat) : State :=
  let s := (chkptParts p).foldl (fun (s : State) (e : Nat × Nat × Nat) =>
    { s with hbm := Memory.splice s.hbm e.1 e.2.1 (Memory.slice s.cxl (addr + e.2.2) e.2.1 e.1) }) s
  (chkptParts p).foldl (fun (s : State) (e : Nat × Nat × Nat) =>
    if e.1 ≥ poisonBase then s
    else (s.cxlPoison.filter fun x => addr + e.2.2 ≤ x && x < addr + e.2.2 + e.2.1).foldl
      (fun s x => s.setPoison (x - addr - e.2.2 + e.1) true) s) s

/-- CHECKPOINT_COMPLETE (R361): the copy is done, through the EXP ports, and resumes that came meanwhile take effect. -/
def execCheckpointComplete (s : State) : Host.Outcome State Fault Refusal :=
  .next <| match s.dev.chkpt with
    | none => s
    | some k =>
      let p := s.part k.part
      if !s.expUp k.addr ((2 ^ 35 + 2 ^ 20) * p.stacks.length) then s
      else
        let s := if k.restore then s.copyIn p k.addr else s.copyOut p k.addr
        k.resumes.foldl State.resumeCtx (s.modDev fun d => { d with chkpt := none })

/-! ## Attestation (R362) -/

/-- The sixteen words of a partition record (R384). -/
def State.partWords (s : State) (p : Nat) : List Word :=
  let x := s.part p
  let st := match x.st with
    | .free => 0
    | .open_ => 1
    | .wiping => 2
  let vfs : BitVec 96 := (s.partCtxs p).foldl (fun m c => m ||| BitVec.twoPow 96 c) 0
  [BitVec.ofNat 32 (st * 2 ^ 30 + x.cmask.toNat), x.hmask.setWidth 32] ++ splitDWord x.fmb
  ++ [x.fmn, BitVec.ofNat 32 (x.hvv.toNat * 2 ^ 31 + x.hvc), 0, 0]
  ++ (List.range 3).map (fun i => vfs.extractLsb' (32 * i) 32) ++ (List.range 3).map (fun i => x.gstm.extractLsb' (32 * i) 32)
  ++ [0, 0]

/-- The words of a report (R362): the nonce, the firmware's hash, the hash of each OPEN partition record, the number of
entries of each stack's log (log entry 15). -/
def State.reportWords (s : State) (nonce : BitVec 256) : List Word :=
  let split (x : BitVec 256) : List Word := (List.range 8).map fun i => x.extractLsb' (224 - 32 * i) 32
  let parts := (List.range 24).filter fun p => (s.part p).st = .open_
  split nonce ++ split s.dev.fwHash ++ parts.flatMap (fun p => sha256 (wordBytes (s.partWords p)))
  ++ (List.range 12).map fun k => BitVec.ofNat 32 (Tab.get [] s.dev.retired k).length

/-- ATTESTATION_REPORT (R362): the report, signed with the device's identity key. -/
def execAttestationReport (nonce : BitVec 256) (s : State) : Host.Outcome State Fault Refusal :=
  let ws := s.reportWords nonce
  .next (s.say (.report ws (rsaSign s.dev.idMod.toNat s.dev.idExp.toNat (hashOf (wordBytes ws)))))

/-! ## What the host reads of the registers (R3) -/

/-- A word of a context's descriptor window (R348); what is write-only, reserved or not named reads 0. -/
def Ctx.word (x : Ctx) (off : Nat) : Word :=
  let st : Nat := match x.st with
    | .created => 0
    | .active => 1
    | .preempted => 2
    | .faulted => 3
    | .resetting => 4
    | .wiped => 5
  let lo (v : DWord) : Word := v.extractLsb' 0 32
  let hi (v : DWord) : Word := v.extractLsb' 32 32
  let n (v : Nat) : Word := BitVec.ofNat 32 v
  match off with
  | 0x00 => n (st * 2 ^ 29 + x.hv.toNat * 2 ^ 28 + x.gst.toNat * 2 ^ 27 + x.sys.toNat * 2 ^ 26 + x.part * 2 ^ 16 + x.fcause)
  | 0x08 => n (x.ldom * 2 ^ 16)
  | 0x10 => lo x.lmask
  | 0x14 => hi x.lmask
  | 0x18 => lo x.otb
  | 0x1C => hi x.otb
  | 0x20 => n x.otl
  | 0x28 => lo x.fqb
  | 0x2C => hi x.fqb
  | 0x30 => n x.fqk
  | 0x34 => x.fqp
  | 0x38 => x.fqc
  | 0x40 => lo x.hrb
  | 0x44 => hi x.hrb
  | 0x48 => n x.hrk
  | 0x4C => x.hrp
  | 0x50 => x.hrc
  | 0x58 => lo x.crb
  | 0x5C => hi x.crb
  | 0x60 => n x.crk
  | 0x64 => x.crp
  | 0x68 => x.crc
  | 0x70 => lo x.meb
  | 0x74 => hi x.meb
  | 0x78 => n x.mek
  | 0x7C => x.mep
  | 0x80 => x.mec
  | 0x84 => n x.mhl
  | 0x88 => lo x.savb
  | 0x8C => hi x.savb
  | 0x90 => x.savn
  | 0x94 => x.savu
  | 0x98 => n (x.qb * 2 ^ 26 + x.qpg * 2 ^ 16)
  | 0x9C => n (x.qsw * 2 ^ 17 + x.qscr * 2 ^ 7)
  | 0xA0 => n x.qpool
  | 0xA4 => n x.cstl
  | _ => 0

/-- A word of a queue's registers (R258). -/
def HQueue.word (x : HQueue) (off : Nat) : Word :=
  let st : Nat := match x.st with
    | .disabled => 0
    | .enabled => 1
    | .running => 2
    | .stalled => 3
    | .draining => 4
    | .error => 5
  let n (v : Nat) : Word := BitVec.ofNat 32 v
  match off with
  | 0x00 => n (x.enable.toNat * 2 ^ 31 + x.drain.toNat * 2 ^ 30 + x.qk * 2 ^ 24 + x.ck * 2 ^ 16)
  | 0x08 => x.qbase.extractLsb' 0 32
  | 0x0C => x.qbase.extractLsb' 32 32
  | 0x10 => x.cbase.extractLsb' 0 32
  | 0x14 => x.cbase.extractLsb' 32 32
  | 0x20 => x.tail
  | 0x24 => x.cons
  | 0x28 => x.ccons
  | 0x2C => x.comp
  | 0x30 => n (st * 2 ^ 29 + x.err * 2 ^ 24)
  | 0x34 => n x.qto
  | _ => 0

/-- The status and control words of a link (R251). -/
def Link.word (x : Link) (off : Nat) : Word :=
  let st : Nat := match x.st with
    | .down => 0
    | .training => 1
    | .up => 2
    | .degraded => 3
    | .quarantined => 4
  match off with
  | 0 => BitVec.ofNat 32 (st * 2 ^ 29 + x.cause * 2 ^ 27 + x.lanes * 2 ^ 23 + x.retr * 2 ^ 15 + x.prank.toNat * 2 ^ 9)
  | 4 => BitVec.ofNat 32 (x.quar.toNat * 2 + x.enable.toNat)
  | _ => 0

/-- DSTAT, POWER and the port status words (R369). -/
def Dev.word (d : Dev) (off : Nat) : Word :=
  let n (v : Nat) : Word := BitVec.ofNat 32 v
  let step (i : Nat) : Nat := Tab.get 0 d.steps i
  if off = 0 then n (d.stage * 2 ^ 29 + d.err * 2 ^ 24 + d.rank * 2 ^ 18 + d.roles.toNat * 2 ^ 10)
  else if off = 4 then
    n (d.cap * 2 ^ 20 + step 5 * 2 ^ 18 + step 4 * 2 ^ 16 + ((List.range 4).map fun i => step i * 16 ^ i).sum)
  else if 0x100 ≤ off ∧ off < 0x120 ∧ off % 4 = 0 then
    let i := (off - 0x100) / 4
    let p := Tab.get {} d.ports i
    n (p.st * 2 ^ 30 + p.gen * 2 ^ 28 + (d.roles.getLsbD i).toNat * 2 ^ 27 + p.width * 2 ^ 22)
  else 0

/-- What a 32-bit read at an offset of virtual function `v`'s BAR 0 returns (R258, R348). -/
def State.vfRead (s : State) (v off : Nat) : Word :=
  if off < 0x1000 then (s.ctx v).word off
  else if off < 0x1400 then (s.queue v ((off - 0x1000) / 0x100)).word (off % 0x100)
  else 0

/-- What a 32-bit read at an offset of the management window returns (R368). -/
def State.pfRead (s : State) (off : Nat) : Word :=
  let d := s.dev
  if off < 0x1000 then d.word off
  else if off < 0x1120 then (Tab.get {} d.links ((off - 0x1000) / 16) : Link).word (off % 16)
  else if off = 0x1200 then BitVec.ofNat 32 d.rto
  else if 0x2000 ≤ off ∧ off < 0x2600 ∧ off % 4 = 0 then (s.partWords ((off - 0x2000) / 64)).getD (off % 64 / 4) 0
  else if 0x3000 ≤ off ∧ off < 0x3040 ∧ off % 4 = 0 then
    ([d.audSeed, d.audCnt, d.audMis, d.audSkip]
      ++ (List.range 12).map fun k => BitVec.ofNat 32 (Tab.get [] d.retired k).length).getD ((off - 0x3000) / 4) 0
  else 0

end Sys2Proof.Machine
end

