-- ==== Sys2Proof/Machine/Float.lean ====
section
/-! DEFINITION. The floating-point instructions and CVT (spec/06_float.md). -/

namespace Sys2Proof.Machine

def execFadd (f : Std) (s : State) := compute (.fadd f) f faddRes s
def execFmul (f : Std) (s : State) := compute (.fmul f) f fmulRes s
def execFfma (f : Std) (s : State) := compute (.ffma f) f ffmaRes s
def execFmin (f : Std) (s : State) := compute (.fmin f) f fminRes s
def execFmax (f : Std) (s : State) := compute (.fmax f) f fmaxRes s
def execFcmp (f : Std) (s : State) := compute (.fcmp f) f fcmpRes s
def execFclass (f : Std) (s : State) := compute (.fclass f) f fclassRes s
def execFrnd (f : Std) (s : State) := compute (.frnd f) f frndRes s
def execFdiv (f : Std) (s : State) := compute (.fdiv f) f fdivRes s
def execFrcp (f : Std) (s : State) := compute (.frcp f) f frcpRes s
def execFrsq (f : Std) (s : State) := compute (.frsq f) f frsqRes s
def execFsqrt (f : Std) (s : State) := compute (.fsqrt f) f fsqrtRes s
def execFexp2 (f : Std) (s : State) := compute (.fexp2 f) f fexp2Res s
def execFlog2 (f : Std) (s : State) := compute (.flog2 f) f flog2Res s
def execFsin (f : Std) (s : State) := compute (.fsin f) f fsinRes s
def execFcos (f : Std) (s : State) := compute (.fcos f) f fcosRes s
def execFtanh (f : Std) (s : State) := compute (.ftanh f) f ftanhRes s
def execDadd (f : Std) (s : State) := compute (.dadd f) f faddRes s
def execDmul (f : Std) (s : State) := compute (.dmul f) f fmulRes s
def execDfma (f : Std) (s : State) := compute (.dfma f) f ffmaRes s
def execDcmp (f : Std) (s : State) := compute (.dcmp f) f fcmpRes s

/-- The registers of a CVT format (R117). -/
def cvtRegs (code : Nat) : Nat := if cvtPair code then 2 else 1

/-- A CVT that leaves elements of its destination as they are (R119). -/
def cvtMerges (f : Std) : Bool := cvtCount f.cvtTgt > cvtCount f.cvtSrc

/-- The old destination of a merging CVT; 0 for `0x119` and latch-only (R119). -/
def cvtOld (k : Block) (t : Nat) (x : Thread) (f : Std) : DWord :=
  if cvtMerges f then (k.regWord t x f.d 0).setWidth 64 else 0

/-- The shape of CVT's result (R53). -/
def cvtShape (k : Block) (f : Std) : Shape :=
  let sa := k.selShape f.a (cvtRegs f.cvtSrc)
  let sb := if f.cvtMode = 4 then k.selShape f.b 1 else .u
  let sd := if cvtMerges f then k.selShape f.d 1 else .u
  if f.cvtMode = 4 then .g
  else if sa.isU && sb.isU && sd.isU then .u else .g

/-- CVT (R119). -/
def execCvt (f : Std) (s : State) : Host.Outcome State Fault Refusal :=
  issue (.cvt f) always (computeRun f.d (cvtRegs f.cvtTgt) (fun q => cvtShape q.k f)
    (fun q _ t =>
      let x := q.thr t
      cvtRes f { a := q.k.srcIn t x f.lit (cvtFmt f.cvtSrc) (cvtCount f.cvtSrc) (cvtRegs f.cvtSrc) f.a
                 b := (q.k.src32 t x f.lit f.b).setWidth 64, tid := t, old := cvtOld q.k t x f })) s

end Sys2Proof.Machine
end

