-- ==== Sys2Proof/Machine/Dispatch.lean ====
section
/-! DEFINITION. The meaning of every instruction and event: one arm per constructor. -/

namespace Sys2Proof.Machine

open Sys2Proof

def exec (i : Instr) (s : State) : Host.Outcome State Fault Refusal :=
  match i with
  | .nop f => Sys2Proof.Machine.execNop f s
  | .bra f => Sys2Proof.Machine.execBra f s
  | .brx f => Sys2Proof.Machine.execBrx f s
  | .call f => Sys2Proof.Machine.execCall f s
  | .ret f => Sys2Proof.Machine.execRet f s
  | .meet f => Sys2Proof.Machine.execMeet f s
  | .exit f => Sys2Proof.Machine.execExit f s
  | .yield f => Sys2Proof.Machine.execYield f s
  | .bkpt f => Sys2Proof.Machine.execBkpt f s
  | .trap f => Sys2Proof.Machine.execTrap f s
  | .rtt f => Sys2Proof.Machine.execRtt f s
  | .add f => Sys2Proof.Machine.execAdd f s
  | .addc f => Sys2Proof.Machine.execAddc f s
  | .sub f => Sys2Proof.Machine.execSub f s
  | .subb f => Sys2Proof.Machine.execSubb f s
  | .mul f => Sys2Proof.Machine.execMul f s
  | .mulh f => Sys2Proof.Machine.execMulh f s
  | .mad f => Sys2Proof.Machine.execMad f s
  | .madc f => Sys2Proof.Machine.execMadc f s
  | .madw f => Sys2Proof.Machine.execMadw f s
  | .absd f => Sys2Proof.Machine.execAbsd f s
  | .min f => Sys2Proof.Machine.execMin f s
  | .max f => Sys2Proof.Machine.execMax f s
  | .neg f => Sys2Proof.Machine.execNeg f s
  | .dot4 f => Sys2Proof.Machine.execDot4 f s
  | .lea f => Sys2Proof.Machine.execLea f s
  | .movS f => Sys2Proof.Machine.execMovS f s
  | .mov f => Sys2Proof.Machine.execMov f s
  | .shl f => Sys2Proof.Machine.execShl f s
  | .shr f => Sys2Proof.Machine.execShr f s
  | .sar f => Sys2Proof.Machine.execSar f s
  | .fsh f => Sys2Proof.Machine.execFsh f s
  | .tern f => Sys2Proof.Machine.execTern f s
  | .popc f => Sys2Proof.Machine.execPopc f s
  | .clz f => Sys2Proof.Machine.execClz f s
  | .brev f => Sys2Proof.Machine.execBrev f s
  | .bfx f => Sys2Proof.Machine.execBfx f s
  | .bfi f => Sys2Proof.Machine.execBfi f s
  | .perm f => Sys2Proof.Machine.execPerm f s
  | .icmp f => Sys2Proof.Machine.execIcmp f s
  | .sel f => Sys2Proof.Machine.execSel f s
  | .pset f => Sys2Proof.Machine.execPset f s
  | .fadd f => Sys2Proof.Machine.execFadd f s
  | .fmul f => Sys2Proof.Machine.execFmul f s
  | .ffma f => Sys2Proof.Machine.execFfma f s
  | .fmin f => Sys2Proof.Machine.execFmin f s
  | .fmax f => Sys2Proof.Machine.execFmax f s
  | .fcmp f => Sys2Proof.Machine.execFcmp f s
  | .fclass f => Sys2Proof.Machine.execFclass f s
  | .frnd f => Sys2Proof.Machine.execFrnd f s
  | .fdiv f => Sys2Proof.Machine.execFdiv f s
  | .cvt f => Sys2Proof.Machine.execCvt f s
  | .frcp f => Sys2Proof.Machine.execFrcp f s
  | .frsq f => Sys2Proof.Machine.execFrsq f s
  | .fsqrt f => Sys2Proof.Machine.execFsqrt f s
  | .fexp2 f => Sys2Proof.Machine.execFexp2 f s
  | .flog2 f => Sys2Proof.Machine.execFlog2 f s
  | .fsin f => Sys2Proof.Machine.execFsin f s
  | .fcos f => Sys2Proof.Machine.execFcos f s
  | .ftanh f => Sys2Proof.Machine.execFtanh f s
  | .dadd f => Sys2Proof.Machine.execDadd f s
  | .dmul f => Sys2Proof.Machine.execDmul f s
  | .dfma f => Sys2Proof.Machine.execDfma f s
  | .dcmp f => Sys2Proof.Machine.execDcmp f s
  | .shfl f => Sys2Proof.Machine.execShfl f s
  | .vote f => Sys2Proof.Machine.execVote f s
  | .matchReg f => Sys2Proof.Machine.execMatchReg f s
  | .redr f => Sys2Proof.Machine.execRedr f s
  | .lmap f => Sys2Proof.Machine.execLmap f s
  | .opref f => Sys2Proof.Machine.execOpref f s
  | .opsave f => Sys2Proof.Machine.execOpsave f s
  | .sread f => Sys2Proof.Machine.execSread f s
  | .swrt f => Sys2Proof.Machine.execSwrt f s
  | .shape f => Sys2Proof.Machine.execShape f s
  | .hread f => Sys2Proof.Machine.execHread f s
  | .hwait f => Sys2Proof.Machine.execHwait f s
  | .hbr f => Sys2Proof.Machine.execHbr f s
  | .tick f => Sys2Proof.Machine.execTick f s
  | .hresume f => Sys2Proof.Machine.execHresume f s
  | .ld f => Sys2Proof.Machine.execLd f s
  | .st f => Sys2Proof.Machine.execSt f s
  | .lds f => Sys2Proof.Machine.execLds f s
  | .sts f => Sys2Proof.Machine.execSts f s
  | .ldnr f => Sys2Proof.Machine.execLdnr f s
  | .pgreq f => Sys2Proof.Machine.execPgreq f s
  | .atom f => Sys2Proof.Machine.execAtom f s
  | .atoms f => Sys2Proof.Machine.execAtoms f s
  | .red f => Sys2Proof.Machine.execRed f s
  | .pf f => Sys2Proof.Machine.execPf f s
  | .fence f => Sys2Proof.Machine.execFence f s
  | .cctl f => Sys2Proof.Machine.execCctl f s
  | .pgmove f => Sys2Proof.Machine.execPgmove f s
  | .pgheat f => Sys2Proof.Machine.execPgheat f s
  | .pgq f => Sys2Proof.Machine.execPgq f s
  | .pginv f => Sys2Proof.Machine.execPginv f s
  | .bari f => Sys2Proof.Machine.execBari f s
  | .bara f => Sys2Proof.Machine.execBara f s
  | .barw f => Sys2Proof.Machine.execBarw f s
  | .bars f => Sys2Proof.Machine.execBars f s
  | .barq f => Sys2Proof.Machine.execBarq f s
  | .gbar f => Sys2Proof.Machine.execGbar f s
  | .enq f => Sys2Proof.Machine.execEnq f s
  | .eseq f => Sys2Proof.Machine.execEseq f s
  | .ewait f => Sys2Proof.Machine.execEwait f s
  | .cwptr f => Sys2Proof.Machine.execCwptr f s
  | .cwait f => Sys2Proof.Machine.execCwait f s
  | .bsrclr f => Sys2Proof.Machine.execBsrclr f s
  | .prsv f => Sys2Proof.Machine.execPrsv f s
  | .prel f => Sys2Proof.Machine.execPrel f s
  | .mxloop f => Sys2Proof.Machine.execMxloop f s
  | .mxwait f => Sys2Proof.Machine.execMxwait f s
  | .mxdrain f => Sys2Proof.Machine.execMxdrain f s
  | .mxread f => Sys2Proof.Machine.execMxread f s
  | .mxzero f => Sys2Proof.Machine.execMxzero f s
  | .mxstat f => Sys2Proof.Machine.execMxstat f s
  | .drawr f => Sys2Proof.Machine.execDrawr f s
  | .drawm f => Sys2Proof.Machine.execDrawm f s
  | .coin f => Sys2Proof.Machine.execCoin f s
  | .agdef f => Sys2Proof.Machine.execAgdef f s
  | .mldr f => Sys2Proof.Machine.execMldr f s
  | .clstart f => Sys2Proof.Machine.execClstart f s
  | .clwait f => Sys2Proof.Machine.execClwait f s
  | .clabort f => Sys2Proof.Machine.execClabort f s
  | .meetingRelease blk v => Sys2Proof.Machine.execMeetingRelease blk v s
  | .waitEnd blk rip => Sys2Proof.Machine.execWaitEnd blk rip s
  | .hwaitEnd blk rip => Sys2Proof.Machine.execHwaitEnd blk rip s
  | .exitComplete blk t => Sys2Proof.Machine.execExitComplete blk t s
  | .barrierArrive blk t => Sys2Proof.Machine.execBarrierArrive blk t s
  | .barrierWaitEnd blk rip => Sys2Proof.Machine.execBarrierWaitEnd blk rip s
  | .ewaitEnd blk rip => Sys2Proof.Machine.execEwaitEnd blk rip s
  | .cwaitEnd blk rip => Sys2Proof.Machine.execCwaitEnd blk rip s
  | .mxwaitEnd blk rip => Sys2Proof.Machine.execMxwaitEnd blk rip s
  | .clwaitEnd blk rip => Sys2Proof.Machine.execClwaitEnd blk rip s
  | .clabortStart blk t => Sys2Proof.Machine.execClabortStart blk t s
  | .heldOperationPerform blk t tk => Sys2Proof.Machine.execHeldOperationPerform blk t tk s
  | .enqSlotWrite blk t tk => Sys2Proof.Machine.execEnqSlotWrite blk t tk s
  | .operationSettle blk t tk => Sys2Proof.Machine.execOperationSettle blk t tk s
  | .operationPark blk t tk => Sys2Proof.Machine.execOperationPark blk t tk s
  | .operationFail blk t tk => Sys2Proof.Machine.execOperationFail blk t tk s
  | .failureTrap blk t => Sys2Proof.Machine.execFailureTrap blk t s
  | .fetchFault blk rip => Sys2Proof.Machine.execFetchFault blk rip s
  | .tailWrite vf q v => Sys2Proof.Machine.execTailWrite vf q v s
  | .queueEnable vf q => Sys2Proof.Machine.execQueueEnable vf q s
  | .queueDisable vf q => Sys2Proof.Machine.execQueueDisable vf q s
  | .queueDrain vf q => Sys2Proof.Machine.execQueueDrain vf q s
  | .cconsWrite vf q v => Sys2Proof.Machine.execCconsWrite vf q v s
  | .entryFetch vf q ws => Sys2Proof.Machine.execEntryFetch vf q ws s
  | .ringAccessTimeout vf q => Sys2Proof.Machine.execRingAccessTimeout vf q s
  | .gangPlace cores => Sys2Proof.Machine.execGangPlace cores s
  | .nodeComplete node => Sys2Proof.Machine.execNodeComplete node s
  | .gangSave g => Sys2Proof.Machine.execGangSave g s
  | .chainSlotRead blk e => Sys2Proof.Machine.execChainSlotRead blk e s
  | .copyPieceDone blk e k => Sys2Proof.Machine.execCopyPieceDone blk e k s
  | .copyPiecePark blk e k => Sys2Proof.Machine.execCopyPiecePark blk e k s
  | .copyPieceStallTimeout blk e k => Sys2Proof.Machine.execCopyPieceStallTimeout blk e k s
  | .matrixStepStart core => Sys2Proof.Machine.execMatrixStepStart core s
  | .matrixStepEnd core => Sys2Proof.Machine.execMatrixStepEnd core s
  | .remoteRequest r => Sys2Proof.Machine.execRemoteRequest r s
  | .requestRelay dst r => Sys2Proof.Machine.execRequestRelay dst r s
  | .remoteResponse r => Sys2Proof.Machine.execRemoteResponse r s
  | .responseAck src tag => Sys2Proof.Machine.execResponseAck src tag s
  | .responseTimeout tag => Sys2Proof.Machine.execResponseTimeout tag s
  | .portCompletion tag status data => Sys2Proof.Machine.execPortCompletion tag status data s
  | .linkSignalDetect j => Sys2Proof.Machine.execLinkSignalDetect j s
  | .linkTrainingDone j lanes prank pair ex => Sys2Proof.Machine.execLinkTrainingDone j lanes prank pair ex s
  | .linkTrainingTimeout j => Sys2Proof.Machine.execLinkTrainingTimeout j s
  | .linkRetryTimer j => Sys2Proof.Machine.execLinkRetryTimer j s
  | .linkDegrade j => Sys2Proof.Machine.execLinkDegrade j s
  | .linkRetrainDone j lanes prank pair ex => Sys2Proof.Machine.execLinkRetrainDone j lanes prank pair ex s
  | .linkSignalLost j => Sys2Proof.Machine.execLinkSignalLost j s
  | .flitReplay j => Sys2Proof.Machine.execFlitReplay j s
  | .linkEnable j on => Sys2Proof.Machine.execLinkEnable j on s
  | .linkQuarantine j => Sys2Proof.Machine.execLinkQuarantine j s
  | .linkStateBroadcast owner j st chg => Sys2Proof.Machine.execLinkStateBroadcast owner j st chg s
  | .capabilityBroadcast rank rev caps => Sys2Proof.Machine.execCapabilityBroadcast rank rev caps s
  | .moveStart o => Sys2Proof.Machine.execMoveStart o s
  | .copyPassEnd m => Sys2Proof.Machine.execCopyPassEnd m s
  | .holdLimitExpiry m => Sys2Proof.Machine.execHoldLimitExpiry m s
  | .install a ldom page frame att ranks => Sys2Proof.Machine.execInstall a ldom page frame att ranks s
  | .installAck m status => Sys2Proof.Machine.execInstallAck m status s
  | .redirect ldom page owner => Sys2Proof.Machine.execRedirect ldom page owner s
  | .entriesUpdated src tag ldom page => Sys2Proof.Machine.execEntriesUpdated src tag ldom page s
  | .ownerCacheInvalidate src ldom page => Sys2Proof.Machine.execOwnerCacheInvalidate src ldom page s
  | .invalidateAck src ldom page => Sys2Proof.Machine.execInvalidateAck src ldom page s
  | .stubGone src ldom page => Sys2Proof.Machine.execStubGone src ldom page s
  | .memberResetNotice src ldom => Sys2Proof.Machine.execMemberResetNotice src ldom s
  | .addressGroupDefine src tag ldom agn del base mask => Sys2Proof.Machine.execAddressGroupDefine src tag ldom agn del base mask s
  | .armingNotice src ldom grp n check => Sys2Proof.Machine.execArmingNotice src ldom grp n check s
  | .chunkFire k => Sys2Proof.Machine.execChunkFire k s
  | .reducerCommand a ldom grp n chunk data => Sys2Proof.Machine.execReducerCommand a ldom grp n chunk data s
  | .memberLagTimeout ldom grp chunk => Sys2Proof.Machine.execMemberLagTimeout ldom grp chunk s
  | .collectiveAbort src ldom grp n status => Sys2Proof.Machine.execCollectiveAbort src ldom grp n status s
  | .collectiveAbortAck src ldom grp n => Sys2Proof.Machine.execCollectiveAbortAck src ldom grp n s
  | .contextCreate c => Sys2Proof.Machine.execContextCreate c s
  | .contextActivate c => Sys2Proof.Machine.execContextActivate c s
  | .contextPreempt c => Sys2Proof.Machine.execContextPreempt c s
  | .contextResume c => Sys2Proof.Machine.execContextResume c s
  | .contextReset c => Sys2Proof.Machine.execContextReset c s
  | .resetComplete c => Sys2Proof.Machine.execResetComplete c s
  | .lmaskWrite c v => Sys2Proof.Machine.execLmaskWrite c v s
  | .fqcWrite c v => Sys2Proof.Machine.execFqcWrite c v s
  | .mecWrite c v => Sys2Proof.Machine.execMecWrite c v s
  | .partitionAssign p => Sys2Proof.Machine.execPartitionAssign p s
  | .partitionClose p => Sys2Proof.Machine.execPartitionClose p s
  | .wipeComplete p => Sys2Proof.Machine.execWipeComplete p s
  | .vfEnable v => Sys2Proof.Machine.execVfEnable v s
  | .vfReset v disable => Sys2Proof.Machine.execVfReset v disable s
  | .checkpoint p addr => Sys2Proof.Machine.execCheckpoint p addr s
  | .restore p addr => Sys2Proof.Machine.execRestore p addr s
  | .checkpointComplete => Sys2Proof.Machine.execCheckpointComplete s
  | .attestationReport nonce => Sys2Proof.Machine.execAttestationReport nonce s
  | .deviceReset => Sys2Proof.Machine.execDeviceReset s
  | .firmwareVerify image c rank roles => Sys2Proof.Machine.execFirmwareVerify image c rank roles s
  | .portTraining port state gen width => Sys2Proof.Machine.execPortTraining port state gen width s
  | .powerOnWipe logsOk => Sys2Proof.Machine.execPowerOnWipe logsOk s
  | .powerCheck => Sys2Proof.Machine.execPowerCheck s
  | .backgroundScrub f => Sys2Proof.Machine.execBackgroundScrub f s
  | .rowRetirement stack row spare => Sys2Proof.Machine.execRowRetirement stack row spare s
  | .registerWrite r n v => Sys2Proof.Machine.execRegisterWrite r n v s
  | .unassignedOpcodeExecute detail => Sys2Proof.Machine.execUnassignedOpcodeExecute detail s
  | .cycleCounterTick core => Sys2Proof.Machine.execCycleCounterTick core s
  | .runAheadAccess core ctx addr kind => Sys2Proof.Machine.execRunAheadAccess core ctx addr kind s
  | .hostDeviceMemoryAccess write addr data => Sys2Proof.Machine.execHostDeviceMemoryAccess write addr data s
  | .configurationRequest => Sys2Proof.Machine.execConfigurationRequest s

end Sys2Proof.Machine
end

