-- ==== Sys2Proof/Machine/Run.lean ====
section
/-! DEFINITION. How the device goes on: a ripple's next instruction (spec/02_words.md R21, R40, R41; spec/08_operation.md
R159), the acts of the agenda, and what the device does of itself when the agenda names none (spec/07_group.md R126,
R127; notes/assumptions/1.md). -/

namespace Sys2Proof.Machine

/-! ## The next instruction of a ripple -/

/-- What a ripple would do next: the instruction at its PC, the event of a fetch that parks or of words that are no
instruction, or the R160 cause of a fetch that fails; with the state after the fetch. None where it may not fetch; no
core issues before stage 5 (R370). -/
def State.nextInstr (s : State) (b r : Nat) : Option (Except Nat Instr × State) :=
  (s.blk b).bind fun k => (Tab.find k.rip r).bind fun rp => (rp.threads.head?.bind fun t => Tab.find k.thr t).bind fun x =>
    if s.dev.stage < 5 || !mayFetch s b k rp then none
    else match fetchBlock s k.core k.ctx (blockAddr x.pc) with
      | .park _ _ => some (.ok (.fetchFault b r), s)
      | .fail c => some (.error c, { s with cur := some (b, r) })
      | .fresh _ _ => none
      | .bytes bs s => match parseAt (x.pc.toNat % 32) bs with
        | .ok i => some (.ok i, { s with cur := some (b, r) })
        | .error d => some (.ok (.unassignedOpcodeExecute d), { s with cur := some (b, r) })

/-- A fetch that fails is a trap of every thread of the ripple (R159, R163). -/
def fetchTrap (cause : Nat) (s : State) : State :=
  match s.iss (.unassignedOpcodeExecute 0) with
  | none => s
  | some q => trapAll q trapFetch cause 0 s

/-- Carries out what a ripple does next. -/
def runNext (x : Except Nat Instr × State) : Host.Outcome State Fault Refusal :=
  match x.1 with
  | .ok i => exec i x.2
  | .error c => .next (fetchTrap c x.2)

/-- A fetch that meets an error found fresh kills the gang (R356). -/
def State.badFetch (s : State) (b r : Nat) : Option State :=
  (s.blk b).bind fun k => (Tab.find k.rip r).bind fun rp => rp.threads.head?.bind fun t => (Tab.find k.thr t).bind fun x =>
    if s.dev.stage < 5 || !mayFetch s b k rp then none
    else match fetchBlock s k.core k.ctx (blockAddr x.pc) with
      | .fresh a s => some (s.killData k t a)
      | _ => none

/-- A ripple issues its next instruction. -/
def issueRipple (b r : Nat) (s : State) : Host.Outcome State Fault Refusal :=
  match s.nextInstr b r with
  | none => .next ((s.badFetch b r).getD s)
  | some x => runNext x

/-! ## Acts -/

/-- Carries out an act. -/
def runAct (a : Act) (s : State) : Host.Outcome State Fault Refusal :=
  match a with
  | .ev i => exec i s
  | .issue b r => issueRipple b r s
  | .send b t tk => .next (s.sendOp b t tk)
  | .piece b e k => .next (s.pieceStep b e k)
  | .chunk m => .next (s.copyChunk m)
  | .fabric => .next s.fabricStep
  | .reduce k => .next (s.reduceStep k)
  | .result n => .next (s.resultStep n)
  | .flaw b t => .next (s.flaw b t)
  | .corrected a => .next (s.corrected a)
  | .dropL1 c n => .next (s.modCore c fun k => { k with l1 := k.l1.eraseIdx n })
  | .dropDev n => .next (s.modDev fun d => { d with cache := d.cache.eraseIdx n })
  | .dropTlb c n => .next (s.modCore c fun k => { k with tlb := k.tlb.eraseIdx n })
  | .dropLpr c n => .next (s.modCore c fun k => { k with lpr := Tab.del k.lpr n })
  | .dropCode c n => .next (s.modCore c fun k => { k with icache := k.icache.eraseIdx n })

/-! ## What the device does of itself -/

def eventsOfOp (b t : Nat) (o : Op) : List Act :=
  let tk := o.tk.toNat
  [.send b t o.tk, .ev (.heldOperationPerform b t tk), .ev (.enqSlotWrite b t tk), .ev (.operationFail b t tk),
   .ev (.operationPark b t tk), .ev (.operationSettle b t tk)]

def eventsOfThread (b t : Nat) (x : Thread) : List Act :=
  x.win.flatMap (eventsOfOp b t)
  ++ [.ev (.failureTrap b t), .ev (.exitComplete b t), .ev (.barrierArrive b t), .ev (.clabortStart b t)]

def eventsOfRipple (b r : Nat) : List Act :=
  [.ev (.waitEnd b r), .ev (.hwaitEnd b r), .ev (.barrierWaitEnd b r), .ev (.ewaitEnd b r), .ev (.cwaitEnd b r),
   .ev (.mxwaitEnd b r), .ev (.clwaitEnd b r)]

def eventsOfChain (b e : Nat) (c : Chain) : List Act :=
  let offs := match c.cmd with
    | some m => m.pieces.map Piece.off ++ [m.next]
    | none => []
  .ev (.chainSlotRead b e) :: offs.flatMap fun k => [.piece b e k, .ev (.copyPieceDone b e k), .ev (.copyPiecePark b e k)]

def eventsOfBlock (b : Nat) (k : Block) : List Act :=
  k.thr.flatMap (fun e => eventsOfThread b e.1 e.2) ++ k.rip.flatMap (fun e => eventsOfRipple b e.1)
  ++ (k.thr.filter fun e => e.2.st = .held).map (fun e => .ev (.meetingRelease b e.2.meet))
  ++ [0, 1, 2, 3].flatMap fun e => eventsOfChain b e (k.chainOf e)

/-- The events that need nothing from outside, in the order in which the device tries them. -/
def State.ownEvents (s : State) : List Act :=
  s.blocks.flatMap (fun e => eventsOfBlock e.1 e.2)
  ++ s.cores.flatMap (fun e => [.ev (.matrixStepEnd e.1), .ev (.matrixStepStart e.1)])
  ++ (List.range s.dev.fires.length).map (fun k => .ev (.chunkFire k))
  ++ s.dev.moves.flatMap (fun e => [.chunk e.1, .ev (.copyPassEnd e.1)])
  ++ (if s.dev.mqueue = [] then [] else [.ev (.moveStart {})])
  ++ .fabric :: (s.dev.cmdq.map fun c => .reduce c.stack) ++ (List.range s.dev.results.length).map Act.result
  ++ s.gangs.map (fun e => .ev (.gangSave e.1)) ++ s.nodes.map (fun e => .ev (.nodeComplete e.1))
  ++ (if s.nodes = [] then [] else [.ev (.gangPlace [])])
  ++ s.ctxs.map (fun e => .ev (.resetComplete e.1)) ++ s.parts.map (fun e => .ev (.wipeComplete e.1))
  ++ [.ev .checkpointComplete]

/-- The first event of the device's own that changes the state: the state after it. -/
def State.ownStep (s : State) : Option State :=
  s.ownEvents.findSome? fun a => match runAct a s with
    | .next s' => if s' = s then none else some s'
    | _ => none

/-- The greedy limit L of a block (R127): none where there is no limit. -/
def Block.limit (k : Block) : Option Nat :=
  match k.greedy with
  | 0 => some 256
  | 1 => none
  | n => some n

/-- The ripples of a scheduler, oldest first: by their blocks' placement order, then by formation (R126). -/
def State.ripplesOf (s : State) (core sch : Nat) : List (Nat × Nat) :=
  let bs := s.blocks.filter fun (e : Nat × Block) => e.2.core = core
  (sortNat (bs.map fun e => e.2.order)).flatMap fun o => (bs.filter fun e => e.2.order = o).flatMap fun e =>
    (e.2.rip.filter fun r => r.2.sched = sch).map fun r => (e.1, r.1)

/-- The branches: they may go to themselves, and so issue without a change of the state. -/
def jumps (i : Instr) : Bool :=
  match i with
  | .bra _ | .brx _ | .call _ | .ret _ | .hbr _ | .rtt _ => true
  | _ => false

/-- Whether what a ripple does next is ready: running it changes the state, or it is a branch whose sources are there. -/
def canRun (x : Except Nat Instr × State) : Bool :=
  let branch := match x.1 with
    | .ok i => jumps i && (x.2.iss i).any Iss.ready
    | .error _ => false
  branch || match runNext x with
    | .next s' => s' ≠ x.2
    | _ => true

/-- A ripple's next instruction, if it is ready (R126). -/
def State.ready (s : State) (c : Nat × Nat) : Option (Except Nat Instr × State) := (s.nextInstr c.1 c.2).filter canRun

/-- The ripple that a scheduler selects, how many instructions it has then issued in this selection, and its next
instruction (R126). -/
def State.select (s : State) (core sch : Nat) : Option (Pick × (Except Nat Instr × State)) :=
  let again : Option (Pick × (Except Nat Instr × State)) := (Tab.find (s.core core).pick sch).bind fun p =>
    (s.blk p.blk).bind fun k =>
      if k.limit.any (p.n ≥ ·) then none else (s.ready (p.blk, p.rip)).map fun x => ({ p with n := p.n + 1 }, x)
  match again with
  | some x => some x
  | none => (s.ripplesOf core sch).findSome? fun c => (s.ready c).map fun x => ({ blk := c.1, rip := c.2, n := 1 }, x)

/-- The first scheduler with a ready ripple issues (R126). -/
def State.issueStep (s : State) : Option (Host.Outcome State Fault Refusal) :=
  (sortNat (s.blocks.map fun e => e.2.core)).findSome? fun core => [0, 1, 2, 3].findSome? fun sch =>
    (s.select core sch).map fun e =>
      runNext (e.2.1, e.2.2.modCore core fun c => { c with pick := Tab.put c.pick sch e.1 })

/-- One step: the first act of the agenda; with none, an event of the device's own, else an instruction, else a clock
of core 0. -/
def advance (s : State) : Host.Outcome State Fault Refusal :=
  match s.agenda with
  | a :: rest => runAct a { s with agenda := rest }
  | [] => match s.ownStep with
    | some s' => .next s'
    | none => match s.issueStep with
      | some o => o
      | none => exec (.cycleCounterTick 0) s

/-! ## Placing an instruction where the next step fetches it -/

/-- The block of `placeInstr`: one ripple of 32 threads at the start of object 1, in context 0 on core 0, with 256
registers. -/
def loaderBlock (g n : Nat) : Block :=
  let ts := List.range 32
  { gang := g, order := n, slot := n, nthr := 32, regG := 256, entry := 0x100_0000_0000#64
    thr := ts.map fun t => (t, { pc := 0x100_0000_0000#64 }), rip := [(0, { slots := ts.map fun t => (t, t), sched := 0 })]
    nextRip := 1 }

/-- A gang of one block is loaded, its first instruction in core 0's instruction cache, and issues next. -/
def State.placeInstr (s : State) (nbits w : Nat) : State :=
  let b := s.blockKey
  let g := (s.gangs.map fun e => e.1 + 1).foldl max 0
  let code := leBytes 32 (w % 2 ^ nbits)
  let s := s.modCore 0 fun c => { c with icache := (0, 0x100_0000_0000#64, code) :: c.icache }
  let s := (s.modDev fun d => { d with stage := 5 }).modCtx 0 fun c => { c with st := .active }
  { s with blocks := Tab.put s.blocks b (loaderBlock g (s.nextOrder 0)), gangs := Tab.put s.gangs g { blocks := [b] }
           agenda := .issue b 0 :: s.agenda }

end Sys2Proof.Machine
end

