-- ==== Sys2Proof/Safety.lean ====
section
/-! DEFINITION. What the statements about the machine speak of: the canonical forms that every run keeps, an instruction
that issues, and what a reader sees of a state. -/

namespace Sys2Proof

open Machine in
/-- The instructions of the M and L forms that compute of their operands alone, each with what it computes. -/
def Instr.sem : Instr → Option (Std × (Std → Args → Res))
  | .add f => some (f, addRes)
  | .addc f => some (f, addcRes)
  | .sub f => some (f, subRes)
  | .subb f => some (f, subbRes)
  | .mul f => some (f, mulRes)
  | .mulh f => some (f, mulhRes)
  | .mad f => some (f, madRes)
  | .madc f => some (f, madcRes)
  | .madw f => some (f, madwRes)
  | .absd f => some (f, absdRes)
  | .min f => some (f, minRes)
  | .max f => some (f, maxRes)
  | .neg f => some (f, negRes)
  | .dot4 f => some (f, dot4Res)
  | .lea f => some (f, leaRes)
  | .shl f => some (f, shlRes)
  | .shr f => some (f, shrRes)
  | .sar f => some (f, sarRes)
  | .fsh f => some (f, fshRes)
  | .tern f => some (f, ternRes)
  | .popc f => some (f, popcRes)
  | .clz f => some (f, clzRes)
  | .brev f => some (f, brevRes)
  | .bfx f => some (f, bfxRes)
  | .bfi f => some (f, bfiRes)
  | .perm f => some (f, permRes)
  | .icmp f => some (f, icmpRes)
  | .sel f => some (f, selRes)
  | .pset f => some (f, psetRes)
  | .fadd f => some (f, faddRes)
  | .fmul f => some (f, fmulRes)
  | .ffma f => some (f, ffmaRes)
  | .fmin f => some (f, fminRes)
  | .fmax f => some (f, fmaxRes)
  | .fcmp f => some (f, fcmpRes)
  | .fclass f => some (f, fclassRes)
  | .frnd f => some (f, frndRes)
  | .fdiv f => some (f, fdivRes)
  | .frcp f => some (f, frcpRes)
  | .frsq f => some (f, frsqRes)
  | .fsqrt f => some (f, fsqrtRes)
  | .fexp2 f => some (f, fexp2Res)
  | .flog2 f => some (f, flog2Res)
  | .fsin f => some (f, fsinRes)
  | .fcos f => some (f, fcosRes)
  | .ftanh f => some (f, ftanhRes)
  | .dadd f => some (f, faddRes)
  | .dmul f => some (f, fmulRes)
  | .dfma f => some (f, ffmaRes)
  | .dcmp f => some (f, fcmpRes)
  | .mov f => some (f, fun _ x => movRes x)
  | _ => none

end Sys2Proof

namespace Sys2Proof.Machine

/-! ## Canonical forms -/

/-- A v register's table lists no word 0, its threads rising. -/
def VVal.Canon : VVal → Prop
  | .g ws => Tab.wf (0 : Word) ws = true
  | _ => True

/-- A block's registers and memories are in canonical form. -/
structure Block.Canon (k : Block) : Prop where
  v : Tab.wf (VVal.u 0) k.v = true
  g : ∀ e ∈ k.v, e.2.Canon
  o : ∀ e ∈ k.thr, Tab.wf (0 : Word) e.2.o = true
  scratch : Memory.wf k.scratch = true
  pool : Memory.wf k.poolMem = true
  bar : Tab.wf ({} : Bar) k.bar = true
  rsv : Tab.wf ({} : Rsv) k.rsv = true

/-- The invariant of every step: memories and registers, those of saved gangs too, are in canonical form, so that equal
contents are equal data and a write is read back. -/
structure State.Inv (s : State) : Prop where
  hbm : Memory.wf s.hbm = true
  cxl : Memory.wf s.cxl = true
  keys : Tab.risingFrom 0 s.blocks = true
  blocks : ∀ e ∈ s.blocks, e.2.Canon
  saved : ∀ e ∈ s.gangs, ∀ r, e.2.saved = some r → ∀ k ∈ r.blocks, k.Canon

/-- The ripples of a block share no thread (R123, R125), and a new ripple takes a number of its own. -/
structure Block.Grouped (k : Block) : Prop where
  thr : Tab.risingFrom 0 k.thr = true
  rip : Tab.risingFrom 0 k.rip = true
  next : ∀ e ∈ k.rip, e.1 < k.nextRip
  apart : (k.rip.flatMap fun e => e.2.threads).Nodup

/-- Every block's ripples are so, those of saved gangs too. -/
structure State.Grouped (s : State) : Prop where
  blocks : ∀ e ∈ s.blocks, e.2.Grouped
  saved : ∀ e ∈ s.gangs, ∀ r, e.2.saved = some r → ∀ k ∈ r.blocks, k.Grouped

/-- The ranges that registers keep whatever is written to them (R255, R370, R372). -/
structure State.Ranges (s : State) : Prop where
  stage : s.dev.stage ≤ 5
  rto : 1024 ≤ s.dev.rto
  capLo : 1500 ≤ s.dev.cap
  capHi : s.dev.cap ≤ 3000

/-! ## What a reader sees -/

/-- Word `j` of a register operand, as thread `t` of block `b` reads it. -/
def State.reg (s : State) (b t : Nat) (sel : Sel) (j : Nat) : Option Word :=
  (s.blk b).bind fun k => (Tab.find k.thr t).map fun x => k.regWord t x sel j

/-- A thread's PC. -/
def State.pc (s : State) (b t : Nat) : Option DWord := (s.thr b t).map Thread.pc

/-! ## An instruction that issues -/

/-- The ripple that `q` tells of issues `i`: `i` is no illegal instruction for it, its threads run, and the registers
and latches that `i` uses are available (R39, R126, R153). -/
structure Issues (i : Instr) (s : State) (q : Iss) : Prop where
  iss : s.iss i = some q
  legal : i.violation (s.env q.k) = none
  ready : q.ready = true

/-- No guard-true thread would read an invalid latch (R48). -/
def NoLost (s : State) (q : Iss) : Prop := latchTraps q (clearLong q s) = []

/-- The shape of the result of an instruction of `Instr.sem` (R53). -/
def Iss.shape (q : Iss) (f : Std) : Shape :=
  resultShape q.k q.i f (ruleOf q.i) fun sel => q.k.src32 0 { pc := 0 } f.lit sel

/-- Each thread of the ripple stands in `t` at the PC that `pc` gives it. -/
def Goes (s t : State) (q : Iss) (pc : Nat → DWord) : Prop :=
  ∀ th ∈ q.ts, (s.thr q.b th).isSome = true → t.pc q.b th = some (pc th)

/-- Each guard-true thread reads in `t` its value from the `n` registers of a destination, where that is a register. -/
def Holds (s t : State) (q : Iss) (d : Sel) (n : Nat) (val : Nat → DWord) : Prop :=
  ∀ th ∈ q.on, (s.thr q.b th).isSome = true → d.isReg = true → ∀ j, j < n →
    t.reg q.b th d j = some ((val th).extractLsb' (32 * j) 32)

/-- No latch of the ripple's threads is valid (R47). -/
def Cleared (t : State) (q : Iss) : Prop :=
  ∀ th ∈ q.ts, ∀ x, t.thr q.b th = some x → x.l0 = .invalid ∧ x.l1 = .invalid ∧ x.l2 = .invalid ∧ x.l3 = .invalid

/-- The latches of the guard-true threads after an instruction whose result has `n` registers (R33, R46, R47): a result for
a v or o register or for the latches only is pushed, a 32-bit one zero-extended, upon what the reads of the instruction
leave in them, and with no result or another destination they stay. An arrival at the meeting address clears them. -/
def Pushes (s t : State) (q : Iss) (d : Sel) (n : Nat) (val : Nat → Option DWord) : Prop :=
  ∀ th ∈ q.on, q.on.count th = 1 → ∀ x, (clearLong q s).thr q.b th = some x → ∃ x', t.thr q.b th = some x' ∧
    (lo32 (q.next - q.k.entry) = x'.meet → x.pc ≠ q.next → Cleared t { q with ts := [th] }) ∧
    (lo32 (q.next - q.k.entry) ≠ x'.meet →
      (∀ v, val th = some v → d.isReg = true ∨ d = .l 0 →
        x'.l0 = .val (if n = 1 then (lo32 v).setWidth 64 else v) ∧ x'.l1 = x.l0 ∧ x'.l2 = x.l1 ∧ x'.l3 = x.l2) ∧
      (val th = none ∨ (d.isReg = false ∧ ∀ m, d ≠ .l m) →
        x'.l0 = x.l0 ∧ x'.l1 = x.l1 ∧ x'.l2 = x.l2 ∧ x'.l3 = x.l3))

/-- `i` completes and returns a value to each guard-true thread: wherever it issues, its unit is ready, no latch is
invalid, its destination is no narrow register and `pre` holds, `exec` answers a next state in which each guard-true
thread reads its value and has it pushed to its latches, and the ripple has gone on to PC + length. -/
def Returns (i : Instr) (d : Sel) (n : Nat) (unit : Iss → State → Bool) (pre : Iss → State → Prop)
    (val : Iss → State → Nat → DWord) : Prop :=
  ∀ s q, s.Inv → Issues i s q → unit q s = true → NoLost s q → q.k.narrow d n = false → pre q s →
    ∃ t, exec i s = .next t ∧ Goes s t q (fun _ => q.next) ∧ Holds s t q d n (val q s) ∧
      Pushes s t q d n fun th => some (val q s th)

/-- `i` is a wait that returns a value and need not wait: as `Returns`, but that a wait leaves no latch valid (R47). -/
def WaitReturns (i : Instr) (d : Sel) (pre : Iss → State → Prop) (val : Iss → State → Nat → DWord) : Prop :=
  ∀ s q, s.Inv → Issues i s q → NoLost s q → q.k.narrow d 1 = false → pre q s →
    ∃ t, exec i s = .next t ∧ Goes s t q (fun _ => q.next) ∧ Holds s t q d 1 (val q s) ∧ Cleared t q

/-- Nothing is asked beside. -/
def anyway (_ : Iss) (_ : State) : Prop := True

/-- What an instruction leaves as it was in its block that writes `n` registers of a destination alone, but for what
`may` lets a thread's predicates, flags, clock and escape record become: every v register but the destination's, and of
each thread all but the destination's o registers, its latches and marks and, in the ripple, where it stands. -/
def OnlyDest (t : State) (q : Iss) (d : Sel) (n : Nat) (may : Iss → Nat → Thread → Thread → Prop) : Prop :=
  ∃ k, t.blk q.b = some k ∧ k = { q.k with v := k.v, thr := k.thr, rip := k.rip, nextRip := k.nextRip } ∧
    (∀ m, (∀ c j, d = .v c → j < n → m ≠ c.toNat + j) → k.vreg m = q.k.vreg m) ∧
    ∀ th x, Tab.find q.k.thr th = some x → ∃ x', Tab.find k.thr th = some x' ∧
      (∀ m, (∀ c j, d = .o c → j < n → m ≠ c.toNat + j) → Tab.get 0 x'.o m = Tab.get 0 x.o m) ∧
      x'.tnext = x.tnext ∧ x'.win = x.win ∧ x'.handler = x.handler ∧ x'.meet = x.meet ∧ x'.fences = x.fences ∧
      x'.rel = x.rel ∧ x'.kept = x.kept ∧ may q th x x' ∧
      (th ∉ q.on → x'.p = x.p ∧ x'.fflags = x.fflags ∧ x'.o = x.o ∧ x'.clkhi = x.clkhi) ∧
      (th ∉ q.ts → x' = x)

/-- All but the block is as it was, and of the block what `OnlyDest` says. -/
def Framed (s t : State) (q : Iss) (d : Sel) (n : Nat) (may : Iss → Nat → Thread → Thread → Prop) : Prop :=
  t = { s with blocks := t.blocks } ∧ (∀ b, b ≠ q.b → t.blk b = s.blk b) ∧ OnlyDest t q d n may

/-- The frame of an instruction that meets no trap. -/
def Frames (i : Instr) (d : Sel) (n : Nat) (unit : Iss → State → Bool) (pre : Iss → State → Prop)
    (may : Iss → Nat → Thread → Thread → Prop) : Prop :=
  ∀ s t q, s.Inv → Issues i s q → unit q s = true → NoLost s q → q.k.narrow d n = false → pre q s → exec i s = .next t →
    Framed s t q d n may

/-- A thread's predicates, flags, clock and escape record stay. -/
def sideKept (_ : Iss) (_ : Nat) (x x' : Thread) : Prop :=
  x'.p = x.p ∧ x'.fflags = x.fflags ∧ x'.clkhi = x.clkhi ∧ x'.esc = x.esc

/-- They stay but for the flags that a computation raises. -/
def flagsMay (_ : Iss) (_ : Nat) (x x' : Thread) : Prop := x'.p = x.p ∧ x'.clkhi = x.clkhi ∧ x'.esc = x.esc

/-- They stay but for the escape record of a guard-true thread, of which the others of its ripple learn (R144, R157). -/
def escapeMay (q : Iss) (th : Nat) (x x' : Thread) : Prop :=
  x'.p = x.p ∧ x'.fflags = x.fflags ∧ x'.clkhi = x.clkhi ∧ (th ∉ q.on → x'.esc = x.esc)

/-- A word as a result. -/
def word (w : Word) : DWord := w.setWidth 64

/-! ## Forms of a statement about an instruction -/

/-- `i` completes and sends each thread on: wherever it issues, its unit is ready, no latch is invalid and `pre` holds,
`exec` answers a next state in which each guard-true thread stands at its target, the others at PC + length. -/
def GoesTo (i : Instr) (unit : Iss → State → Bool) (pre : Iss → State → Prop) (target : Iss → Nat → DWord) : Prop :=
  ∀ s q, Issues i s q → unit q s = true → NoLost s q → pre q s →
    ∃ t, exec i s = .next t ∧ Goes s t q fun th => if th ∈ q.on then target q th else q.next

/-- What an instruction leaves as it was that touches no byte of memory at issue and no register: HBM and CXL memory, every
other block, and in its block all but its threads' windows, tickets, latches and PCs. -/
def Keeps (s t : State) (q : Iss) : Prop :=
  t.hbm = s.hbm ∧ t.cxl = s.cxl ∧ (∀ b, b ≠ q.b → t.blk b = s.blk b) ∧
    ∃ k, t.blk q.b = some k ∧ k = { q.k with thr := k.thr, rip := k.rip, nextRip := k.nextRip } ∧
      ∀ th x, Tab.find q.k.thr th = some x → ∃ x', Tab.find k.thr th = some x' ∧
        x'.o = x.o ∧ x'.p = x.p ∧ x'.fflags = x.fflags ∧ x'.meet = x.meet ∧ x'.handler = x.handler ∧ x'.clkhi = x.clkhi ∧
        (th ∉ q.ts → x' = x)

/-- `i` completes and issues an operation: each guard-true thread that is there takes the next ticket, once for each
slot that it has, and its window holds at that ticket an operation of `i` for which `what` holds; the ripple goes on, and
no register and no byte of memory changes. -/
def Enters (i : Instr) (d : Sel) (n : Nat) (unit : Iss → State → Bool) (what : Iss → State → Nat → Op → Prop) : Prop :=
  ∀ s q, Issues i s q → unit q s = true → NoLost s q → q.k.narrow d n = false → s.isReplay q.k.gang = false →
    ∃ t, exec i s = .next t ∧ Goes s t q (fun _ => q.next) ∧ Keeps s t q ∧
      ∀ th ∈ q.on, ∀ x, s.thr q.b th = some x →
        ∃ x', t.thr q.b th = some x' ∧ x'.tnext = x.tnext + BitVec.ofNat 16 (q.on.count th) ∧
          ∃ o ∈ x'.win, o.tk = x.tnext ∧ o.insn = i ∧ o.pc = q.pc ∧ o.st = .outstanding ∧ o.perf = false ∧ what q s th o

/-- `i` in a replay ends it: wherever a guard-true thread would issue it, every block that the gang lists is gone. -/
def Abandons (i : Instr) (d : Sel) (n : Nat) : Prop :=
  ∀ s q g, s.Inv → Issues i s q → windowRoom q s = true → NoLost s q → q.k.narrow d n = false → q.on ≠ [] →
    s.isReplay q.k.gang = true → Tab.find s.gangs q.k.gang = some g → q.b ∈ g.blocks →
    ∃ t, exec i s = .next t ∧ t.blk q.b = none

/-- The value of a store's data source that is no register, and how many of its bytes the spec gives (R188). -/
def Iss.storeVal (q : Iss) (f : Std) (th : Nat) : DWord × Nat :=
  if f.ty.wide then (q.k.srcIn th (q.thr th) f.lit (tyFmt f.ty) 1 2 f.c, 8)
  else match f.c with
    | .l m => (((q.thr th).latch m).bits, 8)
    | c => ((q.k.src32 th (q.thr th) f.lit c).setWidth 64, 4)

/-- `i` completes and waits: where the condition is met for every guard-true thread the ripple goes on to PC + length;
else each keeps its PC, and a guard-true thread whose condition is unmet is WAITING with its token. -/
def Waits (i : Instr) (pre : Iss → State → Prop) (tok : Iss → Nat → Word) (met : Iss → Nat → State → Prop) : Prop :=
  ∀ s q, Issues i s q → NoLost s q → pre q s →
    ∃ t, exec i s = .next t ∧
      ((∀ th ∈ q.on, met q th s) → Goes s t q fun _ => q.next) ∧
      (¬ (∀ th ∈ q.on, met q th s) →
        (∀ th ∈ q.ts, t.pc q.b th = s.pc q.b th) ∧
        ∀ th ∈ q.on, ¬ met q th s → (s.thr q.b th).isSome = true →
          ∃ x', t.thr q.b th = some x' ∧ x'.st = .waiting ∧ x'.wtok = tok q th)

/-- The one guard-true thread of an actor instruction (R290). -/
def Iss.actor (q : Iss) (th : Nat) : Prop := q.on = [th]

/-! ## Events -/

/-- Whether the wait at which a thread stands with `i` is over for it (R171, R204, R272, R303, R344). -/
def waitOver (s : State) (b : Nat) (k : Block) (i : Instr) (x : Thread) : Prop :=
  match i with
  | .hwait f => hwaitMet f x x.wtok = true
  | .barw _ | .bars _ | .gbar _ => barPhase s k i x.wbar.toNat ≠ x.wtok.extractLsb' 0 16
  | .ewait _ | .cwait _ => chainEnded s b i x.wtok = true
  | .mxwait f => loopsOver s b f x.wtok = true
  | .clwait _ => (clStatus s k.ctx (clwaitOf x).1 (clwaitOf x).2).isSome = true
  | _ => False

/-- The event `ev` ends a wait: where a ripple stands at an instruction of `kind`, some of its threads waiting, and the
wait is over for each of these, every thread of the ripple goes on to PC + length, and no latch of it is valid. -/
def Ends (ev : Nat → Nat → Instr) (kind : State → Nat → Nat → Instr → Bool) : Prop :=
  ∀ b r s k rp i, s.blk b = some k → Tab.find k.rip r = some rp → rp.busy = some i → kind s b r i = true →
    (∃ th ∈ rp.threads, ∃ x, Tab.find k.thr th = some x ∧ x.st = .waiting) →
    (∀ th ∈ rp.threads, ∀ x, Tab.find k.thr th = some x → x.st = .waiting → waitOver s b k i x) →
    ∃ t, exec (ev b r) s = .next t ∧ ∀ th ∈ rp.threads, ∀ x, Tab.find k.thr th = some x →
      ∃ x', t.thr b th = some x' ∧ x'.pc = pcAdd x.pc i.length ∧ x'.st ≠ .waiting ∧ x'.win = x.win ∧
        x'.l0 = .invalid ∧ x'.l1 = .invalid ∧ x'.l2 = .invalid ∧ x'.l3 = .invalid

/-- The event `ev` at the end of an engine or collective wait of one thread leaves `val` in its destination. -/
def EndsWith (ev : Nat → Nat → Instr) (f : Std) (i : Instr) (val : State → Nat → Block → Nat → Thread → Word) : Prop :=
  ∀ b r s k rp th x, s.Inv → s.blk b = some k → Tab.find k.rip r = some rp → rp.busy = some i → rp.threads = [th] →
    Tab.find k.thr th = some x → x.st = .waiting → guardHolds (instrGuard i) x.p = true → waitOver s b k i x →
    k.narrow f.d 1 = false → f.d.isReg = true →
    ∃ t, exec (ev b r) s = .next t ∧ t.reg b th f.d 0 = some (val s b k th x)

/-- The outcome that a part takes from an answer with a status: of a load, cause 5 or 7 on a quiet-fail page counts as
performed (R155, R185, R256). -/
def Pend.outcome (p : Pend) (status : Nat) : Nat :=
  if (status = 5 ∨ status = 7) ∧ p.qf = true ∧ (kindLoads p.req.kind = true ∨ p.req.kind = .mldr) then 0 else status

/-- Each part of an operation for which request `p`, of tag `tag`, was made, or which shares it, has the outcome of an
answer with a status, where no other request was made for it. Where operations alone wait for it, no request is held, so that
the answer lets none go, and no port carries anything for this device itself as for a peer, the operation is there. -/
def Answered (s t : State) (tag : Nat) (p : Pend) (status : Nat) : Prop :=
  ∀ b th tk key, let w : Waiter := .op b th tk key
    w ∈ p.who :: p.also → (∀ e ∈ s.dev.reqs, w ∈ e.2.who :: e.2.also → e.1 = tag) →
    ∀ k x o, s.opAt b th tk = some (k, x, o) →
      ((∀ e ∈ s.dev.reqs, e.2.held = false) → (∀ w ∈ p.who :: p.also, ∃ b th tk key, w = .op b th tk key) →
        (∀ j ∈ s.dev.jobs, j.req.src ≠ s.dev.rank) → (t.opAt b th tk).isSome = true) ∧
      ∀ k' x' o', t.opAt b th tk = some (k', x', o') → o'.parts.map Part.key = o.parts.map Part.key ∧
        ∀ y ∈ o'.parts, y.key = key → y.done = some (p.outcome status)

/-- Tags for `n` more requests are free (R254, R257). -/
def State.HasTags (s : State) (n : Nat) : Prop := s.dev.reqs.length + s.dev.dead.length + n ≤ 65536

/-- The event `ev` of link `j` turns a link for which `on` holds into `new`, from stage 4 on, and a change of its state is
told to every peer with the next change number (R249, R250). -/
def LinkTurns (ev : Nat → Instr) (on : State → Nat → Link → Prop) (new : Link → Link) : Prop :=
  ∀ j s, j < 18 → 4 ≤ s.dev.stage → let l := s.dev.link j
    on s j l → ∃ t, exec (ev j) s = .next t ∧ t.dev.link j = new l ∧
      (l.st ≠ (new l).st → let n := (Tab.get (.down, 0) s.dev.map (18 * s.dev.rank + j)).2 + 1
        Tab.get (.down, 0) t.dev.map (18 * s.dev.rank + j) = ((new l).st, n) ∧ .linkState s.dev.rank j (new l).st n ∈ t.out)

/-- The instance of a group that is current in `s` is being aborted in `t`, or its abort has ended there, and then a queued
one may have armed (R334, R339). -/
def Aborts (s t : State) (ldom g : Nat) : Prop :=
  ∀ r, s.grp ldom g = some r → ∃ r', t.grp ldom g = some r' ∧ (r'.cur = r.cur → r'.st = .aborting ∨ r'.st = .idle)

/-- No copy of a page's translation is left in any core, and no heat entry of it (R230, R244). -/
def State.Swept (t : State) (cn page : Nat) : Prop :=
  let a : DWord := BitVec.ofNat 64 (page * 65536)
  (∀ core, ∀ x ∈ (t.core core).tlb, ¬ (x.ctx = cn ∧ x.obj = objOf a ∧ x.page = pageOf a)) ∧
    ∀ h ∈ t.dev.heat, ¬ (h.ctx = cn ∧ h.page = page)

/-- The attributes of a moved page's entry at its old owner (R236). -/
def flipAtt (me : Nat) (r : MoveReq) (a : Att) : Att :=
  if r.rank ≠ me then { a with loc := 1, peer := r.rank, mode := if a.mode = 0 then 1 else a.mode, hm := false }
  else if r.tier = 0 then { a with loc := 0, peer := 0, mode := if a.mode = 3 then 3 else 0, hm := false }
  else { a with loc := 3, peer := 0, mode := if a.mode = 3 then 3 else 1, hm := true }

/-- Move `m` has flipped in `t` (R236): it is gone, the page is swept, and its entry has the new attributes; a page that has
gone to another rank leaves a stub there and no arrival record. The entry is read where the flip writes nothing else to
local HBM: no write was held, and the event record waits behind another. -/
def Flipped (s t : State) (m : Nat) (v : Move) : Prop :=
  Tab.find t.dev.moves m = none ∧ t.Swept v.r.ctx v.r.page ∧
    (v.r.rank ≠ s.dev.rank →
      (∃ x ∈ t.dev.stubs, x.ldom = v.r.ldom ∧ x.page = v.r.page ∧ x.target = v.r.rank) ∧
      ∀ y ∈ t.dev.arrivals, ¬ (y.ldom = v.r.ldom ∧ y.page = v.r.page)) ∧
    ∀ a pe at_, entryOf s v.r.ctx v.r.page = some (a, pe, at_) → s.Inv → v.held = [] → (s.ctx v.r.ctx).ewait ≠ [] →
      Memory.read t.hbm at_ 4 = wordBytes [attWord (flipAtt s.dev.rank v.r a)]

/-- Move `m` has been aborted in `t` (R233): it is gone, and every write of a peer that it held is answered, or, of a page
behind a port, is that port's to perform. -/
def Dropped (s t : State) (m : Nat) (v : Move) : Prop :=
  Tab.find t.dev.moves m = none ∧
    ∀ q ∈ v.held, q.src ≠ s.dev.rank →
      if v.loc = 0 ∨ framePlace s v.r.ctx v.loc v.old = none then ∃ a, .resp q.src a ∈ t.out ∧ a.tag = q.tag
      else ∃ j ∈ t.dev.jobs, j.req = q

/-- The key of a contribution. -/
def Contrib.at_ (c : Contrib) (ldom g : Nat) (n : Word) (chunk : Nat) : Prop :=
  c.ldom = ldom ∧ c.grp = g ∧ c.n = n ∧ c.chunk = chunk

end Sys2Proof.Machine
end

