-- ==== Sys2Proof/Certificates/Slice0/Obligations.lean ====
section
/-! DEFINITION. The statements about the ZV-96 that are to be proved; OBLIGATIONS.json names the rule of each. -/

section

open Sys2Proof Sys2Proof.Machine

/-! ## Reset, the step and what every step keeps -/

/-- R251, R255, R258, R346, R348, R370, R372: what the spec gives the device at reset. -/
def Obligations.ResetValues : Prop :=
  let s := State.reset
  s.dev.stage = 0 ∧ s.dev.err = 0 ∧ s.dev.cap = 3000 ∧ s.dev.rto = 19000 ∧ s.blocks = [] ∧ s.gangs = [] ∧ s.nodes = [] ∧
    (∀ c, (s.ctx c).st = .wiped ∧ (s.core c).clock = 0) ∧ (∀ p, (s.part p).st = .free) ∧
    (∀ c q, s.queue c q = { qto := 262144 }) ∧
    (∀ j, (s.dev.link j).st = .down ∧ (s.dev.link j).cause = 0 ∧ (s.dev.link j).lanes = 0 ∧ (s.dev.link j).retr = 0 ∧
      (s.dev.link j).enable = true ∧ (s.dev.link j).quar = false) ∧ ∀ a, Memory.byte s.hbm a = 0

/-- The invariants of a run hold at reset. -/
def Obligations.ResetInvariants : Prop := State.reset.Inv ∧ State.reset.Grouped ∧ State.reset.Ranges

/-- Every step, whatever the outside world does in it, keeps memories and registers in canonical form. -/
def Obligations.StepKeepsCanonicalForm : Prop := ∀ s t : State, s.Inv → step s = .next t → t.Inv

/-- R123, R125: every step leaves each block's ripples without a thread in common. -/
def Obligations.StepKeepsRipplesApart : Prop := ∀ s t : State, s.Grouped → step s = .next t → t.Grouped

/-- R255, R370, R372: every step keeps the stage and the registers that hold a range within it. -/
def Obligations.StepKeepsRanges : Prop := ∀ s t : State, s.Ranges → step s = .next t → t.Ranges

/-- R21, R41: when the words at the PC of a ripple that issues next are an instruction, a step is that instruction; when
they are none, it is the illegal-instruction trap of such words (R37, R39); an act of the outside world is its event; and
with nothing asked for, the device goes on by itself (the model's order of its own acts: notes/assumptions/1.md). -/
def Obligations.StepRunsDecoded : Prop :=
  (∀ s b r k rp x s1 bs rest, s.agenda = .issue b r :: rest → 5 ≤ s.dev.stage → s.blk b = some k →
    Tab.find k.rip r = some rp → (rp.threads.head?.bind fun t => Tab.find k.thr t) = some x → mayFetch s b k rp = true →
    fetchBlock { s with agenda := rest } k.core k.ctx (blockAddr x.pc) = .bytes bs s1 →
    (∀ i, parse (bs.drop (x.pc.toNat % 32)) = .ok i → step s = exec i { s1 with cur := some (b, r) }) ∧
    ∀ d, parse (bs.drop (x.pc.toNat % 32)) = .error d →
      step s = exec (.unassignedOpcodeExecute d) { s1 with cur := some (b, r) }) ∧
  (∀ (s : State) i rest, s.agenda = .ev i :: rest → step s = exec i { s with agenda := rest }) ∧
  ∀ s : State, s.agenda = [] →
    (∀ t, s.ownStep = some t → step s = .next t) ∧
    (s.ownStep = none → ∀ o, s.issueStep = some o → step s = o) ∧
    (s.ownStep = none → s.issueStep = none → step s = exec (.cycleCounterTick 0) s)

/-! ## Encodings -/

/-- R20 to R39: the decoder reads from the words of a well-formed instruction, wherever in its fetch block they may stand,
that instruction: no bit of an encoding is dropped. -/
def Obligations.DecodeEncode : Prop :=
  ∀ (env : Env) (i : Instr) (tail : List Byte), WellFormed env i → i.bytes ≠ [] →
    (i.bytes.length = 16 → tail.length = 0 ∨ tail.length = 16) → decode env (i.bytes ++ tail) = .ok i

/-- R20 to R38: what the decoder reads as an instruction has the words that it was read from, with every selector in
canonical form. -/
def Obligations.EncodeDecode : Prop :=
  ∀ (bs : List Byte) (i : Instr), parse bs = .ok i →
    i.bytes = bs.take i.length ∧ 0 < i.length ∧ i.canon = true ∧ i.formOk = true

/-- Words that the spec writes out decode to the instructions that it gives for them: NOP (R21), `LD.b32 v6, v0, 0x20000`
(spec/15_program_horizon.md), a BARS (spec/10_barrier.md), `OPREF o0, v16, 4` (spec/03_register.md) and
`(p1) AGDEF 3, v0, v6` (spec/24_program_draw.md); and `0x00080278` is no instruction, with detail 1 (R37). -/
def Obligations.DecodingIsRight : Prop :=
  let words (ws : List Word) : Except Detail Instr := parse (ws.flatMap Word.bytes)
  let pt : Guard := { inv := false, p := 7 }
  words [0x00001C04#32] = .ok (.nop { g := pt, d := .v 0, a := .v 0 }) ∧
  words [0x00019DC2#32, 0x01000230#32, 0x00020000#32] = .ok (.ld
    { g := pt, lit := some 0x00020000#32, w := false, d := .v 6, a := .v 0, b := .lit, c := .v 0, ty := .b32
      pa := 2, pb := 0, pc := 0, func := 0 }) ∧
  words [0x19009E2D#32, 0x00000001#32] = .ok (.bars
    { g := pt, lit := none, w := false, d := .v 2, a := .zero, b := .v 0, c := .v 0, ty := .b32
      pa := 0, pb := 0, pc := 0, func := 0 }) ∧
  words [0x10401D55#32, 0x00000268#32] = .ok (.opref
    { g := pt, lit := none, w := false, d := .o 0, a := .v 16, b := .small 20, c := .v 0, ty := .b32
      pa := 0, pb := 0, pc := 0, func := 0 }) ∧
  words [0x000006E3#32, 0x00000606#32, 0#32, 0#32] = .ok (.agdef
    { g := { inv := false, p := 1 }, d := .v 0, base := .v 0, mask := .v 6, agn := 3, del := false, rsv := 0 }) ∧
  words [0x00080278#32] = .error 1

/-! ## Instructions that compute of their operands -/

/-- R33, R46, R53, R54, R76: an instruction of `Instr.sem` gives each guard-true thread its own result, whatever the shapes
of its sources and of its result, and pushes it to the thread's latches, also where they are its only destination; the
ripple goes on to PC + length. -/
def Obligations.ComputeResult : Prop :=
  ∀ (i : Instr) (f : Std) (sem : Std → Args → Res), i.sem = some (f, sem) →
  ∀ (s : State) (q : Iss), s.Inv → Issues i s q → NoLost s q →
    ((q.shape f).isG = true → q.k.narrow f.d (dstCount f.ty (ruleOf i).d) = false) →
    ∃ t, exec i s = .next t ∧ Goes s t q (fun _ => q.next) ∧
      (∀ th ∈ q.on, ∀ x, s.thr q.b th = some x →
        let r := sem f (q.args f (ruleOf i) th)
        (∀ v, r.val = some v → f.d.isReg = true → ∀ j, j < dstCount f.ty (ruleOf i).d →
          t.reg q.b th f.d j = some (v.extractLsb' (32 * j) 32)) ∧
        ∃ x', t.thr q.b th = some x' ∧ x'.p = (x.side f.d r).p ∧ x'.fflags = x.fflags ||| r.flags) ∧
      Pushes s t q f.d (dstCount f.ty (ruleOf i).d) fun th => (sem f (q.args f (ruleOf i) th)).val

/-- R23, R54: what an instruction of `Instr.sem` leaves as it was where it meets no trap: all but the block; in the
block, every v register but its destination, and of each thread all but its destination and predicates, its latches and
marks, and, in the ripple, where it stands. So do the instructions that return what the state holds, convert, toss a coin,
exchange within a ripple or draw, but for the flags, the predicate, the clock or the escape record that the spec has them
write; a PGHEAT with `.clear` clears heat entries too. -/
def Obligations.ComputeFrame : Prop :=
  (∀ (i : Instr) (f : Std) (sem : Std → Args → Res), i.sem = some (f, sem) →
  ∀ (s t : State) (q : Iss), s.Inv → Issues i s q → NoLost s q →
    ((q.shape f).isG = true → q.k.narrow f.d (dstCount f.ty (ruleOf i).d) = false) → exec i s = .next t →
    t = { s with blocks := t.blocks } ∧ (∀ b, b ≠ q.b → t.blk b = s.blk b) ∧
    ∃ k, t.blk q.b = some k ∧ k = { q.k with v := k.v, thr := k.thr, rip := k.rip, nextRip := k.nextRip } ∧
      (∀ m, (∀ n j, f.d = .v n → j < dstCount f.ty (ruleOf i).d → m ≠ n.toNat + j) → k.vreg m = q.k.vreg m) ∧
      ∀ th x, Tab.find q.k.thr th = some x → ∃ x', Tab.find k.thr th = some x' ∧
        (∀ m, (∀ n j, f.d = .o n → j < dstCount f.ty (ruleOf i).d → m ≠ n.toNat + j) →
          Tab.get 0 x'.o m = Tab.get 0 x.o m) ∧
        x'.tnext = x.tnext ∧ x'.win = x.win ∧ x'.handler = x.handler ∧ x'.meet = x.meet ∧ x'.clkhi = x.clkhi ∧
        x'.esc = x.esc ∧ x'.fences = x.fences ∧ x'.rel = x.rel ∧ x'.kept = x.kept ∧
        (th ∉ q.on → x'.p = x.p ∧ x'.fflags = x.fflags ∧ x'.o = x.o) ∧ (th ∉ q.ts → x' = x)) ∧
  (∀ f : SForm, Frames (.movS f) f.d 1 always anyway sideKept ∧ Frames (.hread f) f.d 1 always anyway sideKept ∧
    Frames (.sread f) f.d 1 always anyway fun _ _ x x' =>
      x'.p = x.p ∧ x'.fflags = x.fflags ∧ x'.esc = x.esc ∧ (srNum f.a ≠ 8 → x'.clkhi = x.clkhi)) ∧
  (∀ f : Std, (f.func = 0 → Frames (.shape f) f.d 1 always anyway sideKept) ∧ Frames (.tick f) f.d 1 always anyway sideKept ∧
    Frames (.lmap f) f.d 1 always anyway sideKept ∧ Frames (.coin f) f.d 1 always anyway sideKept ∧
    Frames (.cvt f) f.d (cvtRegs f.cvtTgt) always anyway flagsMay) ∧
  (∀ f : Std, Frames (.eseq f) f.d 1 always anyway sideKept ∧ Frames (.cwptr f) f.d 1 always anyway sideKept ∧
    Frames (.barq f) f.d 1 always (fun q _ => ∀ th ∈ q.on, (q.barNo f th).toNat < q.k.bars) sideKept ∧
    Frames (.mxread f) f.d 1 always (fun q s => ∀ th ∈ q.on, (q.k.src32 th (q.thr th) f.lit f.a).toNat ≤ 127 ∧
      (q.k.src32 th (q.thr th) f.lit f.b).toNat ≤ 127 ∧
      ((s.core q.k.core).bankOf (f.func.toNat % 2)).owner = some q.b ∧
      (s.bankLoops q.k q.b (f.func.toNat % 2)).isEmpty = true) sideKept ∧
    Frames (.mxstat f) f.d 1 always
      (fun q _ => f.func.getLsbD 1 = true → ∀ th ∈ q.on, slotGone q.k (q.slotNo f th).toNat = false) sideKept ∧
    Frames (.pgq f) f.d 1 always anyway sideKept ∧
    (f.func.getLsbD 0 = false → Frames (.pgheat f) f.d 1 always anyway sideKept) ∧
    ∀ s t q, s.Inv → Issues (.pgheat f) s q → NoLost s q → q.k.narrow f.d 1 = false → exec (.pgheat f) s = .next t →
      t = { s with blocks := t.blocks, dev := { s.dev with heat := t.dev.heat } } ∧ (∀ h : Heat, (∀ th ∈ q.on, ¬ (h.ctx = q.k.ctx ∧ h.page = pageNo (q.addr f th))) →
          (h ∈ t.dev.heat ↔ h ∈ s.dev.heat)) ∧
        (∀ b, b ≠ q.b → t.blk b = s.blk b) ∧ OnlyDest t q f.d 1 sideKept) ∧
  (∀ f : Std, Frames (.matchReg f) f.d 1 always anyway escapeMay ∧
    (Frames (.vote f) f.d 1 always anyway fun q th x x' => x'.fflags = x.fflags ∧ x'.clkhi = x.clkhi ∧
      (th ∉ q.on → x'.esc = x.esc) ∧
      ∀ m, m < 7 → (∀ n, f.d = .p n → m ≠ n.toNat) → predBit x'.p m = predBit x.p m) ∧
    (Frames (.redr f) f.d (if f.ty.wide then 2 else 1) always anyway fun q th x x' =>
      x'.p = x.p ∧ x'.clkhi = x.clkhi ∧ (th ∉ q.on → x'.esc = x.esc)) ∧
    Frames (.drawr f) f.d 3 always (fun q _ => q.k.narrow f.d 4 = false) fun q th x x' =>
      x'.p = x.p ∧ x'.clkhi = x.clkhi ∧ (th ∉ q.on → x'.esc = x.esc)) ∧
  ∀ f : DrawmForm, Frames (.drawm f) f.d 3 always anyway flagsMay

/-! ## Instructions that return what the state holds -/

/-- R62, R65, R83: the register copy MOV_S, the special registers, a shape tag. -/
def Obligations.RegisterReads : Prop :=
  (∀ f : SForm, Returns (.movS f) f.d 1 always anyway fun q _ th => word (q.k.src32 th (q.thr th) none f.a)) ∧
  (∀ f : SForm, Returns (.sread f) f.d 1 always anyway fun q s th => word (readSr s q (srNum f.a) th)) ∧
  (∀ f : Std, f.func = 0 → Returns (.shape f) f.d 1 always anyway fun q _ _ =>
    word (BitVec.ofNat 32 (q.k.vreg (vNum f.a)).tag))

/-- R170, R173: HREAD writes, for each guard-true thread, TNEXT and the horizon, and a narrow destination is the shape trap
(in a ripple of one thread); TICK writes the status word of the ticket that it names: 0, u, 0 and the status, which is 4
where the ticket is not yet issued, 0 where it has passed or its operation is settled, else the operation's state. -/
def Obligations.HorizonReads : Prop :=
  (∀ f : SForm, Returns (.hread f) f.d 1 always anyway fun q _ th => word ((q.thr th).tnext ++ (q.thr th).hz)) ∧
  (∀ f : SForm, ∀ s q th, Issues (.hread f) s q → q.ts = [th] → q.on = [th] → q.k.narrow f.d 1 = true →
    ∃ t, exec (.hread f) s = .next t ∧
      t.thr q.b th = ((clearLong q s).trap q.b th 4 1 (f.d.code.setWidth 32) q.pc).thr q.b th) ∧
  (∀ f : Std, Returns (.tick f) f.d 1 always anyway fun q _ th =>
    word (tickWord (q.thr th) ((q.k.src32 th (q.thr th) f.lit f.a).extractLsb' 0 16))) ∧
  ∀ (x : Thread) (tk : BitVec 16),
    let w := tickWord x tk
    let a := (x.tnext - tk).toNat
    bits w 31 24 = 0 ∧ bits w 23 16 = (x.tnext - x.hz).toNat % 256 ∧ bits w 15 3 = 0 ∧
      (¬ (1 ≤ a ∧ a ≤ 2 ^ 15) → bits w 2 0 = 4) ∧
      (1 ≤ a → a ≤ 2 ^ 15 → x.passed tk = true → bits w 2 0 = 0) ∧
      (1 ≤ a → a ≤ 2 ^ 15 → x.passed tk = false → ∀ o, x.op tk = some o →
        (o.st = .settled → bits w 2 0 = 0) ∧ (o.st = .outstanding → bits w 2 0 = 1) ∧ (o.st = .parked → bits w 2 0 = 2) ∧
          (o.st = .failed → bits w 2 0 = 3))

/-- R206, R228, R229, R271, R272, R304, R306: the words of a chain, a barrier, a bank, a reservation and a page. -/
def Obligations.StructureReads : Prop :=
  (∀ f : Std, Returns (.eseq f) f.d 1 always anyway fun q _ _ =>
    word (if f.func.getLsbD 2 then chainWord q.k (f.func.toNat % 4) else (q.k.chainOf (f.func.toNat % 4)).eseq)) ∧
  (∀ f : Std, Returns (.cwptr f) f.d 1 always anyway fun q _ _ => word (q.k.chainOf (f.func.toNat % 2)).wp) ∧
  (∀ f : Std, Returns (.barq f) f.d 1 always
    (fun q _ => ∀ th ∈ q.on, (q.barNo f th).toNat < q.k.bars)
    fun q _ th => word ((q.k.barOf (q.barNo f th).toNat).word f.func.toNat)) ∧
  (∀ f : Std, Returns (.mxread f) f.d 1 (fun q s => (s.bankLoops q.k q.b (f.func.toNat % 2)).isEmpty)
    (fun q s => ∀ th ∈ q.on, (q.k.src32 th (q.thr th) f.lit f.a).toNat ≤ 127 ∧
      (q.k.src32 th (q.thr th) f.lit f.b).toNat ≤ 127 ∧
      ((s.core q.k.core).bankOf (f.func.toNat % 2)).owner = some q.b)
    fun q s th => word (Tab.get 0 ((s.core q.k.core).bankOf (f.func.toNat % 2)).els
      (128 * (q.k.src32 th (q.thr th) f.lit f.a).toNat + (q.k.src32 th (q.thr th) f.lit f.b).toNat))) ∧
  (∀ f : Std, Returns (.mxstat f) f.d 1 always
    (fun q _ => f.func.getLsbD 1 = true → ∀ th ∈ q.on, slotGone q.k (q.slotNo f th).toNat = false)
    fun q s th => word (if f.func.getLsbD 1 then slotWord (q.k.rsvOf (q.slotNo f th).toNat)
      else bankWord s q.k q.b (f.func.toNat % 2))) ∧
  (∀ f : Std, Returns (.pgq f) f.d 1 always anyway fun q s th => word (pgqWord s q.k.ctx (q.addr f th))) ∧
  (∀ f : Std, Returns (.pgheat f) f.d 1 always anyway fun q s th => word (heatOf s q.k.ctx (q.addr f th)))

/-- R46, R119, R327, R331: a conversion, and a coin, in the destination and in the latches. -/
def Obligations.ConvertAndCoin : Prop :=
  (∀ f : Std, ∀ s q, s.Inv → Issues (.cvt f) s q → NoLost s q → q.k.narrow f.d (cvtRegs f.cvtTgt) = false →
    ∃ t, exec (.cvt f) s = .next t ∧ Goes s t q (fun _ => q.next) ∧
      (Pushes s t q f.d (cvtRegs f.cvtTgt) fun th => (cvtRes f
        { a := q.k.srcIn th (q.thr th) f.lit (cvtFmt f.cvtSrc) (cvtCount f.cvtSrc) (cvtRegs f.cvtSrc) f.a
          b := word (q.k.src32 th (q.thr th) f.lit f.b), tid := th, old := cvtOld q.k th (q.thr th) f }).val) ∧
      ∀ th ∈ q.on, ∀ x, s.thr q.b th = some x →
        let r := cvtRes f
          { a := q.k.srcIn th x f.lit (cvtFmt f.cvtSrc) (cvtCount f.cvtSrc) (cvtRegs f.cvtSrc) f.a
            b := word (q.k.src32 th x f.lit f.b), tid := th, old := cvtOld q.k th x f }
        (∀ v, r.val = some v → f.d.isReg = true → ∀ j, j < cvtRegs f.cvtTgt →
          t.reg q.b th f.d j = some (v.extractLsb' (32 * j) 32)) ∧
        ∃ x', t.thr q.b th = some x' ∧ x'.fflags = x.fflags ||| r.flags) ∧
  (∀ f : Std, Returns (.coin f) f.d 1 always anyway fun q _ th =>
    word (coin (q.k.src32 th (q.thr th) f.lit f.a) (q.k.src32 th (q.thr th) f.lit f.b)
      (q.k.src32 th (q.thr th) f.lit f.c)
      (if f.func = 4 then q.k.regWord th (q.thr th) f.d 0 else f.func.setWidth 32)))

/-! ## Exchange within a ripple -/

/-- R46, R145, R148: SHFL returns the value of the thread that it names and leaves all else as it was, but for the escape
records of threads whose values others receive; REDR returns the reduction over the slots. -/
def Obligations.ExchangeResults : Prop :=
  (∀ f : Std, ∀ s q, s.Inv → Issues (.shfl f) s q →
    (∀ th ∈ q.on, lostSel (clearLong q s) q.b th f.b = false ∧
      lostSel (clearLong q s) q.b (shflFrom q f th) f.a = false) →
    q.k.narrow f.d (if f.ty.wide then 2 else 1) = false →
    ∃ t, exec (.shfl f) s = .next t ∧ Goes s t q (fun _ => q.next) ∧
      (Holds s t q f.d (if f.ty.wide then 2 else 1) fun th =>
        q.k.srcVal (shflFrom q f th) (q.thr (shflFrom q f th)) f .val f.pa f.a) ∧
      (Pushes s t q f.d (if f.ty.wide then 2 else 1) fun th =>
        some (q.k.srcVal (shflFrom q f th) (q.thr (shflFrom q f th)) f .val f.pa f.a)) ∧
      Framed s t q f.d (if f.ty.wide then 2 else 1) fun q th x x' => x'.p = x.p ∧ x'.fflags = x.fflags ∧ x'.clkhi = x.clkhi ∧
        ((∀ u ∈ q.on, u ≠ th → shflFrom q f u ≠ th) → x'.esc = x.esc)) ∧
  (∀ f : Std, Returns (.redr f) f.d (if f.ty.wide then 2 else 1) always (fun q _ =>
      (slotTree (redrOp f.func.toNat f.ty) (q.slots32 q.on fun t =>
        ((q.k.srcVal t (q.thr t) f .val f.pa f.a).toNat % 2 ^ f.ty.ew, 0))).isSome = true) fun q _ _ =>
    match slotTree (redrOp f.func.toNat f.ty) (q.slots32 q.on fun t =>
        ((q.k.srcVal t (q.thr t) f .val f.pa f.a).toNat % 2 ^ f.ty.ew, 0)) with
    | some (v, _) => BitVec.ofNat 64 (canonical f.ty v)
    | none => 0)

/-- R146, R147, R149: VOTE gives each guard-true thread whether all or any of the guard-true threads vote, or whether all
vote alike, or the slots that vote, and its destination is a register for `.mask` alone, with W, else a predicate: any other
is detail 5, unless a nonzero reserved field is detail 4 before it (which of them the part field of A is under a packed
type: notes/assumptions/67.md); MATCH the slots of the guard-true threads whose value equals its own; LMAP the thread in a slot, with `.t` the slot of a thread. -/
def Obligations.RippleReads : Prop :=
  (∀ (f : Std) (s : State) (q : Iss), s.Inv → Issues (.vote f) s q → NoLost s q → q.k.narrow f.d 1 = false →
    let yes (th : Nat) : Bool := (q.thr th).predSel f.a
    ∃ t, exec (.vote f) s = .next t ∧ Goes s t q (fun _ => q.next) ∧
      (f.func = 3 → ∃ m : Word, (∀ k : Nat, k < 32 → m.getLsbD k = (q.inSlot k).any fun y => q.on.contains y && yes y) ∧
        (∀ th ∈ q.on, (s.thr q.b th).isSome = true → f.d.isReg = true → t.reg q.b th f.d 0 = some m) ∧
        Pushes s t q f.d 1 fun _ => some (word m)) ∧
      ∀ n, f.d = .p n → n ≠ 7 → f.func ≠ 3 → ∀ th ∈ q.on, (s.thr q.b th).isSome = true →
        ∃ x', t.thr q.b th = some x' ∧ predBit x'.p n.toNat =
          (if f.func = 0 then q.on.all yes else if f.func = 1 then q.on.any yes else q.on.all yes || !q.on.any yes)) ∧
  (∀ (f : Std) (env : Env),
    let reserved := f.b.code ≠ 0 ∨ f.c.code ≠ 0 ∨ f.pb ≠ 0 ∨ f.pc ≠ 0 ∨ (f.ty ≠ .b32 ∧ f.ty ≠ .f8x4) ∨
      (f.pa ≠ 0 ∧ f.ty.packed = true)
    ((f.func.toNat < 3 ∧ f.d.isReg = true) ∨ (f.func = 3 ∧ ∃ n, f.d = .p n) →
      ∃ d, (Instr.vote f).violation env = some d ∧ (reserved → d = 4) ∧ (¬ reserved → d = 5)) ∧
    (f.func ≠ 3 → f.w = true → (Instr.vote f).violation env ≠ none)) ∧
  (∀ (f : Std) (s : State) (q : Iss), s.Inv → Issues (.matchReg f) s q → NoLost s q → q.k.narrow f.d 1 = false →
    let val (th : Nat) : DWord := q.k.srcVal th (q.thr th) f .val f.pa f.a
    ∃ t, exec (.matchReg f) s = .next t ∧ Goes s t q (fun _ => q.next) ∧
      ∃ m : Nat → Word, (∀ th ∈ q.on,
          (∀ k : Nat, k < 32 → (m th).getLsbD k = (q.inSlot k).any fun y => q.on.contains y && val y = val th) ∧
          (∀ k : Nat, k < 32 → q.inSlot k = some th → (m th).getLsbD k = true) ∧
          ((s.thr q.b th).isSome = true → f.d.isReg = true → t.reg q.b th f.d 0 = some (m th))) ∧
        Pushes s t q f.d 1 fun th => some (word (m th))) ∧
  (∀ f : Std, Returns (.lmap f) f.d 1 always anyway fun q _ th =>
    let n := (q.k.src32 th (q.thr th) f.lit f.a).toNat
    match if f.func = 1 then q.slotOf n else q.inSlot n with
    | some x => word (BitVec.ofNat 32 x)
    | none => word 0xFFFF_FFFF#32)

/-- R330, R331: a merge of draws gives its triple, and a draw over the ripple gives every guard-true thread the triple of
the slot tree; either pushes the index, the maximum and the mass, so that `l0` holds the mass. -/
def Obligations.DrawResults : Prop :=
  let pushed (s t : State) (q : Iss) (d : Sel) (val : Nat → Triple) : Prop :=
    d.isReg = true → ∀ th ∈ q.on, q.on.count th = 1 → ∀ x, (clearLong q s).thr q.b th = some x →
      ∃ x', t.thr q.b th = some x' ∧ (lo32 (q.next - q.k.entry) ≠ x'.meet →
        x'.l0 = .val (word (val th).s) ∧ x'.l1 = .val (word (val th).m) ∧ x'.l2 = .val (word (val th).i) ∧ x'.l3 = x.l0)
  (∀ f : DrawmForm, ∀ s q, s.Inv → Issues (.drawm f) s q → NoLost s q → q.k.narrow f.d 3 = false →
    ∃ t, exec (.drawm f) s = .next t ∧ Goes s t q (fun _ => q.next) ∧
      (∀ th ∈ q.on, (s.thr q.b th).isSome = true → f.d.isReg = true → ∀ j, j < 3 →
        t.reg q.b th (runSel f.d j) 0 = some (wordAt
          (mergeDraw f.w (q.group th f.pg 0) (q.group th f.pg 1) (q.group th f.pg 2) (q.k.src32 th (q.thr th) none f.pos)
            (q.triple th f.lg) (q.triple th f.rg)).1.words j)) ∧
      pushed s t q f.d fun th => (mergeDraw f.w (q.group th f.pg 0) (q.group th f.pg 1) (q.group th f.pg 2)
        (q.k.src32 th (q.thr th) none f.pos) (q.triple th f.lg) (q.triple th f.rg)).1) ∧
  (∀ f : Std, ∀ s q p, s.Inv → Issues (.drawr f) s q → NoLost s q → q.k.narrow f.d 4 = false → q.on.head? = some p →
    let wf := f.func.getLsbD 0
    let leaf (th : Nat) : Triple × Word × FFlags :=
      (leafOf wf (q.group p f.c 0) (q.k.src32 th (q.thr th) f.lit f.b)
        (lo32 (q.k.srcVal th (q.thr th) f .val f.pa f.a)), q.k.src32 th (q.thr th) f.lit f.b, 0)
    let comb (a b : Triple × Word × FFlags) : Triple × Word × FFlags :=
      let r := mergeDraw wf (q.group p f.c 0) (q.group p f.c 1) (q.group p f.c 2) b.2.1 a.1 b.1
      (r.1, a.2.1, a.2.2 ||| b.2.2 ||| r.2)
    ∃ t, exec (.drawr f) s = .next t ∧ Goes s t q (fun _ => q.next) ∧
      ∀ tr, slotTree comb (q.slots32 q.on leaf) = some tr → (pushed s t q f.d fun _ => tr.1) ∧
        ∀ th ∈ q.on, (s.thr q.b th).isSome = true → f.d.isReg = true → ∀ j, j < 3 →
          t.reg q.b th (runSel f.d j) 0 = some (wordAt tr.1.words j))

/-! ## Control flow -/

/-- R138, R140, R172: where the threads go. -/
def Obligations.BranchTargets : Prop :=
  (∀ f : SForm, GoesTo (.nop f) always anyway fun q _ => q.next) ∧
  (∀ f : SForm, GoesTo (.yield f) always anyway fun q _ => q.next) ∧
  (∀ f : Std, GoesTo (.bra f) always anyway fun q th =>
    q.pc.extractLsb' 40 24 ++
      BitVec.ofInt 40 ((q.pc.extractLsb' 0 40).toNat + 4 * (q.k.src32 th (q.thr th) f.lit f.a).toInt)) ∧
  (∀ f : Std, GoesTo (.brx f) always anyway fun q th => (q.k.pair th (q.thr th) f.a).extractLsb' 2 62 ++ 0b00#2) ∧
  (∀ f : SForm, GoesTo (.ret f) always anyway fun q th => (q.k.pair th (q.thr th) f.a).extractLsb' 2 62 ++ 0b00#2) ∧
  (∀ f : Std, GoesTo (.hbr f) always anyway fun q th =>
    if (if f.func.getLsbD 0 then (q.thr th).settled
        else (q.thr th).passed ((q.k.src32 th (q.thr th) f.lit f.b).extractLsb' 0 16)) != f.func.getLsbD 1
    then q.target th f f.a else q.next)

/-- R46, R47, R138, R139: CALL writes PC + length and branches, and a branch leaves no latch valid; MEET writes the meeting
register and returns its old value. -/
def Obligations.CallAndMeet : Prop :=
  (∀ f : Std, ∀ s q, s.Inv → Issues (.call f) s q → q.k.narrow f.d 2 = false →
    ∃ t, exec (.call f) s = .next t ∧
      Goes s t q (fun th => if th ∈ q.on then
        (if f.func = 1 then (q.k.pair th (q.thr th) f.a).extractLsb' 2 62 ++ 0b00#2 else q.target th f f.a)
        else q.next) ∧
      (Holds s t q f.d 2 fun _ => q.next) ∧ Cleared t q) ∧
  (∀ f : Std, ∀ s q, s.Inv → Issues (.meet f) s q → NoLost s q → q.k.narrow f.d 1 = false →
    ∃ t, exec (.meet f) s = .next t ∧ Goes s t q (fun _ => q.next) ∧ (Holds s t q f.d 1 fun th => word (q.thr th).meet) ∧
      (Pushes s t q f.d 1 fun th => some (word (q.thr th).meet)) ∧
      ∀ th ∈ q.on, (s.thr q.b th).isSome = true → ∃ x', t.thr q.b th = some x' ∧
        x'.meet = if f.func = 1 then q.k.src32 th (q.thr th) f.lit f.a else lo32 (q.target th f f.a - q.k.entry))

/-- R141: at an EXIT a guard-true thread with nothing unsettled is EXITED, or gone with its gang; one with something
unsettled stands at the EXIT while a thread of the block outside the ripple lives. -/
def Obligations.ExitEnds : Prop :=
  ∀ (f : SForm) (s : State) (q : Iss), Issues (.exit f) s q →
    ∃ t, exec (.exit f) s = .next t ∧
      (∀ th ∈ q.on, (q.thr th).win = [] → (t.thr q.b th).all (fun x => x.st = .exited)) ∧
      ((∃ u x, u ∉ q.ts ∧ s.thr q.b u = some x ∧ x.st ≠ .exited) →
        (∀ th ∈ q.on, ∀ x, s.thr q.b th = some x → x.win = [] → ∃ x', t.thr q.b th = some x' ∧ x'.st = .exited) ∧
        (∀ th ∈ q.on, ∀ x, s.thr q.b th = some x → x.win ≠ [] → t.thr q.b th = some x) ∧
        (∀ th ∈ q.ts, th ∉ q.on → (s.thr q.b th).isSome = true → t.pc q.b th = some q.next))

/-! ## Exceptions -/

/-- R161, R122: taking an exception, where the thread has a trap vector, is in no handler and belongs to no replay, and its
frame is written: its PC becomes E + TVEC, the handler flag is set, every operation is cancelled, so that the horizon is at
the next ticket, the latches and the escape record clear, and the registers and tickets stay. (R39 has the horizon stand
still at a trap's entry; the model follows R161: notes/assumptions/60.md.) -/
def Obligations.TrapEntry : Prop :=
  ∀ (s s1 : State) (b th cause detail : Nat) (code : Word) (stall : DWord) (k : Block) (x : Thread),
    s.blk b = some k → Tab.find k.thr th = some x → s.isReplay k.gang = false → k.tvec ≠ 0 → x.handler = false →
    writeFrame s k b th x cause detail code stall = .ok s1 →
    ∃ x', (s.trap b th cause detail code stall).thr b th = some x' ∧
      x'.pc = k.entry.extractLsb' 40 24 ++ BitVec.ofInt 40 ((k.entry.extractLsb' 0 40).toNat + k.tvec.toNat) ∧
      x'.handler = true ∧ x'.win = [] ∧ x'.l0 = .invalid ∧ x'.l1 = .invalid ∧ x'.l2 = .invalid ∧ x'.l3 = .invalid ∧
      x'.esc = {} ∧ x'.o = x.o ∧ x'.p = x.p ∧ x'.tnext = x.tnext ∧ x'.hz = x.tnext ∧ x'.fflags = x.fflags ∧ x'.meet = x.meet

/-- R163: the words of a trap frame's header: cause and detail, code, the stall PC, the tickets, the number of cancelled
operations, the escape record and its log, and 0 where they are reserved. -/
def Obligations.FrameHeader : Prop :=
  ∀ (x : Thread) (cause detail : Nat) (code : Word) (stall : DWord) (n : Nat), cause < 256 → detail < 65536 → n ≤ 32 →
    x.esc.n ≤ 255 → x.esc.log.length ≤ 4 → (∀ e ∈ x.esc.log, e.2 < 256) →
    let ws := x.headerWords cause detail code stall n
    ws.length = 32 ∧ bits (wordAt ws 0) 31 24 = cause ∧ bits (wordAt ws 0) 23 16 = 0 ∧ bits (wordAt ws 0) 15 0 = detail ∧
      wordAt ws 1 = code ∧ dwordAt ws 2 = stall ∧
      (wordAt ws 4).extractLsb' 16 16 = x.tnext ∧ (wordAt ws 4).extractLsb' 0 16 = x.hz ∧
      bits (wordAt ws 5) 31 6 = 0 ∧ bits (wordAt ws 5) 5 0 = n ∧
      (wordAt ws 6).getLsbD 31 = x.esc.mark ∧ bits (wordAt ws 6) 30 24 = 0 ∧ bits (wordAt ws 6) 23 16 = x.esc.n ∧
      (wordAt ws 6).extractLsb' 0 16 = x.esc.w ∧ wordAt ws 7 = 0 ∧
      (∀ j e, x.esc.log[j]? = some e → wordAt ws (8 + 2 * j) = e.1 ∧ wordAt ws (9 + 2 * j) = BitVec.ofNat 32 e.2) ∧
      (∀ j, 2 * x.esc.log.length ≤ j → j < 8 → wordAt ws (8 + j) = 0) ∧ ∀ j, 16 ≤ j → wordAt ws j = 0

/-- R122, R133, R142, R162, R282: a thread that traps with no vector, or in its handler, ends its gang, and so does a
TRAP.kill by a guard-true thread: every block that the gang lists is gone. -/
def Obligations.TrapKills : Prop :=
  (∀ (s : State) (b th cause detail : Nat) (code : Word) (stall : DWord) (k : Block) (x : Thread) (g : Gang),
     s.Inv → s.blk b = some k → Tab.find k.thr th = some x → Tab.find s.gangs k.gang = some g → b ∈ g.blocks →
     (k.tvec = 0 ∨ x.handler = true) → (s.trap b th cause detail code stall).blk b = none) ∧
  (∀ (f : Std) (s : State) (q : Iss) (g : Gang), f.func = 1 → s.Inv → Issues (.trap f) s q → NoLost s q → q.on ≠ [] →
     Tab.find s.gangs q.k.gang = some g → q.b ∈ g.blocks →
     ∃ t, exec (.trap f) s = .next t ∧ t.blk q.b = none)

/-- R142, R37: BKPT, TRAP and words that are no instruction raise their traps: in a ripple of one thread that thread is
as the exception leaves it, with the stall PC after a BKPT or TRAP and at the words themselves. -/
def Obligations.TrapInstructions : Prop :=
  (∀ f : SForm, ∀ s q, Issues (.bkpt f) s q → ∃ t, exec (.bkpt f) s = .next t ∧
    ∀ th, q.ts = [th] → q.on = [th] → t.thr q.b th = (s.trap q.b th 5 0 0 q.next).thr q.b th) ∧
  (∀ f : Std, f.func = 0 → ∀ s q, Issues (.trap f) s q → NoLost s q → ∃ t, exec (.trap f) s = .next t ∧
    ∀ th, q.ts = [th] → q.on = [th] → t.thr q.b th =
      ((clearLong q s).trap q.b th 6 0 (q.k.src32 th (q.thr th) f.lit f.a) q.next).thr q.b th) ∧
  (∀ d : Nat, ∀ s q, s.iss (.unassignedOpcodeExecute d) = some q → ∃ t, exec (.unassignedOpcodeExecute d) s = .next t ∧
    ∀ th, q.ts = [th] → t.thr q.b th = (s.trap q.b th 2 d 0 q.pc).thr q.b th)

/-- R39, R153, R230: an instruction that breaks a rule of its encoding raises the illegal-instruction trap in every thread of
its ripple, whatever its guard and whether or not its operands are available, with the lowest detail that applies; PGINV
runs in system mode only; an instruction whose operands are not available yet leaves all as it was. -/
def Obligations.IssueRules : Prop :=
  (∀ (i : Instr) (s : State) (q : Iss) (d : Nat), encode i ≠ [] → s.iss i = some q → i.violation (s.env q.k) = some d →
     ∃ t, exec i s = .next t ∧ ∀ th, q.ts = [th] → t.thr q.b th = (s.trap q.b th 2 d 0 q.pc).thr q.b th) ∧
  (∀ (f : Std) (s : State) (q : Iss), Issues (.pginv f) s q → s.sysMode q.k = true) ∧
  (∀ (i : Instr) (s : State) (q : Iss), encode i ≠ [] → s.iss i = some q → i.violation (s.env q.k) = none →
     q.ready = false → exec i s = .next s)

/-- R48, R54, R56: a guard-true thread that would read an invalid latch takes the latch-lost trap with the selector of the
latch, and a G result to a narrow register is the shape trap with detail 1; each in a ripple of one thread. -/
def Obligations.OperandTraps : Prop :=
  (∀ (i : Instr) (f : Std) (sem : Std → Args → Res), i.sem = some (f, sem) →
   ∀ (s : State) (q : Iss) (th : Nat) (x : Thread) (n : BitVec 2), s.Inv → Issues i s q → q.ts = [th] → q.on = [th] →
     ((q.shape f).isG = true → q.k.narrow f.d (dstCount f.ty (ruleOf i).d) = false) →
     (clearLong q s).thr q.b th = some x → x.lostLatch (instrUses i) = some n →
     ∃ t, exec i s = .next t ∧ t.thr q.b th =
       ((clearLong q s).trap q.b th 3 0 (BitVec.ofNat 32 (0x110 + n.toNat)) q.pc).thr q.b th) ∧
  (∀ (i : Instr) (f : Std) (sem : Std → Args → Res), i.sem = some (f, sem) →
   ∀ (s : State) (q : Iss) (th : Nat), Issues i s q → q.ts = [th] → q.on = [th] → (q.shape f).isG = true →
     q.k.narrow f.d (dstCount f.ty (ruleOf i).d) = true →
     ∃ t, exec i s = .next t ∧ t.thr q.b th =
       ((clearLong q s).trap q.b th 4 1 (f.d.code.setWidth 32) q.pc).thr q.b th)

/-! ## Operations on global memory -/

/-- R143, R174: RTT clears the handler flag and branches; HRESUME, where the frame can be read and its listed entries are
valid and no error is found in it, clears the flag, gives back the operations and goes on at the stall PC; outside a handler
either raises the illegal-instruction trap with detail 11, in a ripple of one thread. (That the two lowest bits of STALL are
taken as 0, and that HRESUME waits for room for all listed entries at once, is the model's reading: notes/assumptions/32.md.) -/
def Obligations.HandlerReturns : Prop :=
  (∀ f : Std, ∀ s q th, Issues (.rtt f) s q → q.ts = [th] → q.on = [th] → (q.thr th).handler = true →
    (s.thr q.b th).isSome = true →
    ∃ t x', exec (.rtt f) s = .next t ∧ t.thr q.b th = some x' ∧ x'.handler = false ∧
      x'.pc = (q.k.pair th (q.thr th) f.a).extractLsb' 2 62 ++ 0b00#2) ∧
  (∀ f : Std, ∀ s q th stall es, Issues (.hresume f) s q → resumeReady q s = true → q.ts = [th] → q.on = [th] →
    (q.thr th).handler = true → (s.thr q.b th).isSome = true →
    readFrame (clearAll q s) q.k th = some (stall, es) → freshAt (clearAll q s) q.k.ctx (q.k.frame th) 4224 = none →
    ((listed es).all fun e => (entryInstr ((clearAll q s).env q.k) e.2 (Tab.find (q.thr th).kept e.1)).isSome) = true →
    ∃ t x', exec (.hresume f) s = .next t ∧ t.thr q.b th = some x' ∧ x'.handler = false ∧
      x'.pc = stall.extractLsb' 2 62 ++ 0b00#2 ∧
      x'.tnext = (q.thr th).tnext + BitVec.ofNat 16 (listed es).length) ∧
  (∀ f : Std, ∀ s q th, Issues (.rtt f) s q → q.ts = [th] → q.on = [th] → (q.thr th).handler = false →
    ∃ t, exec (.rtt f) s = .next t ∧ t.thr q.b th =
      ((clearAll q (clearLong q s)).trap q.b th 2 11 0 q.pc).thr q.b th) ∧
  (∀ f : Std, ∀ s q th, Issues (.hresume f) s q → resumeReady q s = true → q.ts = [th] → q.on = [th] →
    (q.thr th).handler = false →
    ∃ t, exec (.hresume f) s = .next t ∧ t.thr q.b th = ((clearAll q s).trap q.b th 2 11 0 q.pc).thr q.b th)

/-- R150, R151, R188, R191, R193, R194: loads, stores, atomics and residency requests issue an operation with its address,
its data and its destination. -/
def Obligations.AccessesIssue : Prop :=
  let at_ (f : Std) (d : Sel) (q : Iss) (th : Nat) (o : Op) : Prop :=
    o.addr = q.addr f th ∧ o.dest = if d.isReg then d else Sel.zero
  (∀ f : Std, Enters (.ld f) f.d (sizeRegs f.size) windowRoom fun q _ th o => at_ f f.d q th o) ∧
  (∀ f : Std, Enters (.ldnr f) f.d (sizeRegs f.size) windowRoom fun q _ th o => at_ f f.d q th o) ∧
  (∀ f : Std, Enters (.st f) Sel.zero 0 windowRoom fun q _ th o => at_ f .zero q th o ∧ o.data.length = 2 ^ f.size ∧
    (f.c.isReg = true → o.data = (q.k.regBytes th (q.thr th) f.c (sizeRegs f.size)).take (2 ^ f.size)) ∧
    (f.c.isReg = false → o.data.take (q.storeVal f th).2 =
      (leBytes (q.storeVal f th).2 (q.storeVal f th).1.toNat).take (2 ^ f.size))) ∧
  (∀ f : Std, Enters (.atom f) f.d (if f.ty.wide then 2 else 1) windowRoom fun q _ th o =>
    at_ f f.d q th o ∧ o.data = atomData q f th) ∧
  (∀ f : Std, Enters (.red f) Sel.zero 0 windowRoom fun q _ th o => at_ f .zero q th o ∧ o.data = atomData q f th) ∧
  (∀ f : Std, Enters (.pgreq f) Sel.zero 0 windowRoom fun q _ th o => at_ f .zero q th o)

/-- R245, R270, R307, R340 to R343: page moves, enqueues, address groups, member loads, collective starts and, where the
bank and a drain buffer are there and the pitch is a multiple of 16, drains issue an operation with what it captures. -/
def Obligations.CommandsIssue : Prop :=
  (∀ f : Std, Enters (.pgmove f) Sel.zero 0 windowRoom fun q _ th o =>
    o.addr = q.addr f th ∧ o.aux = [q.k.src32 th (q.thr th) f.lit f.c]) ∧
  (∀ f : EnqForm, Enters (.enq f) f.d 1 windowRoom fun q _ th o =>
    o.data = q.k.regBytes th (q.thr th) f.grp 16 ∧ o.dest = if f.d.isReg then f.d else Sel.zero) ∧
  (∀ f : AgdefForm, Enters (.agdef f) Sel.zero 0 windowRoom fun q _ th o =>
    o.addr = (if f.del then 0 else q.k.pair th (q.thr th) f.base) ∧ dwordAt o.aux 0 = q.k.pair th (q.thr th) f.mask) ∧
  (∀ f : MldrForm, Enters (.mldr f) f.d (mldrGroup f).1 windowRoom fun q s th o =>
    o.dest = f.d ∧ wordAt o.aux 0 = q.k.src32 th (q.thr th) none f.off ∧
    (∀ e, s.agEntry (s.ctx q.k.ctx).ldom f.agn.toNat = some e →
      o.addr = addOffset e.base (q.k.src32 th (q.thr th) none f.off).toInt) ∧
    (f.op.toNat ≥ 6 → ∀ j, j < 4 → wordAt o.aux (j + 1) = q.k.regWord th (q.thr th) f.pg j)) ∧
  (∀ f : Std, Enters (.clstart f) f.d 1 windowRoom fun q _ th o =>
    o.addr = q.addr f th ∧ o.dest = (if f.d.isReg then f.d else Sel.zero) ∧
      o.aux = [q.k.src32 th (q.thr th) f.lit f.c]) ∧
  (∀ f : Std, Enters (.mxdrain f) Sel.zero 0 (fun q s => windowRoom q s && bankReady q s && q.on.length = 1 &&
      (s.core q.k.core).freeDrain.isSome && q.on.all fun th => (q.pitch f th).toNat % 16 = 0) fun q s th o =>
    o.addr = q.addr f th ∧ o.aux = [q.pitch f th] ∧ o.buf = (s.core q.k.core).freeDrain)

/-- R359: a replay that reaches an instruction which it may not execute is abandoned. -/
def Obligations.ReplayAbandoned : Prop :=
  (∀ f : Std, Abandons (.atom f) f.d (if f.ty.wide then 2 else 1)) ∧ (∀ f : Std, Abandons (.red f) Sel.zero 0) ∧
  (∀ f : EnqForm, Abandons (.enq f) f.d 1) ∧ (∀ f : MldrForm, Abandons (.mldr f) f.d (mldrGroup f).1) ∧
  (∀ f : AgdefForm, Abandons (.agdef f) Sel.zero 0) ∧ (∀ f : Std, Abandons (.clstart f) f.d 1) ∧
  (∀ f : Std, Abandons (.pgmove f) Sel.zero 0) ∧ ∀ f : Std, Abandons (.pgreq f) Sel.zero 0

/-- R307: an MXDRAIN takes its bank's elements, all of them and no other, to a drain buffer, in the drain's format, and
leaves the bank free; a bank that no block holds drains as zeros. No register, no byte of memory, no other bank and no other
drain buffer changes. -/
def Obligations.DrainIssues : Prop :=
  ∀ (f : Std) (s : State) (q : Iss) (th buf : Nat) (x : Thread), Issues (.mxdrain f) s q → windowRoom q s = true →
    bankReady q s = true → NoLost s q → q.on = [th] → s.thr q.b th = some x →
    (s.core q.k.core).freeDrain = some buf → (q.pitch f th).toNat % 16 = 0 →
    let n := f.func.toNat % 2
    let old := (s.core q.k.core).bankOf n
    ∃ t, exec (.mxdrain f) s = .next t ∧ Goes s t q (fun _ => q.next) ∧ Keeps s t q ∧
      (t.core q.k.core).bankOf n = {} ∧ (t.core q.k.core).bankOf (1 - n) = (s.core q.k.core).bankOf (1 - n) ∧
      (∃ d, Tab.find (t.core q.k.core).drain buf = some d ∧ d.blk = q.b ∧
        (old.owner = some q.b → ∀ key w', (key, w') ∈ d.els ↔
          w' ≠ 0 ∧ ∃ w, (key, w) ∈ old.els ∧ w' = drainElem (drainFmt f) w) ∧
        (old.owner = none → d.els = [])) ∧
      (∀ m, m ≠ buf → Tab.find (t.core q.k.core).drain m = Tab.find (s.core q.k.core).drain m) ∧
      ∃ x', t.thr q.b th = some x' ∧ x'.tnext = x.tnext + 1 ∧
        ∃ o ∈ x'.win, o.tk = x.tnext ∧ o.insn = .mxdrain f ∧ o.pc = q.pc ∧ o.st = .outstanding ∧ o.perf = false ∧
          o.addr = q.addr f th ∧ o.aux = [q.pitch f th] ∧ o.buf = some buf

/-! ## Scratchpad -/

/-- R176, R188, R193: LDS gives each guard-true thread the scratchpad bytes at its address. (That a load through the cluster
window takes the target's bytes at issue is the model's choice: notes/assumptions/62.md.) -/
def Obligations.ScratchLoad : Prop :=
  ∀ (f : Std) (s : State) (q : Iss), s.Inv → Issues (.lds f) s q → scratchReady false q s = true → NoLost s q →
    q.k.narrow f.d (sizeRegs f.size) = false →
    (∀ th ∈ q.on, scratchFault s q.k (q.scratchAddr f th) (2 ^ f.size) false = none) →
    ∃ t, exec (.lds f) s = .next t ∧ Goes s t q (fun _ => q.next) ∧ t = { s with blocks := t.blocks } ∧
      (∀ b, b ≠ q.b → t.blk b = s.blk b) ∧
      ∀ th ∈ q.on, (s.thr q.b th).isSome = true → f.d.isReg = true → ∀ j, j < sizeRegs f.size →
        t.reg q.b th f.d j = some (wordAt (loadWords f.size f.ty
          (s.scratchRead (s.scratchBlock q.k (q.scratchAddr f th)) (q.scratchAddr f th) (2 ^ f.size))) j)

/-- R176, R188, R193: after an STS every scratchpad byte outside its threads' ranges is as it was; the bytes at a thread's
address are its data, unless a thread in a later slot writes some of them. (That a store through the cluster window is
applied at its target at issue, and that the stores of one STS are applied in slot order, are the model's choices:
notes/assumptions/62.md and 77.md.) -/
def Obligations.ScratchStore : Prop :=
  ∀ (f : Std) (s : State) (q : Iss), s.Inv → Issues (.sts f) s q → scratchReady true q s = true → NoLost s q →
    (∀ th ∈ q.on, scratchFault s q.k (q.scratchAddr f th) (2 ^ f.size) false = none) →
    let lo (th : Nat) : Nat := bits (q.scratchAddr f th) 19 0
    let n := 2 ^ f.size
    ∃ t, exec (.sts f) s = .next t ∧ Goes s t q (fun _ => q.next) ∧
      t = { s with blocks := t.blocks, fresh := t.fresh } ∧
      (∀ b k, s.blk b = some k → ∃ k', t.blk b = some k' ∧ k'.v = k.v ∧ k'.poolMem = k.poolMem ∧
        ∀ a, (∀ th ∈ q.on, s.scratchBlock q.k (q.scratchAddr f th) = some b → ¬ (lo th ≤ a ∧ a < lo th + n)) →
          Memory.byte k'.scratch a = Memory.byte k.scratch a) ∧
      ∀ dat : Nat → List Byte, (∀ th s', (storeData q f th s').1 = dat th) →
        ∀ pre th post b k, q.on = pre ++ th :: post → s.scratchBlock q.k (q.scratchAddr f th) = some b → s.blk b = some k →
          (∀ u ∈ post, s.scratchBlock q.k (q.scratchAddr f u) = some b → lo u + n ≤ lo th ∨ lo th + n ≤ lo u) →
          ∃ k', t.blk b = some k' ∧ Memory.read k'.scratch (lo th) n = dat th

/-- R191, R193: an ATOMS of one thread returns the old value and leaves the new one, and no other scratchpad byte
changes. (That an ATOMS through the cluster window is applied at issue is the model's choice: notes/assumptions/62.md.) -/
def Obligations.ScratchAtomic : Prop :=
  ∀ (f : Std) (s : State) (q : Iss) (th b : Nat) (k : Block), s.Inv → Issues (.atoms f) s q →
    scratchReady true q s = true → NoLost s q → q.on = [th] → q.k.narrow f.d (atomBytes f.ty / 4) = false →
    let a := q.scratchAddr f th
    let n := atomBytes f.ty
    scratchFault s q.k a n true = none → s.scratchBlock q.k a = some b → s.blk b = some k →
    let old := Memory.read k.scratch (bits a 19 0) n
    ∃ t k', exec (.atoms f) s = .next t ∧ Goes s t q (fun _ => q.next) ∧ t.blk b = some k' ∧
      Memory.read k'.scratch (bits a 19 0) n = atomNew f.size f.ty old (atomData q f th) ∧
      (∀ c, ¬ (bits a 19 0 ≤ c ∧ c < bits a 19 0 + n) → Memory.byte k'.scratch c = Memory.byte k.scratch c) ∧
      ((s.thr q.b th).isSome = true → f.d.isReg = true → ∀ j, j < n / 4 →
        t.reg q.b th f.d j = some (wordAt (bytesWords (n / 4) old) j))

/-- R178: an access to the scratchpad that breaks a rule is the scratchpad trap with the lowest detail that applies, in a
ripple of one thread. -/
def Obligations.ScratchFaults : Prop :=
  (∀ f : Std, ∀ s q th d, s.Inv → Issues (.lds f) s q → scratchReady false q s = true → NoLost s q → q.ts = [th] → q.on = [th] →
    q.k.narrow f.d (sizeRegs f.size) = false →
    scratchFault s q.k (q.scratchAddr f th) (2 ^ f.size) false = some d →
    ∃ t, exec (.lds f) s = .next t ∧ t.thr q.b th = ((clearLong q s).trap q.b th 8 d (q.scratchAddr f th) q.pc).thr q.b th) ∧
  (∀ f : Std, ∀ s q th d, Issues (.sts f) s q → scratchReady true q s = true → NoLost s q → q.ts = [th] → q.on = [th] →
    scratchFault s q.k (q.scratchAddr f th) (2 ^ f.size) false = some d →
    ∃ t, exec (.sts f) s = .next t ∧ t.thr q.b th = ((clearLong q s).trap q.b th 8 d (q.scratchAddr f th) q.pc).thr q.b th) ∧
  (∀ f : Std, ∀ s q th d, s.Inv → Issues (.atoms f) s q → scratchReady true q s = true → NoLost s q → q.ts = [th] → q.on = [th] →
    q.k.narrow f.d (atomBytes f.ty / 4) = false →
    scratchFault s q.k (q.scratchAddr f th) (atomBytes f.ty) true = some d →
    ∃ t, exec (.atoms f) s = .next t ∧
      t.thr q.b th = ((clearLong q s).trap q.b th 8 d (q.scratchAddr f th) q.pc).thr q.b th)

/-! ## Fences, hints and sweeps -/

/-- R181, R195 to R197, R230, R314: a PF goes on; a FENCE stands before what follows, or, with nothing unsettled, invalidates
at once, and with release order makes a release of each later write; CCTL empties what it names; PGINV sweeps the translations that its threads name. -/
def Obligations.FencesAndSweeps : Prop :=
  (∀ f : Std, GoesTo (.pf f) always anyway fun q _ => q.next) ∧
  (∀ f : Std, ∀ s q, Issues (.fence f) s q → ∃ t, exec (.fence f) s = .next t ∧ Goes s t q (fun _ => q.next) ∧
    ∀ th ∈ q.on, ∀ x, s.thr q.b th = some x →
      (x.before x.tnext ≠ [] → ∃ x', t.thr q.b th = some x' ∧
        ∃ e ∈ x'.fences, e.kind = f.ord ∧ e.scope = f.scope ∧ e.tk = x.tnext) ∧
      (∃ x', t.thr q.b th = some x' ∧ (f.ord = 1 → x'.rel = x.rel) ∧ (f.ord ≠ 1 → ∃ n, x'.rel = some n ∧ f.scope ≤ n)) ∧
      (x.before x.tnext = [] → f.ord ≠ 2 → f.scope ≠ 0 → ∀ l ∈ (t.core q.k.core).l1, l.ctx ≠ q.k.ctx)) ∧
  (∀ f : Std, ∀ s q, Issues (.cctl f) s q → NoLost s q → ∃ t, exec (.cctl f) s = .next t ∧
    Goes s t q (fun _ => q.next) ∧
    (q.on ≠ [] → f.size = 0 → (t.core q.k.core).icache = []) ∧
    (q.on ≠ [] → f.size = 2 → ∀ l ∈ (t.core q.k.core).l1, l.ctx ≠ q.k.ctx)) ∧
  (∀ f : Std, ∀ s q, Issues (.pginv f) s q → invReady f q s = true → NoLost s q → ∃ t, exec (.pginv f) s = .next t ∧
    Goes s t q (fun _ => q.next) ∧
    ∀ th ∈ q.on, ∀ c, ∀ e ∈ (t.core c).tlb, (q.invTarget f th s).trans s e = false)

/-! ## Waits -/

/-- R122, R171, R204, R272, R303, R344: each wait instruction goes on at once where its condition is met for every
guard-true thread; else the threads whose condition is unmet are WAITING, with their token or target. What EWAIT, CWAIT
and CLWAIT return where they need not wait: 0 where the target is reached, 1 where the chain ended short of it; the
status word of the instance. A wait that completes leaves no latch valid (R47). -/
def Obligations.WaitsAtIssue : Prop :=
  (∀ f : Std, Waits (.hwait f) anyway (fun q th => q.k.src32 th (q.thr th) f.lit f.a)
    fun q th _ => hwaitMet f (q.thr th) (q.k.src32 th (q.thr th) f.lit f.a) = true) ∧
  (∀ f : Std, Waits (.barw f) (fun q _ => ∀ th ∈ q.on, (q.barNo f th).toNat < q.k.bars)
    (fun q th => ((q.k.src32 th (q.thr th) f.lit f.b).extractLsb' 0 16).setWidth 32)
    fun q th _ => (q.k.barOf (q.barNo f th).toNat).phase ≠ (q.k.src32 th (q.thr th) f.lit f.b).extractLsb' 0 16) ∧
  (∀ f : Std, Waits (.ewait f) (fun q _ => q.k.narrow f.d 1 = false) (fun q th => q.k.src32 th (q.thr th) f.lit f.a)
    fun q th s => chainEnded s q.b (.ewait f) (q.k.src32 th (q.thr th) f.lit f.a) = true) ∧
  (∀ f : Std, Waits (.cwait f) (fun q _ => q.k.narrow f.d 1 = false) (fun q th => q.k.src32 th (q.thr th) f.lit f.a)
    fun q th s => chainEnded s q.b (.cwait f) (q.k.src32 th (q.thr th) f.lit f.a) = true) ∧
  (∀ f : Std, Waits (.mxwait f) anyway (fun q _ => q.k.loops) fun q _ s => loopsOver s q.b f q.k.loops = true) ∧
  (∀ f : Std, Waits (.clwait f) (fun q _ => q.k.narrow f.d 1 = false) (fun q th => q.k.src32 th (q.thr th) f.lit f.b)
    fun q th s => (clStatus s q.k.ctx (groupNo (q.k.src32 th (q.thr th) f.lit f.a))
      (q.k.src32 th (q.thr th) f.lit f.b)).isSome = true) ∧
  (∀ f : Std, WaitReturns (.ewait f) f.d (fun q s => ∀ th ∈ q.on,
      chainEnded s q.b (.ewait f) (q.k.src32 th (q.thr th) f.lit f.a) = true) fun q s th =>
    word (if chainReached s q.b (.ewait f) (q.k.src32 th (q.thr th) f.lit f.a) then 0 else 1)) ∧
  (∀ f : Std, WaitReturns (.cwait f) f.d (fun q s => ∀ th ∈ q.on,
      chainEnded s q.b (.cwait f) (q.k.src32 th (q.thr th) f.lit f.a) = true) fun q s th =>
    word (if chainReached s q.b (.cwait f) (q.k.src32 th (q.thr th) f.lit f.a) then 0 else 1)) ∧
  (∀ f : Std, WaitReturns (.clwait f) f.d (fun q s => ∀ th ∈ q.on,
      (clStatus s q.k.ctx (groupNo (q.k.src32 th (q.thr th) f.lit f.a)) (q.k.src32 th (q.thr th) f.lit f.b)).isSome = true)
    fun q s th => word ((clStatus s q.k.ctx (groupNo (q.k.src32 th (q.thr th) f.lit f.a))
      (q.k.src32 th (q.thr th) f.lit f.b)).getD 2)) ∧
  (∀ (f : Std) (s : State) (q : Iss), Issues (.clwait f) s q → NoLost s q → q.k.narrow f.d 1 = false →
    ∀ th ∈ q.on, (s.thr q.b th).isSome = true →
    clStatus s q.k.ctx (groupNo (q.k.src32 th (q.thr th) f.lit f.a)) (q.k.src32 th (q.thr th) f.lit f.b) = none →
    ∃ t x', exec (.clwait f) s = .next t ∧ t.thr q.b th = some x' ∧ x'.st = .waiting ∧
      clwaitOf x' = (groupNo (q.k.src32 th (q.thr th) f.lit f.a), q.k.src32 th (q.thr th) f.lit f.b))

/-! ## Barriers -/

/-- R200: the completion check. A barrier that is set and has what it expects begins its next phase with nothing
arrived; else nothing changes. -/
def Obligations.BarrierCheck : Prop :=
  ∀ b : Bar,
    (b.init = true → b.expect ≤ b.arrived → b.xbytes ≤ b.bytes →
      b.check.phase = b.phase + 1 ∧ b.check.arrived = 0 ∧ b.check.bytes = 0 ∧ b.check.mask = 0 ∧
      b.check.expect = b.expect ∧ b.check.xbytes = b.xbytes ∧ b.check.init = true ∧
      (b.check.ovf = true ↔ b.ovf = true ∨ b.expect < b.arrived ∨ b.xbytes < b.bytes)) ∧
    (b.init = false ∨ b.arrived < b.expect ∨ b.bytes < b.xbytes → b.check = b)

/-- R203, R204, R206: BARI sets the barriers that its threads name, one thread after another in slot order, and no other. A
thread's BARA or BARS whose horizon has passed counts its arrival at its barrier and at no other. A BARA returns the phase
before it as its token and goes on; a BARS returns its token too, and goes on where the arrival completes the phase, else its
thread is WAITING with it. -/
def Obligations.BarrierArrivals : Prop :=
  (∀ (f : Std) (s : State) (q : Iss), s.Inv → Issues (.bari f) s q → NoLost s q →
     let count (th : Nat) : Nat := (q.k.src32 th (q.thr th) f.lit f.b).toNat
     let bytes (th : Nat) : Nat := (q.k.src32 th (q.thr th) f.lit f.c).toNat
     (∀ th ∈ q.on, (q.barNo f th).toNat < q.k.bars ∧ count th ≤ 1024 ∧ (count th ≠ 0 ∨ bytes th ≠ 0)) →
     ∃ t k, exec (.bari f) s = .next t ∧ Goes s t q (fun _ => q.next) ∧ t.blk q.b = some k ∧
       ∀ n, k.barOf n = (q.on.filter fun th => (q.barNo f th).toNat = n).foldl (fun b th => b.set (count th) (bytes th))
         (q.k.barOf n)) ∧
  (∀ (f : Std) (s : State) (q : Iss) (th : Nat), s.Inv → Issues (.bara f) s q → NoLost s q → q.on = [th] →
     q.k.narrow f.d 1 = false → arrivalDue q.b th (.bara f) s = true → (s.thr q.b th).isSome = true →
     let n := (q.barNo f th).toNat
     n < q.k.bars → (q.k.barOf n).init = true →
     ∃ t k, exec (.bara f) s = .next t ∧ Goes s t q (fun _ => q.next) ∧ t.blk q.b = some k ∧
       k.barOf n = (q.k.barOf n).arrive th ∧ (∀ m, m ≠ n → k.barOf m = q.k.barOf m) ∧
       (f.d.isReg = true → t.reg q.b th f.d 0 = some ((q.k.barOf n).phase.setWidth 32)) ∧
       Pushes s t q f.d 1 fun _ => some (word ((q.k.barOf n).phase.setWidth 32))) ∧
  (∀ (f : Std) (s : State) (q : Iss) (th : Nat), s.Inv → Issues (.bars f) s q → NoLost s q → q.on = [th] →
     q.k.narrow f.d 1 = false → arrivalDue q.b th (.bars f) s = true → (s.thr q.b th).isSome = true →
     let n := (q.barNo f th).toNat
     let tok : Word := (q.k.barOf n).phase.setWidth 32
     n < q.k.bars → (q.k.barOf n).init = true →
     ∃ t k, exec (.bars f) s = .next t ∧ t.blk q.b = some k ∧ k.barOf n = (q.k.barOf n).arrive th ∧
       (∀ m, m ≠ n → k.barOf m = q.k.barOf m) ∧ (f.d.isReg = true → t.reg q.b th f.d 0 = some tok) ∧
       (((q.k.barOf n).arrive th).phase ≠ (q.k.barOf n).phase → Goes s t q (fun _ => q.next) ∧ Cleared t q) ∧
       (((q.k.barOf n).arrive th).phase = (q.k.barOf n).phase → (∀ u ∈ q.ts, t.pc q.b u = s.pc q.b u) ∧
         ∃ x, t.thr q.b th = some x ∧ x.st = .waiting ∧ x.wtok = tok))

/-- R202 to R204, R206: a thread's GBAR whose horizon has passed arrives at the gang's barrier; where every thread of the
gang that has not exited has then arrived, the phase ends and the thread goes on, else it is WAITING. -/
def Obligations.GangBarrier : Prop :=
  ∀ (f : Std) (s : State) (q : Iss) (th : Nat) (g : Gang), s.Inv → Issues (.gbar f) s q → NoLost s q → q.on = [th] →
    arrivalDue q.b th (.gbar f) s = true → (s.thr q.b th).isSome = true → th < 1024 →
    Tab.find s.gangs q.k.gang = some g → q.b ∈ g.blocks → (q.barNo f th).toNat ≤ 3 →
    let n := (q.barNo f th).toNat
    let all := ∀ b ∈ g.blocks, ∀ k, s.blk b = some k → ∀ u ∈ k.live, (b = q.b ∧ u = th) ∨ (Tab.get 0 k.garr n).getLsbD u = true
    ∃ t g', exec (.gbar f) s = .next t ∧ Tab.find t.gangs q.k.gang = some g' ∧
      (all → Goes s t q (fun _ => q.next) ∧ Tab.get 0 g'.gb n = Tab.get 0 g.gb n + 1) ∧
      (¬ all → Tab.get 0 g'.gb n = Tab.get 0 g.gb n ∧ (∀ u ∈ q.ts, t.pc q.b u = s.pc q.b u) ∧
        ∃ x, t.thr q.b th = some x ∧ x.st = .waiting ∧ x.wtok = (Tab.get 0 g.gb n).setWidth 32)

/-- R207: a barrier fault is the barrier trap, CODE the barrier's index, in a ripple of one thread. -/
def Obligations.BarrierFaults : Prop :=
  let traps (i : Instr) (f : Std) (s : State) (q : Iss) (th d : Nat) : Prop :=
    ∃ t, exec i s = .next t ∧ t.thr q.b th = ((clearLong q s).trap q.b th 9 d (q.barNo f th) q.pc).thr q.b th
  let stops (i : Instr) (f : Std) (s : State) (q : Iss) (th d : Nat) : Prop :=
    ∃ t, exec i s = .next t ∧
      t.thr q.b th = ((clearAll q (clearLong q s)).trap q.b th 9 d (q.barNo f th) q.pc).thr q.b th
  (∀ f : Std, ∀ s q th, Issues (.bari f) s q → NoLost s q → q.ts = [th] → q.on = [th] →
    (q.k.bars ≤ (q.barNo f th).toNat → traps (.bari f) f s q th 1) ∧
    ((q.barNo f th).toNat < q.k.bars → ((q.k.src32 th (q.thr th) f.lit f.b).toNat > 1024 ∨
      (q.k.src32 th (q.thr th) f.lit f.b = 0 ∧ q.k.src32 th (q.thr th) f.lit f.c = 0)) → traps (.bari f) f s q th 3)) ∧
  (∀ f : Std, ∀ s q th, Issues (.bara f) s q → NoLost s q → q.ts = [th] → q.on = [th] → q.k.narrow f.d 1 = false →
    (q.k.bars ≤ (q.barNo f th).toNat → traps (.bara f) f s q th 1) ∧
    ((q.barNo f th).toNat < q.k.bars → (q.k.barOf (q.barNo f th).toNat).init = false → traps (.bara f) f s q th 2)) ∧
  (∀ f : Std, ∀ s q th, Issues (.bars f) s q → NoLost s q → q.ts = [th] → q.on = [th] → q.k.narrow f.d 1 = false →
    (q.k.bars ≤ (q.barNo f th).toNat → stops (.bars f) f s q th 1) ∧
    ((q.barNo f th).toNat < q.k.bars → (q.k.barOf (q.barNo f th).toNat).init = false → stops (.bars f) f s q th 2)) ∧
  (∀ f : Std, ∀ s q th, Issues (.gbar f) s q → NoLost s q → q.ts = [th] → q.on = [th] →
    (q.barNo f th).toNat > 3 → stops (.gbar f) f s q th 1) ∧
  (∀ f : Std, ∀ s q th, Issues (.barw f) s q → NoLost s q → q.ts = [th] → q.on = [th] →
    q.k.bars ≤ (q.barNo f th).toNat → stops (.barw f) f s q th 1) ∧
  (∀ f : Std, ∀ s q th, s.Inv → Issues (.barq f) s q → NoLost s q → q.ts = [th] → q.on = [th] →
    q.k.narrow f.d 1 = false → q.k.bars ≤ (q.barNo f th).toNat → traps (.barq f) f s q th 1)

/-- R345: a CLABORT by a thread whose operations have settled, of a gang that has not exited, starts the abort of the
current instance, with status 2, where it names that; the thread goes on to PC + length. (Of a context that is not bound to
its domain it has no effect, by R383: notes/assumptions/45.md.) -/
def Obligations.CollectiveAbortInstruction : Prop :=
  ∀ (f : Std) (s : State) (q : Iss) (th : Nat) (x : Thread), Issues (.clabort f) s q → NoLost s q → q.k.Grouped →
    q.on = [th] → s.thr q.b th = some x → x.settled = true → (∀ e ∈ s.gangs, e.2.st = .exited → q.b ∉ e.2.blocks) →
    let g := groupNo (q.k.src32 th (q.thr th) f.lit f.a)
    ∃ t, exec (.clabort f) s = .next t ∧ t.pc q.b th = some (pcAdd x.pc (Instr.clabort f).length) ∧
      (∀ u ∈ q.ts, u ≠ th → (s.thr q.b u).isSome = true → t.pc q.b u = some q.next) ∧
      t.dev.grps = (if s.isBound q.k.ctx = true ∧ (s.grpOr q.k.ctx g).cur = q.k.src32 th (q.thr th) f.lit f.b
        then s.startAbort (s.ctx q.k.ctx).ldom g 2 else s).dev.grps

/-! ## Tiles -/

/-- R287, R302: PRSV takes a free slot for a good record, which is RESERVED, or READY where it lies in scratchpad; PREL
releases one, which is FREE at once where no loop names it. -/
def Obligations.Reservations : Prop :=
  (∀ f : Std, ∀ s q th, s.Inv → Issues (.prsv f) s q → NoLost s q → q.on = [th] →
    let n := (q.slotNo f th).toNat
    n ≤ 7 → (q.k.rsvOf n).st = .free → recordBad s q.b q.k (q.record f th) = false →
    ∃ t k, exec (.prsv f) s = .next t ∧ Goes s t q (fun _ => q.next) ∧ t.blk q.b = some k ∧
      (k.rsvOf n).ws = (List.range 4).map (fun i => q.k.regWord th (q.thr th) f.b i) ∧
      (k.rsvOf n).st = (if (q.record f th).scratch then .ready else .reserved) ∧
      (k.rsvOf n).fp = 0 ∧ (k.rsvOf n).sfp = 0 ∧ (k.rsvOf n).mfp = 0 ∧ ∀ m, m ≠ n → k.rsvOf m = q.k.rsvOf m) ∧
  (∀ f : Std, ∀ s q th, s.Inv → Issues (.prel f) s q → NoLost s q → q.on = [th] →
    let n := (q.slotNo f th).toNat
    slotGone q.k n = false →
    ∃ t k, exec (.prel f) s = .next t ∧ Goes s t q (fun _ => q.next) ∧ t.blk q.b = some k ∧
      (s.slotNamed q.b n = false → k.rsvOf n = {}) ∧
      (s.slotNamed q.b n = true → k.rsvOf n = { q.k.rsvOf n with st := .released }) ∧ ∀ m, m ≠ n → k.rsvOf m = q.k.rsvOf m)

/-- R291, R305: MXZERO leaves its bank held by the block with every element +0; with `.rel` a bank that the block held is
FREE, and another's is as it was. -/
def Obligations.BankZero : Prop :=
  ∀ (f : Std) (s : State) (q : Iss) (th : Nat), Issues (.mxzero f) s q → q.on = [th] →
    let n := f.func.toNat % 2
    let old := (s.core q.k.core).bankOf n
    bankReady q s = true →
    ∃ t, exec (.mxzero f) s = .next t ∧ Goes s t q (fun _ => q.next) ∧
      (t.core q.k.core).bankOf n =
        (if f.func.getLsbD 1 then (if old.owner = some q.b then {} else old) else { owner := some q.b }) ∧
      (t.core q.k.core).bankOf (1 - n) = (s.core q.k.core).bankOf (1 - n)

/-- R293: an MXLOOP that meets no fault queues its loop, last of its core, claims the bank and counts it in the block. -/
def Obligations.LoopQueued : Prop :=
  ∀ (f : MxLoopForm) (s : State) (q : Iss) (th : Nat), s.Inv → Issues (.mxloop f) s q → q.on = [th] →
    s.bankTaken q.k q.b f.bank.toNat = false → (s.core q.k.core).loops.length < 4 →
    loopFault f q.k q.b (q.params f th) s = none →
    ∃ t k, exec (.mxloop f) s = .next t ∧ Goes s t q (fun _ => q.next) ∧ t.blk q.b = some k ∧ k.loops = q.k.loops + 1 ∧
      (t.core q.k.core).loops =
        (s.core q.k.core).loops ++ [{ blk := q.b, f := f, pg := q.params f th, id := q.k.loops }] ∧
      ((t.core q.k.core).bankOf f.bank.toNat).owner = some q.b ∧
      ∀ m, k.rsvOf m = (if (m = f.rb.toNat ∨ (f.ab = false ∧ m = f.ra.toNat)) ∧ (q.k.rsvOf m).st = .ready
        then { q.k.rsvOf m with st := .inUse } else q.k.rsvOf m)

/-- R290, R294: a tile fault of the one actor is the tile trap with the lowest detail that applies, in a ripple of one
thread. -/
def Obligations.TileFaults : Prop :=
  (∀ f : Std, ∀ s q th, Issues (.prsv f) s q → NoLost s q → q.ts = [th] → q.on = [th] →
    let n := (q.slotNo f th).toNat
    ∀ d, (if n > 7 ∨ (q.k.rsvOf n).st ≠ .free then some 2
      else if recordBad s q.b q.k (q.record f th) then some 3 else none) = some d →
    ∃ t, exec (.prsv f) s = .next t ∧ t.thr q.b th = ((clearLong q s).trap q.b th 10 d (q.slotNo f th) q.pc).thr q.b th) ∧
  (∀ f : Std, ∀ s q th, Issues (.prel f) s q → NoLost s q → q.ts = [th] → q.on = [th] →
    slotGone q.k (q.slotNo f th).toNat = true →
    ∃ t, exec (.prel f) s = .next t ∧ t.thr q.b th = ((clearLong q s).trap q.b th 10 2 (q.slotNo f th) q.pc).thr q.b th) ∧
  (∀ f : MxLoopForm, ∀ s q th d, Issues (.mxloop f) s q → q.ts = [th] → q.on = [th] →
    s.bankTaken q.k q.b f.bank.toNat = false → (s.core q.k.core).loops.length < 4 →
    loopFault f q.k q.b (q.params f th) s = some d →
    ∃ t, exec (.mxloop f) s = .next t ∧
      t.thr q.b th = ((clearLong q s).trap q.b th 10 d (loopCode f q.k d) q.pc).thr q.b th)

/-! ## Registers -/

/-- R63, R382: SWRT writes the low five bits of `sr.fflags`, the meeting register, or the low word of `sr.tfa` with its low
seven bits 0. -/
def Obligations.SpecialWrites : Prop :=
  ∀ (f : SForm) (s : State) (q : Iss) (th : Nat) (x : Thread), Issues (.swrt f) s q → NoLost s q → q.on = [th] →
    s.thr q.b th = some x →
    let w := q.k.src32 th (q.thr th) none f.a
    ∃ t x' k, exec (.swrt f) s = .next t ∧ Goes s t q (fun _ => q.next) ∧ t.thr q.b th = some x' ∧ t.blk q.b = some k ∧
      x'.fflags = (if srNum f.d = 13 then w.extractLsb' 0 5 else x.fflags) ∧
      x'.meet = (if srNum f.d = 12 then w else x.meet) ∧ x'.o = x.o ∧ x'.p = x.p ∧ k.v = q.k.v ∧
      k.tfa = (if srNum f.d = 18 then q.k.tfa.extractLsb' 32 32 ++ (w &&& ~~~127#32) else q.k.tfa)

/-- R64, R65, R273: OPREF and OPSAVE copy a run of registers for each guard-true thread, each read before any is written;
`SHAPE.g` makes a register G with the values of the block's threads unchanged; `SHAPE.chk` of a register that is not G
changes nothing but the PCs; BSRCLR clears the RFAIL bit where a thread's value asks for it. -/
def Obligations.RegisterMoves : Prop :=
  (∀ f : Std, ∀ s q, s.Inv → Issues (.opref f) s q →
    ∃ t, exec (.opref f) s = .next t ∧ Goes s t q (fun _ => q.next) ∧
      ∀ th ∈ q.on, ∀ x, s.thr q.b th = some x → ∀ j, j < ((runCount f).getD 0).toNat →
        t.reg q.b th (runSel f.d j) 0 = some (q.k.regWord th x f.a j)) ∧
  (∀ f : Std, ∀ s q, s.Inv → Issues (.opsave f) s q → q.k.narrow f.d ((runCount f).getD 0).toNat = false →
    ∃ t, exec (.opsave f) s = .next t ∧ Goes s t q (fun _ => q.next) ∧
      ∀ th ∈ q.on, ∀ x, s.thr q.b th = some x → ∀ j, j < ((runCount f).getD 0).toNat →
        t.reg q.b th (runSel f.d j) 0 = some (q.k.regWord th x f.a j)) ∧
  (∀ f : Std, f.func = 1 → ∀ s q, s.Inv → Issues (.shape f) s q → q.on ≠ [] → q.k.narrow f.d 1 = false →
    ∃ t k, exec (.shape f) s = .next t ∧ Goes s t q (fun _ => q.next) ∧ t.blk q.b = some k ∧
      (k.vreg (vNum f.d)).tag = 2 ∧ (∀ th, th < q.k.nthr → (k.vreg (vNum f.d)).at th = (q.k.vreg (vNum f.d)).at th) ∧
      ∀ m, m ≠ vNum f.d → k.vreg m = q.k.vreg m) ∧
  (∀ f : Std, f.func = 2 → ∀ s q, Issues (.shape f) s q → (q.k.vreg (vNum f.a)).tag ≠ 2 →
    ∃ t, exec (.shape f) s = .next t ∧ Goes s t q (fun _ => q.next) ∧ Keeps s t q) ∧
  (∀ f : Std, ∀ s q, Issues (.bsrclr f) s q → NoLost s q →
    ∃ t k, exec (.bsrclr f) s = .next t ∧ Goes s t q (fun _ => q.next) ∧ t.blk q.b = some k ∧
      k.rfail = (q.k.rfail && !q.on.any fun th => (q.k.src32 th (q.thr th) f.lit f.a).getLsbD 0) ∧
      k.v = q.k.v ∧ k.reln = q.k.reln)

/-! ## Events of threads -/

/-- R122, R171, R204, R272, R303, R344: each wait ends when its condition holds for every waiting thread, WAIT_END ending
whichever it is. EWAIT and CWAIT return 0 where the target is reached, else 1; CLWAIT the status word of its instance. -/
def Obligations.WaitsEnd : Prop :=
  Ends .hwaitEnd (fun _ _ _ i => isHwait i) ∧ Ends .barrierWaitEnd barWaits ∧ Ends .ewaitEnd (fun _ _ _ i => isEwait i) ∧
  Ends .cwaitEnd (fun _ _ _ i => isCwait i) ∧ Ends .mxwaitEnd (fun _ _ _ i => isMxwait i) ∧
  Ends .clwaitEnd (fun _ _ _ i => isClwait i) ∧
  Ends .waitEnd (fun s b r i => isHwait i || barWaits s b r i || isEwait i || isCwait i || isMxwait i || isClwait i) ∧
  (∀ f : Std, EndsWith .ewaitEnd f (.ewait f) fun s b _ _ x => if chainReached s b (.ewait f) x.wtok then 0 else 1) ∧
  (∀ f : Std, EndsWith .cwaitEnd f (.cwait f) fun s b _ _ x => if chainReached s b (.cwait f) x.wtok then 0 else 1) ∧
  ∀ f : Std, EndsWith .clwaitEnd f (.clwait f) fun s _ k _ x =>
    (clStatus s k.ctx (clwaitOf x).1 x.wtok).getD 2

/-- R129, R141, R159, R160, R203, R345: the events that befall a thread. Threads HELD at a value are released when every
live thread with that value is HELD or WAITING; a thread at an EXIT exits, an arrival is counted, a CLABORT takes effect
when the thread's operations have settled; a failed operation is the failure trap, once its frame is written, and its gang
is killed where the frame cannot be; a fetch that parks stalls its ripple. (That a failure trap waits while the frame's
writes lack a tag is the model's reading, notes/assumptions/9.md; that a CLABORT of a context not bound to its domain has no
effect, notes/assumptions/45.md.) -/
def Obligations.ThreadEvents : Prop :=
  (∀ b v s k, s.blk b = some k → k.Grouped →
    (∃ th x, Tab.find k.thr th = some x ∧ x.st = .held ∧ x.meet = v) →
    (∀ th x, Tab.find k.thr th = some x → x.meet = v → x.st = .held ∨ x.st = .waiting ∨ x.st = .exited) →
    ∃ t, exec (.meetingRelease b v) s = .next t ∧ ∀ th x, Tab.find k.thr th = some x → ∃ x', t.thr b th = some x' ∧
      x' = if x.meet = v ∧ x.st = .held then { x with st := .running, rest := x'.rest } else x) ∧
  (∀ b th s k r n rp f x, s.blk b = some k → k.ripOf th = some (r, n, rp) → rp.busy = some (.exit f) →
    Tab.find k.thr th = some x → x.win = [] → x.st = .running →
    ∃ t, exec (.exitComplete b th) s = .next t ∧ (t.thr b th).all (fun x => x.st = .exited) = true ∧
      ((∃ u ∈ k.live, u ≠ th) → k.Grouped → ∃ x', t.thr b th = some x' ∧ x'.st = .exited)) ∧
  (∀ b th s k r n rp i f x, s.Inv → s.blk b = some k → k.ripOf th = some (r, n, rp) → rp.busy = some i →
    (i = .bara f ∨ i = .bars f) → Tab.find k.thr th = some x → x.st = .running → x.arr = false →
    guardHolds (instrGuard i) x.p = true → arrivalDue b th i s = true → let m := x.wbar.toNat
    ∃ t k', exec (.barrierArrive b th) s = .next t ∧ t.blk b = some k' ∧ k'.barOf m = (k.barOf m).arrive th ∧
      ∀ j, j ≠ m → k'.barOf j = k.barOf j) ∧
  (∀ b th s k r n rp i x, s.blk b = some k → k.ripOf th = some (r, n, rp) → rp.busy = some i → Tab.find k.thr th = some x →
    guardHolds (instrGuard i) x.p = false → exec (.barrierArrive b th) s = .next s) ∧
  (∀ b th s k r n rp f x g, s.blk b = some k → k.ripOf th = some (r, n, rp) → rp.busy = some (.clabort f) →
    Tab.find k.thr th = some x → x.st = .running → x.arr = false → x.win = [] → g = groupNo (k.src32 th x f.lit f.a) →
    ∃ t, exec (.clabortStart b th) s = .next t ∧
      t.dev.grps = (if s.isBound k.ctx = true ∧ (s.grpOr k.ctx g).cur = k.src32 th x f.lit f.b then s.startAbort (s.ctx k.ctx).ldom g 2
        else s).dev.grps) ∧
  (∀ b th s k x o os g, s.Inv → s.blk b = some k → Tab.find k.thr th = some x → x.win = o :: os → o.st = .failed →
    x.st = .running → k.tvec ≠ 0 → x.handler = false → s.isReplay k.gang = false →
    Tab.find s.gangs k.gang = some g → b ∈ g.blocks →
    let w := writeFrame s k b th x 1 0 0 (k.stallPc th x)
    ∃ t, exec (.failureTrap b th) s = .next t ∧
      (∀ s1, w = .ok s1 → ∃ x', t.thr b th = some x' ∧ x'.handler = true ∧ x'.win = [] ∧
        x'.pc = pcAdd k.entry k.tvec.toNat ∧ x'.tnext = x.tnext ∧ x'.hz = x.tnext) ∧
      (w = .error .failed → t.blk b = none) ∧ (w = .error .waits → t = s)) ∧
  ∀ b r s k rp x c g, s.blk b = some k → Tab.find k.rip r = some rp →
    (rp.threads.head?.bind fun t => Tab.find k.thr t) = some x → mayFetch s b k rp = true →
    fetchBlock s k.core k.ctx (blockAddr x.pc) = .park c g →
    ∃ t, exec (.fetchFault b r) s = .next t ∧ ∀ k', t.blk b = some k' → k'.thr = k.thr ∧
      Tab.find k'.rip r = some { rp with stall := some (c, g) }

/-- R18, R155, R156, R158, R160, R191, R193, R226, R270, R307, R341: the events of an operation in its thread's window, and
what a prefetch and a clock of a core change. A held operation is performed when it is its thread's oldest unsettled one,
after the thread's fences have done what they can: a store, a drain or an atomic of local pages leaves its bytes where its
translations place them and every other byte of HBM as it was (in a replay a store writes nothing, R359), and one of a peer's
page is sent to its owner; an AGDEF
records its entry, and asks the same of the mask's other ranks; an ENQ writes its slot. A load of a local page of which the
core holds no copy settles with the bytes of HBM in its registers, and one whose pieces are performed with theirs. An
operation of which nothing has begun and that would park is PARKED, and one whose checks or parts fail is FAILED, with the
cause. (That an AGDEF of a context not bound to its domain leaves its own entry as it was is the model's reading,
notes/assumptions/45.md; so is the address that a parked part leaves, notes/assumptions/20.md.) -/
def Obligations.OperationEvents : Prop :=
  let going (s : State) (b th tk : Nat) (k : Block) (x : Thread) (o : Op) : Prop :=
    let s0 := s.fenceStep b th
    s0.opAt b th (BitVec.ofNat 16 tk) = some (k, x, o) ∧ o.st = .outstanding ∧ mayGo s0 b th k x o = true ∧ o.plan = [] ∧
      o.parts = []
  let judged (s : State) (b th : Nat) (k : Block) (o : Op) (ps : List (Nat × DWord × Nat × Option Trans)) : Prop :=
    let s0 := s.fenceStep b th
    ∃ qs s1, judgedPieces qs = ps ∧ ((∃ f, o.insn = .mxdrain f ∧ drainJudge s0 k th o f = (.ok qs, s1)) ∨
      ∃ a, accOf o.insn = some a ∧ judge s0 k.core k.ctx (k.laneOf th) { a with gang := some k.gang } o.addr = (.ok qs, s1))
  let stored (s : State) (k : Block) (o : Op) (p : Nat × DWord × Nat × Option Trans) : List Byte :=
    match o.insn with
    | .mxdrain f => s.drainBytes k.core o f p.1 p.2.2.1
    | _ => (o.data.drop p.1).take p.2.2.1
  let local_ (s : State) (k : Block) (p : Nat × DWord × Nat × Option Trans) : Prop :=
    (∃ tr, p.2.2.2 = some tr ∧ tr.att.loc = 0) ∧ (s.moveOf k.ctx (pageNo p.2.1)).all (fun e => e.2.ph = .pass) = true
  let place (p : Nat × DWord × Nat × Option Trans) : Nat := (p.2.2.2.map fun tr => tr.key p.2.1).getD 0
  (∀ b th tk s k x o ps, going s b th tk k x o → x.hz = o.tk → (∃ f, o.insn = .st f ∨ o.insn = .mxdrain f) →
    judged s b th k o ps → (∀ p ∈ ps, local_ s k p) →
    ∃ t k' x' o', exec (.heldOperationPerform b th tk) s = .next t ∧ t.opAt b th (BitVec.ofNat 16 tk) = some (k', x', o') ∧
      o'.perf = true ∧ o'.allDone = true ∧
      t.hbm = (if s.isReplay k.gang = true then s.hbm
        else ps.foldl (fun m p => Memory.write m (place p) (stored s k o p)) s.hbm) ∧
      ∀ tr, s.Inv → s.isReplay k.gang = false → ps = [(0, o.addr, o.data.length, some tr)] → (∃ f, o.insn = .st f) →
        Memory.read t.hbm (tr.key o.addr) o.data.length = o.data ∧
        ∀ c, ¬ (tr.key o.addr ≤ c ∧ c < tr.key o.addr + o.data.length) → Memory.byte t.hbm c = Memory.byte s.hbm c) ∧
  (∀ b th tk s k x o f tr, s.Inv → going s b th tk k x o → x.hz = o.tk → o.insn = .atom f ∨ o.insn = .red f →
    let n := atomBytes f.ty
    let a := tr.key o.addr
    judged s b th k o [(0, o.addr, n, some tr)] → local_ s k (0, o.addr, n, some tr) → s.latentIn a n = none →
    let old := Memory.read s.hbm a n
    ∃ t k' x' o', exec (.heldOperationPerform b th tk) s = .next t ∧ t.opAt b th (BitVec.ofNat 16 tk) = some (k', x', o') ∧
      o'.perf = true ∧ o'.allDone = true ∧ o'.bytes = old ∧
      t.hbm = Memory.write s.hbm a (atomNew f.size f.ty old o.data) ∧
      ((atomNew f.size f.ty old o.data).length = n → Memory.read t.hbm a n = atomNew f.size f.ty old o.data ∧
        ∀ c, ¬ (a ≤ c ∧ c < a + n) → Memory.byte t.hbm c = Memory.byte s.hbm c)) ∧
  (∀ b th tk s k x o p ps tr e, going s b th tk k x o → x.hz = o.tk → s.isReplay k.gang = false →
    (∃ f, o.insn = .st f ∨ o.insn = .mxdrain f ∨ o.insn = .atom f ∨ o.insn = .red f) →
    judged s b th k o (p :: ps) → (∀ r ∈ ps, pageNo r.2.1 = pageNo p.2.1) → p.2.2.2 = some tr → tr.att.loc = 1 →
    let dst := ownerOf s (s.ctx k.ctx).ldom tr.att.peer (pageNo p.2.1)
    (∀ h ∈ s.dev.holds, ¬ (h.ldom = (s.ctx k.ctx).ldom ∧ h.page = pageNo p.2.1)) → s.firstRoute dst = some e → s.HasTags 1 →
    ∃ t q, exec (.heldOperationPerform b th tk) s = .next t ∧ .req dst e.1 q ∈ t.out ∧ q.addr = p.2.1 ∧ t.hbm = s.hbm ∧
      (∀ f, o.insn = .st f ∨ o.insn = .mxdrain f → q.kind = .store ∧ q.data = stored s k o p) ∧
      (∀ f, o.insn = .atom f ∨ o.insn = .red f → q.data = o.data ∧ q.aop = f.size ∧ q.ty = f.ty ∧
        q.kind = if o.insn = .atom f then .atom else .red)) ∧
  (∀ b th tk s k x o f tr, s.Inv → going s b th tk k x o → o.insn = .ld f → let n := 2 ^ f.size
    let a := tr.key o.addr
    judged s b th k o [(0, o.addr, n, some tr)] → tr.att.loc = 0 → s.latentIn a n = none → s.latentIn (lineBase a) 128 = none →
    (∀ l ∈ (s.core k.core).l1, ¬ (l.ctx = k.ctx ∧ l.loc = 0 ∧ l.addr = lineBase a)) → k.narrow o.dest (sizeRegs f.size) = false →
    ∃ t, exec (.operationSettle b th tk) s = .next t ∧ t.hbm = s.hbm ∧
      (o.dest.isReg = true → ∀ j, j < sizeRegs f.size →
        t.reg b th o.dest j = some (wordAt (loadWords f.size f.ty (Memory.read s.hbm a n)) j)) ∧
      ∀ k' x' o', t.opAt b th (BitVec.ofNat 16 tk) = some (k', x', o') → o'.st = .settled) ∧
  (∀ b th tk s k x o f, let s0 := s.fenceStep b th
    s0.opAt b th (BitVec.ofNat 16 tk) = some (k, x, o) → o.insn = .agdef f → o.st = .outstanding →
    o.perf = false → x.hz = o.tk → mayGo s0 b th k x o = true → agdefBad s0 k o = false → s0.HasTags 64 →
    let others := (ranksOf (dwordAt o.aux 0)).filter (· ≠ s.dev.rank)
    ∃ t k' x' o', exec (.heldOperationPerform b th tk) s = .next t ∧ t.opAt b th (BitVec.ofNat 16 tk) = some (k', x', o') ∧
      o'.perf = true ∧ o'.parts.map Part.key = others ∧
      (∀ r ∈ others, ∀ e, s0.firstRoute r = some e → ∃ q, .req r e.1 q ∈ t.out ∧ q.kind = .agdef ∧ q.addr = o.addr) ∧
      t.agEntry (s.ctx k.ctx).ldom f.agn.toNat = if s0.isBound k.ctx then
        (if f.del then none else some { ldom := (s.ctx k.ctx).ldom, agn := f.agn.toNat, base := o.addr, mask := dwordAt o.aux 0 })
        else s.agEntry (s.ctx k.ctx).ldom f.agn.toNat) ∧
  (∀ b th tk s k x o f ps s1, let s0 := s.fenceStep b th
    s0.opAt b th (BitVec.ofNat 16 tk) = some (k, x, o) → o.insn = .enq f → o.st = .outstanding →
    x.hz = o.tk → mayGo s0 b th k x o = true → enqRoom k f.engine.toNat = true →
    enqJudge s0 k th f.engine.toNat = (.ok ps, s1) → s0.HasTags 64 →
    let a := k.slotAddr f.engine.toNat (k.chainOf f.engine.toNat).nq.toNat
    ∃ t k' x' o', exec (.enqSlotWrite b th tk) s = .next t ∧ t.opAt b th (BitVec.ofNat 16 tk) = some (k', x', o') ∧
      o'.perf = true ∧ o'.addr = o.addr ∧
      ∀ tr, s.Inv → judgedPieces ps = [(0, a, 64, some tr)] → tr.att.loc = 0 → s.moveOf k.ctx (pageNo a) = none →
        o.data.length = 64 → Memory.read t.hbm (tr.key a) 64 = o.data) ∧
  (∀ b th tk s k x o f, s.Inv → s.opAt b th (BitVec.ofNat 16 tk) = some (k, x, o) → o.insn = .ld f →
    o.st = .outstanding → o.allDone = true → o.parts.any (·.quiet) = false → k.narrow o.dest (sizeRegs f.size) = false →
    ∃ t, exec (.operationSettle b th tk) s = .next t ∧
      (o.dest.isReg = true → ∀ j, j < sizeRegs f.size →
        t.reg b th o.dest j = some (wordAt (loadWords f.size f.ty o.bytes) j)) ∧
      ∀ k' x' o', t.opAt b th (BitVec.ofNat 16 tk) = some (k', x', o') → o'.st = .settled) ∧
  (∀ b th tk s k x o c g a s1, s.opAt b th (BitVec.ofNat 16 tk) = some (k, x, o) → o.st = .outstanding → o.fresh = true →
    retryBlocked s th k x o = false → opJudge s th k x o = (.park c g a, s1) →
    ∃ t, exec (.operationPark b th tk) s = .next t ∧ ∀ k' x' o', t.opAt b th (BitVec.ofNat 16 tk) = some (k', x', o') →
      o'.st = .parked ∧ o'.cause = c ∧ o'.paddr = a ∧ o'.parts = []) ∧
  (∀ b th tk s k x o c, s.opAt b th (BitVec.ofNat 16 tk) = some (k, x, o) → o.st = .outstanding →
    failCause s th k x o = some c →
    ∃ t, exec (.operationFail b th tk) s = .next t ∧ ∀ k' x' o', t.opAt b th (BitVec.ofNat 16 tk) = some (k', x', o') →
      o'.st = .failed ∧ o'.cause = c) ∧
  (∀ core ctx addr kind s, s.Inv → core < 192 → (s.ctx ctx).st = .active →
    ∃ t, exec (.runAheadAccess core ctx addr kind) s = .next t ∧ t.blocks = s.blocks ∧ t.cxl = s.cxl ∧
      (∀ a, a < poisonBase → Memory.byte t.hbm a = Memory.byte s.hbm a) ∧
      ∀ tr s1 bs s2, kind = .code → lookup s core ctx none addr 1 = (.ok tr, s1) →
        (tr.att.loc ≠ 0 ∨ s1.latentIn (tr.frame + (blockAddr addr).toNat % 65536) 32 = none) →
        fetchBlock s1 core ctx (blockAddr addr) = .bytes bs s2 → (ctx, blockAddr addr, bs) ∈ (t.core core).icache) ∧
  ∀ core s, core < 192 → ∃ t, exec (.cycleCounterTick core) s = .next t ∧
    (t.core core).clock = (s.core core).clock + 1 ∧ (∀ c, c ≠ core → t.core c = s.core c) ∧ t = { s with cores := t.cores }

/-! ## Events of queues, gangs and engines -/

/-- R41, R258, R260, R261, R276, R280: the events of a host queue and of its nodes. A TAIL write is stored and starts a
queue that runs, or is ERR 4; a queue enables, or is ERR 6; a fetched entry is accepted, or is ERR 1, 2 or 3; a node with
nothing left to do leaves the pool with its completion record; an entry that is not read in time, or a completion record
that is not written in time, is ERR 5. (That a TAIL write to an ENABLED queue of a context that does not run gives STALLED,
and that a completion record which stays unconsumed may be ERR 5, is the model's reading, notes/assumptions/46.md; that an
accepted entry drops the context's code from every instruction cache, notes/assumptions/47.md.) -/
def Obligations.QueueEvents : Prop :=
  (∀ vf q v s, q < 4 → let x := s.queue vf q
    ∃ t, exec (.tailWrite vf q v) s = .next t ∧
      (x.st = .disabled ∨ x.st = .error ∨ x.st = .draining → t.queue vf q = { x with tail := v }) ∧
      (x.st = .enabled → seqGe v x.cons = true → (v - x.cons).toNat ≤ 2 ^ x.qk → v ≠ x.cons →
        t.queue vf q = { x with tail := v, st := if (s.ctx vf).runs then .running else .stalled }) ∧
      (x.st = .enabled ∨ x.st = .running ∨ x.st = .stalled → seqGe v x.cons = true → (v - x.cons).toNat > 2 ^ x.qk →
        t.queue vf q = { x with tail := v, st := .error, err := 4 }) ∧
      (x.st = .enabled ∨ x.st = .running ∨ x.st = .stalled → seqGe v x.cons = false → t = s)) ∧
  (∀ vf q s, q < 4 → (s.ctx vf).st = .active → let x := s.queue vf q
    x.st = .disabled →
    let ok := 4 ≤ x.qk ∧ x.qk ≤ 16 ∧ 4 ≤ x.ck ∧ x.ck ≤ 16 ∧ x.qbase.toNat % 128 = 0 ∧ x.cbase.toNat % 128 = 0
    ∃ t, exec (.queueEnable vf q) s = .next t ∧
      (ok → x.tail = x.cons → t.queue vf q = { x with enable := true, st := .enabled }) ∧
      (¬ ok → t.queue vf q = { x with enable := true, st := .error, err := 6 })) ∧
  (∀ vf q s, let x := s.queue vf q
    s.openNodes vf q = [] → x.wait = [] →
    (x.st = .error → ∃ t, exec (.queueDisable vf q) s = .next t ∧
      t.queue vf q = { x with enable := false, st := .disabled, err := 0, drain := false }) ∧
    (x.st = .enabled ∨ x.st = .running ∨ x.st = .stalled → ∃ t, exec (.queueDrain vf q) s = .next t ∧
      t.queue vf q = { x with enable := false, st := .disabled, drain := false })) ∧
  (∀ vf q s, let x := s.queue vf q
    s.openNodes vf q ≠ [] ∨ x.wait ≠ [] → x.st = .enabled ∨ x.st = .running ∨ x.st = .stalled →
    ∃ t, exec (.queueDrain vf q) s = .next t ∧ t.queue vf q = { x with st := .draining, drain := true }) ∧
  (∀ vf q v s, q < 4 → ∃ t, exec (.cconsWrite vf q v) s = .next t ∧ (t.queue vf q).ccons = v) ∧
  (∀ vf q ws s, q < 4 → let x := s.queue vf q
    x.st = .running → (s.ctx vf).runs = true → x.cons ≠ x.tail → s.nodes.length < 4096 → s.hostUp = true →
    let es := (List.range 32).map (wordAt ws)
    let bad := recBad (s.ctx vf) ((s.part (s.ctx vf).part).clusters ≠ 0) es
    let code (n : Nat) (t : State) : Prop := t.queue vf q = { x with st := .error, err := n }
    ∃ t, exec (.entryFetch vf q ws) s = .next t ∧
      (wordAt ws 1 ≠ x.cons + 1 → code 1 t) ∧
      (wordAt ws 1 = x.cons + 1 → recType es ≠ 1 → recType es ≠ 2 → code 2 t) ∧
      (wordAt ws 1 = x.cons + 1 → recType es = 1 ∨ recType es = 2 → bad = true → code 3 t) ∧
      (wordAt ws 1 = x.cons + 1 → recType es = 1 ∨ recType es = 2 → bad = false →
        (t.queue vf q).cons = x.cons + 1 ∧ ∀ c, ∀ e ∈ (t.core c).icache, e.1 ≠ vf)) ∧
  (∀ vf q s, let x := s.queue vf q
    (x.st = .running ∧ (s.ctx vf).runs = true ∧ x.cons ≠ x.tail ∧ s.nodes.length < 4096) ∨
      ((x.st = .enabled ∨ x.st = .running ∨ x.st = .stalled) ∧ x.comp ≠ x.ccons) →
    ∃ t, exec (.ringAccessTimeout vf q) s = .next t ∧ t.queue vf q = { x with st := .error, err := 5 }) ∧
  ∀ node s n, Tab.risingFrom 0 s.nodes = true → Tab.find s.nodes node = some n → s.nodeOver node n = true →
    (s.ctx n.ctx).records = true →
    let x := s.queue n.ctx n.q
    ∃ t, exec (.nodeComplete node) s = .next t ∧ Tab.find t.nodes node = none ∧
      (x.wait = [] → x.room = true → s.hostUp = true →
        .hostWrite (x.cbase + BitVec.ofNat 64 (32 * ((x.comp + 1).toNat % 2 ^ x.ck))) (wordBytes (doneWords
          (if n.failed || n.chainBad then 3 else if n.reln > 0 then 2 else 1) n.seq (x.comp + 1) n.reln)) ∈ t.out)

/-- R51, R133, R265, R267, R268, R275, R279, R292, R295, R354: the events of gangs, engine chains and sequencers. A gang
that the placer selects starts, each block on its core with its threads at E, or is restored; a STOPPING gang whose blocks
are quiet is saved; a chain reads its next slot in its turn and, with all bytes there, starts the command, or is in ERROR,
or parks; a copy piece that is done counts, one that is unanswered puts its chain in ERROR, one that would park parks; a
step of a loop starts, and at its end the bank holds its sums. -/
def Obligations.EngineEvents : Prop :=
  (∀ cores s key n j cs, Tab.risingFrom 0 s.nodes = true → s.selection cores = some (key, n, .fresh j, cs) →
    ∃ t g k, exec (.gangPlace cores) s = .next t ∧ Tab.find s.gangs g = none ∧ Tab.find t.gangs g = some k ∧
      k.st = .running ∧ k.node = key ∧ k.gidx = j ∧ k.blocks.length = cs.length ∧
      (Tab.find t.nodes key).map Node.next = some (n.next + 1) ∧
      ∀ i b, k.blocks[i]? = some b → s.blk b = none ∧ ∃ kb, t.blk b = some kb ∧ kb.gblk = i ∧ cs[i]? = some kb.core ∧
        kb.gang = g ∧ kb.nthr = recNthr n.ws ∧ ∀ th, th < recNthr n.ws → t.pc b th = some (dwordAt n.ws 2)) ∧
  (∀ cores s key n g k r cs ps, s.selection cores = some (key, n, .restore g k r, cs) → Tab.find s.gangs g = some k →
    savePlaces s (s.ctx k.ctx) ((s.ctx k.ctx).savb.toNat + r.off) r.len = some ps →
    (∀ p ∈ ps, s.poisonedIn p.1 p.2.2 = false ∧ s.latentIn p.1 p.2.2 = none) →
    ∃ t g', exec (.gangPlace cores) s = .next t ∧ Tab.find t.gangs g = some g' ∧ g'.st = .running ∧ g'.saved = none) ∧
  (∀ g s k off, s.Inv → Tab.find s.gangs g = some k → k.st = .stopping →
    (∀ b ∈ k.blocks, ∀ kb, s.blk b = some kb → s.blockQuiet b kb = true) →
    let ks := k.blocks.filterMap fun b => (s.blk b).map fun x => (b, x)
    let bs := wordBytes (s.gangRecord k ks)
    saveRoom (s.savedSpans k.ctx) (4096 * (s.ctx k.ctx).savn.toNat) bs.length = some off →
    (savePlaces s (s.ctx k.ctx) ((s.ctx k.ctx).savb.toNat + off) bs.length).isSome = true →
    ∃ t g', exec (.gangSave g) s = .next t ∧ Tab.find t.gangs g = some g' ∧ g'.st = .preempted ∧
      (g'.saved.any fun r => r.off = off && r.blocks = ks.map Prod.snd) = true ∧ ∀ b ∈ k.blocks, t.blk b = none) ∧
  (let starts (t : State) (b e : Nat) (k : Block) (c : Chain) (ws : List Word) : Prop := ∀ k', t.blk b = some k' →
      (cmdErr k e ws = none → (k'.chainOf e).head = c.head + 1 ∧
        (e = 3 ∨ (e < 2 ∧ cmdLen ws ≠ 0) → (k'.chainOf e).cmd.map Cmd.ws = some ws) ∧
        ((e < 2 ∧ cmdLen ws = 0) ∨ (e = 2 ∧ wordAt ws 2 = 0) → (k'.chainOf e).eseq = c.eseq + 1)) ∧
      ∀ n, cmdErr k e ws = some n → (k'.chainOf e).err = n
   ∀ b e s k, s.blk b = some k → s.slotDue k e = true → let c := k.chainOf e
    (c.got ≠ [] → (∀ q ∈ c.got, q.done = some 0) →
      ∃ t, exec (.chainSlotRead b e) s = .next t ∧ starts t b e k c (bytesWords 16 (c.got.flatMap Part.data))) ∧
    (c.got = [] → s.chainTurn b k e = true →
      let j := judge s k.core k.ctx none { size := 64, rd := true, poison := true, gang := some k.gang }
        (k.slotAddr e c.head.toNat)
      (∀ ps s1 got s2, j = (.ok ps, s1) → s1.readParts k.ctx ps (fun key => .slot b e key) = .ok (some (got, s2)) →
        (∀ q ∈ got, q.done = some 0) →
        ∃ t, exec (.chainSlotRead b e) s = .next t ∧ starts t b e k c (bytesWords 16 (got.flatMap Part.data))) ∧
      (∀ pc g a s1, j = (.park pc g a, s1) → ∃ t, exec (.chainSlotRead b e) s = .next t ∧
        ∀ k', t.blk b = some k' → (k'.chainOf e).park = some (pc, g)) ∧
      ∀ n s1, j = (.fail n, s1) → ∃ t, exec (.chainSlotRead b e) s = .next t ∧
        ∀ k', t.blk b = some k' → (k'.chainOf e).err = 3 ∧ (k'.chainOf e).cause = n)) ∧
  (∀ b e off s k c m p, s.Inv → s.pieceOf b e off = some (k, c, m, p) → e < 2 → p.st = .flying → p.wr = true → c.err = 0 →
    (∀ x ∈ p.parts, x.done = some 0) →
    let m' := m.putPiece { p with st := .done, parts := [], data := [] }
    ∃ t, exec (.copyPieceDone b e off) s = .next t ∧ ∀ k', t.blk b = some k' →
      (k'.chainOf e).wp = m.base + BitVec.ofNat 32 m'.prefix_ ∧
      (if m'.prefix_ = cmdLen m.ws then (k'.chainOf e).eseq = c.eseq + 1 ∧ (k'.chainOf e).cmd = none
        else (k'.chainOf e).eseq = c.eseq ∧ (k'.chainOf e).cmd = some m') ∧
      (cmdBv m.ws = true → k'.barOf (cmdBar m.ws) = (k.barOf (cmdBar m.ws)).deliver p.len)) ∧
  (∀ b e off s k c m p pc g a s1, s.pieceOf b e off = some (k, c, m, p) →
    p.st = .ready ∨ (p.readDone = true ∧ e ≠ 3) → c.err = 0 → judgePiece s e k m p = (.park pc g a, s1) →
    ∃ t, exec (.copyPiecePark b e off) s = .next t ∧ ∀ k', t.blk b = some k' →
      ∃ m', (k'.chainOf e).cmd = some m' ∧ ∃ p' ∈ m'.pieces, p'.off = p.off ∧ p'.st = .parked ∧ p'.cause = pc ∧ p'.addr = a) ∧
  (∀ b e off s k c m p, s.pieceOf b e off = some (k, c, m, p) → e < 2 → p.st = .flying → c.err = 0 →
    (∃ x ∈ p.parts, x.done = none) →
    ∃ t, exec (.copyPieceStallTimeout b e off) s = .next t ∧ ∀ k', t.blk b = some k' →
      (k'.chainOf e).err = 3 ∧ (k'.chainOf e).cause = 5) ∧
  (∀ core s l, (∀ x ∈ (s.core core).loops, x.running = false) → nextLoop s (s.core core).loops = some l →
    ∃ t, exec (.matrixStepStart core) s = .next t ∧ { l with running := true } ∈ (t.core core).loops) ∧
  ∀ core s l k, (s.core core).loops.find? (fun l => l.running) = some l → s.blk l.blk = some k →
    let n := l.f.bank.toNat
    ∃ t, exec (.matrixStepEnd core) s = .next t ∧
      (l.steps + 1 < mxSteps l.f → { l with running := false, steps := l.steps + 1 } ∈ (t.core core).loops) ∧
      (mxSteps l.f ≤ l.steps + 1 → (t.core core).loops = (s.core core).loops.erase l) ∧
      (l.steps + 1 < mxSteps l.f ∨ l.f.dr = false →
        (t.core core).bankOf n = runStep s k l ((s.core core).bankOf n))

/-! ## Events of the fabric -/

/-- R237, R248, R253 to R256, R366, R367, R383: requests and answers. A request performed before is answered from its
record; one of a domain with no bound context is refused with status 7; a load or a store of a page in local HBM is
performed and answered; one that is under way here joins it. The first answer settles its part, and every answer is
acknowledged; an unanswered request is resent on its next route, or fails with cause 5; a residency request fails for no
answer but those of rows 2 to 5 of R185, and waits for a route; a port's completion settles its part. -/
def Obligations.FabricRequests : Prop :=
  (∀ r s a, s.dev.performed.find? (fun a => a.src = r.src && a.tag = r.tag) = some a →
    ∃ t, exec (.remoteRequest r) s = .next t ∧ .resp r.src { a with src := s.dev.rank } ∈ t.out ∧
      t = { s with out := t.out }) ∧
  (∀ r s, s.dev.performed.find? (fun a => a.src = r.src && a.tag = r.tag) = none → s.underWay r.src r.tag = true →
    exec (.remoteRequest r) s = .next s) ∧
  (∀ r s, s.dev.performed.find? (fun a => a.src = r.src && a.tag = r.tag) = none → s.underWay r.src r.tag = false →
    r.src ≠ s.dev.rank → r.hops = 0 → r.kind = .load ∨ r.kind = .store →
    (s.boundCtx r.ldom = none → ∃ t, exec (.remoteRequest r) s = .next t ∧
      .resp r.src { src := s.dev.rank, tag := r.tag, status := 7, unbound := true } ∈ t.out ∧ t = { s with out := t.out }) ∧
    ∀ cn tr, s.Inv → s.boundCtx r.ldom = some cn → s.stub r.ldom (pageNo r.addr) = none →
      walk s cn r.addr (reqAcc r).size = .ok tr → tr.att.loc = 0 → ownerChecks s (reqAcc r) tr r.addr true = none →
      r.counted = false → s.moveOf cn (pageNo r.addr) = none →
      let a := tr.frame + r.addr.toNat % 65536
      (r.kind = .load → s.latentIn a r.size = none → ∃ t, exec (.remoteRequest r) s = .next t ∧ t = { s with out := t.out } ∧
        .resp r.src { src := s.dev.rank, tag := r.tag, status := 0, data := Memory.read s.hbm a r.size } ∈ t.out) ∧
      (r.kind = .store → ∃ t, exec (.remoteRequest r) s = .next t ∧ Memory.read t.hbm a r.data.length = r.data ∧
        (∀ c, ¬ (a ≤ c ∧ c < a + r.data.length) → Memory.byte t.hbm c = Memory.byte s.hbm c) ∧
        { src := r.src, tag := r.tag, status := 0 } ∈ t.dev.performed ∧
        .resp r.src { src := s.dev.rank, tag := r.tag, status := 0 } ∈ t.out)) ∧
  (∀ dst r s, ∃ t, exec (.requestRelay dst r) s = .next t ∧ t = { s with out := t.out } ∧
    t.out = if s.hopUp s.dev.rank dst then s.out ++ [.relay dst r] else s.out) ∧
  (∀ r s, ∃ t, exec (.remoteResponse r) s = .next t ∧ .ack r.src r.tag ∈ t.out ∧
    (∀ p, Tab.find s.dev.reqs r.tag = some p → let vain := p.req.kind = .pgreq ∧ r.status ∉ [0, 1, 2, 4, 13]
      (¬ vain → Answered s t r.tag (if r.unbound = true then { p with qf := false } else p) r.status) ∧
      (vain → r.owner = none → Tab.find t.dev.reqs r.tag = some { p with held := true, tried := [] })) ∧
    (Tab.find s.dev.reqs r.tag = none →
      t = (s.modDev fun d => { d with dead := d.dead.erase r.tag }).say (.ack r.src r.tag))) ∧
  (∀ src tag s, ∃ t, exec (.responseAck src tag) s = .next t ∧
    ∀ a, a ∈ t.dev.performed ↔ a ∈ s.dev.performed ∧ ¬ (a.src = src ∧ a.tag = tag)) ∧
  (∀ tag s p, Tab.find s.dev.reqs tag = some p → p.dst ≠ s.dev.rank → p.held = false → p.port = none →
    ∃ t, exec (.responseTimeout tag) s = .next t ∧
      (∀ e, s.nextRoute p.dst p.route p.mid p.tried = some e → .req p.dst e.1 p.req ∈ t.out ∧
        Tab.find t.dev.reqs tag = some
          { p with route := e.1, via := e.2.1, mid := if e.1 = 2 then e.2.1 else p.mid, tried := p.tried ++ [e.1] }) ∧
      (s.nextRoute p.dst p.route p.mid p.tried = none → (p.req.kind ≠ .pgreq → Answered s t tag p 5) ∧
        (p.req.kind = .pgreq → Tab.find t.dev.reqs tag = some { p with held := true, tried := [] }))) ∧
  (∀ tag status data s p loc, Tab.find s.dev.reqs tag = some p → p.port = some loc →
    (status ≠ 0 → ∃ t, exec (.portCompletion tag status data) s = .next t ∧
      Answered s t tag p (if status = 3 ∨ status = 5 then status else 7)) ∧
    (status = 0 → kindWrites p.req.kind = false →
      (if loc = 3 then s.cxlBad (if p.readBytes = 128 then lineBase p.place else p.place) p.readBytes = false
        else data.length = p.readBytes) →
      ∃ t, exec (.portCompletion tag status data) s = .next t ∧ Answered s t tag p 0) ∧
    (status = 0 → p.req.kind = .store → ∃ t, exec (.portCompletion tag status data) s = .next t ∧ Answered s t tag p 0 ∧
      (loc = 3 → s.Inv → Memory.read t.cxl p.place p.req.data.length = p.req.data ∧
        ∀ c, ¬ (p.place ≤ c ∧ c < p.place + p.req.data.length) → Memory.byte t.cxl c = Memory.byte s.cxl c)))

/-- R249 to R252: the life of a link and what is broadcast of it: training, UP with the peer's pair and its exchange taken,
DEGRADED, QUARANTINED after a miswire or three failed retrains or by software, DOWN; ENABLE written 0 takes it DOWN, and
written 1 after that it clears a quarantine; a pair is entered as soon as it is received; a later change number is applied
and passed on, an earlier one is not. (That ENABLE written 1 is stored and does no more at a link that QUAR has quarantined
since ENABLE was written 0, the PRANK that trainings and retrains without eight lanes leave, and that a capability broadcast
is passed on only where it changes the table, are the model's choices: notes/assumptions/75.md.) -/
def Obligations.LinkEvents : Prop :=
  LinkTurns .linkSignalDetect (fun _ _ l => l.st = .down ∧ l.enable = true)
    (fun l => { l with st := .training, retry := false }) ∧
  LinkTurns .linkRetryTimer (fun _ _ l => l.st = .down ∧ l.enable = true ∧ l.retry = true)
    (fun l => { l with st := .training, retry := false }) ∧
  LinkTurns .linkTrainingTimeout (fun _ _ l => l.st = .training) (fun l => { l with st := .down, retry := true }) ∧
  LinkTurns .linkDegrade (fun _ _ l => l.st = .up) (fun l => { l with st := .degraded }) ∧
  LinkTurns .linkSignalLost (fun _ _ l => l.st = .training ∨ l.st = .up ∨ l.st = .degraded)
    (fun l => { l with st := .down }) ∧
  LinkTurns .linkQuarantine (fun _ _ _ => True)
    (fun l => { l with st := .quarantined, cause := 3, quar := true, retry := false }) ∧
  LinkTurns (.linkEnable · false) (fun _ _ _ => True) (fun l => { l with st := .down, enable := false, retry := false }) ∧
  LinkTurns (.linkEnable · true) (fun _ _ l => l.enable = false ∧ l.st ≠ .quarantined)
    (fun l => { l with enable := true, cause := 0, quar := false, fails := 0 }) ∧
  LinkTurns (.linkEnable · true) (fun _ _ l => l.enable = false ∧ l.st = .quarantined) (fun l => { l with enable := true }) ∧
  LinkTurns (.linkEnable · true) (fun _ _ l => l.enable = true) id ∧
  (∀ lanes prank rev caps ex, lanes < 8 →
    LinkTurns (.linkTrainingDone · lanes prank (rev, caps) ex) (fun _ _ l => l.st = .training)
      (fun l => { l with st := .down, lanes := lanes, prank := BitVec.ofNat 6 prank, retry := true })) ∧
  (∀ lanes prank rev caps ex, 8 ≤ lanes → LinkTurns (.linkTrainingDone · lanes prank (rev, caps) ex)
    (fun s j l => l.st = .training ∧ (BitVec.ofNat 6 prank).toNat = linkPeer s.dev.rank j)
    (fun l => { l with st := .up, cause := 0, lanes := 8, prank := BitVec.ofNat 6 prank, fails := 0 })) ∧
  (∀ lanes prank rev caps ex, 8 ≤ lanes → LinkTurns (.linkTrainingDone · lanes prank (rev, caps) ex)
    (fun s j l => l.st = .training ∧ (BitVec.ofNat 6 prank).toNat ≠ linkPeer s.dev.rank j)
    (fun l => { l with st := .quarantined, cause := 1, lanes := 8, prank := BitVec.ofNat 6 prank })) ∧
  (∀ lanes prank rev caps ex, 8 ≤ lanes → LinkTurns (.linkRetrainDone · lanes prank (rev, caps) ex)
    (fun _ _ l => l.st = .degraded ∧ BitVec.ofNat 6 prank = l.prank)
    (fun l => { l with st := .up, cause := 0, lanes := 8, fails := 0, retr := min 255 (l.retr + 1) })) ∧
  (∀ lanes prank rev caps ex, LinkTurns (.linkRetrainDone · lanes prank (rev, caps) ex)
    (fun _ _ l => l.st = .degraded ∧ (lanes < 8 ∨ BitVec.ofNat 6 prank ≠ l.prank) ∧ 2 ≤ l.fails)
    (fun l => { l with st := .quarantined, cause := 2, fails := 0, lanes := min 8 lanes, retr := min 255 (l.retr + 1) })) ∧
  (∀ lanes prank rev caps ex, LinkTurns (.linkRetrainDone · lanes prank (rev, caps) ex)
    (fun _ _ l => l.st = .degraded ∧ (lanes < 8 ∨ BitVec.ofNat 6 prank ≠ l.prank) ∧ l.fails < 2)
    (fun l => { l with fails := l.fails + 1, lanes := min 8 lanes, retr := min 255 (l.retr + 1) })) ∧
  (∀ j lanes prank rev caps ex s, j < 18 → 4 ≤ s.dev.stage → (BitVec.ofNat 6 prank).toNat ≠ s.dev.rank →
    ((s.dev.link j).st = .training → ∃ t, exec (.linkTrainingDone j lanes prank (rev, caps) ex) s = .next t ∧
      Tab.find t.dev.peers (BitVec.ofNat 6 prank).toNat = some (rev, caps)) ∧
    ((s.dev.link j).st = .degraded → ∃ t, exec (.linkRetrainDone j lanes prank (rev, caps) ex) s = .next t ∧
      Tab.find t.dev.peers (BitVec.ofNat 6 prank).toNat = some (rev, caps))) ∧
  (∀ j lanes prank rev caps ex s, j < 18 → 4 ≤ s.dev.stage → 8 ≤ lanes → (s.dev.link j).st = .training →
    ∃ t, exec (.linkTrainingDone j lanes prank (rev, caps) ex) s = .next t ∧
      ((BitVec.ofNat 6 prank).toNat = linkPeer s.dev.rank j →
        .caps s.dev.rank s.dev.rev s.dev.caps ∈ t.out ∧
        (∃ mine, .exchange j mine ∈ t.out ∧ mine.pairs = s.dev.peers ∧
          Tab.find mine.map (18 * s.dev.rank + j) =
            some (.up, (Tab.get (.down, 0) s.dev.map (18 * s.dev.rank + j)).2 + 1)) ∧
        (∀ r rv cp, ex = { pairs := [(r, rv, cp)] } → r < 64 → r ≠ s.dev.rank → r ≠ (BitVec.ofNat 6 prank).toNat →
          Tab.find t.dev.peers r = some (rv, cp)) ∧
        ∀ key st chg, ex = { map := [(key, st, chg)] } → key / 18 ≠ s.dev.rank → key < 1152 →
          let d := chg - (Tab.get (.down, 0) s.dev.map key).2
          d ≠ 0 → d.toNat < 2 ^ 15 → Tab.get (.down, 0) t.dev.map key = (st, chg))) ∧
  (∀ j s, exec (.flitReplay j) s = .next s) ∧
  (∀ j s, j < 18 → 4 ≤ s.dev.stage → ∃ t, exec (.linkQuarantine j) s = .next t ∧
    (t.pfRead (0x1000 + 16 * j + 4)).getLsbD 1 = true) ∧
  (∀ owner j st chg s, owner ≠ s.dev.rank → owner < 64 → j < 18 →
    let d := chg - (Tab.get (.down, 0) s.dev.map (18 * owner + j)).2
    ∃ t, exec (.linkStateBroadcast owner j st chg) s = .next t ∧
      (d ≠ 0 → d.toNat < 2 ^ 15 → Tab.get (.down, 0) t.dev.map (18 * owner + j) = (st, chg) ∧
        .linkState owner j st chg ∈ t.out) ∧
      (d = 0 ∨ 2 ^ 15 ≤ d.toNat → t = s)) ∧
  ∀ rank rev caps s, rank ≠ s.dev.rank → rank < 64 → ∃ t, exec (.capabilityBroadcast rank rev caps) s = .next t ∧
    Tab.find t.dev.peers rank = some (rev, caps) ∧
    (Tab.find s.dev.peers rank ≠ some (rev, caps) → .caps rank rev caps ∈ t.out) ∧
    (Tab.find s.dev.peers rank = some (rev, caps) → t = s)

/-! ## Events of moving pages -/

/-- R231 to R241, R244, R351: the life of a move. The first queued request that need not wait starts with a frame, or is
refused; its passes follow one another to the final phase, the install and the flip, or it aborts; the destination writes its
entry and records the arrival, or refuses, or waits until no access is under way under the old translation; a redirect
records the owner and holds later requests; a stub sends its sharers invalidations and is gone when all have
acknowledged. (Status 9 for a page without an entry, that install and flip wait for accesses under way, that a move within
the device takes its frame from the ring of the bound context, and the MODE and MH that an entry keeps are the model's
reading, notes/assumptions/42.md; status 9 for a page whose old frame stage 2 does not place, and that the engine's 32 moves
are 16 of each half, notes/assumptions/74.md.) -/
def Obligations.MoveEvents : Prop :=
  (∀ skip frame s,
    let first := s.dev.mqueue.zipIdx.find? fun e => !s.engineFull e.1.page && !s.moveWaits e.1 (skip.contains e.2)
    (first = none → exec (.moveStart { skip := skip, frame := frame }) s = .next s) ∧
    ∀ r n, first = some (r, n) →
      let q := s.dev.mqueue.eraseIdx n
      let refused (s' : State) (status loc : Nat) : Prop := exec (.moveStart { skip := skip, frame := frame }) s =
        .next ((s'.modDev fun d => { d with mqueue := q }).refuseMove r status loc)
      let starts (a : Att) (pe : List Word) (new : Nat) (cs : Tab Ctx) : Prop :=
        ∃ t, exec (.moveStart { skip := skip, frame := frame }) s = .next t ∧ t.dev.mqueue = q ∧ t.ctxs = cs ∧
          Tab.find t.dev.moves (Tab.freeFrom s.dev.moves 0) =
            some { r := r, loc := a.loc, old := peFrame pe, new := new }
      (entryOf s r.ctx r.page = none → refused s 9 0) ∧
      ∀ a pe at_, entryOf s r.ctx r.page = some (a, pe, at_) →
        ((s.moveOf r.ctx r.page).isSome = true → refused s 6 a.loc) ∧
        (s.moveOf r.ctx r.page = none →
          (moveAllowed s.dev.rank a.loc r.rank r.tier = false ∨ framePlace s r.ctx a.loc (peFrame pe) = none →
            refused s 9 a.loc) ∧
          (moveAllowed s.dev.rank a.loc r.rank r.tier = true → (framePlace s r.ctx a.loc (peFrame pe)).isSome = true →
            (r.rank ≠ s.dev.rank → ∀ new, frame = some new → starts a pe new s.ctxs) ∧
            (r.rank ≠ s.dev.rank → frame = none → refused s 5 a.loc) ∧
            (r.rank = s.dev.rank → s.boundCtx r.ldom = none → refused s 5 a.loc) ∧
            ∀ cn, r.rank = s.dev.rank → s.boundCtx r.ldom = some cn →
              (∀ new s1, s.takeFrame cn r.tier = (some new, s1) → starts a pe new s1.ctxs) ∧
              ∀ s1, s.takeFrame cn r.tier = (none, s1) → refused s1 5 a.loc))) ∧
  (∀ m s v, Tab.risingFrom 0 s.dev.moves = true → Tab.find s.dev.moves m = some v →
    (v.lost = true → ∃ t, exec (.copyPassEnd m) s = .next t ∧ Dropped s t m v) ∧
    (v.lost = false → v.ph ≠ .install → v.todo ≠ 0 ∨ s.moveBusy m v = true → exec (.copyPassEnd m) s = .next s) ∧
    (v.lost = false → v.todo = 0 → s.moveBusy m v = false →
      (v.ph = .pass → ∃ t, exec (.copyPassEnd m) s = .next t ∧ Tab.find t.dev.moves m = some
        (if v.dirty ≠ 0 ∧ v.passes < 3 then { v with passes := v.passes + 1, todo := v.dirty, dirty := 0 }
          else { v with ph := .final, todo := v.dirty, dirty := 0 })) ∧
      (v.ph = .final → v.r.rank = s.dev.rank →
        (s.pageBusy v.r.ctx v.r.page = true → exec (.copyPassEnd m) s = .next s) ∧
        (s.pageBusy v.r.ctx v.r.page = false → ∃ t, exec (.copyPassEnd m) s = .next t ∧ Flipped s t m v)) ∧
      (v.ph = .final → v.r.rank ≠ s.dev.rank → s.HasTags 1 →
        ∀ a pe at_, entryOf s v.r.ctx v.r.page = some (a, pe, at_) →
        (∀ e, s.firstRoute v.r.rank = some e → ∃ t tag, exec (.copyPassEnd m) s = .next t ∧
          Tab.find t.dev.moves m = some { v with ph := .install } ∧
          (Tab.find t.dev.reqs tag).map Pend.who = some (.move m 64) ∧
          .req v.r.rank e.1 { installReq s v a with tag := tag, rev := s.revOf v.r.rank } ∈ t.out) ∧
        (s.firstRoute v.r.rank = none → ∃ t, exec (.copyPassEnd m) s = .next t ∧ Dropped s t m v)) ∧
      (v.ph = .final → v.r.rank ≠ s.dev.rank → entryOf s v.r.ctx v.r.page = none →
        ∃ t, exec (.copyPassEnd m) s = .next t ∧ Dropped s t m v)) ∧
    (v.lost = false → v.ph = .install →
      (v.ack = none → exec (.copyPassEnd m) s = .next s) ∧
      (v.ack = some 0 → s.pageBusy v.r.ctx v.r.page = true → exec (.copyPassEnd m) s = .next s) ∧
      (v.ack = some 0 → s.pageBusy v.r.ctx v.r.page = false → ∃ t, exec (.copyPassEnd m) s = .next t ∧ Flipped s t m v) ∧
      ∀ c, v.ack = some (c + 1) → ∃ t, exec (.copyPassEnd m) s = .next t ∧ Dropped s t m v) ∧
    (v.ph = .pass ∨ v.held = [] ∨ v.ack = some 0 → exec (.holdLimitExpiry m) s = .next s) ∧
    (v.ph ≠ .pass → v.held ≠ [] → v.ack ≠ some 0 →
      ∃ t, exec (.holdLimitExpiry m) s = .next t ∧ Dropped s t m v) ∧
    (v.ph ≠ .install ∨ v.ack.isSome = true → ∀ status, exec (.installAck m status) s = .next s) ∧
    (v.ph = .install → v.ack = none →
      (∀ c, ∃ t, exec (.installAck m (c + 1)) s = .next t ∧ Dropped s t m v) ∧
      (s.pageBusy v.r.ctx v.r.page = true → ∃ t, exec (.installAck m 0) s = .next t ∧
        Tab.find t.dev.moves m = some { v with ack := some 0 }) ∧
      (s.pageBusy v.r.ctx v.r.page = false → ∃ t, exec (.installAck m 0) s = .next t ∧ Flipped s t m v))) ∧
  (∀ src tag ldom page frame att ranks s, src ≠ s.dev.rank → (∀ x ∈ ranks, x < 256) →
    (∀ x, s.dev.performed.find? (fun x => x.src = src && x.tag = tag) = some x →
      exec (.install { src := src, tag := tag } ldom page frame att ranks) s =
        .next (s.say (.resp src { x with src := s.dev.rank }))) ∧
    (s.dev.performed.find? (fun x => x.src = src && x.tag = tag) = none → let n := pageNo page
    let freed := s.modDev fun d =>
      { d with slots := d.slots.filter fun x => !(x.src = src && x.ldom = ldom && x.page = n) }
    (s.boundCtx ldom = none ∨ (∃ cn, s.boundCtx ldom = some cn ∧ entryOf s cn n = none) ∨ (s.stub ldom n).isSome = true ∨
        freed.stubsFull n = true →
      exec (.install { src := src, tag := tag } ldom page frame att ranks) s =
        .next (freed.say (.resp src { src := s.dev.rank, tag := tag, status := 7 }))) ∧
    ∀ cn a pe at_, s.boundCtx ldom = some cn → entryOf s cn n = some (a, pe, at_) → s.stub ldom n = none →
      freed.stubsFull n = false →
      (s.pageBusy cn n = true → exec (.install { src := src, tag := tag } ldom page frame att ranks) s = .next s) ∧
      (s.pageBusy cn n = false → let b := attOf (BitVec.ofNat 32 att)
        ∃ t, exec (.install { src := src, tag := tag } ldom page frame att ranks) s = .next t ∧ t.Swept cn n ∧
          .resp src { src := s.dev.rank, tag := tag, status := 0 } ∈ t.out ∧
          { src := src, tag := tag, status := 0 } ∈ t.dev.performed ∧
          { ldom := ldom, page := n, ranks := ranks } ∈ t.dev.arrivals ∧
          (∀ x ∈ t.dev.slots, ¬ (x.src = src ∧ x.ldom = ldom ∧ x.page = n)) ∧
          (s.Inv → Memory.read t.hbm at_ 4 = wordBytes [attWord
            { loc := 0, peer := 0, mode := if a.mode = 3 then 3 else 0, mh := a.mh, hm := false, qf := b.qf
              ord := b.ord, rd := b.rd, wr := b.wr, ex := b.ex, ht := b.ht }])))) ∧
  (∀ ldom page owner s, let n := pageNo page
    let mine (p : Pend) : Prop := p.held = false ∧ p.seq < s.dev.nextSeq ∧ p.forPage ldom n s.dev.rank = true
    ∃ t, exec (.redirect ldom page owner) s = .next t ∧
      ((s.ownerRoom n (s.dev.owners.filter fun e => !(e.ldom = ldom && e.page = n))).isSome = true →
        { ldom := ldom, page := n, owner := owner } ∈ t.dev.owners) ∧
      ((∀ h ∈ s.dev.holds, ¬ (h.ldom = ldom ∧ h.page = n)) →
        ((∃ e ∈ s.dev.reqs, mine e.2) → { ldom := ldom, page := n, seq := s.dev.nextSeq } ∈ t.dev.holds) ∧
        ((∀ e ∈ s.dev.reqs, ¬ mine e.2) → ∀ h ∈ t.dev.holds, ¬ (h.ldom = ldom ∧ h.page = n)))) ∧
  (∀ src tag ldom page s, src ≠ s.dev.rank → s.dev.performed.find? (fun x => x.src = src && x.tag = tag) = none →
    let resp : Msg := .resp src { src := s.dev.rank, tag := tag, status := 0 }
    ((∀ x, s.stub ldom (pageNo page) = some x → x.reclaiming = true) →
      exec (.entriesUpdated src tag ldom page) s = .next ((s.modDev fun d =>
        { d with performed := { src := src, tag := tag, status := 0 } :: d.performed }).say resp)) ∧
    ∀ x, s.stub ldom (pageNo page) = some x → x.reclaiming = false →
      ∃ t, exec (.entriesUpdated src tag ldom page) s = .next t ∧ resp ∈ t.out ∧
        (∀ r ∈ ranksOf x.mask, .invalidate r ldom (pageNo page) ∈ t.out) ∧
        t.stub ldom (pageNo page) = if x.mask = 0 then none else some { x with reclaiming := true, left := x.mask }) ∧
  (∀ src ldom page s, let n := pageNo page
    let busy := ∃ e ∈ s.dev.reqs, e.2.held = false ∧ e.2.seq < s.dev.nextSeq ∧ e.2.dst = src ∧
      e.2.forPage ldom n s.dev.rank = true
    ∃ t, exec (.ownerCacheInvalidate src ldom page) s = .next t ∧
      (∀ e ∈ t.dev.owners, ¬ (e.ldom = ldom ∧ e.page = n)) ∧
      (busy → (src, ldom, n, s.dev.nextSeq) ∈ t.dev.acks) ∧ (¬ busy → .invalidateAck src ldom n ∈ t.out)) ∧
  (∀ src ldom page s x, s.stub ldom (pageNo page) = some x → let left := x.left &&& ~~~BitVec.twoPow 64 src
    ∃ t, exec (.invalidateAck src ldom page) s = .next t ∧
      (x.reclaiming = true → left = 0 → t.stub ldom (pageNo page) = none ∧
        .stubGone x.target s.dev.rank ldom (pageNo page) ∈ t.out) ∧
      (x.reclaiming = false ∨ left ≠ 0 → t.stub ldom (pageNo page) = some { x with left := left })) ∧
  (∀ src ldom page s, ∃ t, exec (.stubGone src ldom page) s = .next t ∧
    (∀ x, s.stub ldom (pageNo page) = some x → t = s.say (.stubGone x.target src ldom (pageNo page))) ∧
    (s.stub ldom (pageNo page) = none →
      ∀ y ∈ t.dev.arrivals, y.ldom = ldom → y.page = pageNo page → src ∉ y.ranks)) ∧
  ∀ src ldom s, Tab.risingFrom 0 s.dev.moves = true → ∃ t, exec (.memberResetNotice src ldom) s = .next t ∧
    (∀ e ∈ t.dev.moves, ¬ (e.2.r.ldom = ldom ∧ e.2.r.rank = src)) ∧
    (∀ e ∈ t.dev.owners, ¬ (e.ldom = ldom ∧ e.owner = src)) ∧
    (∀ x ∈ t.dev.slots, ¬ (x.src = src ∧ x.ldom = ldom)) ∧
    (∀ x ∈ t.dev.stubs, x.ldom = ldom → x.mask.getLsbD src = false) ∧
    ∀ g r, s.grp ldom g = some r → r.st = .armed ∨ r.st = .running → r.members.contains src = true → Aborts s t ldom g

/-! ## Events of collectives -/

/-- R334 to R339, R341: the life of a collective instance. An address group is recorded at its members; an armed group
whose members have all sent matching notices runs; a fire contributes its chunk, once, and is accepted when the queue of its
home's reducer has taken it; a reducer takes the commands of its stack in order, holds contributions until all have come, and
then combines them; a member writes its result lines and is DONE with the last; what aborts an instance, and how its abort
ends. (How an abort spreads, the stack of a chunk and what the spec leaves open beside them are the model's choices,
notes/assumptions/14.md; that a reducer command whose home lacks the capability is refused with status 7, and that fires of
a context not bound to its domain wait, are its reading, notes/assumptions/45.md.) -/
def Obligations.CollectiveEvents : Prop :=
  (∀ src tag ldom agn del base mask s, src ≠ s.dev.rank → agn < 256 →
    s.dev.performed.find? (fun x => x.src = src && x.tag = tag) = none →
    ∃ t, exec (.addressGroupDefine src tag ldom agn del base mask) s = .next t ∧
      ((s.boundCtx ldom).isSome = true → .resp src { src := s.dev.rank, tag := tag, status := 0 } ∈ t.out ∧
        t.agEntry ldom agn = if del then none else some { ldom := ldom, agn := agn, base := base, mask := mask }) ∧
      (s.boundCtx ldom = none → .resp src { src := s.dev.rank, tag := tag, status := 1 } ∈ t.out ∧ t.dev = s.dev)) ∧
  (∀ src ldom grp n check s r, (s.boundCtx ldom).isSome = true → s.grp ldom grp = some r → seqGe n r.cur = true →
    (∃ t r', exec (.armingNotice src ldom grp n check) s = .next t ∧ t.grp ldom grp = some r' ∧
      (src, n, check) ∈ r'.notices) ∧
    (r.st = .armed → n = r.cur → r.members.contains src = true →
      (check = descCheck r.desc → (∀ x ∈ r.notices, x.2.1 = r.cur → x.2.2 = descCheck r.desc) →
        (∀ m ∈ r.members, m = s.dev.rank ∨ m = src ∨ ∃ x ∈ r.notices, x.1 = m ∧ seqGe x.2.1 r.cur = true) →
        ∃ t r', exec (.armingNotice src ldom grp n check) s = .next t ∧ t.grp ldom grp = some r' ∧ r'.st = .running ∧
          r'.cur = r.cur) ∧
      (check ≠ descCheck r.desc → ∃ t, exec (.armingNotice src ldom grp n check) s = .next t ∧ Aborts s t ldom grp))) ∧
  (∀ k s f, s.dev.fires[k]? = some f → s.isBound f.ctx = false → exec (.chunkFire k) s = .next s) ∧
  (∀ k s f r, s.dev.fires[k]? = some f → s.isBound f.ctx = true → s.grp (s.ctx f.ctx).ldom f.grp = some r →
    (r.st = .aborting → ∃ t, exec (.chunkFire k) s = .next t ∧ f ∉ t.dev.fires) ∧
    (r.st = .running → f.sent = true → exec (.chunkFire k) s = .next s) ∧
    (r.st = .running → f.sent = false →
      (descCount r.desc ≤ f.chunk → ∃ t, exec (.chunkFire k) s = .next t ∧ Aborts s t r.ldom r.grp) ∧
      (f.chunk < descCount r.desc → r.fired.contains f.chunk = true → exec (.chunkFire k) s = .next s) ∧
      (f.chunk < descCount r.desc → r.fired.contains f.chunk = false →
        let n := descChunk r.desc * elemSize (descIfmt r.desc)
        let a := dwordAt r.desc 4 + BitVec.ofNat 64 (f.chunk * n)
        let home := r.members.getD (f.chunk % r.members.length) 0
        let j := judge s 0 f.ctx none { size := n, rd := true, poison := true } a
        (∀ c s1, j = (.fail c, s1) → ∃ t, exec (.chunkFire k) s = .next t ∧ Aborts s t r.ldom r.grp) ∧
        ∀ ps s1 bs s2, j = (.ok ps, s1) → latentAt s ps = none → gread s f.ctx a n false = (.ok bs, s2) →
          (home ≠ s.dev.rank → s.firstRoute home = none →
            ∃ t, exec (.chunkFire k) s = .next t ∧ Aborts s t r.ldom r.grp) ∧
          (∀ e, home ≠ s.dev.rank → s.firstRoute home = some e → s.HasTags 1 →
            ∃ t tag r', exec (.chunkFire k) s = .next t ∧ t.grp r.ldom r.grp = some r' ∧ f.chunk ∈ r'.fired ∧
              { f with sent := true } ∈ t.dev.fires ∧
              (Tab.find t.dev.reqs tag).map Pend.who = some (.fire f.ctx f.grp f.chunk f.by_) ∧
              .req home e.1 { reducerReq s.dev.rank tag r.ldom r.grp r.cur f.chunk bs with rev := s.revOf home } ∈ t.out) ∧
          (home = s.dev.rank → let st := s2.stackOf r f.chunk
            let room := (s2.dev.cmdq.filter fun c => c.stack = st).length < 4096
            (¬ room → exec (.chunkFire k) s = .next s) ∧
            (room → ∃ t r', exec (.chunkFire k) s = .next t ∧ t.grp r.ldom r.grp = some r' ∧ f.chunk ∈ r'.fired ∧
              (f.n ≤ 1 → t.dev.fires.count f < s.dev.fires.count f) ∧
              { stack := st, src := home, ldom := r.ldom, grp := r.grp, n := r.cur, chunk := f.chunk, data := bs }
                ∈ t.dev.cmdq))))) ∧
  (∀ a s p f, Tab.find s.dev.reqs a.tag = some p → p.who = .fire f.ctx f.grp f.chunk f.by_ → s.dev.fires = [f] →
    f.sent = true → f.n ≤ 1 → a.status = 0 → ∃ t, exec (.remoteResponse a) s = .next t ∧ t.dev.fires = []) ∧
  (∀ src tag ldom grp n chunk data s, src ≠ s.dev.rank → grp < 2048 →
    s.dev.performed.find? (fun a => a.src = src && a.tag = tag) = none →
    let resp (status : Nat) : Msg := .resp src { src := s.dev.rank, tag := tag, status := status }
    let lacks (r : Grp) : Prop := (descOp r.desc = 3 ∧ s.dev.caps.getLsbD 7 = false) ∨
      (descOp r.desc = 4 ∧ s.dev.caps.getLsbD 8 = false)
    (s.boundCtx ldom = none ∨ s.dev.caps.getLsbD 6 = false ∨ (∃ r, s.grp ldom grp = some r ∧ lacks r) →
      exec (.reducerCommand { src := src, tag := tag } ldom grp n chunk data) s = .next (s.say (resp 7))) ∧
    ((s.boundCtx ldom).isSome = true → s.dev.caps.getLsbD 6 = true → ∀ r, s.grp ldom grp = some r → ¬ lacks r →
      let goes := r.cur = n ∧ (r.st = .armed ∨ r.st = .running)
      let st := s.stackOf r chunk
      let room := (s.dev.cmdq.filter fun c => c.stack = st).length < 4096
      (goes → ¬ room → exec (.reducerCommand { src := src, tag := tag } ldom grp n chunk data) s = .next s) ∧
      (¬ goes ∨ room → ∃ t, exec (.reducerCommand { src := src, tag := tag } ldom grp n chunk data) s = .next t ∧ resp 0 ∈ t.out ∧
        { src := src, tag := tag, status := 0 } ∈ t.dev.performed ∧
        (¬ goes → t.dev.cmdq = s.dev.cmdq) ∧
        (goes → t.dev.cmdq = s.dev.cmdq ++
          [{ stack := st, src := src, ldom := ldom, grp := grp, n := n, chunk := chunk, data := data }])))) ∧
  (∀ st s rest c r, s.agenda = .reduce st :: rest → s.dev.cmdq.find? (fun c => c.stack = st) = some c →
    s.grp c.ldom c.grp = some r → r.cur = c.n → r.st = .armed ∨ r.st = .running → r.members.contains c.src = true →
    let held := ((s.dev.contribs.find? fun x => x.ldom = c.ldom && x.grp = c.grp && x.n = c.n && x.chunk = c.chunk).map
      Contrib.xs).getD []
    let xs := if held.any (fun x => x.1 = c.src) then held else held ++ [(c.src, c.data)]
    ∃ t, step s = .next t ∧ t.dev.cmdq = s.dev.cmdq.erase c ∧
      ((∃ m ∈ r.members, ∀ y ∈ xs, y.1 ≠ m) → ∃ x ∈ t.dev.contribs, x.at_ c.ldom c.grp c.n c.chunk ∧ x.xs = xs) ∧
      ∀ all, r.members.mapM (fun m => (xs.find? fun x => x.1 = m).map Prod.snd) = some all →
        (∀ x ∈ t.dev.contribs, ¬ x.at_ c.ldom c.grp c.n c.chunk) ∧
        ∃ y ∈ t.dev.results, y.ldom = c.ldom ∧ y.grp = c.grp ∧ y.n = c.n ∧ y.chunk = c.chunk ∧
          y.data = combineChunk r.desc s.dev.rank c.n c.chunk all) ∧
  (∀ r s cn x tr, s.Inv → r.kind = .result → r.src ≠ s.dev.rank → r.hops = 0 →
    s.dev.performed.find? (fun a => a.src = r.src && a.tag = r.tag) = none → s.underWay r.src r.tag = false →
    s.boundCtx r.ldom = some cn →
    let g := r.arg % 2048
    let c := r.arg / 2048
    let n := r.data.length
    s.grp r.ldom g = some x → x.cur.toNat = r.aop → x.st = .running → x.queued = none →
    let a := resultBase x.desc c + r.addr
    linePieces a n = [(0, a, n)] → walk s cn a n = .ok tr → tr.att.loc = 0 → s.moveOf cn (pageNo a) = none →
    ownerChecks s { size := n, wr := true } tr a true = none →
    let ws := if x.written.contains (c, r.addr.toNat, n) then x.written else (c, r.addr.toNat, n) :: x.written
    let full := ∀ c, c < descCount x.desc → descChunk x.desc * elemSize (descOfmt x.desc) ≤
      ((ws.filter fun w => w.1 = c).map fun w => w.2.2).sum
    ∃ t x', exec (.remoteRequest r) s = .next t ∧ Memory.read t.hbm (tr.frame + a.toNat % 65536) n = r.data ∧
      .resp r.src { src := s.dev.rank, tag := r.tag, status := 0 } ∈ t.out ∧ t.grp r.ldom g = some x' ∧ x'.written = ws ∧
      (full → x'.st = .done ∧ x'.out0 = 0) ∧ (¬ full → x'.st = .running)) ∧
  (∀ ldom grp chunk s r c, s.grp ldom grp = some r → r.st = .armed ∨ r.st = .running → c ∈ s.dev.contribs →
    c.at_ ldom grp r.cur chunk →
    ∃ t, exec (.memberLagTimeout ldom grp chunk) s = .next t ∧ Aborts s t ldom grp) ∧
  (∀ src ldom grp n status s r, s.grp ldom grp = some r →
    ∃ t, exec (.collectiveAbort src ldom grp n status) s = .next t ∧
      (r.cur = n → r.st = .armed ∨ r.st = .running → Aborts s t ldom grp) ∧
      (r.cur = n → r.st = .done ∨ r.st = .idle → r.posOf s.dev.rank ≠ 0 → t.grp ldom grp = some r ∧
        .abortAck src ldom grp n ∈ t.out ∧ ∀ k ∈ s.abortKids r, .abort k r.ldom r.grp n status ∈ t.out) ∧
      (r.cur ≠ n → t = s.say (.abortAck src ldom grp n))) ∧
  ∀ src ldom grp s r, s.grp ldom grp = some r → r.st = .aborting → r.queued = none → (∀ k ∈ r.kids, k = src) →
    ∃ t, exec (.collectiveAbortAck src ldom grp r.cur) s = .next t ∧
      t.grp ldom grp = some { r with kids := [], st := .idle, out0 := r.status, parent := none } ∧
      ∀ p, r.parent = some p → .abortAck p ldom grp r.cur ∈ t.out

/-! ## Events of contexts and partitions -/

/-- R3, R158, R243, R258, R264, R346 to R353, R360, R383, R384: the life of a context, of a partition and of a virtual
function, and writes to their registers. (That an activation takes the domain's binding from other contexts is the model's
reading, notes/assumptions/48.md; so is that an FQC or MEC write while records are unread sends the message again,
notes/assumptions/46.md.) -/
def Obligations.ContextEvents : Prop :=
  (∀ c s, c < 96 → s.dev.stage = 5 → (s.ctx c).st = .wiped →
    ∃ t, exec (.contextCreate c) s = .next t ∧ t.ctx c = { s.ctx c with st := .created }) ∧
  (∀ c s, (s.ctx c).st = .created → ∃ t, exec (.contextActivate c) s = .next t ∧
    (s.activateOk c = true →
      t.ctx c = { s.ctx c with st := .active, lake := (s.ctx c).lake || (s.ctx c).lakes s.dev.rank } ∧
      ((s.ctx c).lakes s.dev.rank = true → ∀ d, d ≠ c → (s.ctx d).ldom = (s.ctx c).ldom → (t.ctx d).lake = false)) ∧
    (s.activateOk c = false → t.ctx c = { s.ctx c with st := .faulted, fcause := 1 })) ∧
  (∀ c s, (s.ctx c).st = .active → (s.ctx c).pend = false →
    ∃ t, exec (.contextPreempt c) s = .next t ∧ (∀ e ∈ t.gangs, e.2.ctx = c → e.2.st ≠ .running) ∧
      (∀ e ∈ (t.ctx c).queues, e.2.st ≠ .running) ∧
      ((∀ e ∈ s.gangs, e.2.ctx = c → e.2.st ≠ .running ∧ e.2.st ≠ .stopping) →
        (t.ctx c).st = .preempted ∧ (t.ctx c).pend = false) ∧
      ((∃ e ∈ s.gangs, e.2.ctx = c ∧ (e.2.st = .running ∨ e.2.st = .stopping)) →
        (t.ctx c).st = .active ∧ (t.ctx c).pend = true)) ∧
  (∀ c s, s.dev.chkpt = none → (s.ctx c).st = .preempted ∨ ((s.ctx c).st = .active ∧ (s.ctx c).pend = true) →
    ∃ t, exec (.contextResume c) s = .next t ∧ (t.ctx c).st = .active ∧ (t.ctx c).pend = false) ∧
  (∀ c s, Tab.risingFrom 0 s.gangs = true → (s.ctx c).st ≠ .resetting → (s.ctx c).st ≠ .wiped →
    ∃ t, exec (.contextReset c) s = .next t ∧ (t.ctx c).st = .resetting ∧ (t.ctx c).queues = [] ∧
      (∀ e ∈ t.gangs, e.2.ctx ≠ c) ∧ (∀ e ∈ t.nodes, e.2.ctx ≠ c) ∧ (∀ g ∈ t.dev.grps, g.ctx ≠ c) ∧
      (t.ctx c).lake = false ∧ (∀ r ∈ ranksOf (s.ctx c).lmask, r ≠ s.dev.rank → .resetNotice r (s.ctx c).ldom ∈ t.out) ∧
      (∀ e ∈ t.dev.owners, e.ldom ≠ (s.ctx c).ldom) ∧
      ((s.ctx c).lake = true →
        (∀ e ∈ t.dev.stubs, e.ldom ≠ (s.ctx c).ldom) ∧ (∀ e ∈ t.dev.arrivals, e.ldom ≠ (s.ctx c).ldom) ∧
        (∀ e ∈ t.dev.holds, e.ldom ≠ (s.ctx c).ldom) ∧ ∀ e ∈ t.dev.ags, e.ldom ≠ (s.ctx c).ldom) ∧
      ∀ core, (∀ x ∈ (t.core core).tlb, x.ctx ≠ c) ∧ ∀ x ∈ (t.core core).l1, x.ctx ≠ c) ∧
  (∀ c s, (s.ctx c).st = .resetting → ∃ t, exec (.resetComplete c) s = .next t ∧
    t.ctx c = { s.ctx c with st := .wiped, fcause := 0 }) ∧
  (∀ c v s, c < 96 → ∃ t, exec (.lmaskWrite c v) s = .next t ∧
    ((s.ctx c).st = .created ∨ v.getLsbD s.dev.rank = true → (t.ctx c).lmask = v) ∧
    ((s.ctx c).st ≠ .created → v.getLsbD s.dev.rank = false → t = s)) ∧
  (∀ c v s, c < 96 → ∃ t, exec (.fqcWrite c v) s = .next t ∧ (t.ctx c).fqc = v ∧
    ((s.ctx c).fqp ≠ v → .msix c 4 ∈ t.out)) ∧
  (∀ c v s, c < 96 → ∃ t, exec (.mecWrite c v) s = .next t ∧ (t.ctx c).mec = v ∧
    ((s.ctx c).mep ≠ v → .msix c 5 ∈ t.out)) ∧
  (∀ p s, p < 24 → s.dev.stage = 5 → (s.part p).st = .free →
    let taken := ∃ e ∈ s.parts, e.1 ≠ p ∧ e.2.st ≠ .free ∧
      (e.2.cmask &&& (s.part p).cmask ≠ 0 ∨ e.2.hmask &&& (s.part p).hmask ≠ 0)
    ∃ t, exec (.partitionAssign p) s = .next t ∧
      ((s.part p).cmask ≠ 0 → (s.part p).hmask ≠ 0 → ¬ taken → t.part p = { s.part p with st := .open_ }) ∧
      ((s.part p).cmask = 0 ∨ (s.part p).hmask = 0 ∨ taken → t = s)) ∧
  (∀ p s, (s.part p).st = .open_ → ∃ t, exec (.partitionClose p) s = .next t ∧
    ((∀ c ∈ s.partCtxs p, (s.ctx c).st = .wiped) → t.part p = { s.part p with st := .wiping }) ∧
    ((∃ c ∈ s.partCtxs p, (s.ctx c).st ≠ .wiped) → t = s)) ∧
  (∀ p s, s.Inv → (s.part p).st = .wiping → ∃ t, exec (.wipeComplete p) s = .next t ∧
    t.part p = { s.part p with st := .free } ∧
    (∀ x ∈ s.latent, x < poisonBase → (s.part p).hmask.getLsbD (halfStack x) = true →
      x ∉ t.latent ∧ rowAt x ∈ t.dev.failing) ∧
    (∀ a, a < poisonBase → Memory.byte t.hbm a =
      if (s.part p).hmask.getLsbD (halfStack a) then 0 else Memory.byte s.hbm a) ∧
    ∀ n, Memory.byte t.hbm (poisonBase + n) =
      if 32768 * n < poisonBase ∧ (s.part p).hmask.getLsbD (halfStack (32768 * n)) then s.badBits n
      else Memory.byte s.hbm (poisonBase + n)) ∧
  (∀ v s, v < 96 → (s.ctx v).bound = true → (s.part (s.ctx v).part).st = .open_ →
    ∃ t, exec (.vfEnable v) s = .next t ∧ t.ctx v = { s.ctx v with vfOn := true }) ∧
  (∀ v disable s, v < 96 → (s.ctx v).st ≠ .resetting → (s.ctx v).st ≠ .wiped →
    ∃ t, exec (.vfReset v disable) s = .next t ∧ (t.ctx v).st = .resetting ∧ (disable = true → (t.ctx v).vfOn = false)) ∧
  (∀ r i v s, ∃ t, exec (.registerWrite r i v) s = .next t ∧
    (∀ any f, ctxField r v = some (any, f) → i < 96 →
      if any = true ∨ (s.ctx i).st = .created then t.ctx i = f (s.ctx i) else t = s) ∧
    (∀ q locked f, queueField r v = some (q, locked, f) → i < 96 → q < 4 →
      if locked = true ∧ (s.queue i q).enable = true then t = s else t.queue i q = f (s.queue i q)) ∧
    (∀ any f, partField r v = some (any, f) → i < 24 →
      ((s.part i).st = .free ∨ (any = true ∧ (s.part i).st = .open_) → t.part i = f (s.part i)) ∧
      ((s.part i).st = .wiping ∨ (any = false ∧ (s.part i).st = .open_) → t = s)) ∧
    (r = .rto → t.dev.rto = max 1024 (v.toNat % 2 ^ 20)) ∧
    (r = .powerCap → t.dev.cap = max 1500 (min 3000 (v.toNat % 2 ^ 12))) ∧
    (r = .ctxOtb → i < 96 → (s.ctx i).st = .created → t.vfRead i 0x1C ++ t.vfRead i 0x18 = v) ∧
    (r = .rto → t.pfRead 0x1200 = BitVec.ofNat 32 (max 1024 (v.toNat % 2 ^ 20))) ∧
    ∀ v off, 0xA8 ≤ off → off < 0x1000 → t.vfRead v off = 0)

/-! ## Events of the device -/

/-- R18, R263, R356, R360 to R364, R370 to R372: bring-up, ports, power, what the device finds in its memories, host
accesses, checkpoints, reports and the reset of the device. DEDUCED, the model's: that each call of FIRMWARE_VERIFY and
POWER_ON_WIPE ends one stage, port 0 going down as a reset, what DEVICE_RESET keeps, and the order in which a checkpoint
lays its parts (log entries 49 and 15); a host read of a marked granule, and a host write that clears no mark (log entry
50). Which ports a range of LOC 3 takes is the model's function of the straps (log entry 26). -/
def Obligations.DeviceEvents : Prop :=
  (∀ image c rank roles s, s.dev.stage = 0 → s.dev.err = 0 →
    ∃ t, exec (.firmwareVerify image c rank roles) s = .next t ∧ (∀ c, (t.core c).clock = 0) ∧
      t.dev = { s.dev with stage := 1 }) ∧
  (∀ image key sig rank roles s, s.dev.stage = 1 → s.dev.err = 0 →
    let ok := hashOf key = s.dev.fuse ∧ rsaVerify key (hashOf image) sig = true
    ∃ t, exec (.firmwareVerify image { key := key, sig := sig } rank roles) s = .next t ∧
      t.dev.fwHash = hashOf image ∧
      (ok → t.dev.stage = 2 ∧ t.dev.rank = rank % 64 ∧ t.dev.roles = BitVec.ofNat 8 roles ∧
        t.dev.interleave = roles.testBit 8 ∧ t.dev.err = if roles.testBit 0 then 2 else 0) ∧
      (¬ ok → t.dev.stage = 1 ∧ t.dev.err = 1)) ∧
  (∀ port state gen width s, 2 ≤ s.dev.stage → s.dev.err = 0 → port < 8 →
    (state = 2 → gen = 1 ∨ gen = 2 → width = 8 ∨ width = 16 →
      ∃ t, exec (.portTraining port state gen width) s = .next t ∧
        Tab.get {} t.dev.ports port = { st := 2, gen := gen, width := width }) ∧
    (state ≤ 1 → port ≠ 0 → ∃ t, exec (.portTraining port state gen width) s = .next t ∧
      Tab.get {} t.dev.ports port = { st := state }) ∧
    (state ≤ 1 → port = 0 → (Tab.get {} s.dev.ports 0).st = 2 →
      ∃ t, exec (.portTraining port state gen width) s = .next t ∧ t.dev.stage = 0 ∧ t.blocks = [])) ∧
  (∀ logsOk s, s.dev.err = 0 → ∃ t, exec (.powerOnWipe logsOk) s = .next t ∧
    (s.dev.stage = 2 → t = { s with dev := { s.dev with stage := 3 } }) ∧
    (s.dev.stage = 3 → logsOk = true → t.dev.stage = 4 ∧ (∀ a, Memory.byte t.hbm a = 0) ∧ t.latent = [] ∧
      ∀ x ∈ s.latent, x < hbmTop → rowAt x ∈ t.dev.failing) ∧
    (s.dev.stage = 3 → logsOk = false → t = { s with dev := { s.dev with err := 3 } }) ∧
    (s.dev.stage = 4 → t = { s with dev := { s.dev with stage := 5 } })) ∧
  (∀ s, ∃ t, exec .configurationRequest s = .next t ∧ t = s.say (.config (decide (s.dev.stage < 5)))) ∧
  (∀ s, Tab.wf 0 s.dev.steps = true → (∀ i, Tab.get 0 s.dev.steps i ≤ if i < 4 then 15 else 3) →
    ∃ t, exec .powerCheck s = .next t ∧ t = { s with dev := { s.dev with steps := t.dev.steps }, fresh := s.fresh + 1 } ∧
      (∀ i, Tab.get 0 t.dev.steps i ≤ if i < 4 then 15 else 3) ∧
      let m := Config.measuredPower s.fresh
      let above := m > s.dev.cap
      let under := 100 * m ≤ 95 * s.dev.cap
      (above → slowable s.dev ≠ [] → ∃ i ∈ slowable s.dev, Tab.get 0 t.dev.steps i = Tab.get 0 s.dev.steps i + 1 ∧
        ∀ j, j ≠ i → Tab.get 0 t.dev.steps j = Tab.get 0 s.dev.steps j) ∧
      (¬ above → under → ∀ i, lowestDie s.dev = some i → Tab.get 0 t.dev.steps i = Tab.get 0 s.dev.steps i - 1 ∧
        ∀ j, j ≠ i → Tab.get 0 t.dev.steps j = Tab.get 0 s.dev.steps j) ∧
      ((above → slowable s.dev = []) → (¬ above → under → lowestDie s.dev = none) → t.dev.steps = s.dev.steps)) ∧
  (∀ b s k g, s.Inv → s.blk b = some k → Tab.find s.gangs k.gang = some g → g.st ≠ .exited → b ∈ g.blocks →
    (∃ t, exec (.backgroundScrub (.block b)) s = .next t ∧ t.blk b = none) ∧
    ∀ core n, ((s.core core).bankOf n.toNat).owner = some b →
      ∃ t, exec (.backgroundScrub (.bank core n)) s = .next t ∧ t.blk b = none) ∧
  (∀ stack row spare s, let log := Tab.get [] s.dev.retired stack
    ((stack, row) ∉ s.dev.failing → exec (.rowRetirement stack row spare) s = .next s) ∧
    ((stack, row) ∈ s.dev.failing → ∃ t, exec (.rowRetirement stack row spare) s = .next t ∧
      (stack, row) ∉ t.dev.failing ∧
      (stack < 12 → spare = true → log.length < 2048 → Tab.get [] t.dev.retired stack = log ++ [row]) ∧
      (12 ≤ stack ∨ spare = false ∨ 2048 ≤ log.length → t.dev.retired = s.dev.retired))) ∧
  (∀ a s rest, s.agenda = .corrected a :: rest → ∃ t, step s = .next t ∧
    if (s.dev.fixes.filter (· = rowAt a)).length = 15 then rowAt a ∈ t.dev.failing else t.dev.failing = s.dev.failing) ∧
  (∀ addr data s, s.Inv → 5 ≤ s.dev.stage → addr + data.length ≤ poisonBase →
    (∃ t, exec (.hostDeviceMemoryAccess true addr data) s = .next t ∧ Memory.read t.hbm addr data.length = data ∧
      ∀ c, ¬ (addr ≤ c ∧ c < addr + data.length) → Memory.byte t.hbm c = Memory.byte s.hbm c) ∧
    (s.latentIn addr data.length = none → ∃ t, exec (.hostDeviceMemoryAccess false addr data) s = .next t ∧
      t = s.say (.hostData (if s.poisonedIn addr data.length then [] else Memory.read s.hbm addr data.length))) ∧
    ∀ x, s.latentIn addr data.length = some x → ∃ t, exec (.hostDeviceMemoryAccess false addr data) s = .next t ∧
      .hostData [] ∈ t.out ∧ t.poisoned x = true ∧ x ∉ t.latent ∧ rowAt x ∈ t.dev.failing) ∧
  (∀ p addr s, s.chkptOk p = true →
    (∃ t, exec (.checkpoint p addr) s = .next t ∧ t.dev.chkpt = some { part := p, addr := addr, restore := false }) ∧
    ∃ t, exec (.restore p addr) s = .next t ∧ t.dev.chkpt = some { part := p, addr := addr, restore := true }) ∧
  (∀ s k, s.Inv → s.dev.chkpt = some k → k.resumes = [] →
    s.expUp k.addr ((2 ^ 35 + 2 ^ 20) * (s.part k.part).stacks.length) = true →
    ∃ t, exec .checkpointComplete s = .next t ∧ t.dev.chkpt = none ∧
      (k.restore = false → ∀ e ∈ chkptParts (s.part k.part), ∀ x, x < e.2.1 →
        Memory.byte t.cxl (k.addr + e.2.2 + x) = Memory.byte t.hbm (e.1 + x)) ∧
      (k.restore = true → ∀ e ∈ chkptParts (s.part k.part), ∀ x, x < e.2.1 → e.1 < poisonBase →
        Memory.byte t.hbm (e.1 + x) = Memory.byte s.cxl (k.addr + e.2.2 + x))) ∧
  (∀ nonce s, ∃ t ws, exec (.attestationReport nonce) s = .next t ∧
    t = s.say (.report ws (rsaSign s.dev.idMod.toNat s.dev.idExp.toNat (hashOf (wordBytes ws)))) ∧
    let open_ := (List.range 24).filter fun p => (s.part p).st = .open_
    ws.length = 28 + 8 * open_.length ∧ ws.take 8 = (List.range 8).map (fun i => nonce.extractLsb' (224 - 32 * i) 32) ∧
    (ws.drop 8).take 8 = (List.range 8).map (fun i => s.dev.fwHash.extractLsb' (224 - 32 * i) 32) ∧
    (∀ p, open_.head? = some p → (ws.drop 16).take 8 = sha256 (wordBytes (s.partWords p))) ∧
    ws.drop (16 + 8 * open_.length) =
      (List.range 12).map fun k => BitVec.ofNat 32 (Tab.get [] s.dev.retired k).length) ∧
  ∀ s, ∃ t, exec .deviceReset s = .next t ∧ t.dev.stage = 0 ∧ t.dev.err = 0 ∧ t.blocks = [] ∧ t.gangs = [] ∧ t.nodes = [] ∧
    (∀ c, (t.ctx c).st = .wiped) ∧ t.cxl = s.cxl ∧ t.dev.retired = s.dev.retired ∧ t.dev.fuse = s.dev.fuse ∧
    t.dev.idMod = s.dev.idMod ∧ t.dev.idExp = s.dev.idExp

end
end

