-- ==== Sys2Proof/Laws/Tab.lean ====
section
/-! SUPPORT. Tables: reading after writing, and the canonical form kept. -/

namespace Sys2Proof.Machine

variable {α : Type}

/-! ## The rising keys -/

theorem Tab.risingFrom_mono {t : Tab α} {a b : Nat} (h : a ≤ b) (ht : Tab.risingFrom b t = true) :
    Tab.risingFrom a t = true := by
  cases t with
  | nil => rfl
  | cons e t => simp only [Tab.risingFrom, Bool.and_eq_true, decide_eq_true_eq] at *; exact ⟨by omega, ht.2⟩

theorem Tab.risingFrom_put {t : Tab α} {lo n : Nat} (x : α) (hn : lo ≤ n) (h : Tab.risingFrom lo t = true) :
    Tab.risingFrom lo (Tab.put t n x) = true := by
  induction t generalizing lo with
  | nil => simpa [Tab.put, Tab.risingFrom] using hn
  | cons e t ih =>
    obtain ⟨k, v⟩ := e
    simp only [Tab.risingFrom, Bool.and_eq_true, decide_eq_true_eq] at h
    simp only [Tab.put]
    split
    · subst_vars; simpa [Tab.risingFrom] using h
    · split
      · simp only [Tab.risingFrom, Bool.and_eq_true, decide_eq_true_eq]; exact ⟨hn, by omega, h.2⟩
      · simp only [Tab.risingFrom, Bool.and_eq_true, decide_eq_true_eq]; exact ⟨h.1, ih (by omega) h.2⟩

theorem Tab.risingFrom_del {t : Tab α} {lo : Nat} (n : Nat) (h : Tab.risingFrom lo t = true) :
    Tab.risingFrom lo (Tab.del t n) = true := by
  induction t generalizing lo with
  | nil => rfl
  | cons e t ih =>
    obtain ⟨k, v⟩ := e
    simp only [Tab.risingFrom, Bool.and_eq_true, decide_eq_true_eq] at h
    simp only [Tab.del]
    split
    · exact Tab.risingFrom_mono (by omega) h.2
    · split
      · simpa [Tab.risingFrom] using h
      · simp only [Tab.risingFrom, Bool.and_eq_true, decide_eq_true_eq]; exact ⟨h.1, ih h.2⟩

theorem Tab.risingFrom_filter {t : Tab α} {lo : Nat} (p : Nat × α → Bool) (h : Tab.risingFrom lo t = true) :
    Tab.risingFrom lo (t.filter p) = true := by
  induction t generalizing lo with
  | nil => rfl
  | cons e t ih =>
    simp only [Tab.risingFrom, Bool.and_eq_true, decide_eq_true_eq] at h
    rw [List.filter_cons]
    split
    · simp only [Tab.risingFrom, Bool.and_eq_true, decide_eq_true_eq]; exact ⟨h.1, ih h.2⟩
    · exact Tab.risingFrom_mono (by omega) (ih h.2)

/-- Mapping entries to entries of the same key or to none keeps the keys rising. -/
theorem Tab.risingFrom_filterMap {β : Type} {t : Tab α} {lo : Nat} (f : Nat × α → Option (Nat × β))
    (hf : ∀ e e', f e = some e' → e'.1 = e.1) (h : Tab.risingFrom lo t = true) :
    Tab.risingFrom lo (t.filterMap f) = true := by
  induction t generalizing lo with
  | nil => rfl
  | cons e t ih =>
    simp only [Tab.risingFrom, Bool.and_eq_true, decide_eq_true_eq] at h
    rw [List.filterMap_cons]
    split
    · exact Tab.risingFrom_mono (by omega) (ih h.2)
    · rename_i e' he
      have := hf e e' he
      simp only [Tab.risingFrom, Bool.and_eq_true, decide_eq_true_eq, this]; exact ⟨h.1, ih h.2⟩

/-- Every key of a rising table is at least its bound. -/
theorem Tab.le_of_mem {t : Tab α} {lo : Nat} {e : Nat × α} (h : Tab.risingFrom lo t = true) (he : e ∈ t) : lo ≤ e.1 := by
  induction t generalizing lo with
  | nil => cases he
  | cons a t ih =>
    simp only [Tab.risingFrom, Bool.and_eq_true, decide_eq_true_eq] at h
    rcases List.mem_cons.mp he with rfl | he
    · exact h.1
    · exact Nat.le_trans (by omega) (ih h.2 he)

/-- Two rising tables, the first below a bound that the second keeps, joined. -/
theorem Tab.risingFrom_append {t u : Tab α} {lo m : Nat} (ht : Tab.risingFrom lo t = true) (hu : Tab.risingFrom m u = true)
    (hm : lo ≤ m) (hb : ∀ e ∈ t, e.1 < m) : Tab.risingFrom lo (t ++ u) = true := by
  induction t generalizing lo with
  | nil => exact Tab.risingFrom_mono hm hu
  | cons e t ih =>
    simp only [Tab.risingFrom, Bool.and_eq_true, decide_eq_true_eq] at ht
    have he := hb e (List.mem_cons_self ..)
    simp only [List.cons_append, Tab.risingFrom, Bool.and_eq_true, decide_eq_true_eq]
    exact ⟨ht.1, ih ht.2 (by omega) fun e h => hb e (List.mem_cons_of_mem _ h)⟩

/-- A rising table filtered from a bound on rises from it. -/
theorem Tab.risingFrom_filter_ge {t : Tab α} {lo m : Nat} (h : Tab.risingFrom lo t = true) :
    Tab.risingFrom m (t.filter fun e => decide (e.1 ≥ m)) = true := by
  induction t generalizing lo with
  | nil => rfl
  | cons e t ih =>
    simp only [Tab.risingFrom, Bool.and_eq_true, decide_eq_true_eq] at h
    rw [List.filter_cons]
    split
    · rename_i hm
      have hm : m ≤ e.1 := by simpa using hm
      simp only [Tab.risingFrom, Bool.and_eq_true, decide_eq_true_eq]
      exact ⟨hm, Tab.risingFrom_filter _ h.2⟩
    · exact ih h.2

/-- Keys moved from one bound to another. -/
theorem Tab.risingFrom_shift {t : Tab α} {lo from_ dst : Nat} (hl : from_ ≤ lo) (h : Tab.risingFrom lo t = true) :
    Tab.risingFrom (lo - from_ + dst) (t.map fun e => (e.1 - from_ + dst, e.2)) = true := by
  induction t generalizing lo with
  | nil => rfl
  | cons e t ih =>
    simp only [Tab.risingFrom, Bool.and_eq_true, decide_eq_true_eq] at h
    simp only [List.map_cons, Tab.risingFrom, Bool.and_eq_true, decide_eq_true_eq]
    refine ⟨by omega, ?_⟩
    have := ih (lo := e.1 + 1) (by omega) h.2
    rwa [show e.1 + 1 - from_ + dst = e.1 - from_ + dst + 1 by omega] at this

/-! ## Reading after writing -/

@[simp] theorem Tab.find_nil (n : Nat) : Tab.find ([] : Tab α) n = none := rfl
@[simp] theorem Tab.get_nil (d : α) (n : Nat) : Tab.get d [] n = d := rfl

@[simp] theorem Tab.find_put_self (t : Tab α) (n : Nat) (x : α) : Tab.find (Tab.put t n x) n = some x := by
  induction t with
  | nil => simp [Tab.put, Tab.find]
  | cons e t ih =>
    obtain ⟨k, v⟩ := e
    simp only [Tab.put]
    split
    · simp [Tab.find]
    · split
      · simp [Tab.find]
      · simp [Tab.find, *]

theorem Tab.find_put_ne {t : Tab α} {n m : Nat} (x : α) (h : m ≠ n) : Tab.find (Tab.put t n x) m = Tab.find t m := by
  induction t with
  | nil => simp only [Tab.put, Tab.find, if_neg (Ne.symm h), ite_self]
  | cons e t ih =>
    obtain ⟨k, v⟩ := e
    simp only [Tab.put]
    split
    · subst_vars; simp [Tab.find, Ne.symm h]
    · split
      · simp only [Tab.find, if_neg (Ne.symm h)]
        split
        · split
          · omega
          · split <;> first | rfl | omega
        · rfl
      · simp only [Tab.find, ih]

theorem Tab.find_eq_none_of_lt {t : Tab α} {lo n : Nat} (h : Tab.risingFrom lo t = true) (hn : n < lo) :
    Tab.find t n = none := by
  cases t with
  | nil => rfl
  | cons e t =>
    obtain ⟨k, v⟩ := e
    simp only [Tab.risingFrom, Bool.and_eq_true, decide_eq_true_eq] at h
    simp only [Tab.find]
    rw [if_neg (by omega), if_pos (by omega)]

theorem Tab.find_del_self {t : Tab α} {lo : Nat} (n : Nat) (h : Tab.risingFrom lo t = true) :
    Tab.find (Tab.del t n) n = none := by
  induction t generalizing lo with
  | nil => rfl
  | cons e t ih =>
    obtain ⟨k, v⟩ := e
    simp only [Tab.risingFrom, Bool.and_eq_true, decide_eq_true_eq] at h
    simp only [Tab.del]
    split
    · exact Tab.find_eq_none_of_lt h.2 (by omega)
    · split
      · simp [Tab.find, *]
      · simp [Tab.find, *, ih h.2]

theorem Tab.find_del_ne {t : Tab α} {lo n m : Nat} (h : Tab.risingFrom lo t = true) (hm : m ≠ n) :
    Tab.find (Tab.del t n) m = Tab.find t m := by
  induction t generalizing lo with
  | nil => rfl
  | cons e t ih =>
    obtain ⟨k, v⟩ := e
    simp only [Tab.risingFrom, Bool.and_eq_true, decide_eq_true_eq] at h
    simp only [Tab.del]
    split
    · subst_vars
      simp only [Tab.find, if_neg (Ne.symm hm)]
      split
      · exact Tab.find_eq_none_of_lt h.2 (by omega)
      · rfl
    · split
      · rfl
      · simp only [Tab.find, ih h.2]

@[simp] theorem Tab.get_put_self (d : α) (t : Tab α) (n : Nat) (x : α) : Tab.get d (Tab.put t n x) n = x := by
  simp [Tab.get]

theorem Tab.get_put_ne (d : α) {t : Tab α} {n m : Nat} (x : α) (h : m ≠ n) :
    Tab.get d (Tab.put t n x) m = Tab.get d t m := by simp [Tab.get, Tab.find_put_ne x h]

theorem Tab.find_modify_self (t : Tab α) (n : Nat) (f : α → α) : Tab.find (Tab.modify t n f) n = (Tab.find t n).map f := by
  unfold Tab.modify
  split <;> simp [*]

theorem Tab.find_modify_ne {t : Tab α} {n m : Nat} (f : α → α) (h : m ≠ n) :
    Tab.find (Tab.modify t n f) m = Tab.find t m := by
  unfold Tab.modify
  split
  · exact Tab.find_put_ne _ h
  · rfl

theorem Tab.mem_put {t : Tab α} {n : Nat} {x : α} {e : Nat × α} (h : e ∈ Tab.put t n x) : e = (n, x) ∨ e ∈ t := by
  induction t with
  | nil => simpa [Tab.put] using h
  | cons a t ih =>
    obtain ⟨k, v⟩ := a
    simp only [Tab.put] at h
    split at h
    · rcases List.mem_cons.mp h with h | h
      · exact .inl h
      · exact .inr (List.mem_cons_of_mem _ h)
    · split at h
      · rcases List.mem_cons.mp h with h | h
        · exact .inl h
        · exact .inr h
      · rcases List.mem_cons.mp h with h | h
        · exact .inr (h ▸ List.mem_cons_self ..)
        · exact (ih h).imp_right (List.mem_cons_of_mem _)

theorem Tab.mem_del {t : Tab α} {n : Nat} {e : Nat × α} (h : e ∈ Tab.del t n) : e ∈ t := by
  induction t with
  | nil => exact h
  | cons a t ih =>
    obtain ⟨k, v⟩ := a
    simp only [Tab.del] at h
    split at h
    · exact List.mem_cons_of_mem _ h
    · split at h
      · exact h
      · rcases List.mem_cons.mp h with h | h
        · exact h ▸ List.mem_cons_self ..
        · exact List.mem_cons_of_mem _ (ih h)

/-! ## The canonical form -/

variable [DecidableEq α] {d : α}

theorem Tab.wf_iff {t : Tab α} : Tab.wf d t = true ↔ Tab.risingFrom 0 t = true ∧ ∀ e ∈ t, e.2 ≠ d := by
  simp [Tab.wf]

theorem Tab.wf_set {t : Tab α} (n : Nat) (x : α) (h : Tab.wf d t = true) : Tab.wf d (Tab.set d t n x) = true := by
  rw [Tab.wf_iff] at *
  unfold Tab.set
  split
  · exact ⟨Tab.risingFrom_del _ h.1, fun e he => h.2 e (Tab.mem_del he)⟩
  · rename_i hx
    refine ⟨Tab.risingFrom_put _ (Nat.zero_le _) h.1, fun e he => ?_⟩
    rcases Tab.mem_put he with rfl | he
    · exact hx
    · exact h.2 e he

theorem Tab.wf_filter {t : Tab α} (p : Nat × α → Bool) (h : Tab.wf d t = true) : Tab.wf d (t.filter p) = true := by
  rw [Tab.wf_iff] at *
  exact ⟨Tab.risingFrom_filter _ h.1, fun e he => h.2 e (List.mem_filter.mp he).1⟩

/-- What a canonical table gives after a write. -/
theorem Tab.get_set_self {t : Tab α} (n : Nat) (x : α) (h : Tab.wf d t = true) : Tab.get d (Tab.set d t n x) n = x := by
  rw [Tab.wf_iff] at h
  unfold Tab.set
  split
  · simp [Tab.get, Tab.find_del_self n h.1, *]
  · simp

theorem Tab.get_set_ne {t : Tab α} {n m : Nat} (x : α) (h : Tab.wf d t = true) (hm : m ≠ n) :
    Tab.get d (Tab.set d t n x) m = Tab.get d t m := by
  rw [Tab.wf_iff] at h
  unfold Tab.set
  split
  · simp [Tab.get, Tab.find_del_ne h.1 hm]
  · exact Tab.get_put_ne d x hm

end Sys2Proof.Machine
end

