-- ==== Sys2Proof/Laws/Memory.lean ====
section
/-! SUPPORT. Memory: reading after writing, and every memory operation keeps the canonical form. -/

namespace Sys2Proof.Machine

/-! ## One byte, and bytes in a row -/

theorem Memory.wf_setByte {m : Memory} (a : Nat) (x : Byte) (h : Memory.wf m = true) :
    Memory.wf (Memory.setByte m a x) = true := Tab.wf_set a x h

theorem Memory.byte_setByte_self {m : Memory} (a : Nat) (x : Byte) (h : Memory.wf m = true) :
    Memory.byte (Memory.setByte m a x) a = x := Tab.get_set_self a x h

theorem Memory.byte_setByte_ne {m : Memory} {a b : Nat} (x : Byte) (h : Memory.wf m = true) (hb : b ≠ a) :
    Memory.byte (Memory.setByte m a x) b = Memory.byte m b := Tab.get_set_ne x h hb

theorem Memory.wf_write {m : Memory} (a : Nat) (bs : List Byte) (h : Memory.wf m = true) :
    Memory.wf (Memory.write m a bs) = true := by
  induction bs generalizing m a with
  | nil => exact h
  | cons x bs ih => exact ih _ (Memory.wf_setByte a x h)

/-- A byte outside the range written reads as before. -/
theorem Memory.byte_write_outside {m : Memory} {a b : Nat} (bs : List Byte) (h : Memory.wf m = true)
    (hb : b < a ∨ a + bs.length ≤ b) : Memory.byte (Memory.write m a bs) b = Memory.byte m b := by
  induction bs generalizing m a with
  | nil => rfl
  | cons x bs ih =>
    simp only [List.length_cons] at hb
    show Memory.byte (Memory.write (Memory.setByte m a x) (a + 1) bs) b = _
    rw [ih (Memory.wf_setByte a x h) (by omega), Memory.byte_setByte_ne x h (by omega)]

/-- A byte of the range written reads as the byte written there. -/
theorem Memory.byte_write_inside {m : Memory} {a i : Nat} (bs : List Byte) (h : Memory.wf m = true)
    (hi : i < bs.length) : Memory.byte (Memory.write m a bs) (a + i) = bs[i] := by
  induction bs generalizing m a i with
  | nil => simp at hi
  | cons x bs ih =>
    show Memory.byte (Memory.write (Memory.setByte m a x) (a + 1) bs) (a + i) = _
    cases i with
    | zero =>
      rw [Memory.byte_write_outside bs (Memory.wf_setByte a x h) (by omega)]
      simpa using Memory.byte_setByte_self a x h
    | succ i =>
      have := ih (a := a + 1) (i := i) (Memory.wf_setByte a x h) (by simpa using hi)
      rw [show a + (i + 1) = a + 1 + i by omega]
      simpa using this

/-- Reading back what was written. -/
theorem Memory.read_write (m : Memory) (a : Nat) (bs : List Byte) (h : Memory.wf m = true) :
    Memory.read (Memory.write m a bs) a bs.length = bs := by
  apply List.ext_getElem
  · simp [Memory.read]
  · intro i _ hi
    simp only [Memory.read, List.getElem_map, List.getElem_range]
    exact Memory.byte_write_inside bs h hi

/-! ## Ranges that a checkpoint copies, and a wipe -/

theorem Memory.wf_iff {m : Memory} : Memory.wf m = true ↔ Tab.risingFrom 0 m = true ∧ ∀ e ∈ m, e.2 ≠ 0 := Tab.wf_iff

/-- A range moved to another place lies there, rising, with no byte 0. -/
theorem Memory.slice_spec {m : Memory} (from_ n dst : Nat) (h : Memory.wf m = true) :
    Tab.risingFrom dst (Memory.slice m from_ n dst) = true ∧
    ∀ e ∈ Memory.slice m from_ n dst, dst ≤ e.1 ∧ e.1 < dst + n ∧ e.2 ≠ 0 := by
  have hr : Tab.risingFrom dst (Memory.slice m from_ n dst) = true := by
    have hf : Tab.risingFrom from_ (m.filter fun e => decide (from_ ≤ e.1) && decide (e.1 < from_ + n)) = true := by
      have := Tab.risingFrom_filter (fun e : Nat × Byte => decide (e.1 < from_ + n))
        (Tab.risingFrom_filter_ge (m := from_) (Memory.wf_iff.mp h).1)
      rw [List.filter_filter] at this
      simpa [Bool.and_comm] using this
    have := Tab.risingFrom_shift (dst := dst) (Nat.le_refl from_) hf
    simpa [Memory.slice] using this
  refine ⟨hr, fun e he => ?_⟩
  simp only [Memory.slice, List.mem_map, List.mem_filter, Bool.and_eq_true, decide_eq_true_eq] at he
  obtain ⟨e', ⟨hm, h1, h2⟩, rfl⟩ := he
  exact ⟨by simp, by simp; omega, (Memory.wf_iff.mp h).2 e' hm⟩

theorem Memory.wf_splice {m new : Memory} (at_ n : Nat) (h : Memory.wf m = true)
    (hr : Tab.risingFrom at_ new = true) (hn : ∀ e ∈ new, at_ ≤ e.1 ∧ e.1 < at_ + n ∧ e.2 ≠ 0) :
    Memory.wf (Memory.splice m at_ n new) = true := by
  rw [Memory.wf_iff] at *
  refine ⟨?_, fun e he => ?_⟩
  · unfold Memory.splice
    rw [List.append_assoc]
    refine Tab.risingFrom_append (m := at_) (Tab.risingFrom_filter _ h.1) ?_ (Nat.zero_le _) fun e he => ?_
    · exact Tab.risingFrom_append (m := at_ + n) hr (Tab.risingFrom_filter_ge h.1) (by omega) fun e he => (hn e he).2.1
    · simpa using (List.mem_filter.mp he).2
  · simp only [Memory.splice, List.mem_append, List.mem_filter] at he
    rcases he with (he | he) | he
    · exact h.2 e he.1
    · exact (hn e he).2.2
    · exact h.2 e he.1

/-- A range of one memory put in the place of a range of another. -/
theorem Memory.wf_splice_slice {m k : Memory} (from_ n dst : Nat) (hm : Memory.wf m = true) (hk : Memory.wf k = true) :
    Memory.wf (Memory.splice m dst n (Memory.slice k from_ n dst)) = true :=
  Memory.wf_splice dst n hm (Memory.slice_spec from_ n dst hk).1 (Memory.slice_spec from_ n dst hk).2

theorem State.wf_wiped {s : State} (hmask : BitVec 24) (h : Memory.wf s.hbm = true) :
    Memory.wf (s.wiped hmask) = true := by
  rw [Memory.wf_iff] at *
  constructor
  · refine Tab.risingFrom_filterMap _ (fun e e' he => ?_) h.1
    split at he
    · dsimp only at he
      split at he
      · split at he
        · cases he
        · cases he; rfl
      · cases he; rfl
    · split at he
      · cases he
      · cases he; rfl
  · intro e he
    simp only [State.wiped, List.mem_filterMap] at he
    obtain ⟨e', hm, he⟩ := he
    split at he
    · split at he
      · split at he
        · cases he
        · cases he; assumption
      · cases he; exact h.2 _ hm
    · split at he
      · cases he
      · cases he; exact h.2 _ hm

theorem State.wf_founds (xs : List Nat) {s : State} (h : Memory.wf s.hbm = true) :
    Memory.wf (xs.foldl State.found s).hbm = true := by
  induction xs generalizing s with
  | nil => exact h
  | cons x xs ih => exact ih (Memory.wf_setByte _ _ h)

theorem State.wf_wipe {s : State} (hmask : BitVec 24) (h : Memory.wf s.hbm = true) :
    Memory.wf (s.wipe hmask).hbm = true :=
  State.wf_founds _ (State.wf_wiped hmask h)

/-! ## The memories of the machine after reset -/

theorem State.reset_hbm_wf : Memory.wf State.reset.hbm = true := rfl
theorem State.reset_cxl_wf : Memory.wf State.reset.cxl = true := rfl

end Sys2Proof.Machine
end

