-- ==== Sys2Proof/Laws/State.lean ====
section
/-! SUPPORT. What each update of the state leaves and changes, one lemma for each field. -/

namespace Sys2Proof.Machine

variable (s : State)

/-! `modCore` -/

@[simp] theorem State.modCore_dev (c : Nat) (f : Core → Core) : (s.modCore c f).dev = s.dev := rfl
@[simp] theorem State.modCore_hbm (c : Nat) (f : Core → Core) : (s.modCore c f).hbm = s.hbm := rfl
@[simp] theorem State.modCore_cxl (c : Nat) (f : Core → Core) : (s.modCore c f).cxl = s.cxl := rfl
@[simp] theorem State.modCore_cxlPoison (c : Nat) (f : Core → Core) : (s.modCore c f).cxlPoison = s.cxlPoison := rfl
@[simp] theorem State.modCore_latent (c : Nat) (f : Core → Core) : (s.modCore c f).latent = s.latent := rfl
@[simp] theorem State.modCore_cores (c : Nat) (f : Core → Core) : (s.modCore c f).cores = Tab.put s.cores c (f (s.core c)) := rfl
@[simp] theorem State.modCore_blocks (c : Nat) (f : Core → Core) : (s.modCore c f).blocks = s.blocks := rfl
@[simp] theorem State.modCore_gangs (c : Nat) (f : Core → Core) : (s.modCore c f).gangs = s.gangs := rfl
@[simp] theorem State.modCore_nodes (c : Nat) (f : Core → Core) : (s.modCore c f).nodes = s.nodes := rfl
@[simp] theorem State.modCore_ctxs (c : Nat) (f : Core → Core) : (s.modCore c f).ctxs = s.ctxs := rfl
@[simp] theorem State.modCore_parts (c : Nat) (f : Core → Core) : (s.modCore c f).parts = s.parts := rfl
@[simp] theorem State.modCore_agenda (c : Nat) (f : Core → Core) : (s.modCore c f).agenda = s.agenda := rfl
@[simp] theorem State.modCore_cur (c : Nat) (f : Core → Core) : (s.modCore c f).cur = s.cur := rfl
@[simp] theorem State.modCore_out (c : Nat) (f : Core → Core) : (s.modCore c f).out = s.out := rfl
@[simp] theorem State.modCore_fresh (c : Nat) (f : Core → Core) : (s.modCore c f).fresh = s.fresh := rfl

/-! `modCtx` -/

@[simp] theorem State.modCtx_dev (c : Nat) (f : Ctx → Ctx) : (s.modCtx c f).dev = s.dev := rfl
@[simp] theorem State.modCtx_hbm (c : Nat) (f : Ctx → Ctx) : (s.modCtx c f).hbm = s.hbm := rfl
@[simp] theorem State.modCtx_cxl (c : Nat) (f : Ctx → Ctx) : (s.modCtx c f).cxl = s.cxl := rfl
@[simp] theorem State.modCtx_cxlPoison (c : Nat) (f : Ctx → Ctx) : (s.modCtx c f).cxlPoison = s.cxlPoison := rfl
@[simp] theorem State.modCtx_latent (c : Nat) (f : Ctx → Ctx) : (s.modCtx c f).latent = s.latent := rfl
@[simp] theorem State.modCtx_cores (c : Nat) (f : Ctx → Ctx) : (s.modCtx c f).cores = s.cores := rfl
@[simp] theorem State.modCtx_blocks (c : Nat) (f : Ctx → Ctx) : (s.modCtx c f).blocks = s.blocks := rfl
@[simp] theorem State.modCtx_gangs (c : Nat) (f : Ctx → Ctx) : (s.modCtx c f).gangs = s.gangs := rfl
@[simp] theorem State.modCtx_nodes (c : Nat) (f : Ctx → Ctx) : (s.modCtx c f).nodes = s.nodes := rfl
@[simp] theorem State.modCtx_ctxs (c : Nat) (f : Ctx → Ctx) : (s.modCtx c f).ctxs = Tab.put s.ctxs c (f (s.ctx c)) := rfl
@[simp] theorem State.modCtx_parts (c : Nat) (f : Ctx → Ctx) : (s.modCtx c f).parts = s.parts := rfl
@[simp] theorem State.modCtx_agenda (c : Nat) (f : Ctx → Ctx) : (s.modCtx c f).agenda = s.agenda := rfl
@[simp] theorem State.modCtx_cur (c : Nat) (f : Ctx → Ctx) : (s.modCtx c f).cur = s.cur := rfl
@[simp] theorem State.modCtx_out (c : Nat) (f : Ctx → Ctx) : (s.modCtx c f).out = s.out := rfl
@[simp] theorem State.modCtx_fresh (c : Nat) (f : Ctx → Ctx) : (s.modCtx c f).fresh = s.fresh := rfl

/-! `modPart` -/

@[simp] theorem State.modPart_dev (p : Nat) (f : Prt → Prt) : (s.modPart p f).dev = s.dev := rfl
@[simp] theorem State.modPart_hbm (p : Nat) (f : Prt → Prt) : (s.modPart p f).hbm = s.hbm := rfl
@[simp] theorem State.modPart_cxl (p : Nat) (f : Prt → Prt) : (s.modPart p f).cxl = s.cxl := rfl
@[simp] theorem State.modPart_cxlPoison (p : Nat) (f : Prt → Prt) : (s.modPart p f).cxlPoison = s.cxlPoison := rfl
@[simp] theorem State.modPart_latent (p : Nat) (f : Prt → Prt) : (s.modPart p f).latent = s.latent := rfl
@[simp] theorem State.modPart_cores (p : Nat) (f : Prt → Prt) : (s.modPart p f).cores = s.cores := rfl
@[simp] theorem State.modPart_blocks (p : Nat) (f : Prt → Prt) : (s.modPart p f).blocks = s.blocks := rfl
@[simp] theorem State.modPart_gangs (p : Nat) (f : Prt → Prt) : (s.modPart p f).gangs = s.gangs := rfl
@[simp] theorem State.modPart_nodes (p : Nat) (f : Prt → Prt) : (s.modPart p f).nodes = s.nodes := rfl
@[simp] theorem State.modPart_ctxs (p : Nat) (f : Prt → Prt) : (s.modPart p f).ctxs = s.ctxs := rfl
@[simp] theorem State.modPart_parts (p : Nat) (f : Prt → Prt) : (s.modPart p f).parts = Tab.put s.parts p (f (s.part p)) := rfl
@[simp] theorem State.modPart_agenda (p : Nat) (f : Prt → Prt) : (s.modPart p f).agenda = s.agenda := rfl
@[simp] theorem State.modPart_cur (p : Nat) (f : Prt → Prt) : (s.modPart p f).cur = s.cur := rfl
@[simp] theorem State.modPart_out (p : Nat) (f : Prt → Prt) : (s.modPart p f).out = s.out := rfl
@[simp] theorem State.modPart_fresh (p : Nat) (f : Prt → Prt) : (s.modPart p f).fresh = s.fresh := rfl

/-! `modBlk` -/

@[simp] theorem State.modBlk_dev (b : Nat) (f : Block → Block) : (s.modBlk b f).dev = s.dev := rfl
@[simp] theorem State.modBlk_hbm (b : Nat) (f : Block → Block) : (s.modBlk b f).hbm = s.hbm := rfl
@[simp] theorem State.modBlk_cxl (b : Nat) (f : Block → Block) : (s.modBlk b f).cxl = s.cxl := rfl
@[simp] theorem State.modBlk_cxlPoison (b : Nat) (f : Block → Block) : (s.modBlk b f).cxlPoison = s.cxlPoison := rfl
@[simp] theorem State.modBlk_latent (b : Nat) (f : Block → Block) : (s.modBlk b f).latent = s.latent := rfl
@[simp] theorem State.modBlk_cores (b : Nat) (f : Block → Block) : (s.modBlk b f).cores = s.cores := rfl
@[simp] theorem State.modBlk_blocks (b : Nat) (f : Block → Block) : (s.modBlk b f).blocks = Tab.modify s.blocks b f := rfl
@[simp] theorem State.modBlk_gangs (b : Nat) (f : Block → Block) : (s.modBlk b f).gangs = s.gangs := rfl
@[simp] theorem State.modBlk_nodes (b : Nat) (f : Block → Block) : (s.modBlk b f).nodes = s.nodes := rfl
@[simp] theorem State.modBlk_ctxs (b : Nat) (f : Block → Block) : (s.modBlk b f).ctxs = s.ctxs := rfl
@[simp] theorem State.modBlk_parts (b : Nat) (f : Block → Block) : (s.modBlk b f).parts = s.parts := rfl
@[simp] theorem State.modBlk_agenda (b : Nat) (f : Block → Block) : (s.modBlk b f).agenda = s.agenda := rfl
@[simp] theorem State.modBlk_cur (b : Nat) (f : Block → Block) : (s.modBlk b f).cur = s.cur := rfl
@[simp] theorem State.modBlk_out (b : Nat) (f : Block → Block) : (s.modBlk b f).out = s.out := rfl
@[simp] theorem State.modBlk_fresh (b : Nat) (f : Block → Block) : (s.modBlk b f).fresh = s.fresh := rfl

/-! `modGang` -/

@[simp] theorem State.modGang_dev (g : Nat) (f : Gang → Gang) : (s.modGang g f).dev = s.dev := rfl
@[simp] theorem State.modGang_hbm (g : Nat) (f : Gang → Gang) : (s.modGang g f).hbm = s.hbm := rfl
@[simp] theorem State.modGang_cxl (g : Nat) (f : Gang → Gang) : (s.modGang g f).cxl = s.cxl := rfl
@[simp] theorem State.modGang_cxlPoison (g : Nat) (f : Gang → Gang) : (s.modGang g f).cxlPoison = s.cxlPoison := rfl
@[simp] theorem State.modGang_latent (g : Nat) (f : Gang → Gang) : (s.modGang g f).latent = s.latent := rfl
@[simp] theorem State.modGang_cores (g : Nat) (f : Gang → Gang) : (s.modGang g f).cores = s.cores := rfl
@[simp] theorem State.modGang_blocks (g : Nat) (f : Gang → Gang) : (s.modGang g f).blocks = s.blocks := rfl
@[simp] theorem State.modGang_gangs (g : Nat) (f : Gang → Gang) : (s.modGang g f).gangs = Tab.modify s.gangs g f := rfl
@[simp] theorem State.modGang_nodes (g : Nat) (f : Gang → Gang) : (s.modGang g f).nodes = s.nodes := rfl
@[simp] theorem State.modGang_ctxs (g : Nat) (f : Gang → Gang) : (s.modGang g f).ctxs = s.ctxs := rfl
@[simp] theorem State.modGang_parts (g : Nat) (f : Gang → Gang) : (s.modGang g f).parts = s.parts := rfl
@[simp] theorem State.modGang_agenda (g : Nat) (f : Gang → Gang) : (s.modGang g f).agenda = s.agenda := rfl
@[simp] theorem State.modGang_cur (g : Nat) (f : Gang → Gang) : (s.modGang g f).cur = s.cur := rfl
@[simp] theorem State.modGang_out (g : Nat) (f : Gang → Gang) : (s.modGang g f).out = s.out := rfl
@[simp] theorem State.modGang_fresh (g : Nat) (f : Gang → Gang) : (s.modGang g f).fresh = s.fresh := rfl

/-! `modNode` -/

@[simp] theorem State.modNode_dev (n : Nat) (f : Node → Node) : (s.modNode n f).dev = s.dev := rfl
@[simp] theorem State.modNode_hbm (n : Nat) (f : Node → Node) : (s.modNode n f).hbm = s.hbm := rfl
@[simp] theorem State.modNode_cxl (n : Nat) (f : Node → Node) : (s.modNode n f).cxl = s.cxl := rfl
@[simp] theorem State.modNode_cxlPoison (n : Nat) (f : Node → Node) : (s.modNode n f).cxlPoison = s.cxlPoison := rfl
@[simp] theorem State.modNode_latent (n : Nat) (f : Node → Node) : (s.modNode n f).latent = s.latent := rfl
@[simp] theorem State.modNode_cores (n : Nat) (f : Node → Node) : (s.modNode n f).cores = s.cores := rfl
@[simp] theorem State.modNode_blocks (n : Nat) (f : Node → Node) : (s.modNode n f).blocks = s.blocks := rfl
@[simp] theorem State.modNode_gangs (n : Nat) (f : Node → Node) : (s.modNode n f).gangs = s.gangs := rfl
@[simp] theorem State.modNode_nodes (n : Nat) (f : Node → Node) : (s.modNode n f).nodes = Tab.modify s.nodes n f := rfl
@[simp] theorem State.modNode_ctxs (n : Nat) (f : Node → Node) : (s.modNode n f).ctxs = s.ctxs := rfl
@[simp] theorem State.modNode_parts (n : Nat) (f : Node → Node) : (s.modNode n f).parts = s.parts := rfl
@[simp] theorem State.modNode_agenda (n : Nat) (f : Node → Node) : (s.modNode n f).agenda = s.agenda := rfl
@[simp] theorem State.modNode_cur (n : Nat) (f : Node → Node) : (s.modNode n f).cur = s.cur := rfl
@[simp] theorem State.modNode_out (n : Nat) (f : Node → Node) : (s.modNode n f).out = s.out := rfl
@[simp] theorem State.modNode_fresh (n : Nat) (f : Node → Node) : (s.modNode n f).fresh = s.fresh := rfl

/-! `modDev` -/

@[simp] theorem State.modDev_dev (f : Dev → Dev) : (s.modDev f).dev = f s.dev := rfl
@[simp] theorem State.modDev_hbm (f : Dev → Dev) : (s.modDev f).hbm = s.hbm := rfl
@[simp] theorem State.modDev_cxl (f : Dev → Dev) : (s.modDev f).cxl = s.cxl := rfl
@[simp] theorem State.modDev_cxlPoison (f : Dev → Dev) : (s.modDev f).cxlPoison = s.cxlPoison := rfl
@[simp] theorem State.modDev_latent (f : Dev → Dev) : (s.modDev f).latent = s.latent := rfl
@[simp] theorem State.modDev_cores (f : Dev → Dev) : (s.modDev f).cores = s.cores := rfl
@[simp] theorem State.modDev_blocks (f : Dev → Dev) : (s.modDev f).blocks = s.blocks := rfl
@[simp] theorem State.modDev_gangs (f : Dev → Dev) : (s.modDev f).gangs = s.gangs := rfl
@[simp] theorem State.modDev_nodes (f : Dev → Dev) : (s.modDev f).nodes = s.nodes := rfl
@[simp] theorem State.modDev_ctxs (f : Dev → Dev) : (s.modDev f).ctxs = s.ctxs := rfl
@[simp] theorem State.modDev_parts (f : Dev → Dev) : (s.modDev f).parts = s.parts := rfl
@[simp] theorem State.modDev_agenda (f : Dev → Dev) : (s.modDev f).agenda = s.agenda := rfl
@[simp] theorem State.modDev_cur (f : Dev → Dev) : (s.modDev f).cur = s.cur := rfl
@[simp] theorem State.modDev_out (f : Dev → Dev) : (s.modDev f).out = s.out := rfl
@[simp] theorem State.modDev_fresh (f : Dev → Dev) : (s.modDev f).fresh = s.fresh := rfl

/-! `say` and `tick` -/

@[simp] theorem State.say_dev (m : Msg) : (s.say m).dev = s.dev := rfl
@[simp] theorem State.say_hbm (m : Msg) : (s.say m).hbm = s.hbm := rfl
@[simp] theorem State.say_cxl (m : Msg) : (s.say m).cxl = s.cxl := rfl
@[simp] theorem State.say_cxlPoison (m : Msg) : (s.say m).cxlPoison = s.cxlPoison := rfl
@[simp] theorem State.say_latent (m : Msg) : (s.say m).latent = s.latent := rfl
@[simp] theorem State.say_cores (m : Msg) : (s.say m).cores = s.cores := rfl
@[simp] theorem State.say_blocks (m : Msg) : (s.say m).blocks = s.blocks := rfl
@[simp] theorem State.say_gangs (m : Msg) : (s.say m).gangs = s.gangs := rfl
@[simp] theorem State.say_nodes (m : Msg) : (s.say m).nodes = s.nodes := rfl
@[simp] theorem State.say_ctxs (m : Msg) : (s.say m).ctxs = s.ctxs := rfl
@[simp] theorem State.say_parts (m : Msg) : (s.say m).parts = s.parts := rfl
@[simp] theorem State.say_agenda (m : Msg) : (s.say m).agenda = s.agenda := rfl
@[simp] theorem State.say_cur (m : Msg) : (s.say m).cur = s.cur := rfl
@[simp] theorem State.say_out (m : Msg) : (s.say m).out = s.out ++ [m] := rfl
@[simp] theorem State.say_fresh (m : Msg) : (s.say m).fresh = s.fresh := rfl
@[simp] theorem State.tick_dev : s.tick.dev = s.dev := rfl
@[simp] theorem State.tick_hbm : s.tick.hbm = s.hbm := rfl
@[simp] theorem State.tick_cxl : s.tick.cxl = s.cxl := rfl
@[simp] theorem State.tick_cxlPoison : s.tick.cxlPoison = s.cxlPoison := rfl
@[simp] theorem State.tick_latent : s.tick.latent = s.latent := rfl
@[simp] theorem State.tick_cores : s.tick.cores = s.cores := rfl
@[simp] theorem State.tick_blocks : s.tick.blocks = s.blocks := rfl
@[simp] theorem State.tick_gangs : s.tick.gangs = s.gangs := rfl
@[simp] theorem State.tick_nodes : s.tick.nodes = s.nodes := rfl
@[simp] theorem State.tick_ctxs : s.tick.ctxs = s.ctxs := rfl
@[simp] theorem State.tick_parts : s.tick.parts = s.parts := rfl
@[simp] theorem State.tick_agenda : s.tick.agenda = s.agenda := rfl
@[simp] theorem State.tick_cur : s.tick.cur = s.cur := rfl
@[simp] theorem State.tick_out : s.tick.out = s.out := rfl
@[simp] theorem State.tick_fresh : s.tick.fresh = s.fresh + 1 := rfl

/-! `modThr` -/

@[simp] theorem State.modThr_dev (b t : Nat) (f : Thread → Thread) : (s.modThr b t f).dev = s.dev := rfl
@[simp] theorem State.modThr_hbm (b t : Nat) (f : Thread → Thread) : (s.modThr b t f).hbm = s.hbm := rfl
@[simp] theorem State.modThr_cxl (b t : Nat) (f : Thread → Thread) : (s.modThr b t f).cxl = s.cxl := rfl
@[simp] theorem State.modThr_cxlPoison (b t : Nat) (f : Thread → Thread) : (s.modThr b t f).cxlPoison = s.cxlPoison := rfl
@[simp] theorem State.modThr_latent (b t : Nat) (f : Thread → Thread) : (s.modThr b t f).latent = s.latent := rfl
@[simp] theorem State.modThr_cores (b t : Nat) (f : Thread → Thread) : (s.modThr b t f).cores = s.cores := rfl
@[simp] theorem State.modThr_blocks (b t : Nat) (f : Thread → Thread) : (s.modThr b t f).blocks = Tab.modify s.blocks b fun k => k.modThr t f := rfl
@[simp] theorem State.modThr_gangs (b t : Nat) (f : Thread → Thread) : (s.modThr b t f).gangs = s.gangs := rfl
@[simp] theorem State.modThr_nodes (b t : Nat) (f : Thread → Thread) : (s.modThr b t f).nodes = s.nodes := rfl
@[simp] theorem State.modThr_ctxs (b t : Nat) (f : Thread → Thread) : (s.modThr b t f).ctxs = s.ctxs := rfl
@[simp] theorem State.modThr_parts (b t : Nat) (f : Thread → Thread) : (s.modThr b t f).parts = s.parts := rfl
@[simp] theorem State.modThr_agenda (b t : Nat) (f : Thread → Thread) : (s.modThr b t f).agenda = s.agenda := rfl
@[simp] theorem State.modThr_cur (b t : Nat) (f : Thread → Thread) : (s.modThr b t f).cur = s.cur := rfl
@[simp] theorem State.modThr_out (b t : Nat) (f : Thread → Thread) : (s.modThr b t f).out = s.out := rfl
@[simp] theorem State.modThr_fresh (b t : Nat) (f : Thread → Thread) : (s.modThr b t f).fresh = s.fresh := rfl

/-! `modRip` -/

@[simp] theorem State.modRip_dev (b r : Nat) (f : Ripple → Ripple) : (s.modRip b r f).dev = s.dev := rfl
@[simp] theorem State.modRip_hbm (b r : Nat) (f : Ripple → Ripple) : (s.modRip b r f).hbm = s.hbm := rfl
@[simp] theorem State.modRip_cxl (b r : Nat) (f : Ripple → Ripple) : (s.modRip b r f).cxl = s.cxl := rfl
@[simp] theorem State.modRip_cxlPoison (b r : Nat) (f : Ripple → Ripple) : (s.modRip b r f).cxlPoison = s.cxlPoison := rfl
@[simp] theorem State.modRip_latent (b r : Nat) (f : Ripple → Ripple) : (s.modRip b r f).latent = s.latent := rfl
@[simp] theorem State.modRip_cores (b r : Nat) (f : Ripple → Ripple) : (s.modRip b r f).cores = s.cores := rfl
@[simp] theorem State.modRip_blocks (b r : Nat) (f : Ripple → Ripple) : (s.modRip b r f).blocks = Tab.modify s.blocks b fun k => { k with rip := Tab.modify k.rip r f } := rfl
@[simp] theorem State.modRip_gangs (b r : Nat) (f : Ripple → Ripple) : (s.modRip b r f).gangs = s.gangs := rfl
@[simp] theorem State.modRip_nodes (b r : Nat) (f : Ripple → Ripple) : (s.modRip b r f).nodes = s.nodes := rfl
@[simp] theorem State.modRip_ctxs (b r : Nat) (f : Ripple → Ripple) : (s.modRip b r f).ctxs = s.ctxs := rfl
@[simp] theorem State.modRip_parts (b r : Nat) (f : Ripple → Ripple) : (s.modRip b r f).parts = s.parts := rfl
@[simp] theorem State.modRip_agenda (b r : Nat) (f : Ripple → Ripple) : (s.modRip b r f).agenda = s.agenda := rfl
@[simp] theorem State.modRip_cur (b r : Nat) (f : Ripple → Ripple) : (s.modRip b r f).cur = s.cur := rfl
@[simp] theorem State.modRip_out (b r : Nat) (f : Ripple → Ripple) : (s.modRip b r f).out = s.out := rfl
@[simp] theorem State.modRip_fresh (b r : Nat) (f : Ripple → Ripple) : (s.modRip b r f).fresh = s.fresh := rfl

/-! `modChain` -/

@[simp] theorem State.modChain_dev (b e : Nat) (f : Chain → Chain) : (s.modChain b e f).dev = s.dev := rfl
@[simp] theorem State.modChain_hbm (b e : Nat) (f : Chain → Chain) : (s.modChain b e f).hbm = s.hbm := rfl
@[simp] theorem State.modChain_cxl (b e : Nat) (f : Chain → Chain) : (s.modChain b e f).cxl = s.cxl := rfl
@[simp] theorem State.modChain_cxlPoison (b e : Nat) (f : Chain → Chain) : (s.modChain b e f).cxlPoison = s.cxlPoison := rfl
@[simp] theorem State.modChain_latent (b e : Nat) (f : Chain → Chain) : (s.modChain b e f).latent = s.latent := rfl
@[simp] theorem State.modChain_cores (b e : Nat) (f : Chain → Chain) : (s.modChain b e f).cores = s.cores := rfl
@[simp] theorem State.modChain_blocks (b e : Nat) (f : Chain → Chain) : (s.modChain b e f).blocks = Tab.modify s.blocks b fun k => { k with chain := Tab.put k.chain e (f (k.chainOf e)) } := rfl
@[simp] theorem State.modChain_gangs (b e : Nat) (f : Chain → Chain) : (s.modChain b e f).gangs = s.gangs := rfl
@[simp] theorem State.modChain_nodes (b e : Nat) (f : Chain → Chain) : (s.modChain b e f).nodes = s.nodes := rfl
@[simp] theorem State.modChain_ctxs (b e : Nat) (f : Chain → Chain) : (s.modChain b e f).ctxs = s.ctxs := rfl
@[simp] theorem State.modChain_parts (b e : Nat) (f : Chain → Chain) : (s.modChain b e f).parts = s.parts := rfl
@[simp] theorem State.modChain_agenda (b e : Nat) (f : Chain → Chain) : (s.modChain b e f).agenda = s.agenda := rfl
@[simp] theorem State.modChain_cur (b e : Nat) (f : Chain → Chain) : (s.modChain b e f).cur = s.cur := rfl
@[simp] theorem State.modChain_out (b e : Nat) (f : Chain → Chain) : (s.modChain b e f).out = s.out := rfl
@[simp] theorem State.modChain_fresh (b e : Nat) (f : Chain → Chain) : (s.modChain b e f).fresh = s.fresh := rfl

/-! `modQueue` -/

@[simp] theorem State.modQueue_dev (c q : Nat) (f : HQueue → HQueue) : (s.modQueue c q f).dev = s.dev := rfl
@[simp] theorem State.modQueue_hbm (c q : Nat) (f : HQueue → HQueue) : (s.modQueue c q f).hbm = s.hbm := rfl
@[simp] theorem State.modQueue_cxl (c q : Nat) (f : HQueue → HQueue) : (s.modQueue c q f).cxl = s.cxl := rfl
@[simp] theorem State.modQueue_cxlPoison (c q : Nat) (f : HQueue → HQueue) : (s.modQueue c q f).cxlPoison = s.cxlPoison := rfl
@[simp] theorem State.modQueue_latent (c q : Nat) (f : HQueue → HQueue) : (s.modQueue c q f).latent = s.latent := rfl
@[simp] theorem State.modQueue_cores (c q : Nat) (f : HQueue → HQueue) : (s.modQueue c q f).cores = s.cores := rfl
@[simp] theorem State.modQueue_blocks (c q : Nat) (f : HQueue → HQueue) : (s.modQueue c q f).blocks = s.blocks := rfl
@[simp] theorem State.modQueue_gangs (c q : Nat) (f : HQueue → HQueue) : (s.modQueue c q f).gangs = s.gangs := rfl
@[simp] theorem State.modQueue_nodes (c q : Nat) (f : HQueue → HQueue) : (s.modQueue c q f).nodes = s.nodes := rfl
@[simp] theorem State.modQueue_ctxs (c q : Nat) (f : HQueue → HQueue) : (s.modQueue c q f).ctxs = Tab.put s.ctxs c { s.ctx c with queues := Tab.put (s.ctx c).queues q (f (Tab.get {} (s.ctx c).queues q)) } := rfl
@[simp] theorem State.modQueue_parts (c q : Nat) (f : HQueue → HQueue) : (s.modQueue c q f).parts = s.parts := rfl
@[simp] theorem State.modQueue_agenda (c q : Nat) (f : HQueue → HQueue) : (s.modQueue c q f).agenda = s.agenda := rfl
@[simp] theorem State.modQueue_cur (c q : Nat) (f : HQueue → HQueue) : (s.modQueue c q f).cur = s.cur := rfl
@[simp] theorem State.modQueue_out (c q : Nat) (f : HQueue → HQueue) : (s.modQueue c q f).out = s.out := rfl
@[simp] theorem State.modQueue_fresh (c q : Nat) (f : HQueue → HQueue) : (s.modQueue c q f).fresh = s.fresh := rfl

/-! `modBank` -/

@[simp] theorem State.modBank_dev (c n : Nat) (f : Bank → Bank) : (s.modBank c n f).dev = s.dev := rfl
@[simp] theorem State.modBank_hbm (c n : Nat) (f : Bank → Bank) : (s.modBank c n f).hbm = s.hbm := rfl
@[simp] theorem State.modBank_cxl (c n : Nat) (f : Bank → Bank) : (s.modBank c n f).cxl = s.cxl := rfl
@[simp] theorem State.modBank_cxlPoison (c n : Nat) (f : Bank → Bank) : (s.modBank c n f).cxlPoison = s.cxlPoison := rfl
@[simp] theorem State.modBank_latent (c n : Nat) (f : Bank → Bank) : (s.modBank c n f).latent = s.latent := rfl
@[simp] theorem State.modBank_cores (c n : Nat) (f : Bank → Bank) : (s.modBank c n f).cores = Tab.put s.cores c { s.core c with bank := Tab.put (s.core c).bank n (f ((s.core c).bankOf n)) } := rfl
@[simp] theorem State.modBank_blocks (c n : Nat) (f : Bank → Bank) : (s.modBank c n f).blocks = s.blocks := rfl
@[simp] theorem State.modBank_gangs (c n : Nat) (f : Bank → Bank) : (s.modBank c n f).gangs = s.gangs := rfl
@[simp] theorem State.modBank_nodes (c n : Nat) (f : Bank → Bank) : (s.modBank c n f).nodes = s.nodes := rfl
@[simp] theorem State.modBank_ctxs (c n : Nat) (f : Bank → Bank) : (s.modBank c n f).ctxs = s.ctxs := rfl
@[simp] theorem State.modBank_parts (c n : Nat) (f : Bank → Bank) : (s.modBank c n f).parts = s.parts := rfl
@[simp] theorem State.modBank_agenda (c n : Nat) (f : Bank → Bank) : (s.modBank c n f).agenda = s.agenda := rfl
@[simp] theorem State.modBank_cur (c n : Nat) (f : Bank → Bank) : (s.modBank c n f).cur = s.cur := rfl
@[simp] theorem State.modBank_out (c n : Nat) (f : Bank → Bank) : (s.modBank c n f).out = s.out := rfl
@[simp] theorem State.modBank_fresh (c n : Nat) (f : Bank → Bank) : (s.modBank c n f).fresh = s.fresh := rfl

/-! `modLink` -/

@[simp] theorem State.modLink_dev (j : Nat) (f : Link → Link) : (s.modLink j f).dev = { s.dev with links := Tab.put s.dev.links j (f (s.dev.link j)) } := rfl
@[simp] theorem State.modLink_hbm (j : Nat) (f : Link → Link) : (s.modLink j f).hbm = s.hbm := rfl
@[simp] theorem State.modLink_cxl (j : Nat) (f : Link → Link) : (s.modLink j f).cxl = s.cxl := rfl
@[simp] theorem State.modLink_cxlPoison (j : Nat) (f : Link → Link) : (s.modLink j f).cxlPoison = s.cxlPoison := rfl
@[simp] theorem State.modLink_latent (j : Nat) (f : Link → Link) : (s.modLink j f).latent = s.latent := rfl
@[simp] theorem State.modLink_cores (j : Nat) (f : Link → Link) : (s.modLink j f).cores = s.cores := rfl
@[simp] theorem State.modLink_blocks (j : Nat) (f : Link → Link) : (s.modLink j f).blocks = s.blocks := rfl
@[simp] theorem State.modLink_gangs (j : Nat) (f : Link → Link) : (s.modLink j f).gangs = s.gangs := rfl
@[simp] theorem State.modLink_nodes (j : Nat) (f : Link → Link) : (s.modLink j f).nodes = s.nodes := rfl
@[simp] theorem State.modLink_ctxs (j : Nat) (f : Link → Link) : (s.modLink j f).ctxs = s.ctxs := rfl
@[simp] theorem State.modLink_parts (j : Nat) (f : Link → Link) : (s.modLink j f).parts = s.parts := rfl
@[simp] theorem State.modLink_agenda (j : Nat) (f : Link → Link) : (s.modLink j f).agenda = s.agenda := rfl
@[simp] theorem State.modLink_cur (j : Nat) (f : Link → Link) : (s.modLink j f).cur = s.cur := rfl
@[simp] theorem State.modLink_out (j : Nat) (f : Link → Link) : (s.modLink j f).out = s.out := rfl
@[simp] theorem State.modLink_fresh (j : Nat) (f : Link → Link) : (s.modLink j f).fresh = s.fresh := rfl

/-! ## Reading an entry after its table is changed -/

variable {s}

@[simp] theorem State.core_modCore_self (c : Nat) (f : Core → Core) : (s.modCore c f).core c = f (s.core c) := by
  simp [State.core, Tab.get, Tab.find_put_self]
theorem State.core_modCore_ne {c d : Nat} (f : Core → Core) (h : d ≠ c) : (s.modCore c f).core d = s.core d := by
  simp [State.core, Tab.get, Tab.find_put_ne _ h]
@[simp] theorem State.ctx_modCtx_self (c : Nat) (f : Ctx → Ctx) : (s.modCtx c f).ctx c = f (s.ctx c) := by
  simp [State.ctx, Tab.get, Tab.find_put_self]
theorem State.ctx_modCtx_ne {c d : Nat} (f : Ctx → Ctx) (h : d ≠ c) : (s.modCtx c f).ctx d = s.ctx d := by
  simp [State.ctx, Tab.get, Tab.find_put_ne _ h]
@[simp] theorem State.part_modPart_self (p : Nat) (f : Prt → Prt) : (s.modPart p f).part p = f (s.part p) := by
  simp [State.part, Tab.get, Tab.find_put_self]
theorem State.part_modPart_ne {p q : Nat} (f : Prt → Prt) (h : q ≠ p) : (s.modPart p f).part q = s.part q := by
  simp [State.part, Tab.get, Tab.find_put_ne _ h]
@[simp] theorem State.blk_modBlk_self (b : Nat) (f : Block → Block) : (s.modBlk b f).blk b = (s.blk b).map f := by
  simp [State.blk, Tab.find_modify_self]
theorem State.blk_modBlk_ne {b c : Nat} (f : Block → Block) (h : c ≠ b) : (s.modBlk b f).blk c = s.blk c := by
  simp [State.blk, Tab.find_modify_ne _ h]
@[simp] theorem State.blk_modThr_self (b t : Nat) (f : Thread → Thread) :
    (s.modThr b t f).blk b = (s.blk b).map fun k => k.modThr t f := State.blk_modBlk_self b _
theorem State.blk_modThr_ne {b c : Nat} (t : Nat) (f : Thread → Thread) (h : c ≠ b) : (s.modThr b t f).blk c = s.blk c :=
  State.blk_modBlk_ne _ h
@[simp] theorem State.thr_modThr_self (b t : Nat) (f : Thread → Thread) : (s.modThr b t f).thr b t = (s.thr b t).map f := by
  cases h : s.blk b <;> simp [State.thr, h, Block.modThr, Tab.find_modify_self]
theorem State.thr_modThr_ne {b t u : Nat} (f : Thread → Thread) (h : u ≠ t) : (s.modThr b t f).thr b u = s.thr b u := by
  cases h' : s.blk b <;> simp [State.thr, h', Block.modThr, Tab.find_modify_ne _ h]
@[simp] theorem State.queue_modQueue_self (c q : Nat) (f : HQueue → HQueue) :
    (s.modQueue c q f).queue c q = f (s.queue c q) := by
  simp [State.queue, State.modQueue]
@[simp] theorem State.link_modLink_self (j : Nat) (f : Link → Link) : (s.modLink j f).dev.link j = f (s.dev.link j) := by
  simp [Dev.link, Tab.get, Tab.find_put_self]

end Sys2Proof.Machine
end

