-- ==== Sys2Proof/Laws/Ops.lean ====
section
/-! SUPPORT. What the shared operations can do: regrouping, moving threads on, issuing. A prover cites these and unfolds
none of them. -/

namespace Sys2Proof.Machine

theorem foldl_const {α β : Type} (s : α) (l : List β) : l.foldl (fun s _ => s) s = s := by
  induction l with
  | nil => rfl
  | cons _ _ ih => exact ih

/-! ## Changes within one block -/

/-- `s'` is `s` but for block `b`, which was `k` and is `k'`. -/
structure OnBlock (s s' : State) (b : Nat) (k k' : Block) : Prop where
  rest : s' = { s with blocks := s'.blocks }
  before : s.blk b = some k
  after : s'.blk b = some k'
  others : ∀ c, c ≠ b → s'.blk c = s.blk c

theorem OnBlock.refl {s : State} {b : Nat} {k : Block} (h : s.blk b = some k) : OnBlock s s b k k :=
  ⟨rfl, h, h, fun _ _ => rfl⟩

theorem OnBlock.trans {s s' s'' : State} {b : Nat} {k k' k'' : Block} (h : OnBlock s s' b k k')
    (h' : OnBlock s' s'' b k' k'') : OnBlock s s'' b k k'' :=
  ⟨by rw [h'.rest, h.rest], h.before, h'.after, fun c hc => by rw [h'.others c hc, h.others c hc]⟩

theorem OnBlock.modBlk {s : State} {b : Nat} {k : Block} (f : Block → Block) (h : s.blk b = some k) :
    OnBlock s (s.modBlk b f) b k (f k) :=
  ⟨rfl, h, by simp [h], fun _ hc => State.blk_modBlk_ne f hc⟩

/-- A fold of changes within a block. -/
theorem OnBlock.foldl {α : Type} {b : Nat} (g : State → α → State) (f : Block → α → Block)
    (hg : ∀ s k a, s.blk b = some k → OnBlock s (g s a) b k (f k a)) (l : List α) {s : State} {k : Block}
    (h : s.blk b = some k) : OnBlock s (l.foldl g s) b k (l.foldl f k) := by
  induction l generalizing s k with
  | nil => exact .refl h
  | cons a l ih => exact (hg s k a h).trans (ih (hg s k a h).after)

theorem OnBlock.gangs {s s' : State} {b : Nat} {k k' : Block} (h : OnBlock s s' b k k') : s'.gangs = s.gangs := by
  rw [h.rest]

/-! ## Ripples -/

/-- A block changed in its ripples only. -/
def Block.SameButRip (k k' : Block) : Prop := k' = { k with rip := k'.rip, nextRip := k'.nextRip }

theorem Block.SameButRip.refl (k : Block) : k.SameButRip k := rfl

theorem Block.SameButRip.trans {k k' k'' : Block} (h : k.SameButRip k') (h' : k'.SameButRip k'') : k.SameButRip k'' := by
  unfold Block.SameButRip at *; rw [h', h]

/-- Forming ripples changes ripples only. -/
theorem State.addRipple_spec {s : State} {b : Nat} {k : Block} (ts : List Nat) (busy : Option Instr)
    (stall : Option (Nat × Nat)) (h : s.blk b = some k) :
    ∃ k', OnBlock s (s.addRipple b ts busy stall) b k k' ∧ k.SameButRip k' := by
  simp only [State.addRipple, h]
  exact ⟨_, OnBlock.modBlk _ h, rfl⟩

theorem State.foldl_rip {α : Type} (b : Nat) (g : State → α → State)
    (hg : ∀ s a k, s.blk b = some k → ∃ k', OnBlock s (g s a) b k k' ∧ k.SameButRip k') (l : List α) {s : State}
    {k : Block} (h : s.blk b = some k) : ∃ k', OnBlock s (l.foldl g s) b k k' ∧ k.SameButRip k' := by
  induction l generalizing s k with
  | nil => exact ⟨k, .refl h, rfl⟩
  | cons a l ih =>
    obtain ⟨k1, h1, e1⟩ := hg s a k h
    obtain ⟨k2, h2, e2⟩ := ih h1.after
    exact ⟨k2, h1.trans h2, e1.trans e2⟩

theorem State.pack_spec {s : State} {b : Nat} {k : Block} (ts : List Nat) (busy : Option Instr)
    (stall : Option (Nat × Nat)) (h : s.blk b = some k) : ∃ k', OnBlock s (s.pack b ts busy stall) b k k' ∧ k.SameButRip k' :=
  State.foldl_rip b _ (fun _ l _ h => State.addRipple_spec l busy stall h) _ h

/-- Regrouping changes ripples only (R124). -/
theorem State.regroup_spec {s : State} {b : Nat} {k : Block} (r : Nat) (busy : Option Instr)
    (stall : Option (Nat × Nat)) (stands : List Nat) (h : s.blk b = some k) :
    ∃ k', OnBlock s (s.regroup b r busy stall stands) b k k' ∧ k.SameButRip k' := by
  simp only [State.regroup, h]
  split
  · exact ⟨k, .refl h, rfl⟩
  · split
    · exact ⟨_, OnBlock.modBlk _ h, rfl⟩
    · exact ⟨_, OnBlock.modBlk _ h, rfl⟩
    · obtain ⟨k2, h2, e2⟩ := State.foldl_rip b (fun s (n : Nat) => s.pack b _ _ _)
        (fun _ _ _ h => State.pack_spec _ _ _ h) _ (OnBlock.modBlk (fun k => { k with rip := Tab.del k.rip r }) h).after
      exact ⟨k2, (OnBlock.modBlk _ h).trans h2, by unfold Block.SameButRip at *; rw [e2]⟩

/-! ## Threads of a block -/

/-- A block changed in its threads and ripples only. -/
def Block.SameButThr (k k' : Block) : Prop := k' = { k with thr := k'.thr, rip := k'.rip, nextRip := k'.nextRip }

/-- What a list of changes to threads, each idempotent, leaves of one thread. -/
theorem Block.find_foldl_modThr (f : Nat → Thread → Thread) (hf : ∀ t x, f t (f t x) = f t x) (ts : List Nat) (k : Block)
    (t : Nat) : Tab.find (ts.foldl (fun k t => k.modThr t (f t)) k).thr t =
      if t ∈ ts then (Tab.find k.thr t).map (f t) else Tab.find k.thr t := by
  induction ts generalizing k with
  | nil => simp
  | cons u ts ih =>
    rw [List.foldl_cons, ih]
    by_cases hu : t = u
    · subst hu
      simp only [Block.modThr, Tab.find_modify_self, List.mem_cons, true_or, if_true]
      split
      · cases Tab.find k.thr t <;> simp [hf]
      · rfl
    · simp [Block.modThr, Tab.find_modify_ne _ hu, hu]

theorem Block.sameButThr_foldl (f : Nat → Thread → Thread) (ts : List Nat) (k : Block) :
    ts.foldl (fun k t => k.modThr t (f t)) k = { k with thr := (ts.foldl (fun k t => k.modThr t (f t)) k).thr } := by
  induction ts generalizing k with
  | nil => rfl
  | cons u ts ih => rw [List.foldl_cons, ih]; rfl

/-- A thread that goes on at a PC (R128, R134). -/
def Thread.moved (x : Thread) (entry pc : DWord) (rest : Bool) : Thread := { x.goto entry pc with rest := rest }

theorem Thread.moved_idem (x : Thread) (entry pc : DWord) (rest : Bool) :
    (x.moved entry pc rest).moved entry pc rest = x.moved entry pc rest := by
  unfold Thread.moved Thread.goto Thread.clearLatches
  by_cases hp : x.pc = pc <;> by_cases h : lo32 (pc - entry) = x.meet <;> simp [h, hp]

@[simp] theorem Thread.moved_pc (x : Thread) (entry pc : DWord) (rest : Bool) : (x.moved entry pc rest).pc = pc := by
  unfold Thread.moved Thread.goto Thread.clearLatches; dsimp only; split <;> rfl
@[simp] theorem Thread.moved_o (x : Thread) (entry pc : DWord) (rest : Bool) : (x.moved entry pc rest).o = x.o := by
  unfold Thread.moved Thread.goto Thread.clearLatches; dsimp only; split <;> rfl
@[simp] theorem Thread.moved_p (x : Thread) (entry pc : DWord) (rest : Bool) : (x.moved entry pc rest).p = x.p := by
  unfold Thread.moved Thread.goto Thread.clearLatches; dsimp only; split <;> rfl
@[simp] theorem Thread.moved_fflags (x : Thread) (entry pc : DWord) (rest : Bool) :
    (x.moved entry pc rest).fflags = x.fflags := by
  unfold Thread.moved Thread.goto Thread.clearLatches; dsimp only; split <;> rfl
@[simp] theorem Thread.moved_meet (x : Thread) (entry pc : DWord) (rest : Bool) : (x.moved entry pc rest).meet = x.meet := by
  unfold Thread.moved Thread.goto Thread.clearLatches; dsimp only; split <;> rfl
@[simp] theorem Thread.moved_win (x : Thread) (entry pc : DWord) (rest : Bool) : (x.moved entry pc rest).win = x.win := by
  unfold Thread.moved Thread.goto Thread.clearLatches; dsimp only; split <;> rfl
@[simp] theorem Thread.moved_tnext (x : Thread) (entry pc : DWord) (rest : Bool) :
    (x.moved entry pc rest).tnext = x.tnext := by
  unfold Thread.moved Thread.goto Thread.clearLatches; dsimp only; split <;> rfl
@[simp] theorem Thread.moved_handler (x : Thread) (entry pc : DWord) (rest : Bool) :
    (x.moved entry pc rest).handler = x.handler := by
  unfold Thread.moved Thread.goto Thread.clearLatches; dsimp only; split <;> rfl

/-- A thread that goes on to another PC runs, or is HELD where it arrives at its meeting address, with its latches
cleared (R128). -/
theorem Thread.moved_st (x : Thread) (entry pc : DWord) (rest : Bool) (hp : x.pc ≠ pc) :
    (x.moved entry pc rest).st = if lo32 (pc - entry) = x.meet then .held else .running := by
  unfold Thread.moved Thread.goto Thread.clearLatches; simp only; split <;> simp_all
theorem Thread.moved_l0 (x : Thread) (entry pc : DWord) (rest : Bool) (hp : x.pc ≠ pc) :
    (x.moved entry pc rest).l0 = if lo32 (pc - entry) = x.meet then .invalid else x.l0 := by
  unfold Thread.moved Thread.goto Thread.clearLatches; simp only; split <;> simp_all
theorem Thread.moved_rest (x : Thread) (entry pc : DWord) (rest : Bool) : (x.moved entry pc rest).rest = rest := rfl
theorem Thread.moved_set_rest (x : Thread) (entry pc : DWord) (r r' : Bool) :
    { x.moved entry pc r with rest := r' } = x.moved entry pc r' := rfl

/-- A thread that goes on in a gang that is STOPPING, or is not: it rests at a switch point, and where it arrives at its
meeting address (R134). -/
def Thread.went (x : Thread) (entry pc : DWord) (sw stop : Bool) : Thread :=
  x.moved entry pc ((sw || (x.goto entry pc).st = .held) && stop)

theorem Thread.went_idem (x : Thread) (entry pc : DWord) (sw stop : Bool) :
    (x.went entry pc sw stop).went entry pc sw stop = x.went entry pc sw stop := by
  unfold Thread.went Thread.moved Thread.goto Thread.clearLatches
  by_cases hp : x.pc = pc <;> by_cases h : lo32 (pc - entry) = x.meet <;> simp [h, hp]

/-- Resting together changes nothing but `rest`, of some of the threads `ts`, and nothing where none of these rests. -/
theorem State.restTogether_spec {s : State} {b : Nat} {k : Block} (ts : List Nat) (h : s.blk b = some k) :
    ∃ k', OnBlock s (s.restTogether b ts) b k k' ∧ k' = { k with thr := k'.thr } ∧
      ∃ m : Nat → Bool, (∀ t, m t = true → t ∈ ts) ∧
        ((∀ t ∈ ts, ∀ x, Tab.find k.thr t = some x → x.rest = false) → ∀ t, m t = false) ∧
        ∀ t, Tab.find k'.thr t =
          if m t = true then (Tab.find k.thr t).map fun x => { x with rest := true } else Tab.find k.thr t := by
  let rests (t : Nat) : Bool := (Tab.find k.thr t).any (·.rest)
  let us := ts.filter fun t => k.rip.any fun e => e.2.threads.contains t && ts.any fun u => e.2.threads.contains u && rests u
  refine ⟨_, OnBlock.modBlk _ h, Block.sameButThr_foldl (fun _ x => { x with rest := true }) us k,
    fun t => us.contains t, fun t ht => ?_, fun hn t => ?_, fun t => ?_⟩
  · exact (List.mem_filter.mp (List.contains_iff_mem.mp ht)).1
  · rw [Bool.eq_false_iff]
    intro ht
    obtain ⟨-, ht⟩ := List.mem_filter.mp (List.contains_iff_mem.mp ht)
    simp only [List.any_eq_true, Bool.and_eq_true] at ht
    obtain ⟨e, -, -, u, hu, -, hr⟩ := ht
    simp only [rests, Option.any_eq_true] at hr
    obtain ⟨x, hx, hr⟩ := hr
    rw [hn u hu x hx] at hr; cases hr
  · have := Block.find_foldl_modThr (fun _ x => { x with rest := true }) (fun _ _ => rfl) us k t
    simp only [List.contains_iff_mem]
    exact this

/-- Threads that all go on at PCs: the only changes are their own, and the regrouping; none rests where the gang is not
STOPPING. -/
theorem State.apply_go {s : State} {b : Nat} {k : Block} (r : Nat) (i : Instr) (ts : List Nat) (pc : Nat → DWord)
    (sw : Nat → Bool) (h : s.blk b = some k) :
    ∃ (k' : Block) (rest : Nat → Bool), OnBlock s (s.apply b r i (ts.map fun t => (t, Fate.go (pc t) (sw t)))) b k k' ∧ k.SameButThr k' ∧
      (s.stopping k = false → ∀ t, rest t = false) ∧
      ∀ t, Tab.find k'.thr t =
        if t ∈ ts then (Tab.find k.thr t).map fun x => x.moved k.entry (pc t) (rest t) else Tab.find k.thr t := by
  have hmv : ∀ (l : List Nat) (s' : State) (k1 : Block), s'.gangs = s.gangs → s'.blk b = some k1 →
      OnBlock s' (l.foldl (fun s t => s.moveThread k b (t, Fate.go (pc t) (sw t))) s') b k1
        (l.foldl (fun k' t => k'.modThr t fun x => x.went k.entry (pc t) (sw t) (s.stopping k)) k1) := by
    intro l
    induction l with
    | nil => intro s' k1 _ hb; exact .refl hb
    | cons a l ih =>
      intro s' k1 hg hb
      have hst : s'.stopping k = s.stopping k := by simp only [State.stopping, hg]
      have h1 : OnBlock s' (s'.moveThread k b (a, Fate.go (pc a) (sw a))) b k1
          (k1.modThr a fun x => x.went k.entry (pc a) (sw a) (s.stopping k)) := by
        have := OnBlock.modBlk (s := s') (b := b) (k := k1)
          (fun k' => k'.modThr a fun x => x.went k.entry (pc a) (sw a) (s'.stopping k)) hb
        rw [hst] at this
        simpa [State.moveThread, Thread.went, Thread.moved, State.modThr, hst] using this
      exact h1.trans (ih _ _ (h1.gangs.trans hg) h1.after)
  have h1 := hmv ts s k rfl h
  obtain ⟨k2, h2, e2⟩ := State.regroup_spec r (some i) none
    (((ts.map fun t => (t, Fate.go (pc t) (sw t))).filter fun e => e.2.stands).map Prod.fst) h1.after
  obtain ⟨k3, h3, e3, m, hm, hn, h4⟩ := State.restTogether_spec ts h2.after
  have f2 : ∀ t, Tab.find k2.thr t = if t ∈ ts then
      (Tab.find k.thr t).map fun x => x.went k.entry (pc t) (sw t) (s.stopping k) else Tab.find k.thr t := by
    intro t
    have e : k2.thr = (ts.foldl (fun k' t => k'.modThr t fun x => x.went k.entry (pc t) (sw t) (s.stopping k)) k).thr := by
      unfold Block.SameButRip at e2; rw [e2]
    rw [e]
    exact Block.find_foldl_modThr (fun t x => x.went k.entry (pc t) (sw t) (s.stopping k))
      (fun _ _ => Thread.went_idem ..) ts k t
  refine ⟨k3, fun t => m t || ((sw t || (Tab.find k.thr t).any fun x => (x.goto k.entry (pc t)).st = .held) && s.stopping k),
    ?_, ?_, fun hs t => ?_, fun t => ?_⟩
  · have hex : (ts.map fun t => (t, Fate.go (pc t) (sw t))).any (fun e => decide (e.2 = Fate.exit)) = false := by simp
    have hfst : (ts.map fun t => (t, Fate.go (pc t) (sw t))).map Prod.fst = ts := by
      rw [List.map_map]; exact List.map_id' ts
    simp only [State.apply, hex, Bool.false_eq_true, if_false, hfst]
    simp only [List.foldl_map, foldl_const, h]
    exact (h1.trans h2).trans h3
  · have := Block.sameButThr_foldl (fun t x => x.went k.entry (pc t) (sw t) (s.stopping k)) ts k
    unfold Block.SameButRip at e2
    unfold Block.SameButThr
    rw [e3, e2, this]
  · have := hn fun u hu x hx => by
      rw [f2 u, if_pos hu] at hx
      cases hk : Tab.find k.thr u with
      | none => simp [hk] at hx
      | some y =>
        simp only [hk, Option.map_some, Option.some.injEq] at hx
        rw [← hx, Thread.went, Thread.moved_rest, hs, Bool.and_false]
    simp [this t, hs]
  · rw [h4, f2]
    by_cases ht : t ∈ ts
    · cases hmt : m t with
      | true => simp only [ht, hmt, if_true, Option.map_map, Bool.true_or]; rfl
      | false => cases hx : Tab.find k.thr t <;> simp [ht, hmt, Thread.went, hx]
    · have : m t = false := by
        rw [Bool.eq_false_iff]; exact fun h => ht (hm t h)
      simp [ht, this]

/-- An instruction whose threads all go on to PC + length. -/
theorem finish_go {q : Iss} {s : State} {k : Block} (h : s.blk q.b = some k) :
    ∃ (k' : Block) (rest : Nat → Bool), OnBlock s (finish q [] s) q.b k k' ∧ k.SameButThr k' ∧
      (s.stopping k = false → ∀ t, rest t = false) ∧
      ∀ t, Tab.find k'.thr t =
        if t ∈ q.ts then (Tab.find k.thr t).map fun x => x.moved k.entry q.next (rest t) else Tab.find k.thr t := by
  obtain ⟨k', rest, h1, h2, h3, h4⟩ := State.apply_go q.r q.i q.ts (fun _ => q.next) (fun _ => false) h
  exact ⟨k', rest, by simpa [finish, Iss.fates] using h1, h2, h3, h4⟩

/-! ## Issuing -/

/-- What the issuing ripple is made from. -/
theorem State.iss_spec {s : State} {i : Instr} {q : Iss} (h : s.iss i = some q) :
    s.cur = some (q.b, q.r) ∧ s.blk q.b = some q.k ∧ Tab.find q.k.rip q.r = some q.rp ∧ q.i = i ∧ q.ts = q.rp.threads ∧
      q.next = pcAdd q.pc i.length ∧
      q.on = q.ts.filter fun t => (Tab.find q.k.thr t).any fun x => guardHolds (instrGuard i) x.p := by
  simp only [State.iss, Option.bind_eq_some_iff, Option.map_eq_some_iff] at h
  obtain ⟨c, hc, k, hk, rp, hr, t, ht, x, hx, rfl⟩ := h
  exact ⟨hc, hk, hr, rfl, rfl, rfl, rfl⟩

/-- Everything that `issue` can do. -/
theorem issue_cases (i : Instr) (rdy : Iss → State → Bool) (run : Iss → State → State) (s : State) :
    (s.iss i = none ∧ issue i rdy run s = .fault .noRipple) ∨
    (∃ q, s.iss i = some q ∧
      ((∃ d, i.violation (s.env q.k) = some d ∧ issue i rdy run s = .next (trapAll q trapIllegal d 0 s)) ∨
       (i.violation (s.env q.k) = none ∧ (q.ready && rdy q s) = true ∧ issue i rdy run s = .next (run q s)) ∨
       (i.violation (s.env q.k) = none ∧ (q.ready && rdy q s) = false ∧ issue i rdy run s = .next s))) := by
  unfold issue
  cases h : s.iss i with
  | none => exact .inl ⟨rfl, rfl⟩
  | some q =>
    refine .inr ⟨q, rfl, ?_⟩
    cases hv : i.violation (s.env q.k) with
    | some d => exact .inl ⟨d, rfl, by simp [hv]⟩
    | none =>
      cases hr : q.ready && rdy q s with
      | true => exact .inr (.inl ⟨rfl, rfl, by simp [hv, hr]⟩)
      | false => exact .inr (.inr ⟨rfl, rfl, by simp [hv, hr]⟩)

/-- `issue` where the instruction runs. -/
theorem issue_run {i : Instr} {rdy : Iss → State → Bool} {run : Iss → State → State} {s : State} {q : Iss}
    (h : s.iss i = some q) (hv : i.violation (s.env q.k) = none) (hr : q.ready = true) (hd : rdy q s = true) :
    issue i rdy run s = .next (run q s) := by
  simp [issue, h, hv, hr, hd]

end Sys2Proof.Machine
end

