-- ==== Sys2Proof/Laws/PerInstr.lean ====
section
/-! SUPPORT. For every instruction: its bytes are as many as its length says, and its length is that of an S, M, L or X
form (R20); an event has none. -/

namespace Sys2Proof.Laws.EncodedLength

/-- The bytes of an instruction are as many as its length, which is 4, 8, 12 or 16, or 0 for an event. -/
def Statement (i : Instr) : Prop :=
  i.bytes.length = i.length ∧ (i.length = 0 ∨ i.length = 4 ∨ i.length = 8 ∨ i.length = 12 ∨ i.length = 16)

theorem length_bytes (ws : List Word) : (ws.flatMap Word.bytes).length = 4 * ws.length := by
  induction ws with
  | nil => rfl
  | cons w ws ih => simp [List.flatMap_cons, ih, Word.bytes]; omega

/-- An instruction of at most four words. -/
theorem of_words {i : Instr} {ws : List Word} (h : encode i = ws) (n : ws.length ≤ 4) : Statement i := by
  have e : i.length = 4 * ws.length := by simp [Instr.length, h]
  refine ⟨by simp only [Instr.bytes, h, e, length_bytes], ?_⟩
  omega

theorem of_std {i : Instr} {op : BitVec 8} {f : Std} (h : encode i = encStd op f) : Statement i :=
  of_words h (by cases e : f.lit <;> simp [encStd, e])

theorem of_s {i : Instr} {op : BitVec 8} {f : SForm} (h : encode i = encS op f) : Statement i :=
  of_words h (by simp [encS])

theorem of_x {i : Instr} {b : BitVec 128} (h : encode i = words4 b) : Statement i := of_words h (by simp [words4])

theorem of_event {i : Instr} (h : encode i = []) : Statement i := of_words h (by simp)

theorem nop (f : SForm) : Statement (.nop f) := of_s rfl
theorem bra (f : Std) : Statement (.bra f) := of_std rfl
theorem brx (f : Std) : Statement (.brx f) := of_std rfl
theorem call (f : Std) : Statement (.call f) := of_std rfl
theorem ret (f : SForm) : Statement (.ret f) := of_s rfl
theorem meet (f : Std) : Statement (.meet f) := of_std rfl
theorem exit (f : SForm) : Statement (.exit f) := of_s rfl
theorem yield (f : SForm) : Statement (.yield f) := of_s rfl
theorem bkpt (f : SForm) : Statement (.bkpt f) := of_s rfl
theorem trap (f : Std) : Statement (.trap f) := of_std rfl
theorem rtt (f : Std) : Statement (.rtt f) := of_std rfl
theorem add (f : Std) : Statement (.add f) := of_std rfl
theorem addc (f : Std) : Statement (.addc f) := of_std rfl
theorem sub (f : Std) : Statement (.sub f) := of_std rfl
theorem subb (f : Std) : Statement (.subb f) := of_std rfl
theorem mul (f : Std) : Statement (.mul f) := of_std rfl
theorem mulh (f : Std) : Statement (.mulh f) := of_std rfl
theorem mad (f : Std) : Statement (.mad f) := of_std rfl
theorem madc (f : Std) : Statement (.madc f) := of_std rfl
theorem madw (f : Std) : Statement (.madw f) := of_std rfl
theorem absd (f : Std) : Statement (.absd f) := of_std rfl
theorem min (f : Std) : Statement (.min f) := of_std rfl
theorem max (f : Std) : Statement (.max f) := of_std rfl
theorem neg (f : Std) : Statement (.neg f) := of_std rfl
theorem dot4 (f : Std) : Statement (.dot4 f) := of_std rfl
theorem lea (f : Std) : Statement (.lea f) := of_std rfl
theorem movS (f : SForm) : Statement (.movS f) := of_s rfl
theorem mov (f : Std) : Statement (.mov f) := of_std rfl
theorem shl (f : Std) : Statement (.shl f) := of_std rfl
theorem shr (f : Std) : Statement (.shr f) := of_std rfl
theorem sar (f : Std) : Statement (.sar f) := of_std rfl
theorem fsh (f : Std) : Statement (.fsh f) := of_std rfl
theorem tern (f : Std) : Statement (.tern f) := of_std rfl
theorem popc (f : Std) : Statement (.popc f) := of_std rfl
theorem clz (f : Std) : Statement (.clz f) := of_std rfl
theorem brev (f : Std) : Statement (.brev f) := of_std rfl
theorem bfx (f : Std) : Statement (.bfx f) := of_std rfl
theorem bfi (f : Std) : Statement (.bfi f) := of_std rfl
theorem perm (f : Std) : Statement (.perm f) := of_std rfl
theorem icmp (f : Std) : Statement (.icmp f) := of_std rfl
theorem sel (f : Std) : Statement (.sel f) := of_std rfl
theorem pset (f : Std) : Statement (.pset f) := of_std rfl
theorem fadd (f : Std) : Statement (.fadd f) := of_std rfl
theorem fmul (f : Std) : Statement (.fmul f) := of_std rfl
theorem ffma (f : Std) : Statement (.ffma f) := of_std rfl
theorem fmin (f : Std) : Statement (.fmin f) := of_std rfl
theorem fmax (f : Std) : Statement (.fmax f) := of_std rfl
theorem fcmp (f : Std) : Statement (.fcmp f) := of_std rfl
theorem fclass (f : Std) : Statement (.fclass f) := of_std rfl
theorem frnd (f : Std) : Statement (.frnd f) := of_std rfl
theorem fdiv (f : Std) : Statement (.fdiv f) := of_std rfl
theorem cvt (f : Std) : Statement (.cvt f) := of_std rfl
theorem frcp (f : Std) : Statement (.frcp f) := of_std rfl
theorem frsq (f : Std) : Statement (.frsq f) := of_std rfl
theorem fsqrt (f : Std) : Statement (.fsqrt f) := of_std rfl
theorem fexp2 (f : Std) : Statement (.fexp2 f) := of_std rfl
theorem flog2 (f : Std) : Statement (.flog2 f) := of_std rfl
theorem fsin (f : Std) : Statement (.fsin f) := of_std rfl
theorem fcos (f : Std) : Statement (.fcos f) := of_std rfl
theorem ftanh (f : Std) : Statement (.ftanh f) := of_std rfl
theorem dadd (f : Std) : Statement (.dadd f) := of_std rfl
theorem dmul (f : Std) : Statement (.dmul f) := of_std rfl
theorem dfma (f : Std) : Statement (.dfma f) := of_std rfl
theorem dcmp (f : Std) : Statement (.dcmp f) := of_std rfl
theorem shfl (f : Std) : Statement (.shfl f) := of_std rfl
theorem vote (f : Std) : Statement (.vote f) := of_std rfl
theorem matchReg (f : Std) : Statement (.matchReg f) := of_std rfl
theorem redr (f : Std) : Statement (.redr f) := of_std rfl
theorem lmap (f : Std) : Statement (.lmap f) := of_std rfl
theorem opref (f : Std) : Statement (.opref f) := of_std rfl
theorem opsave (f : Std) : Statement (.opsave f) := of_std rfl
theorem sread (f : SForm) : Statement (.sread f) := of_s rfl
theorem swrt (f : SForm) : Statement (.swrt f) := of_s rfl
theorem shape (f : Std) : Statement (.shape f) := of_std rfl
theorem hread (f : SForm) : Statement (.hread f) := of_s rfl
theorem hwait (f : Std) : Statement (.hwait f) := of_std rfl
theorem hbr (f : Std) : Statement (.hbr f) := of_std rfl
theorem tick (f : Std) : Statement (.tick f) := of_std rfl
theorem hresume (f : Std) : Statement (.hresume f) := of_std rfl
theorem ld (f : Std) : Statement (.ld f) := of_std rfl
theorem st (f : Std) : Statement (.st f) := of_std rfl
theorem lds (f : Std) : Statement (.lds f) := of_std rfl
theorem sts (f : Std) : Statement (.sts f) := of_std rfl
theorem ldnr (f : Std) : Statement (.ldnr f) := of_std rfl
theorem pgreq (f : Std) : Statement (.pgreq f) := of_std rfl
theorem atom (f : Std) : Statement (.atom f) := of_std rfl
theorem atoms (f : Std) : Statement (.atoms f) := of_std rfl
theorem red (f : Std) : Statement (.red f) := of_std rfl
theorem pf (f : Std) : Statement (.pf f) := of_std rfl
theorem fence (f : Std) : Statement (.fence f) := of_std rfl
theorem cctl (f : Std) : Statement (.cctl f) := of_std rfl
theorem pgmove (f : Std) : Statement (.pgmove f) := of_std rfl
theorem pgheat (f : Std) : Statement (.pgheat f) := of_std rfl
theorem pgq (f : Std) : Statement (.pgq f) := of_std rfl
theorem pginv (f : Std) : Statement (.pginv f) := of_std rfl
theorem bari (f : Std) : Statement (.bari f) := of_std rfl
theorem bara (f : Std) : Statement (.bara f) := of_std rfl
theorem barw (f : Std) : Statement (.barw f) := of_std rfl
theorem bars (f : Std) : Statement (.bars f) := of_std rfl
theorem barq (f : Std) : Statement (.barq f) := of_std rfl
theorem gbar (f : Std) : Statement (.gbar f) := of_std rfl
theorem enq (f : EnqForm) : Statement (.enq f) := of_x rfl
theorem eseq (f : Std) : Statement (.eseq f) := of_std rfl
theorem ewait (f : Std) : Statement (.ewait f) := of_std rfl
theorem cwptr (f : Std) : Statement (.cwptr f) := of_std rfl
theorem cwait (f : Std) : Statement (.cwait f) := of_std rfl
theorem bsrclr (f : Std) : Statement (.bsrclr f) := of_std rfl
theorem prsv (f : Std) : Statement (.prsv f) := of_std rfl
theorem prel (f : Std) : Statement (.prel f) := of_std rfl
theorem mxloop (f : MxLoopForm) : Statement (.mxloop f) := of_x rfl
theorem mxwait (f : Std) : Statement (.mxwait f) := of_std rfl
theorem mxdrain (f : Std) : Statement (.mxdrain f) := of_std rfl
theorem mxread (f : Std) : Statement (.mxread f) := of_std rfl
theorem mxzero (f : Std) : Statement (.mxzero f) := of_std rfl
theorem mxstat (f : Std) : Statement (.mxstat f) := of_std rfl
theorem drawr (f : Std) : Statement (.drawr f) := of_std rfl
theorem drawm (f : DrawmForm) : Statement (.drawm f) := of_x rfl
theorem coin (f : Std) : Statement (.coin f) := of_std rfl
theorem agdef (f : AgdefForm) : Statement (.agdef f) := of_x rfl
theorem mldr (f : MldrForm) : Statement (.mldr f) := of_x rfl
theorem clstart (f : Std) : Statement (.clstart f) := of_std rfl
theorem clwait (f : Std) : Statement (.clwait f) := of_std rfl
theorem clabort (f : Std) : Statement (.clabort f) := of_std rfl
theorem meetingRelease (blk : Nat) (v : Word) : Statement (.meetingRelease blk v) := of_event rfl
theorem waitEnd (blk rip : Nat) : Statement (.waitEnd blk rip) := of_event rfl
theorem hwaitEnd (blk rip : Nat) : Statement (.hwaitEnd blk rip) := of_event rfl
theorem exitComplete (blk t : Nat) : Statement (.exitComplete blk t) := of_event rfl
theorem barrierArrive (blk t : Nat) : Statement (.barrierArrive blk t) := of_event rfl
theorem barrierWaitEnd (blk rip : Nat) : Statement (.barrierWaitEnd blk rip) := of_event rfl
theorem ewaitEnd (blk rip : Nat) : Statement (.ewaitEnd blk rip) := of_event rfl
theorem cwaitEnd (blk rip : Nat) : Statement (.cwaitEnd blk rip) := of_event rfl
theorem mxwaitEnd (blk rip : Nat) : Statement (.mxwaitEnd blk rip) := of_event rfl
theorem clwaitEnd (blk rip : Nat) : Statement (.clwaitEnd blk rip) := of_event rfl
theorem clabortStart (blk t : Nat) : Statement (.clabortStart blk t) := of_event rfl
theorem heldOperationPerform (blk t tk : Nat) : Statement (.heldOperationPerform blk t tk) := of_event rfl
theorem enqSlotWrite (blk t tk : Nat) : Statement (.enqSlotWrite blk t tk) := of_event rfl
theorem operationSettle (blk t tk : Nat) : Statement (.operationSettle blk t tk) := of_event rfl
theorem operationPark (blk t tk : Nat) : Statement (.operationPark blk t tk) := of_event rfl
theorem operationFail (blk t tk : Nat) : Statement (.operationFail blk t tk) := of_event rfl
theorem failureTrap (blk t : Nat) : Statement (.failureTrap blk t) := of_event rfl
theorem fetchFault (blk rip : Nat) : Statement (.fetchFault blk rip) := of_event rfl
theorem tailWrite (vf q : Nat) (v : Word) : Statement (.tailWrite vf q v) := of_event rfl
theorem queueEnable (vf q : Nat) : Statement (.queueEnable vf q) := of_event rfl
theorem queueDisable (vf q : Nat) : Statement (.queueDisable vf q) := of_event rfl
theorem queueDrain (vf q : Nat) : Statement (.queueDrain vf q) := of_event rfl
theorem cconsWrite (vf q : Nat) (v : Word) : Statement (.cconsWrite vf q v) := of_event rfl
theorem entryFetch (vf q : Nat) (ws : List Word) : Statement (.entryFetch vf q ws) := of_event rfl
theorem ringAccessTimeout (vf q : Nat) : Statement (.ringAccessTimeout vf q) := of_event rfl
theorem gangPlace (cores : List Nat) : Statement (.gangPlace cores) := of_event rfl
theorem nodeComplete (node : Nat) : Statement (.nodeComplete node) := of_event rfl
theorem gangSave (g : Nat) : Statement (.gangSave g) := of_event rfl
theorem chainSlotRead (blk e : Nat) : Statement (.chainSlotRead blk e) := of_event rfl
theorem copyPieceDone (blk e k : Nat) : Statement (.copyPieceDone blk e k) := of_event rfl
theorem copyPiecePark (blk e k : Nat) : Statement (.copyPiecePark blk e k) := of_event rfl
theorem copyPieceStallTimeout (blk e k : Nat) : Statement (.copyPieceStallTimeout blk e k) := of_event rfl
theorem matrixStepStart (core : Nat) : Statement (.matrixStepStart core) := of_event rfl
theorem matrixStepEnd (core : Nat) : Statement (.matrixStepEnd core) := of_event rfl
theorem remoteRequest (r : FabReq) : Statement (.remoteRequest r) := of_event rfl
theorem requestRelay (dst : Nat) (r : FabReq) : Statement (.requestRelay dst r) := of_event rfl
theorem remoteResponse (r : FabResp) : Statement (.remoteResponse r) := of_event rfl
theorem responseAck (src tag : Nat) : Statement (.responseAck src tag) := of_event rfl
theorem responseTimeout (tag : Nat) : Statement (.responseTimeout tag) := of_event rfl
theorem portCompletion (tag status : Nat) (data : List Byte) : Statement (.portCompletion tag status data) := of_event rfl
theorem linkSignalDetect (j : Nat) : Statement (.linkSignalDetect j) := of_event rfl
theorem linkTrainingDone (j lanes prank : Nat) (pair : BitVec 16 × BitVec 32) (ex : Exchange) : Statement (.linkTrainingDone j lanes prank pair ex) := of_event rfl
theorem linkTrainingTimeout (j : Nat) : Statement (.linkTrainingTimeout j) := of_event rfl
theorem linkRetryTimer (j : Nat) : Statement (.linkRetryTimer j) := of_event rfl
theorem linkDegrade (j : Nat) : Statement (.linkDegrade j) := of_event rfl
theorem linkRetrainDone (j lanes prank : Nat) (pair : BitVec 16 × BitVec 32) (ex : Exchange) : Statement (.linkRetrainDone j lanes prank pair ex) := of_event rfl
theorem linkSignalLost (j : Nat) : Statement (.linkSignalLost j) := of_event rfl
theorem flitReplay (j : Nat) : Statement (.flitReplay j) := of_event rfl
theorem linkEnable (j : Nat) (on : Bool) : Statement (.linkEnable j on) := of_event rfl
theorem linkQuarantine (j : Nat) : Statement (.linkQuarantine j) := of_event rfl
theorem linkStateBroadcast (owner j : Nat) (st : LinkSt) (chg : BitVec 16) : Statement (.linkStateBroadcast owner j st chg) := of_event rfl
theorem capabilityBroadcast (rank : Nat) (rev : BitVec 16) (caps : BitVec 32) : Statement (.capabilityBroadcast rank rev caps) := of_event rfl
theorem moveStart (o : MoveOffer) : Statement (.moveStart o) := of_event rfl
theorem copyPassEnd (m : Nat) : Statement (.copyPassEnd m) := of_event rfl
theorem holdLimitExpiry (m : Nat) : Statement (.holdLimitExpiry m) := of_event rfl
theorem install (a : Asker) (ldom : Nat) (page : DWord) (frame att : Nat) (ranks : List Nat) : Statement (.install a ldom page frame att ranks) := of_event rfl
theorem installAck (m status : Nat) : Statement (.installAck m status) := of_event rfl
theorem redirect (ldom : Nat) (page : DWord) (owner : Nat) : Statement (.redirect ldom page owner) := of_event rfl
theorem entriesUpdated (src tag ldom : Nat) (page : DWord) : Statement (.entriesUpdated src tag ldom page) := of_event rfl
theorem ownerCacheInvalidate (src ldom : Nat) (page : DWord) : Statement (.ownerCacheInvalidate src ldom page) := of_event rfl
theorem invalidateAck (src ldom : Nat) (page : DWord) : Statement (.invalidateAck src ldom page) := of_event rfl
theorem stubGone (src ldom : Nat) (page : DWord) : Statement (.stubGone src ldom page) := of_event rfl
theorem memberResetNotice (src ldom : Nat) : Statement (.memberResetNotice src ldom) := of_event rfl
theorem addressGroupDefine (src tag ldom agn : Nat) (del : Bool) (base mask : DWord) : Statement (.addressGroupDefine src tag ldom agn del base mask) := of_event rfl
theorem armingNotice (src ldom grp : Nat) (n check : Word) : Statement (.armingNotice src ldom grp n check) := of_event rfl
theorem chunkFire (k : Nat) : Statement (.chunkFire k) := of_event rfl
theorem reducerCommand (a : Asker) (ldom grp : Nat) (n : Word) (chunk : Nat) (data : List Byte) : Statement (.reducerCommand a ldom grp n chunk data) := of_event rfl
theorem memberLagTimeout (ldom grp chunk : Nat) : Statement (.memberLagTimeout ldom grp chunk) := of_event rfl
theorem collectiveAbort (src ldom grp : Nat) (n : Word) (status : Nat) : Statement (.collectiveAbort src ldom grp n status) := of_event rfl
theorem collectiveAbortAck (src ldom grp : Nat) (n : Word) : Statement (.collectiveAbortAck src ldom grp n) := of_event rfl
theorem contextCreate (c : Nat) : Statement (.contextCreate c) := of_event rfl
theorem contextActivate (c : Nat) : Statement (.contextActivate c) := of_event rfl
theorem contextPreempt (c : Nat) : Statement (.contextPreempt c) := of_event rfl
theorem contextResume (c : Nat) : Statement (.contextResume c) := of_event rfl
theorem contextReset (c : Nat) : Statement (.contextReset c) := of_event rfl
theorem resetComplete (c : Nat) : Statement (.resetComplete c) := of_event rfl
theorem lmaskWrite (c : Nat) (v : DWord) : Statement (.lmaskWrite c v) := of_event rfl
theorem fqcWrite (c : Nat) (v : Word) : Statement (.fqcWrite c v) := of_event rfl
theorem mecWrite (c : Nat) (v : Word) : Statement (.mecWrite c v) := of_event rfl
theorem partitionAssign (p : Nat) : Statement (.partitionAssign p) := of_event rfl
theorem partitionClose (p : Nat) : Statement (.partitionClose p) := of_event rfl
theorem wipeComplete (p : Nat) : Statement (.wipeComplete p) := of_event rfl
theorem vfEnable (v : Nat) : Statement (.vfEnable v) := of_event rfl
theorem vfReset (v : Nat) (disable : Bool) : Statement (.vfReset v disable) := of_event rfl
theorem checkpoint (p addr : Nat) : Statement (.checkpoint p addr) := of_event rfl
theorem restore (p addr : Nat) : Statement (.restore p addr) := of_event rfl
theorem checkpointComplete : Statement .checkpointComplete := of_event rfl
theorem attestationReport (nonce : BitVec 256) : Statement (.attestationReport nonce) := of_event rfl
theorem deviceReset : Statement .deviceReset := of_event rfl
theorem firmwareVerify (image : List Byte) (c : Signed) (rank roles : Nat) : Statement (.firmwareVerify image c rank roles) := of_event rfl
theorem portTraining (port state gen width : Nat) : Statement (.portTraining port state gen width) := of_event rfl
theorem powerOnWipe (logsOk : Bool) : Statement (.powerOnWipe logsOk) := of_event rfl
theorem powerCheck : Statement .powerCheck := of_event rfl
theorem backgroundScrub (f : ScrubFind) : Statement (.backgroundScrub f) := of_event rfl
theorem rowRetirement (stack row : Nat) (spare : Bool) : Statement (.rowRetirement stack row spare) := of_event rfl
theorem registerWrite (r : Reg) (i : Nat) (v : DWord) : Statement (.registerWrite r i v) := of_event rfl
theorem unassignedOpcodeExecute (detail : Nat) : Statement (.unassignedOpcodeExecute detail) := of_event rfl
theorem cycleCounterTick (core : Nat) : Statement (.cycleCounterTick core) := of_event rfl
theorem runAheadAccess (core ctx : Nat) (addr : DWord) (kind : AheadKind) : Statement (.runAheadAccess core ctx addr kind) := of_event rfl
theorem hostDeviceMemoryAccess (write : Bool) (addr : Nat) (data : List Byte) : Statement (.hostDeviceMemoryAccess write addr data) := of_event rfl
theorem configurationRequest : Statement .configurationRequest := of_event rfl

end Sys2Proof.Laws.EncodedLength
end

