-- ==== Sys2Proof/Laws/Result.lean ====
section
/-! SUPPORT. What a result leaves in the registers, whatever its shape (R53, R54): each thread that writes reads back
its own value. -/

namespace Sys2Proof.Machine

/-! ## Tables of words -/

theorem Tab.get_foldl_set (f : Nat → Word) (S : List Nat) {ws : Tab Word} (h : Tab.wf 0 ws = true) :
    Tab.wf 0 (S.foldl (fun ws t => Tab.set 0 ws t (f t)) ws) = true ∧
    ∀ t, Tab.get 0 (S.foldl (fun ws t => Tab.set 0 ws t (f t)) ws) t = if t ∈ S then f t else Tab.get 0 ws t := by
  induction S generalizing ws with
  | nil => exact ⟨h, fun t => by simp⟩
  | cons a S ih =>
    have h1 : Tab.wf 0 (Tab.set 0 ws a (f a)) = true := Tab.wf_set a _ h
    refine ⟨(ih h1).1, fun t => ?_⟩
    rw [List.foldl_cons, (ih h1).2 t]
    by_cases ht : t ∈ S
    · simp [ht]
    · by_cases hta : t = a
      · subst hta; rw [if_neg ht, if_pos (List.mem_cons_self ..)]; exact Tab.get_set_self t _ h
      · rw [if_neg ht, if_neg (by simp [hta, ht])]; exact Tab.get_set_ne _ h hta

theorem Tab.rising_range' {α : Type} (f : Nat → Option α) (n lo : Nat) :
    Tab.risingFrom lo ((List.range' lo n).filterMap fun t => (f t).map fun x => (t, x)) = true := by
  induction n generalizing lo with
  | zero => rfl
  | succ n ih =>
    rw [List.range'_succ, List.filterMap_cons]
    cases hf : f lo with
    | none => exact Tab.risingFrom_mono (Nat.le_succ lo) (ih (lo + 1))
    | some x => simp only [Option.map_some, Tab.risingFrom, Nat.le_refl, decide_true, Bool.true_and]; exact ih (lo + 1)

/-- A register spread over its threads is canonical (R54). -/
theorem VVal.spread_wf {v : VVal} (h : v.Canon) (n : Nat) : Tab.wf 0 (v.spread n) = true := by
  have aux (v : VVal) : Tab.wf (0 : Word)
      ((List.range n).filterMap fun t => if v.at t = 0 then none else some (t, v.at t)) = true := by
    rw [Tab.wf_iff]
    constructor
    · have := Tab.rising_range' (fun t => if v.at t = 0 then none else some (v.at t)) n 0
      rw [List.range_eq_range']
      have e : (fun t => if v.at t = 0 then none else some (t, v.at t)) =
          fun t => (if v.at t = 0 then none else some (v.at t)).map fun x => (t, x) := by
        funext t; split <;> rfl
      rw [e]; exact this
    · intro e he
      simp only [List.mem_filterMap] at he
      obtain ⟨t, _, ht⟩ := he
      split at ht
      · cases ht
      · cases ht; assumption
  cases v with
  | u w => exact aux _
  | a b s => exact aux _
  | g ws => exact h

theorem Tab.mem_of_find {α : Type} {t : Tab α} {n : Nat} {x : α} (h : Tab.find t n = some x) : (n, x) ∈ t := by
  induction t with
  | nil => cases h
  | cons e t ih =>
    obtain ⟨k, v⟩ := e
    simp only [Tab.find] at h
    split at h
    · cases h; subst_vars; exact List.mem_cons_self ..
    · split at h
      · cases h
      · exact List.mem_cons_of_mem _ (ih h)

theorem Block.vreg_canon {k : Block} (h : k.Canon) (n : Nat) : (k.vreg n).Canon := by
  unfold Block.vreg Tab.get
  cases hf : Tab.find k.v n with
  | none => trivial
  | some x => exact h.g _ (Tab.mem_of_find hf)

/-! ## One v register -/

theorem RShape.toVVal_at (x : RShape) (d : VVal) (t : Nat) (hx : ∀ ws, x ≠ .g ws) : (x.toVVal d).at t = x.at t := by
  cases x with
  | u w => rfl
  | a b s =>
    by_cases hs : s = 0
    · subst hs; simp [RShape.toVVal, RShape.norm, VVal.at, RShape.at]
    · simp only [RShape.toVVal, RShape.norm, if_neg hs, VVal.at, RShape.at]
  | g ws => exact absurd rfl (hx ws)

/-- After a write, each thread that writes reads its value, whatever the shape (R54). A narrow register takes no G
result (R49, R56). -/
theorem Block.putV_at {k : Block} (h : k.Canon) (n : Nat) (x : RShape) (S : List Nat) (covers : Bool) {t : Nat}
    (ht : t ∈ S) (hn : n < k.regG ∨ ∀ ws, x ≠ .g ws) : ((k.putV n x S covers).vreg n).at t = x.at t := by
  have hS : S ≠ [] := by rintro rfl; cases ht
  have hg := (Tab.get_foldl_set (fun t => x.at t) S (VVal.spread_wf (Block.vreg_canon h n) k.nthr)).2 t
  rw [if_pos ht] at hg
  unfold Block.putV
  dsimp only
  rw [show Block.vreg { k with v := _ } n = Tab.get (.u 0) _ n from rfl, Tab.get_set_self n _ h.v, if_neg hS]
  split
  · cases x with
    | g ws => exact hg
    | u w =>
      dsimp only
      split
      · rename_i he; rw [← he]; exact RShape.toVVal_at _ _ _ (by simp)
      · split
        · exact RShape.toVVal_at _ _ _ (by simp)
        · exact hg
    | a b s =>
      dsimp only
      split
      · rename_i he; rw [← he]; exact RShape.toVVal_at _ _ _ (by simp)
      · split
        · exact RShape.toVVal_at _ _ _ (by simp)
        · exact hg
  · rename_i hlt
    exact RShape.toVVal_at _ _ _ (hn.resolve_left hlt)

theorem Block.putV_vreg_ne {k : Block} (h : k.Canon) {n m : Nat} (x : RShape) (S : List Nat) (covers : Bool)
    (hm : m ≠ n) : (k.putV n x S covers).vreg m = k.vreg m := by
  unfold Block.putV
  dsimp only
  rw [show Block.vreg { k with v := _ } m = Tab.get (.u 0) _ m from rfl, Tab.get_set_ne _ h.v hm]
  rfl

theorem RShape.toVVal_canon (x : RShape) {d : VVal} (h : d.Canon) : (x.toVVal d).Canon := by
  unfold RShape.toVVal
  split <;> trivial

theorem Tab.mem_set {α : Type} [DecidableEq α] {d : α} {t : Tab α} {n : Nat} {x : α} {e : Nat × α} (h : e ∈ Tab.set d t n x) :
    e = (n, x) ∨ e ∈ t := by
  unfold Tab.set at h
  split at h
  · exact .inr (Tab.mem_del h)
  · exact Tab.mem_put h

/-- A write to a v register keeps the canonical form. -/
theorem Block.putV_canon {k : Block} (h : k.Canon) (n : Nat) (x : RShape) (S : List Nat) (covers : Bool) :
    (k.putV n x S covers).Canon := by
  have ho := Block.vreg_canon h n
  have hg := (Tab.get_foldl_set (fun t => x.at t) S (VVal.spread_wf ho k.nthr)).1
  refine ⟨Tab.wf_set n _ h.v, fun e he => ?_, h.o, h.scratch, h.pool, h.bar, h.rsv⟩
  rcases Tab.mem_set he with rfl | he
  · dsimp only
    split
    · exact ho
    · split
      · split
        · exact hg
        · split
          · exact ho
          · split
            · exact RShape.toVVal_canon _ ho
            · exact hg
      · exact RShape.toVVal_canon _ ho
  · exact h.g e he

/-! ## A run of registers -/

/-- Word `j` of a register operand of a block, as a thread reads it. -/
def Block.rd (k : Block) (t : Nat) (sel : Sel) (j : Nat) : Option Word :=
  (Tab.find k.thr t).map fun x => k.regWord t x sel j

theorem State.reg_eq_rd {s : State} {b : Nat} {k : Block} (h : s.blk b = some k) (t : Nat) (sel : Sel) (j : Nat) :
    s.reg b t sel j = k.rd t sel j := by simp [State.reg, h, Block.rd]

/-- A change to threads that leaves their o registers leaves every register word. -/
theorem Block.rd_modThr {k : Block} (t : Nat) (f : Thread → Thread) (hf : ∀ x, (f x).o = x.o) (u : Nat) (sel : Sel)
    (j : Nat) : (k.modThr t f).rd u sel j = k.rd u sel j := by
  have hv : ∀ n, (k.modThr t f).vreg n = k.vreg n := fun _ => rfl
  have hr : ∀ x : Thread, (k.modThr t f).regWord u x sel j = k.regWord u x sel j := by
    intro x; cases sel <;> simp [Block.regWord, hv]
  unfold Block.rd
  by_cases hu : u = t
  · subst hu
    rw [show (k.modThr u f).thr = Tab.modify k.thr u f from rfl, Tab.find_modify_self]
    cases Tab.find k.thr u with
    | none => rfl
    | some x =>
      simp only [Option.map_some, hr]
      cases sel <;> simp [Block.regWord, hf]
  · rw [show (k.modThr t f).thr = Tab.modify k.thr t f from rfl, Tab.find_modify_ne _ hu]
    simp only [hr]

theorem Tab.mem_modify {α : Type} {t : Tab α} {n : Nat} {f : α → α} {e : Nat × α} (h : e ∈ Tab.modify t n f) :
    e ∈ t ∨ ∃ x, (n, x) ∈ t ∧ e = (n, f x) := by
  unfold Tab.modify at h
  split at h
  · rename_i x hx
    rcases Tab.mem_put h with rfl | h
    · exact .inr ⟨x, Tab.mem_of_find hx, rfl⟩
    · exact .inl h
  · exact .inl h

theorem Block.modThr_canon {k : Block} (h : k.Canon) (t : Nat) (f : Thread → Thread)
    (hf : ∀ x, Tab.wf (0 : Word) x.o = true → Tab.wf (0 : Word) (f x).o = true) : (k.modThr t f).Canon := by
  refine ⟨h.v, h.g, fun e he => ?_, h.scratch, h.pool, h.bar, h.rsv⟩
  rcases Tab.mem_modify he with he | ⟨x, hx, rfl⟩
  · exact h.o e he
  · exact hf x (h.o _ hx)

theorem Block.rd_foldl_modThr {k : Block} (ts : List Nat) (f : Nat → Thread → Thread) (hf : ∀ t x, (f t x).o = x.o)
    (u : Nat) (sel : Sel) (j : Nat) : (ts.foldl (fun k t => k.modThr t (f t)) k).rd u sel j = k.rd u sel j := by
  induction ts generalizing k with
  | nil => rfl
  | cons t ts ih => rw [List.foldl_cons, ih, Block.rd_modThr t (f t) (hf t)]

theorem Block.foldl_modThr_canon {k : Block} (h : k.Canon) (ts : List Nat) (f : Nat → Thread → Thread)
    (hf : ∀ t x, Tab.wf (0 : Word) x.o = true → Tab.wf (0 : Word) (f t x).o = true) :
    (ts.foldl (fun k t => k.modThr t (f t)) k).Canon := by
  induction ts generalizing k with
  | nil => exact h
  | cons t ts ih => exact ih (Block.modThr_canon h t (f t) (hf t))

/-- Writing one o register of the threads of a list. -/
def setO (n : Nat) (x : RShape) (t : Nat) (y : Thread) : Thread := { y with o := Tab.set 0 y.o n (x.at t) }

theorem Block.putReg_o (k : Block) (n : BitVec 4) (i : Nat) (x : RShape) (S : List Nat) (covers : Bool) :
    k.putReg (.o n) i x S covers = S.foldl (fun k t => k.modThr t (setO (n.toNat + i) x t)) k := rfl

theorem Block.find_foldl_setO {k : Block} (h : k.Canon) (n : Nat) (x : RShape) (S : List Nat) (t : Nat) {y : Thread}
    (hy : Tab.find k.thr t = some y) :
    ∃ y', Tab.find (S.foldl (fun k t => k.modThr t (setO n x t)) k).thr t = some y' ∧
      (∀ m, Tab.get 0 y'.o m = if m = n ∧ t ∈ S then x.at t else Tab.get 0 y.o m) ∧ y' = { y with o := y'.o } := by
  induction S generalizing k y with
  | nil => exact ⟨y, hy, fun m => by simp, rfl⟩
  | cons u S ih =>
    have hc : (k.modThr u (setO n x u)).Canon := Block.modThr_canon h u _ fun _ hx => Tab.wf_set _ _ hx
    have hwf : Tab.wf (0 : Word) y.o = true := h.o _ (Tab.mem_of_find hy)
    by_cases hu : t = u
    · subst hu
      obtain ⟨y', h1, h2, h3⟩ := ih hc (y := setO n x t y) (by simp [Block.modThr, Tab.find_modify_self, hy])
      refine ⟨y', h1, fun m => ?_, by rw [h3]; rfl⟩
      rw [h2 m]
      by_cases hm : m = n
      · subst hm
        by_cases ht : t ∈ S
        · simp [ht]
        · rw [if_neg (by simp [ht]), if_pos (by simp)]; exact Tab.get_set_self m _ hwf
      · rw [if_neg (by simp [hm]), if_neg (by simp [hm])]; exact Tab.get_set_ne _ hwf hm
    · obtain ⟨y', h1, h2, h3⟩ := ih hc (y := y) (by simp [Block.modThr, Tab.find_modify_ne _ hu, hy])
      exact ⟨y', h1, fun m => by rw [h2 m]; simp [hu], h3⟩

theorem Block.v_foldl_modThr (k : Block) (f : Nat → Thread → Thread) (ts : List Nat) :
    (ts.foldl (fun k t => k.modThr t (f t)) k).v = k.v := by
  rw [Block.sameButThr_foldl]

/-- A result is not G, or its register is no narrow one (R49, R56). -/
def Wide (k : Block) (d : Sel) (i : Nat) (x : RShape) : Prop :=
  match d with
  | .v m => m.toNat + i < k.regG ∨ ∀ ws, x ≠ .g ws
  | _ => True

theorem Block.putReg_canon {k : Block} (h : k.Canon) (d : Sel) (i : Nat) (x : RShape) (S : List Nat) (covers : Bool) :
    (k.putReg d i x S covers).Canon := by
  cases d with
  | v n => exact Block.putV_canon h _ _ _ _
  | o n =>
    rw [Block.putReg_o]
    exact Block.foldl_modThr_canon h S _ fun _ _ hx => Tab.wf_set _ _ hx
  | _ => exact h

theorem Block.rd_putReg_self {k : Block} (h : k.Canon) {d : Sel} (hd : d.isReg = true) (i : Nat) (x : RShape)
    (S : List Nat) (covers : Bool) {t : Nat} (ht : t ∈ S) (hk : (Tab.find k.thr t).isSome = true)
    (hw : Wide k d i x) : (k.putReg d i x S covers).rd t d i = some (x.at t) := by
  obtain ⟨y, hy⟩ := Option.isSome_iff_exists.mp hk
  cases d with
  | v n =>
    have := Block.putV_at h (n.toNat + i) x S covers ht hw
    unfold Block.rd
    rw [show (k.putReg (.v n) i x S covers).thr = k.thr from rfl, hy]
    exact congrArg some this
  | o n =>
    rw [Block.putReg_o]
    obtain ⟨y', h1, h2, _⟩ := Block.find_foldl_setO h (n.toNat + i) x S t hy
    unfold Block.rd
    rw [h1]
    simpa [Block.regWord, ht] using h2 (n.toNat + i)
  | _ => cases hd

theorem Block.rd_putReg_ne {k : Block} (h : k.Canon) (d : Sel) {i j : Nat} (x : RShape) (S : List Nat) (covers : Bool)
    (t : Nat) (hj : j ≠ i) : (k.putReg d i x S covers).rd t d j = k.rd t d j := by
  cases d with
  | v n =>
    unfold Block.rd
    rw [show (k.putReg (.v n) i x S covers).thr = k.thr from rfl]
    simp only [Block.regWord, show k.putReg (.v n) i x S covers = k.putV (n.toNat + i) x S covers from rfl,
      Block.putV_vreg_ne h x S covers (show n.toNat + j ≠ n.toNat + i by omega)]
  | o n =>
    rw [Block.putReg_o]
    unfold Block.rd
    cases hy : Tab.find k.thr t with
    | none =>
      have : ∀ (S : List Nat) (k : Block), Tab.find k.thr t = none →
          Tab.find (S.foldl (fun k t => k.modThr t (setO (n.toNat + i) x t)) k).thr t = none := by
        intro S
        induction S with
        | nil => intro k hk; exact hk
        | cons u S ih =>
          intro k hk
          refine ih _ ?_
          by_cases hu : t = u
          · subst hu; simp [Block.modThr, Tab.find_modify_self, hk]
          · simp [Block.modThr, Tab.find_modify_ne _ hu, hk]
      rw [this S k hy]; rfl
    | some y =>
      obtain ⟨y', h1, h2, _⟩ := Block.find_foldl_setO h (n.toNat + i) x S t hy
      rw [h1]
      simp only [Option.map_some, Block.regWord, h2]
      rw [if_neg (by omega)]
  | _ => rfl

theorem Block.putReg_thr_isSome {k : Block} (d : Sel) (i : Nat) (x : RShape) (S : List Nat) (covers : Bool) (t : Nat)
    (hk : (Tab.find k.thr t).isSome = true) : (Tab.find (k.putReg d i x S covers).thr t).isSome = true := by
  cases d with
  | o n =>
    rw [Block.putReg_o]
    clear covers
    induction S generalizing k with
    | nil => exact hk
    | cons u S ih =>
      refine ih ?_
      by_cases hu : t = u
      · subst hu; simpa [Block.modThr, Tab.find_modify_self] using hk
      · simpa [Block.modThr, Tab.find_modify_ne _ hu] using hk
  | _ => exact hk

theorem Block.putReg_regG (k : Block) (d : Sel) (i : Nat) (x : RShape) (S : List Nat) (covers : Bool) :
    (k.putReg d i x S covers).regG = k.regG := by
  cases d with
  | o n => rw [Block.putReg_o, Block.sameButThr_foldl]
  | _ => rfl

theorem Block.putRegs_canon {k : Block} (h : k.Canon) (d : Sel) (x : Nat → RShape) (S : List Nat) (covers : Bool) (n : Nat) :
    ((List.range n).foldl (fun k i => k.putReg d i (x i) S covers) k).Canon := by
  induction n with
  | zero => exact h
  | succ n ih => rw [List.range_succ, List.foldl_append]; exact Block.putReg_canon ih ..

/-- The words of a run, each written once: each is read back (R54). -/
theorem Block.rd_putRegs {k : Block} (h : k.Canon) {d : Sel} (hd : d.isReg = true) (x : Nat → RShape) (S : List Nat)
    (covers : Bool) (n : Nat) (hw : ∀ i, i < n → Wide k d i (x i)) :
    ((List.range n).foldl (fun k i => k.putReg d i (x i) S covers) k).Canon ∧
    ((List.range n).foldl (fun k i => k.putReg d i (x i) S covers) k).regG = k.regG ∧
    ∀ t, (Tab.find k.thr t).isSome = true →
      (Tab.find ((List.range n).foldl (fun k i => k.putReg d i (x i) S covers) k).thr t).isSome = true ∧
      (t ∈ S → ∀ i, i < n →
        ((List.range n).foldl (fun k i => k.putReg d i (x i) S covers) k).rd t d i = some ((x i).at t)) := by
  induction n with
  | zero => exact ⟨h, rfl, fun t ht => ⟨ht, fun _ i hi => by omega⟩⟩
  | succ n ih =>
    obtain ⟨h1, h2, h3⟩ := ih fun i hi => hw i (by omega)
    rw [List.range_succ, List.foldl_append]
    refine ⟨Block.putReg_canon h1 .., by rw [← h2]; exact Block.putReg_regG .., fun t ht => ⟨?_, fun hS i hi => ?_⟩⟩
    · exact Block.putReg_thr_isSome d n (x n) S covers t (h3 t ht).1
    · by_cases hin : i = n
      · subst hin
        refine Block.rd_putReg_self h1 hd i (x i) S covers hS (h3 t ht).1 ?_
        have := hw i (by omega)
        cases d with
        | v m =>
          have : m.toNat + i < k.regG ∨ ∀ ws, x i ≠ .g ws := this
          rw [← h2] at this
          exact this
        | _ => trivial
      · rw [show List.foldl (fun k i => k.putReg d i (x i) S covers) _ [n] = Block.putReg _ d n (x n) S covers from rfl,
          Block.rd_putReg_ne h1 d (x n) S covers t hin]
        exact (h3 t ht).2 hS i (by omega)

/-! ## A result of up to two registers -/

/-- The results are told right by their shape: the same for every thread, or a base with a stride (R52, R53). -/
def Shape.Fits (sh : Shape) (vals : List (Nat × DWord)) (n : Nat) : Prop :=
  match sh with
  | .u => ∀ e ∈ vals, ∀ e' ∈ vals, e.2 = e'.2
  | .a st => ∀ e ∈ vals, ∀ e' ∈ vals, ∀ i, i < n →
      e.2.extractLsb' (32 * i) 32 - st * BitVec.ofNat 32 e.1 = e'.2.extractLsb' (32 * i) 32 - st * BitVec.ofNat 32 e'.1
  | .g => ∀ e ∈ vals, ∀ e' ∈ vals, e.1 = e'.1 → e.2 = e'.2

theorem shapeWord_at {sh : Shape} {vals : List (Nat × DWord)} {n i : Nat} (h : sh.Fits vals n) (hi : i < n)
    {e : Nat × DWord} (he : e ∈ vals) : (shapeWord sh i vals).at e.1 = e.2.extractLsb' (32 * i) 32 := by
  obtain ⟨t, v⟩ := e
  cases vals with
  | nil => cases he
  | cons e0 vals =>
    obtain ⟨t0, v0⟩ := e0
    cases sh with
    | u =>
      have : v = v0 := h _ he _ (List.mem_cons_self ..)
      subst this; rfl
    | a st =>
      have := h _ he _ (List.mem_cons_self ..) i hi
      simp only at this
      simp only [shapeWord, RShape.at, ← this, BitVec.sub_add_cancel]
    | g =>
      have hf : ∀ l : List (Nat × DWord), (∀ e ∈ l, e.1 = t → e.2 = v) → (t, v) ∈ l →
          (((l.map fun e => (e.1, e.2.extractLsb' (32 * i) 32)).find? fun e => e.1 = t).map Prod.snd).getD 0
            = v.extractLsb' (32 * i) 32 := by
        intro l hl hm
        induction l with
        | nil => cases hm
        | cons a l ih =>
          rw [List.map_cons, List.find?_cons]
          by_cases ha : a.1 = t
          · simp [ha, hl a (List.mem_cons_self ..) ha]
          · simp only [ha, decide_false]
            refine ih (fun e h => hl e (List.mem_cons_of_mem _ h)) ?_
            rcases List.mem_cons.mp hm with rfl | hm
            · exact absurd rfl ha
            · exact hm
      exact hf _ (fun e' h' ht => h _ h' _ he ht) he

theorem shapeWord_wide {k : Block} {d : Sel} {sh : Shape} {n : Nat} {vals : List (Nat × DWord)} (hne : vals ≠ [])
    (hg : sh.isG = true → k.narrow d n = false) {i : Nat} (hi : i < n) : Wide k d i (shapeWord sh i vals) := by
  cases d with
  | v m =>
    cases sh with
    | g =>
      have := hg rfl
      simp only [Block.narrow, decide_eq_false_iff_not] at this
      exact .inl (by omega)
    | u => cases vals with
      | nil => exact absurd rfl hne
      | cons e l => exact .inr fun ws => by simp [shapeWord]
    | a st => cases vals with
      | nil => exact absurd rfl hne
      | cons e l => exact .inr fun ws => by simp [shapeWord]
  | _ => trivial

/-! ## What a result changes of a block and of a thread -/

/-- A thread changed in its o registers, latches and long-latency marks only. -/
def Thread.OnlyRes (x x' : Thread) : Prop :=
  x' = { x with o := x'.o, l0 := x'.l0, l1 := x'.l1, l2 := x'.l2, l3 := x'.l3, longV := x'.longV, longO := x'.longO }

theorem Thread.OnlyRes.trans {x y z : Thread} (h : x.OnlyRes y) (h' : y.OnlyRes z) : x.OnlyRes z := by
  unfold Thread.OnlyRes at *; rw [h', h]

/-- A block changed in its v registers and, of its threads, in what `OnlyRes` allows; no thread comes or goes. -/
structure Block.OnlyRes (k k' : Block) : Prop where
  blk : k' = { k with v := k'.v, thr := k'.thr }
  thr : ∀ t x, Tab.find k.thr t = some x → ∃ x', Tab.find k'.thr t = some x' ∧ x.OnlyRes x'
  none : ∀ t, Tab.find k.thr t = none → Tab.find k'.thr t = none

theorem Block.OnlyRes.refl (k : Block) : k.OnlyRes k := ⟨rfl, fun _ x h => ⟨x, h, rfl⟩, fun _ h => h⟩

theorem Block.OnlyRes.trans {k k' k'' : Block} (h : k.OnlyRes k') (h' : k'.OnlyRes k'') : k.OnlyRes k'' := by
  refine ⟨by rw [h'.blk, h.blk], fun t x hx => ?_, fun t ht => h'.none t (h.none t ht)⟩
  obtain ⟨y, hy, e1⟩ := h.thr t x hx
  obtain ⟨z, hz, e2⟩ := h'.thr t y hy
  exact ⟨z, hz, e1.trans e2⟩

theorem Block.OnlyRes.modThr (k : Block) (t : Nat) (f : Thread → Thread) (hf : ∀ x : Thread, x.OnlyRes (f x)) :
    k.OnlyRes (k.modThr t f) := by
  refine ⟨rfl, fun u x hx => ?_, fun u hu => ?_⟩
  · by_cases h : u = t
    · subst h; exact ⟨f x, by simp [Block.modThr, Tab.find_modify_self, hx], hf x⟩
    · exact ⟨x, by simp [Block.modThr, Tab.find_modify_ne _ h, hx], rfl⟩
  · by_cases h : u = t
    · subst h; simp [Block.modThr, Tab.find_modify_self, hu]
    · simp [Block.modThr, Tab.find_modify_ne _ h, hu]

theorem Block.OnlyRes.foldl {α : Type} (g : Block → α → Block) (hg : ∀ (k : Block) a, k.OnlyRes (g k a)) (l : List α) (k : Block) :
    k.OnlyRes (l.foldl g k) := by
  induction l generalizing k with
  | nil => exact .refl k
  | cons a l ih => exact (hg k a).trans (ih _)

theorem Block.putReg_onlyRes (k : Block) (d : Sel) (i : Nat) (x : RShape) (S : List Nat) (covers : Bool) :
    k.OnlyRes (k.putReg d i x S covers) := by
  cases d with
  | v n => exact ⟨rfl, fun _ x h => ⟨x, h, rfl⟩, fun _ h => h⟩
  | o n => exact Block.OnlyRes.foldl _ (fun k t => .modThr k t (setO (n.toNat + i) x t) fun _ => rfl) S k
  | _ => exact .refl k

theorem Thread.setLong_onlyRes (x : Thread) (on : Bool) (rs : List Nat) : x.OnlyRes (x.setLong on rs) := by
  unfold Thread.setLong
  induction rs generalizing x with
  | nil => rfl
  | cons r rs ih =>
    refine Thread.OnlyRes.trans ?_ (ih _)
    dsimp only
    split <;> rfl

theorem Thread.setLong_o (x : Thread) (on : Bool) (rs : List Nat) : (x.setLong on rs).o = x.o := by
  unfold Thread.setLong
  induction rs generalizing x with
  | nil => rfl
  | cons r rs ih =>
    rw [List.foldl_cons, ih]
    split <;> rfl

theorem Thread.setLong_l0 (x : Thread) (on : Bool) (rs : List Nat) : (x.setLong on rs).l0 = x.l0 := by
  unfold Thread.setLong
  induction rs generalizing x with
  | nil => rfl
  | cons r rs ih =>
    rw [List.foldl_cons, ih]
    split <;> rfl

/-- Everything that writing a result does: the block changes within `OnlyRes`; each thread that writes reads back its
value from every register of the destination (R46, R53, R54). -/
theorem State.putResult_spec {s : State} {b : Nat} {k : Block} (h : s.blk b = some k) (hc : k.Canon) (d : Sel) (n : Nat)
    (sh : Shape) (vals : List (Nat × DWord)) (hf : sh.Fits vals n)
    (hg : vals ≠ [] → sh.isG = true → k.narrow d n = false) :
    ∃ k', OnBlock s (s.putResult b d n sh vals) b k k' ∧ k'.Canon ∧ k.OnlyRes k' ∧
      (d.isReg = true → ∀ e ∈ vals, (Tab.find k.thr e.1).isSome = true → ∀ i, i < n →
        k'.rd e.1 d i = some (e.2.extractLsb' (32 * i) 32)) := by
  have hpush : ∀ (l : List (Nat × DWord)) {s' : State} {k1 : Block}, s'.blk b = some k1 → k1.Canon →
      ∃ k2, OnBlock s' (l.foldl (fun s e => s.modThr b e.1 fun x => x.push (.val (latchOf n e.2))) s') b k1 k2 ∧ k2.Canon ∧
        k1.OnlyRes k2 ∧ ∀ t sel i, k2.rd t sel i = k1.rd t sel i := by
    intro l
    induction l with
    | nil => intro s' k1 h1 c1; exact ⟨k1, .refl h1, c1, .refl k1, fun _ _ _ => rfl⟩
    | cons e l ih =>
      intro s' k1 h1 c1
      have hb := OnBlock.modBlk (s := s') (fun k => k.modThr e.1 fun x => x.push (.val (latchOf n e.2))) h1
      obtain ⟨k2, h2, c2, r2, d2⟩ := ih (s' := s'.modThr b e.1 fun x => x.push (.val (latchOf n e.2))) hb.after
        (Block.modThr_canon c1 e.1 _ fun _ hx => hx)
      exact ⟨k2, hb.trans h2, c2, (Block.OnlyRes.modThr k1 e.1 (fun x => x.push (.val (latchOf n e.2))) fun _ => rfl).trans r2,
        fun t sel i => (d2 t sel i).trans
          (Block.rd_modThr e.1 (fun x => x.push (.val (latchOf n e.2))) (fun _ => rfl) t sel i)⟩
  by_cases hd : d.isReg = true
  · let S := vals.map Prod.fst
    let g (k1 : Block) : Block := S.foldl (fun blk t => blk.modThr t fun x => x.setLong false (runRegs d n))
      ((List.range n).foldl (fun blk i => blk.putReg d i (shapeWord sh i vals) S (k1.covered S)) k1)
    have e : State.putResult s b d n sh vals =
        vals.foldl (fun s e => s.modThr b e.1 fun x => x.push (.val (latchOf n e.2))) (s.modBlk b g) := by
      cases d <;> first | rfl | cases hd
    have hb := OnBlock.modBlk g h
    have c2 : (g k).Canon := Block.foldl_modThr_canon (Block.putRegs_canon hc d _ S _ n) S _ fun t x hx => by
      rw [Thread.setLong_o]; exact hx
    obtain ⟨k2, h2, c3, o2, d2⟩ := hpush vals hb.after c2
    refine ⟨k2, e ▸ hb.trans h2, c3, Block.OnlyRes.trans ?_ o2, fun _ e' he hk i hi => ?_⟩
    · exact (Block.OnlyRes.foldl _ (fun k i => k.putReg_onlyRes d i _ S _) _ k).trans
        (Block.OnlyRes.foldl _ (fun k t => .modThr k t _ fun x => x.setLong_onlyRes _ _) S _)
    · have r1 := (Block.rd_putRegs hc hd (fun i => shapeWord sh i vals) S (k.covered S) n
        fun i hi => shapeWord_wide (List.ne_nil_of_mem he) (hg (List.ne_nil_of_mem he)) hi).2.2
      rw [d2, Block.rd_foldl_modThr S (fun _ x => x.setLong false (runRegs d n)) (fun _ x => x.setLong_o _ _),
        (r1 e'.1 hk).2 (List.mem_map_of_mem he) i hi, shapeWord_at hf hi he]
  · obtain ⟨k2, h2, c2, o2, _⟩ := hpush vals h hc
    cases d with
    | v _ => exact absurd rfl hd
    | o _ => exact absurd rfl hd
    | l _ => exact ⟨k2, h2, c2, o2, fun h' => absurd h' hd⟩
    | _ => exact ⟨k, .refl h, hc, .refl k, fun h' => absurd h' hd⟩

/-! ## An instruction that computes per thread -/

theorem Thread.side_o (x : Thread) (d : Sel) (r : Res) : (x.side d r).o = x.o := by
  unfold Thread.side Thread.setPred; dsimp only; split <;> split <;> rfl

/-- Predicates and flags do not touch what `OnlyRes` allows, and are not touched by it. -/
theorem Thread.OnlyRes.side {x y : Thread} (h : x.OnlyRes y) (d : Sel) (r : Res) : (x.side d r).OnlyRes (y.side d r) := by
  have hp : y.p = x.p := by rw [h]
  have hf : y.fflags = x.fflags := by rw [h]
  unfold Thread.OnlyRes at *
  unfold Thread.side Thread.setPred
  dsimp only
  rw [hp, hf]
  split <;> split <;> rw [h]

theorem Thread.setPred_idem (x : Thread) (n : Nat) (v : Bool) : (x.setPred n v).setPred n v = x.setPred n v := by
  unfold Thread.setPred
  cases v
  · simp only [Bool.false_eq_true, if_false, BitVec.and_assoc, BitVec.and_self]
  · simp only [if_true, BitVec.or_assoc, BitVec.or_self]

/-- The latch clearing of R47 changes latches only. -/
theorem clearLong_spec {q : Iss} {s : State} {k : Block} (h : s.blk q.b = some k) (hc : k.Canon) :
    ∃ k', OnBlock s (clearLong q s) q.b k k' ∧ k'.Canon ∧ k.OnlyRes k' ∧ ∀ t sel i, k'.rd t sel i = k.rd t sel i := by
  unfold clearLong
  generalize q.ts = l
  induction l generalizing s k with
  | nil => exact ⟨k, .refl h, hc, .refl k, fun _ _ _ => rfl⟩
  | cons a l ih =>
    rw [List.foldl_cons]
    split
    · have hb := OnBlock.modBlk (fun k => k.modThr a Thread.clearLatches) h
      obtain ⟨k2, h2, c2, o2, d2⟩ := ih hb.after (Block.modThr_canon hc a _ fun _ hx => hx)
      exact ⟨k2, hb.trans h2, c2, (Block.OnlyRes.modThr k a Thread.clearLatches fun _ => rfl).trans o2, fun t sel i =>
        (d2 t sel i).trans (Block.rd_modThr a Thread.clearLatches (fun _ => rfl) t sel i)⟩
    · exact ih h hc

/-- Setting or clearing bits. -/
def putBits (on : Bool) (p m : BitVec 7) : BitVec 7 := if on then p ||| m else p &&& ~~~m

theorem putBits_twice (u v : Bool) (p a b : BitVec 7) :
    putBits v (putBits u (putBits v (putBits u p a) b) a) b = putBits v (putBits u p a) b := by
  unfold putBits
  ext i hi
  cases u <;> cases v <;> simp <;> cases p[i] <;> cases a[i] <;> cases b[i] <;> rfl

theorem putBits_idem (u : Bool) (p a : BitVec 7) : putBits u (putBits u p a) a = putBits u p a := by
  unfold putBits
  ext i hi
  cases u <;> simp

theorem Thread.setPred_eq (x : Thread) (n : Nat) (v : Bool) :
    x.setPred n v = { x with p := putBits v x.p (BitVec.twoPow 7 n) } := rfl

/-- The predicates of a result written twice are as written once. -/
theorem Thread.side_idem (x : Thread) (d : Sel) (r : Res) : (x.side d r).side d r = x.side d r := by
  have hor : x.fflags ||| r.flags ||| r.flags = x.fflags ||| r.flags := by rw [BitVec.or_assoc, BitVec.or_self]
  unfold Thread.side
  cases r.pred with
  | none => cases r.carry <;> simp only [Thread.setPred_eq, hor, putBits_idem]
  | some v =>
    cases d with
    | p n => cases r.carry <;> simp only [Thread.setPred_eq, hor, putBits_idem, putBits_twice]
    | _ => cases r.carry <;> simp only [Thread.setPred_eq, hor, putBits_idem]

/-- Folding the predicates and flags of results leaves, of each thread, its own. -/
theorem State.side_spec {s : State} {b : Nat} {k : Block} (h : s.blk b = some k) (hc : k.Canon) (d : Sel)
    (r : Nat → Res) (ts : List Nat) :
    ∃ k', OnBlock s ((ts.map fun t => (t, r t)).foldl (fun s e => s.modThr b e.1 fun x => x.side d e.2) s) b k k' ∧
      k'.Canon ∧ k' = { k with thr := k'.thr } ∧ (∀ t sel i, k'.rd t sel i = k.rd t sel i) ∧
      ∀ t, Tab.find k'.thr t = if t ∈ ts then (Tab.find k.thr t).map (fun x => x.side d (r t)) else Tab.find k.thr t := by
  have hb : ∀ (ts : List Nat) (s : State) (k : Block), s.blk b = some k →
      OnBlock s ((ts.map fun t => (t, r t)).foldl (fun s e => s.modThr b e.1 fun x => x.side d e.2) s) b k
        (ts.foldl (fun k t => k.modThr t fun x => x.side d (r t)) k) := by
    intro ts
    induction ts with
    | nil => intro s k h; exact .refl h
    | cons a l ih =>
      intro s k h
      have h1 := OnBlock.modBlk (fun k => k.modThr a fun x => x.side d (r a)) h
      exact h1.trans (ih _ _ h1.after)
  exact ⟨_, hb ts s k h, Block.foldl_modThr_canon hc ts _ fun t x hx => by rw [Thread.side_o]; exact hx,
    Block.sameButThr_foldl (fun t x => x.side d (r t)) ts k,
    fun t sel i => Block.rd_foldl_modThr ts (fun t x => x.side d (r t)) (fun t x => x.side_o d _) t sel i,
    Block.find_foldl_modThr (fun t x => x.side d (r t)) (fun t x => x.side_idem d _) ts k⟩

/-- What goes on at a PC reads the same registers. -/
theorem rd_of_moved {k k' : Block} {t : Nat} {x : Thread} (he : k.SameButThr k') (entry pc : DWord) (rest : Bool)
    (hx : Tab.find k.thr t = some x) (hx' : Tab.find k'.thr t = some (x.moved entry pc rest)) (sel : Sel) (i : Nat) :
    k'.rd t sel i = k.rd t sel i := by
  have hv : ∀ n, k'.vreg n = k.vreg n := fun n => by rw [he]; rfl
  unfold Block.rd
  rw [hx, hx']
  cases sel <;> simp [Block.regWord, hv]

/-- What an instruction that computes leaves of a thread: its predicates and flags if it runs, then what a result may
change; it goes on if it is of the ripple, and rests then only in a gang that is STOPPING. -/
def Iss.left (q : Iss) (stop : Bool) (d : Sel) (r : Nat → Res) (t : Nat) (x x' : Thread) : Prop :=
  ∃ y rest, (if t ∈ q.on then x.side d (r t) else x).OnlyRes y ∧ (stop = false → rest = false) ∧
    x' = if t ∈ q.ts then y.moved q.k.entry q.next rest else y

/-- Everything that an instruction does that computes per thread and meets no trap: the block changes in what its threads
hold and in how they are grouped; each thread that runs reads back its value; all go on to PC + length. -/
theorem computeRun_spec {q : Iss} {s : State} (h : s.blk q.b = some q.k) (hc : q.k.Canon) (d : Sel) (n : Nat)
    (shape : Iss → Shape) (sem : Iss → List Nat → Nat → Res) (hl : NoLost s q)
    (hg : q.on ≠ [] → (shape q).isG = true → q.k.narrow d n = false)
    (hf : (shape q).Fits ((q.on.map fun t => (t, sem q q.on t)).filterMap fun e => e.2.val.map fun v => (e.1, v)) n) :
    ∃ k', OnBlock s (computeRun d n shape sem q s) q.b q.k k' ∧
      k' = { q.k with v := k'.v, thr := k'.thr, rip := k'.rip, nextRip := k'.nextRip } ∧
      ∀ t x, Tab.find q.k.thr t = some x → ∃ x', Tab.find k'.thr t = some x' ∧ q.left (s.stopping q.k) d (sem q q.on) t x x' ∧
        (t ∈ q.on → d.isReg = true → ∀ v, (sem q q.on t).val = some v → ∀ i, i < n →
          k'.rd t d i = some (v.extractLsb' (32 * i) 32)) := by
  have hns : ((shape q).isG && q.k.narrow d n && !q.on.isEmpty) = false := by
    by_cases ho : q.on = []
    · simp [ho]
    · by_cases hs : (shape q).isG = true
      · simp [hg ho hs]
      · simp [hs]
  have hgood : q.good [] = q.on := by simp [Iss.good]
  have hrun : computeRun d n shape sem q s =
      finish q [] (writeRes q.b d n (shape q) (q.on.map fun t => (t, sem q q.on t)) (clearLong q s)) := by
    unfold computeRun computeFaults
    simp only [hns, Bool.false_eq_true, if_false]
    rw [show latchTraps q (clearLong q s) = [] from hl]
    simp only [List.append_nil, hgood]
  obtain ⟨k1, b1, c1, o1, d1⟩ := clearLong_spec h hc
  obtain ⟨k2, b2, c2, e2, d2, t2⟩ := State.side_spec b1.after c1 d (sem q q.on) q.on
  have hg2 : ((q.on.map fun t => (t, sem q q.on t)).filterMap fun e => e.2.val.map fun v => (e.1, v)) ≠ [] →
      (shape q).isG = true → k2.narrow d n = false := by
    intro hne hs
    have ho : q.on ≠ [] := by rintro ho; simp [ho] at hne
    have := hg ho hs
    rw [e2, o1.blk]
    exact this
  obtain ⟨k3, b3, c3, o3, d3⟩ := State.putResult_spec b2.after c2 d n (shape q) _ hf hg2
  obtain ⟨k4, rest, b4, e4, n4, t4⟩ := finish_go (q := q) b3.after
  have hent : k3.entry = q.k.entry := by rw [o3.blk, e2, o1.blk]
  refine ⟨k4, ?_, ?_, fun t x hx => ?_⟩
  · rw [hrun]; exact ((b1.trans b2).trans b3).trans b4
  · unfold Block.SameButThr at e4
    rw [e4, o3.blk, e2, o1.blk]
  · obtain ⟨x1, hx1, r1⟩ := o1.thr t x hx
    have hx2 := t2 t
    rw [hx1] at hx2
    have hx2 : Tab.find k2.thr t = some (if t ∈ q.on then x1.side d (sem q q.on t) else x1) := by
      rw [hx2]; split <;> rfl
    obtain ⟨x3, hx3, r3⟩ := o3.thr t _ hx2
    have hx4 := t4 t
    rw [hx3] at hx4
    have hx4 : Tab.find k4.thr t = some (if t ∈ q.ts then x3.moved q.k.entry q.next (rest t) else x3) := by
      rw [hx4, hent]; split <;> rfl
    refine ⟨_, hx4, ⟨x3, rest t, Thread.OnlyRes.trans ?_ r3, fun hs => n4 ?_ t, rfl⟩, fun hon hd v hv i hi => ?_⟩
    · split
      · exact r1.side d _
      · exact r1
    · rw [← hs]
      unfold State.stopping
      rw [((b1.trans b2).trans b3).gangs, o3.blk, e2, o1.blk]
    · have hk : k4.rd t d i = k3.rd t d i := by
        by_cases ht : t ∈ q.ts
        · rw [if_pos ht] at hx4; exact rd_of_moved e4 _ _ _ hx3 hx4 d i
        · have hv : ∀ n, k4.vreg n = k3.vreg n := fun n => by rw [e4]; rfl
          rw [if_neg ht] at hx4
          unfold Block.rd
          rw [hx4, hx3]
          cases d <;> simp [Block.regWord, hv]
      rw [hk]
      exact d3 hd (t, v) (List.mem_filterMap.mpr ⟨(t, sem q q.on t), List.mem_map_of_mem hon, by simp [hv]⟩)
        (by simp [hx2]) i hi

end Sys2Proof.Machine
end

