-- ==== Sys2Proof/Laws/Shape.lean ====
section
/-! SUPPORT. What a source's shape says of its values (R52, R53): a U source reads alike for every thread. -/

namespace Sys2Proof.Machine

/-- Results told per thread are told right. -/
theorem fits_g (q : Iss) (sem : Nat → Res) (n : Nat) :
    Shape.g.Fits ((q.on.map fun t => (t, sem t)).filterMap fun e => e.2.val.map fun v => (e.1, v)) n := by
  intro e he e' he' h
  simp only [List.mem_filterMap, List.mem_map, Option.map_eq_some_iff] at he he'
  obtain ⟨_, ⟨t, _, rfl⟩, v, hv, rfl⟩ := he
  obtain ⟨_, ⟨t', _, rfl⟩, v', hv', rfl⟩ := he'
  simp only at h hv hv'; subst h
  simpa using (hv.symm.trans hv')

/-- A U source gives every thread the same words; it is no latch, and of the predicates only `pt` (R53). -/
theorem selShape_u {k : Block} {s : Sel} {n : Nat} (h : (k.selShape s n).isU = true) (t t' : Nat) (x x' : Thread) :
    (∀ i < n, k.regWord t x s i = k.regWord t' x' s i) ∧ (match s with | .p m => m = 7 | .l _ => False | _ => True) := by
  cases s with
  | v m =>
    refine ⟨fun i hi => ?_, trivial⟩
    have : ∃ w, k.vreg (m.toNat + i) = .u w := by
      unfold Block.selShape at h
      simp only at h
      split at h
      · cases h
      · rename_i h2
        split at h
        · cases h
        · rename_i h3
          generalize hv : k.vreg (m.toNat + i) = y
          have hm : y ∈ (List.range n).map fun i => k.vreg (m.toNat + i) := List.mem_map.mpr ⟨i, by simpa using hi, hv⟩
          cases y with
          | u w => exact ⟨w, rfl⟩
          | a b st =>
            exfalso
            cases hf : ((List.range n).map fun i => k.vreg (m.toNat + i)).find? (·.tag = 1) with
            | none =>
              rw [List.find?_eq_none] at hf
              have := hf _ hm
              simp [VVal.tag] at this
            | some z =>
              have hz := List.find?_some hf
              cases z with
              | u w => simp [VVal.tag] at hz
              | g w => simp [VVal.tag] at hz
              | a b' st' => exact h3 _ _ hf
          | g ws =>
            exfalso; apply h2
            rw [List.any_eq_true]; exact ⟨_, hm, by simp [VVal.tag]⟩
    obtain ⟨w, hw⟩ := this
    simp [Block.regWord, hw, VVal.at]
  | o _ => cases h
  | l _ => cases h
  | p m =>
    refine ⟨fun _ _ => rfl, ?_⟩
    unfold Block.selShape at h
    simp only at h
    split at h
    · assumption
    · cases h
  | _ => exact ⟨fun _ _ => rfl, trivial⟩
/-- A U source reads alike as 32 bits. -/
theorem src32_u {k : Block} {s : Sel} (h : (k.selShape s 1).isU = true) (t t' : Nat) (x x' : Thread)
    (lit : Option Word) :
    k.src32 t x lit s = k.src32 t' x' lit s := by
  obtain ⟨h1, h2⟩ := selShape_u h t t' x x'
  cases s with
  | v m => exact h1 0 (by omega)
  | o _ => cases h
  | l _ => cases h
  | p m => simp only at h2; subst h2; simp [Block.src32, predBit]
  | _ => rfl
/-- A U source reads alike in any format. -/
theorem srcIn_u {k : Block} {s : Sel} {n : Nat} (hn : n = 1 ∨ n = 2) (h : (k.selShape s n).isU = true) (t t' : Nat)
    (x x' : Thread) (lit : Option Word) (f : ElemFmt) (cnt : Nat) :
    k.srcIn t x lit f cnt n s = k.srcIn t' x' lit f cnt n s := by
  obtain ⟨h1, h2⟩ := selShape_u h t t' x x'
  cases s with
  | v m =>
    rcases hn with rfl | rfl
    · simp [Block.srcIn, h1 0]
    · simp [Block.srcIn, Block.pair, h1 0, h1 1]
  | o _ => cases h
  | l _ => cases h
  | p m => simp only at h2; subst h2; simp [Block.srcIn, predBit]
  | _ => rfl
/-- A U source reads alike in its role. -/
theorem srcVal_u {k : Block} {f : Std} {r : SrcRole} {s : Sel} (h : (k.roleShape f.ty r s).isU = true) (t t' : Nat)
    (x x' : Thread) (p : BitVec 2) :
    k.srcVal t x f r p s = k.srcVal t' x' f r p s := by
  cases r <;> simp only [Block.srcVal, Block.roleShape, srcCount] at *
  case val => rw [srcIn_u (by split <;> simp) h t t']
  case w32 => rw [src32_u h t t']
  case offset => rw [src32_u h t t']
  case disp => rw [src32_u h t t']
  case vreg => rw [src32_u h t t']
  case w64 => exact srcIn_u (by simp) h t t' x x' _ _ _
  case pred =>
    obtain ⟨h1, h2⟩ := selShape_u h t t' x x'
    cases s <;> simp_all [Thread.predSel, predBit]
  all_goals
    obtain ⟨h1, h2⟩ := selShape_u h t t' x x'
    cases s with
    | v m => simp only [Block.pair, h1 0 (by omega), h1 1 (by omega)]
    | o _ => cases h
    | l _ => cases h
    | _ => rfl

end Sys2Proof.Machine
end

