-- ==== Sys2Proof/Tests/Slice0.lean ====
section
/-! SUPPORT. Tests: words of the spec and the instructions that they are, a term for each check that refuses it, results
worked out from the spec's rules, and for each statement a state that meets its hypotheses. -/

namespace Sys2Proof.Tests

-- One test at a time: each waits for the kernel, and a thread that waits is memory taken.
set_option Elab.async false

open Machine

/-! ## Decoding: words that the spec writes out -/

def pt : Guard := { inv := false, p := 7 }

def std (d a b c : Sel) (ty : Ty) (func : Nat) : Std :=
  { g := pt, lit := none, w := false, d := d, a := a, b := b, c := c, ty := ty, pa := 0, pb := 0, pc := 0
    func := BitVec.ofNat 3 func }

def sf (d a : Sel) : SForm := { g := pt, d := d, a := a }

/-- A small integer. -/
def num (n : Int) : Sel := .small (BitVec.ofInt 5 (n + 16))

def reads (ws : List Word) (i : Instr) : Bool :=
  match decode .free (ws.flatMap Word.bytes) with
  | .ok j => j = i
  | .error _ => false

/-- R21, R62, R63: `NOP`, `SREAD v8, sr.tid`, `SWRT sr.fflags, 0`; spec/07_group.md: `(p2) EXIT`; R174: `HREAD v3`;
by the map of R37 and the form of R24: `RET v4`, YIELD, BKPT, `MOV v3, v5`. -/
theorem test_words_s_form : (reads [0x00001C04#32] (.nop (sf (.v 0) (.v 0)))
    && reads [0xA0021D5C#32] (.sread (sf (.v 8) (.sr 0))) && reads [0x8CD35D60#32] (.swrt (sf (.sr 13) .zero))
    && reads [0x0000081C#32] (.exit { sf (.v 0) (.v 0) with g := { inv := false, p := 2 } })
    && reads [0x0000DD80#32] (.hread (sf (.v 3) (.v 0))) && reads [0x02001C14#32] (.ret (sf (.v 0) (.v 4)))
    && reads [0x00001C20#32] (.yield (sf (.v 0) (.v 0))) && reads [0x00001C24#32] (.bkpt (sf (.v 0) (.v 0)))
    && reads [0x0280DC7C#32] (.movS (sf (.v 3) (.v 5)))) = true := by decide +kernel

/-- spec/07_group.md: `MEET join, v7`, `(p1) BRA odd`, `SHFL.n32.xor v4, v0, 1`; R174: `HWAIT.all`, `HRESUME`,
`HBR.np done, v4`. -/
theorem test_words_control : (reads [0x3D01DC19#32, 1#32] (.meet (std (.v 7) (num 13) (.v 0) (.v 0) .b32 0))
    && reads [0x35000409#32, 1#32] (.bra { std (.v 0) (num 5) (.v 0) (.v 0) .b32 0 with g := { inv := false, p := 1 } })
    && reads [0x00011D41#32, 0x60100262#32] (.shfl (std (.v 4) (.v 0) (num 1) (.v 0) .n32 3))
    && reads [0x00001D85#32, 0x20000000#32] (.hwait (std (.v 0) (.v 0) (.v 0) (.v 0) .b32 1))
    && reads [0x00001D91#32, 0#32] (.hresume (std (.v 0) (.v 0) (.v 0) (.v 0) .b32 0))
    && reads [0x36001D89#32, 0x40000009#32] (.hbr (std (.v 0) (num 6) (.v 4) (.v 0) .b32 2))) = true := by decide +kernel

/-- spec/04_integer.md: `TERN v13, v9, v10, v12, 0x96`; spec/11_program_automaton.md: `FSH.r v12, v9, v9, 1`;
spec/28_grammar.md: `(!p3) FADD.bf16x2.rz v6, v5, -|v5.hs|`; R117, by its table: `CVT.i32.f32.rz v9, v8`. -/
theorem test_words_compute : (reads [0x09035C91#32, 0x4B003014#32]
      (.tern { std (.v 13) (.v 9) (.v 10) (.v 12) .b32 2 with pa := 2, pb := 1, pc := 1 })
    && reads [0x09031C8D#32, 0x2004C412#32] (.fsh (std (.v 12) (.v 9) (.v 9) (num 1) .b32 1))
    && reads [0x0501ACC1#32, 0x2638300A#32] (.fadd { std (.v 6) (.v 5) (.v 5) (.v 12) .bf16x2 1 with
      g := { inv := true, p := 3 }, pb := 3 })
    && reads [0x08025CE5#32, 0x00082000#32] (.cvt (std (.v 9) (.v 8) (.v 0) (.v 8) .i32 0))) = true := by decide +kernel

/-- spec/09_memory.md: `LD.i32.s8 v4, v0, v2`, `ATOM.n32.add v5, v0, 0x40, v4`; spec/24_program_draw.md:
`ST.n32.rel.lake v0, v22, 1`; spec/18_program_copy.md: `LDS.n32 v24, v19, 4096`; R229: `PGQ v6, v0, 0`,
`PGINV.pg.rs v0, 0`; spec/13_migration.md: `PGMOVE v0, 0, v2`. -/
theorem test_words_memory : (reads [0x00011DC1#32, 0x00080004#32] (.ld (std (.v 4) (.v 0) (.v 2) (.v 0) .i32 0))
    && reads [0x00015DDA#32, 0x00101230#32, 0x40#32]
      (.atom { std (.v 5) (.v 0) .lit (.v 4) .n32 0 with lit := some 0x40 })
    && reads [0x00001DC5#32, 0x4D14C42C#32] (.st { std (.v 0) (.v 0) (.v 22) (num 1) .n32 2 with pa := 2, pb := 2, pc := 1 })
    && reads [0x13061DCA#32, 0x01100230#32, 0x1000#32]
      (.lds { std (.v 24) (.v 19) .lit (.v 0) .n32 0 with lit := some 0x1000, pa := 2 })
    && reads [0x00019E09#32, 0x00000232#32] (.pgq (std (.v 6) (.v 0) .zero (.v 0) .b32 0))
    && reads [0x00001E0D#32, 0x80000232#32] (.pginv (std (.v 0) (.v 0) .zero (.v 0) .b32 4))
    && reads [0x00001E01#32, 0x00000A32#32] (.pgmove (std (.v 0) (.v 0) .zero (.v 2) .b32 0))) = true := by decide +kernel

/-- spec/10_barrier.md: `BARI 0, 64, 0`, `BARS v2, 0`; spec/16_queue.md: `CWAIT v3, 1, v5`, `ENQ.rel.dev v20, 0, v32`;
spec/19_tile.md: `(p1) PRSV 1, v12`, `(p1) MXLOOP.zc.tb acc0, 0, 0, 0, 1, 0, 0, 1`, `(p1) MXDRAIN.bf16 acc0, v6, 0, 256`. -/
theorem test_words_units : (reads [0x19001E22#32, 0x00046631#32, 0x40#32]
      (.bari { std (.v 0) .zero .lit .zero .b32 0 with lit := some 0x40 })
    && reads [0x19009E2D#32, 1#32] (.bars (std (.v 2) .zero (.v 0) (.v 0) .b32 0))
    && reads [0x0500DE51#32, 0x20000000#32] (.cwait (std (.v 3) (.v 5) (.v 0) (.v 0) .b32 1))
    && reads [0x10051E43#32, 0x28#32, 0#32, 0#32]
      (.enq { g := pt, d := .v 20, grp := .v 32, engine := 0, rel := true, scope := 2, rsv := 0 })
    && reads [0x31000681#32, 0x19#32]
      (.prsv { std (.v 0) (num 1) (.v 12) (.v 0) .b32 0 with g := { inv := false, p := 1 } })
    && reads [0xC400068B#32, 0#32, 0#32, 0#32]
      (.mxloop { g := { inv := false, p := 1 }, p := .v 0, ra := 0, rb := 1, bank := false, zc := true, tb := true
                 spb := false, ab := false, dr := false, gr := false, km1 := 0, a0 := 0, ai := 0, b0 := 0, bi := 0
                 ngm1 := 0, rsv := 0 })
    && reads [0x06000692#32, 0x40046232#32, 0x100#32]
      (.mxdrain { std (.v 0) (.v 6) .zero .lit .b32 2 with
        g := { inv := false, p := 1 }, lit := some 0x100 })) = true := by decide +kernel

/-- spec/22_draw.md: DRAWR, `DRAWM v20, v8, v16, v12, 4`, `COIN.s1 v30, v13, v14, 4`; spec/24_program_draw.md:
`(p1) AGDEF 3, v0, v6`, `MLDR.bf16x2.add v16, 3, v10`; spec/23_collective.md: `CLSTART v4, v0, 0, 5`, `CLWAIT v5, 5, v4`. -/
theorem test_words_draw_and_collective : (reads [0x04021EC1#32, 0x00283000#32]
      (.drawr (std (.v 8) (.v 4) (.v 0) (.v 12) .f32 0))
    && reads [0x04051EC7#32, 0x04D01810#32, 0#32, 0#32]
      (.drawm { g := pt, d := .v 20, lg := .v 8, rg := .v 16, pg := .v 12, pos := num 4, w := false, rsv := 0 })
    && reads [0x0D079EC9#32, 0x2004D01C#32] (.coin (std (.v 30) (.v 13) (.v 14) (num 4) .b32 1))
    && reads [0x000006E3#32, 0x00000606#32, 0#32, 0#32]
      (.agdef { g := { inv := false, p := 1 }, d := .v 0, base := .v 0, mask := .v 6, agn := 3, del := false, rsv := 0 })
    && reads [0x05041EE7#32, 0x00700600#32, 0#32, 0#32]
      (.mldr { g := pt, d := .v 16, off := .v 10, pg := .v 0, agn := 3, op := 0, ty := .bf16x2, cnt := 0, rsv := 0 })
    && reads [0x00011EE9#32, 0x0004D632#32] (.clstart (std (.v 4) (.v 0) .zero (num 5) .b32 0))
    && reads [0x35015EED#32, 9#32] (.clwait (std (.v 5) (num 5) (.v 4) (.v 0) .b32 0))) = true := by decide +kernel

/-- The opcode map of R37, row by row: the first word of the M form with guard `pt`, `v0` in every field and nothing else is
0x1C01 and four times the opcode. -/
def mapped (es : List (Word × (Std → Instr))) : Bool :=
  es.all fun e => match parse (e.1.bytes ++ Word.bytes 0) with
    | .ok i => i = e.2 (std (.v 0) (.v 0) (.v 0) (.v 0) .b32 0)
    | .error _ => false
theorem test_words_opcode_map : (mapped [
      (0x00001C09#32, Instr.bra), (0x00001C0D#32, Instr.brx), (0x00001C11#32, Instr.call),
      (0x00001C19#32, Instr.meet), (0x00001C29#32, Instr.trap), (0x00001C2D#32, Instr.rtt)]
    && mapped [
      (0x00001C41#32, Instr.add), (0x00001C45#32, Instr.addc), (0x00001C49#32, Instr.sub),
      (0x00001C4D#32, Instr.subb), (0x00001C51#32, Instr.mul), (0x00001C55#32, Instr.mulh),
      (0x00001C59#32, Instr.mad), (0x00001C5D#32, Instr.madc), (0x00001C61#32, Instr.madw),
      (0x00001C65#32, Instr.absd), (0x00001C69#32, Instr.min), (0x00001C6D#32, Instr.max),
      (0x00001C71#32, Instr.neg), (0x00001C75#32, Instr.dot4), (0x00001C79#32, Instr.lea),
      (0x00001C7D#32, Instr.mov)]
    && mapped [
      (0x00001C81#32, Instr.shl), (0x00001C85#32, Instr.shr), (0x00001C89#32, Instr.sar),
      (0x00001C8D#32, Instr.fsh), (0x00001C91#32, Instr.tern), (0x00001C95#32, Instr.popc),
      (0x00001C99#32, Instr.clz), (0x00001C9D#32, Instr.brev), (0x00001CA1#32, Instr.bfx),
      (0x00001CA5#32, Instr.bfi), (0x00001CA9#32, Instr.perm), (0x00001CAD#32, Instr.icmp),
      (0x00001CB1#32, Instr.sel), (0x00001CB5#32, Instr.pset)]
    && mapped [
      (0x00001CC1#32, Instr.fadd), (0x00001CC5#32, Instr.fmul), (0x00001CC9#32, Instr.ffma),
      (0x00001CCD#32, Instr.fmin), (0x00001CD1#32, Instr.fmax), (0x00001CD5#32, Instr.fcmp),
      (0x00001CD9#32, Instr.fclass), (0x00001CDD#32, Instr.frnd), (0x00001CE1#32, Instr.fdiv),
      (0x00001CE5#32, Instr.cvt)]
    && mapped [
      (0x00001D01#32, Instr.frcp), (0x00001D05#32, Instr.frsq), (0x00001D09#32, Instr.fsqrt),
      (0x00001D0D#32, Instr.fexp2), (0x00001D11#32, Instr.flog2), (0x00001D15#32, Instr.fsin),
      (0x00001D19#32, Instr.fcos), (0x00001D1D#32, Instr.ftanh), (0x00001D21#32, Instr.dadd),
      (0x00001D25#32, Instr.dmul), (0x00001D29#32, Instr.dfma), (0x00001D2D#32, Instr.dcmp)]
    && mapped [
      (0x00001D41#32, Instr.shfl), (0x00001D45#32, Instr.vote), (0x00001D49#32, Instr.matchReg),
      (0x00001D4D#32, Instr.redr), (0x00001D51#32, Instr.lmap), (0x00001D55#32, Instr.opref),
      (0x00001D59#32, Instr.opsave), (0x00001D65#32, Instr.shape)]
    && mapped [
      (0x00001D85#32, Instr.hwait), (0x00001D89#32, Instr.hbr), (0x00001D8D#32, Instr.tick),
      (0x00001D91#32, Instr.hresume)]
    && mapped [
      (0x00001DC1#32, Instr.ld), (0x00001DC5#32, Instr.st), (0x00001DC9#32, Instr.lds), (0x00001DCD#32, Instr.sts),
      (0x00001DD1#32, Instr.ldnr), (0x00001DD5#32, Instr.pgreq), (0x00001DD9#32, Instr.atom),
      (0x00001DDD#32, Instr.atoms), (0x00001DE1#32, Instr.red), (0x00001DE5#32, Instr.pf),
      (0x00001DE9#32, Instr.fence), (0x00001DED#32, Instr.cctl)]
    && mapped [
      (0x00001E01#32, Instr.pgmove), (0x00001E05#32, Instr.pgheat), (0x00001E09#32, Instr.pgq),
      (0x00001E0D#32, Instr.pginv), (0x00001E21#32, Instr.bari), (0x00001E25#32, Instr.bara),
      (0x00001E29#32, Instr.barw), (0x00001E2D#32, Instr.bars), (0x00001E31#32, Instr.barq),
      (0x00001E35#32, Instr.gbar)]
    && mapped [
      (0x00001E45#32, Instr.eseq), (0x00001E49#32, Instr.ewait), (0x00001E4D#32, Instr.cwptr),
      (0x00001E51#32, Instr.cwait), (0x00001E55#32, Instr.bsrclr)]
    && mapped [
      (0x00001E81#32, Instr.prsv), (0x00001E85#32, Instr.prel), (0x00001E8D#32, Instr.mxwait),
      (0x00001E91#32, Instr.mxdrain), (0x00001E95#32, Instr.mxread), (0x00001E99#32, Instr.mxzero),
      (0x00001E9D#32, Instr.mxstat)]
    && mapped [
      (0x00001EC1#32, Instr.drawr), (0x00001EC9#32, Instr.coin), (0x00001EE9#32, Instr.clstart),
      (0x00001EED#32, Instr.clwait), (0x00001EF1#32, Instr.clabort)]) = true := by decide +kernel

/-! ## A term for each check that refuses it (R39) -/

def fails (ws : List Word) (d : Nat) : Bool :=
  match decode .free (ws.flatMap Word.bytes) with
  | .ok _ => false
  | .error e => e = d

def add1 : Std := std (.v 4) (.v 1) (num 12) (.v 0) .n32 0

theorem test_refuses_words : (fails [0x00080278#32] 1 && fails [0x00080840#32] 2 && fails [0x00011DC1#32] 3
    && fails [0x00001C04#32 ||| 0x4000#32] 4 && fails [0xAC821D5C#32] 5) = true := by decide +kernel

theorem test_refuses_terms : ((Instr.add { add1 with pc := 1 }).violation .free = some 4
    ∧ (Instr.add { add1 with d := .p 1 }).violation .free = some 5
    ∧ (Instr.add add1).violation { Env.free with nregs := 4 } = some 6
    ∧ (Instr.add { add1 with ty := .f32 }).violation .free = some 7
    ∧ (Instr.add { add1 with pa := 1 }).violation .free = some 8
    ∧ (Instr.add { add1 with d := .l 0 }).violation .free = some 9
    ∧ (Instr.pginv (std (.v 0) (.v 0) .zero (.v 0) .b32 0)).violation { Env.free with sys := false } = some 10
    ∧ (Instr.add { add1 with a := .unassigned 0 }).canon = false
    ∧ (Instr.hwait { std (.v 0) (.v 0) (.v 0) (.v 0) .b32 1 with lit := some 0 }).formOk = false
    ∧ WellFormed .free (.add add1)) := by decide +kernel

/-! ## A small state -/

/-- Tables that map page 0 of object 1, 65,536 bytes, local, readable, writable and executable, to frame 0x10000. -/
def tables : Memory :=
  [(0x20, 1), (0x23, 0x80), (0x26, 1), (0x31, 1), (0x104, 1), (0x109, 2), (0x201, 0x80), (0x202, 7), (0x203, 0x80), (0x204, 1)]

/-- An address in object 1. -/
def inObj (n : Nat) : DWord := BitVec.ofNat 64 (2 ^ 40 + n)

/-- A thread at the entry of its block. -/
def thread : Thread := { pc := inObj 0x1000 }

/-- A block of `ts`, on core 0, in one ripple, with v1 = 5, v2 = 7 and, in v4 and v5, the address of byte 0x8000 of object
1. v56 and above are narrow. It has no trap vector, so that a trap ends its gang. -/
def blockOf (ts : List Thread) : Block :=
  { gang := 1, nthr := ts.length, regG := 56, regA := 8, scr := 4096, bars := 2, entry := inObj 0x1000
    chb := inObj 0x2000, tfa := inObj 0x4000
    v := [(1, .u 5), (2, .u 7), (4, .u 0x8000), (5, .u 0x100)], thr := ts.zipIdx.map fun e => (e.2, e.1)
    rip := [(0, { slots := (List.range ts.length).map fun n => (n, n), sched := 0 })], nextRip := 1 }

/-- The device at work, with block 0 alone in gang 1 of context 0, and its ripple issuing. -/
def stateOf (k : Block) : State :=
  { State.reset with
    dev := { State.reset.dev with stage := 5 }
    ctxs := [(0, { st := .active, sys := true, lmask := 1, otl := 1 })]
    gangs := [(1, { blocks := [0] })]
    blocks := [(0, k)]
    cur := some (0, 0)
    hbm := tables }

/-- One thread. -/
def one : State := stateOf (blockOf [thread])
/-- Two threads: p1 is 1 in the second, v3 is 8 and 9. -/
def two : State :=
  stateOf { blockOf [thread, { thread with p := 2 }] with
    v := [(1, .u 5), (2, .u 7), (3, .g [(0, 8), (1, 9)]), (4, .u 0x8000), (5, .u 0x100)] }
/-- One thread, changed. -/
def oneWith (f : Thread → Thread) : State := stateOf (blockOf [f thread])
/-- Its block changed. -/
def blockWith (f : Block → Block) : State := stateOf (f (blockOf [thread]))

/-- A block's canonical form, as a check. -/
def canonB (k : Block) : Bool :=
  Tab.wf (VVal.u 0) k.v
  && (k.v.all fun e => match e.2 with
    | .g ws => Tab.wf (0 : Word) ws
    | _ => true)
  && (k.thr.all fun e => Tab.wf (0 : Word) e.2.o) && Memory.wf k.scratch && Memory.wf k.poolMem
  && Tab.wf ({} : Bar) k.bar && Tab.wf ({} : Rsv) k.rsv

theorem canon_of_check {k : Block} (h : canonB k = true) : k.Canon := by
  simp only [canonB, Bool.and_eq_true, List.all_eq_true] at h
  obtain ⟨⟨⟨⟨⟨⟨h1, h2⟩, h3⟩, h4⟩, h5⟩, h6⟩, h7⟩ := h
  refine ⟨h1, fun e he => ?_, h3, h4, h5, h6, h7⟩
  have := h2 e he
  revert this
  cases e.2 <;> simp [VVal.Canon]

/-- The invariant, as a check. -/
def invB (s : State) : Bool :=
  Memory.wf s.hbm && Memory.wf s.cxl && Tab.risingFrom 0 s.blocks && (s.blocks.all fun e => canonB e.2)
  && s.gangs.all fun e => e.2.saved.all fun r => r.blocks.all canonB

theorem inv_of_check {s : State} (h : invB s = true) : s.Inv := by
  simp only [invB, Bool.and_eq_true, List.all_eq_true, Option.all_eq_true] at h
  obtain ⟨⟨⟨⟨h1, h2⟩, h3⟩, h4⟩, h5⟩ := h
  exact ⟨h1, h2, h3, fun e he => canon_of_check (h4 e he), fun e he r hr k hk => canon_of_check (h5 e he r hr k hk)⟩

/-- Whether `i` issues in `s`, with no latch lost, in a canonical state, and `p` holds of the ripple. -/
def meets (i : Instr) (s : State) (p : Iss → Bool) : Bool :=
  invB s && match s.iss i with
  | some q => decide (i.violation (s.env q.k) = none) && q.ready && (latchTraps q (clearLong q s)).isEmpty && p q
  | none => false

theorem meets_issues {i : Instr} {s : State} {p : Iss → Bool} (h : meets i s p = true) :
    ∃ q, s.Inv ∧ Issues i s q ∧ NoLost s q ∧ p q = true := by
  simp only [meets, Bool.and_eq_true] at h
  obtain ⟨hi, h⟩ := h
  cases e : s.iss i with
  | none => simp [e] at h
  | some q =>
    simp only [e, Bool.and_eq_true, decide_eq_true_eq, List.isEmpty_iff] at h
    exact ⟨q, inv_of_check hi, ⟨e, h.1.1.1, h.1.1.2⟩, h.1.2, h.2⟩

/-- The state after an instruction or event. -/
def after (i : Instr) (s : State) (p : State → Bool) : Bool :=
  match exec i s with
  | .next t => p t
  | _ => false

/-- Hypotheses met, and the state after the instruction as the spec says. -/
def runs (i : Instr) (s : State) (p : Iss → Bool) (c : State → Bool) : Bool := meets i s p && after i s c

/-- What thread `t` of block 0 reads in register `d`. -/
def val (s : State) (t : Nat) (d : Sel) : Option Word := s.reg 0 t d 0

/-- Whether a destination is no narrow register. -/
def wide (d : Sel) (n : Nat) (q : Iss) : Bool := !q.k.narrow d n

/-! ## Instructions that compute, read and exchange -/

theorem test_meets_ComputeResult : [
    runs (.add add1) one (wide (.v 4) 1) fun t => val t 0 (.v 4) = some 17 && t.pc 0 0 = some (inObj 0x1008),
    runs (.sub (std (.v 9) (.v 1) (.v 2) (.v 0) .n32 0)) one (wide (.v 9) 1) fun t => val t 0 (.v 9) = some 0xFFFFFFFE#32,
    runs (.add (std (.v 9) (.v 3) (num 1) (.v 0) .n32 0)) two (fun q => (q.shape (std (.v 9) (.v 3) (num 1) (.v 0) .n32 0)).isG
      && wide (.v 9) 1 q) fun t => val t 1 (.v 9) = some 10,
    runs (.fadd (std (.o 3) (num 1) (num 2) (.v 0) .f32 0)) one (wide (.o 3) 1) fun t => val t 0 (.o 3) = some 0x40400000#32
  ].all id = true := by decide +kernel

theorem test_meets_ComputeFrame : [
    runs (.add add1) one (wide (.v 4) 1) fun t => val t 0 (.v 1) = some 5 && val t 0 (.v 5) = some 0x100 && t.hbm = tables,
    runs (.pgheat (std (.v 8) (.v 4) .zero (.v 0) .b32 1)) (one.modDev fun d =>
        { d with heat := [{ page := 2 ^ 24, ctx := 0, heat := 3 }, { page := 5, ctx := 0, heat := 1 }] }) (wide (.v 8) 1)
      fun t => val t 0 (.v 8) = some 0x300002#32 && t.dev.heat.map Heat.heat = [0, 1] && val t 0 (.v 1) = some 5
  ].all id = true := by decide +kernel

theorem test_meets_RegisterReads : [
    runs (.movS (sf (.v 8) (.v 1))) one (wide (.v 8) 1) fun t => val t 0 (.v 8) = some 5,
    runs (.sread (sf (.v 8) (.sr 0))) two (wide (.v 8) 1) fun t => val t 1 (.v 8) = some 1,
    runs (.shape (std (.v 8) (.v 3) (.v 0) (.v 0) .b32 0)) two (wide (.v 8) 1) fun t => val t 1 (.v 8) = some 2
  ].all id = true := by decide +kernel

def ld1 : Std := { std (.v 8) (.v 4) .zero (.v 0) .n32 0 with pa := 2 }
def opOf_ (st : OpSt) (tk : BitVec 16) : Op := { tk := tk, pc := inObj 0x1000, insn := .ld ld1, st := st }
/-- A thread with tickets 0 to 2 taken, of which 1 and 2 are in its window. -/
def busy (st : OpSt) : Thread := { thread with tnext := 3, win := [opOf_ .outstanding 1, opOf_ st 2] }

theorem test_meets_HorizonReads : [
    runs (.hread (sf (.v 8) (.v 0))) (stateOf (blockOf [busy .parked])) (wide (.v 8) 1) fun t => val t 0 (.v 8) = some 0x30001#32,
    runs (.hread (sf (.v 60) (.v 0))) one (fun q => q.ts = [0] && q.on = [0] && q.k.narrow (.v 60) 1)
      fun t => t.blk 0 = none,
    runs (.tick (std (.v 8) (.v 1) (.v 0) (.v 0) .b32 0)) one (wide (.v 8) 1) fun t => val t 0 (.v 8) = some 4,
    tickWord (busy .settled) 2 = 0x20000#32, tickWord (busy .outstanding) 2 = 0x20001#32,
    tickWord (busy .parked) 2 = 0x20002#32, tickWord (busy .failed) 2 = 0x20003#32, tickWord (busy .parked) 0 = 0x20000#32,
    tickWord (busy .parked) 3 = 0x20004#32, (busy .failed).passed 2 = false, (busy .failed).passed 0 = true
  ].all id = true := by decide +kernel

def bankOne (c : Core) : Core := { c with bank := [(0, { owner := some 0, els := [(128 * 5 + 7, 0x3F800000)] })] }

theorem test_meets_StructureReads : [
    runs (.eseq (std (.v 8) (.v 0) (.v 0) (.v 0) .b32 0)) one (wide (.v 8) 1) fun t => val t 0 (.v 8) = some 0,
    runs (.cwptr (std (.v 8) (.v 0) (.v 0) (.v 0) .b32 0)) one (wide (.v 8) 1) fun t => val t 0 (.v 8) = some 0,
    runs (.barq (std (.v 8) .zero (.v 0) (.v 0) .b32 0)) one (fun q => wide (.v 8) 1 q
      && (q.barNo (std (.v 8) .zero (.v 0) (.v 0) .b32 0) 0).toNat < q.k.bars) fun t => (val t 0 (.v 8)).isSome,
    runs (.mxread (std (.v 8) (.v 1) (.v 2) (.v 0) .b32 0)) (one.modCore 0 bankOne)
      (fun q => wide (.v 8) 1 q && ((one.modCore 0 bankOne).bankLoops q.k q.b 0).isEmpty)
      fun t => val t 0 (.v 8) = some 0x3F800000#32,
    runs (.mxstat (std (.v 8) (.v 0) (.v 0) (.v 0) .b32 0)) (one.modCore 0 bankOne) (wide (.v 8) 1)
      fun t => val t 0 (.v 8) = some 0x40000000#32,
    runs (.mxstat (std (.v 8) .zero (.v 0) (.v 0) .b32 2)) (blockWith fun k => { k with rsv := [(0, { st := .ready, fp := 384 })] })
      (fun q => wide (.v 8) 1 q && slotGone q.k 0 = false) fun t => val t 0 (.v 8) = some 0x60000003#32,
    runs (.pgq (std (.v 8) (.v 4) .zero (.v 0) .b32 0)) one (wide (.v 8) 1) fun t => val t 0 (.v 8) = some 0x80078000#32,
    runs (.pgheat (std (.v 8) (.v 4) .zero (.v 0) .b32 0)) one (wide (.v 8) 1) fun t => val t 0 (.v 8) = some 0
  ].all id = true := by decide +kernel

theorem test_meets_ConvertAndCoin : [
    runs (.cvt (std (.v 9) (.v 8) (.v 0) (.v 8) .i32 0)) (blockWith fun k => { k with v := [(8, .u 0x40200000)] }) (wide (.v 9) 1)
      fun t => val t 0 (.v 9) = some 2,
    runs (.coin (std (.v 9) (.v 1) (.v 2) (num 4) .b32 1)) one (wide (.v 9) 1) fun t => (val t 0 (.v 9)).isSome
  ].all id = true := by decide +kernel

theorem test_meets_ExchangeResults : [
    runs (.shfl (std (.v 8) (.v 3) (num 1) (.v 0) .n32 3)) two (fun q => wide (.v 8) 1 q
      && q.on.all fun th => !lostSel (clearLong q two) q.b th (num 1)
        && !lostSel (clearLong q two) q.b (shflFrom q (std (.v 8) (.v 3) (num 1) (.v 0) .n32 3) th) (.v 3))
      fun t => val t 0 (.v 8) = some 9 && val t 1 (.v 8) = some 8,
    runs (.redr (std (.v 8) (.v 3) (.v 0) (.v 0) .n32 0)) two (fun q => wide (.v 8) 1 q && !q.on.isEmpty)
      fun t => val t 0 (.v 8) = some 17
  ].all id = true := by decide +kernel

theorem test_meets_RippleReads : [
    runs (.vote (std (.v 8) (.p 1) (.v 0) (.v 0) .b32 3)) two (wide (.v 8) 1) fun t => val t 0 (.v 8) = some 2,
    runs (.vote (std (.p 2) (.p 1) (.v 0) (.v 0) .b32 1)) two (wide (.p 2) 1) fun t => ((t.thr 0 0).map Thread.p) = some 4,
    (Instr.vote (std (.v 8) (.p 1) (.v 0) (.v 0) .b32 0)).violation .free = some 5,
    (Instr.vote (std (.p 2) (.p 1) (.v 0) (.v 0) .b32 3)).violation .free = some 5,
    (Instr.vote { std (.p 2) (.p 1) (.v 0) (.v 0) .b32 0 with w := true }).violation .free = some 9,
    runs (.matchReg (std (.v 8) (.v 3) (.v 0) (.v 0) .n32 0)) two (wide (.v 8) 1)
      fun t => val t 0 (.v 8) = some 1 && val t 1 (.v 8) = some 2,
    runs (.lmap (std (.v 8) (num 1) (.v 0) (.v 0) .b32 0)) two (wide (.v 8) 1) fun t => val t 0 (.v 8) = some 1,
    runs (.lmap (std (.v 8) (num 2) (.v 0) (.v 0) .b32 1)) two (wide (.v 8) 1) fun t => val t 0 (.v 8) = some 0xFFFFFFFF#32
  ].all id = true := by decide +kernel

def drawState : State :=
  blockWith fun k => { k with v := [(8, .u 2), (9, .u 0x40400000), (10, .u 0x3F800000), (12, .u 0x3F800000), (13, .u 0x5EED),
                                    (14, .u 7), (16, .u 6), (17, .u 0x40800000), (18, .u 0x3FC00000)] }

/-- spec/22_draw.md: the merged maximum is the greater one, 4.0. -/
theorem test_meets_DrawResults : [
    runs (.drawm { g := pt, d := .v 20, lg := .v 8, rg := .v 16, pg := .v 12, pos := num 4, w := false, rsv := 0 }) drawState
      (wide (.v 20) 3) fun t => val t 0 (.v 21) = some 0x40800000#32,
    runs (.drawr (std (.v 20) (.v 9) (.v 8) (.v 12) .f32 0)) drawState (fun q => wide (.v 20) 3 q && q.on.head? = some 0)
      fun t => val t 0 (.v 20) = some 2 && val t 0 (.v 21) = some 0x40400000#32 && val t 0 (.v 22) = some 0x3F800000#32
  ].all id = true := by decide +kernel

/-! ## Control flow and exceptions -/

def pcAt (t : State) (th n : Nat) : Bool := t.pc 0 th = some (inObj n)
def branch : Std := std (.v 0) (num 5) (.v 0) (.v 0) .b32 0
def toPair : Std := std (.v 0) (.v 4) (.v 0) (.v 0) .b32 0

theorem test_meets_BranchTargets : [
    runs (.nop (sf (.v 0) (.v 0))) one (fun _ => true) fun t => pcAt t 0 0x1004,
    runs (.yield (sf (.v 0) (.v 0))) one (fun _ => true) fun t => pcAt t 0 0x1004,
    runs (.bra { branch with g := { inv := false, p := 1 } }) two (fun q => q.on = [1]) fun t => pcAt t 0 0x1008 && pcAt t 1 0x1014,
    runs (.brx toPair) one (fun _ => true) fun t => pcAt t 0 0x8000,
    runs (.ret (sf (.v 0) (.v 4))) one (fun _ => true) fun t => pcAt t 0 0x8000,
    runs (.hbr { branch with b := .v 0, func := 3 }) one (fun _ => true) fun t => pcAt t 0 0x1008,
    runs (.hbr { branch with b := .v 0, func := 1 }) one (fun _ => true) fun t => pcAt t 0 0x1014
  
  ].all id = true := by decide +kernel

theorem test_meets_CallAndMeet : [
    runs (.call { branch with d := .v 8 }) one (wide (.v 8) 2) fun t => pcAt t 0 0x1014 && val t 0 (.v 8) = some 0x1008#32
      && val t 0 (.v 9) = some 0x100#32,
    runs (.meet (std (.v 8) (num 13) (.v 0) (.v 0) .b32 0)) one (wide (.v 8) 1) fun t => val t 0 (.v 8) = some 0xFFFFFFFF#32
      && (t.thr 0 0).map Thread.meet = some 52
  
  ].all id = true := by decide +kernel

/-- Two ripples of one thread each, the first of which issues. -/
def apart (x y : Thread) : State :=
  stateOf { blockOf [x, y] with rip := [(0, { slots := [(0, 0)], sched := 0 }), (1, { slots := [(0, 1)], sched := 0 })]
                                nextRip := 2 }

theorem test_meets_ExitEnds : [
    runs (.exit (sf (.v 0) (.v 0))) one (fun q => q.on = [0]) fun t => t.blk 0 = none,
    runs (.exit (sf (.v 0) (.v 0))) (apart thread thread) (fun q => q.ts = [0])
      fun t => (t.thr 0 0).any (fun x => x.st = .exited) && (t.thr 0 1).any fun x => x.st = .running,
    runs (.exit (sf (.v 0) (.v 0))) (apart (busy .parked) thread) (fun q => q.ts = [0])
      fun t => t.thr 0 0 = some (busy .parked)
  
  ].all id = true := by decide +kernel

def vectored : State := blockWith fun k => { k with tvec := 0x100 }

theorem test_meets_TrapEntry : [
    (vectored.blk 0).any fun k => (Tab.find k.thr 0).any fun x => vectored.isReplay k.gang = false && k.tvec ≠ 0 && x.handler = false
      && match writeFrame vectored k 0 0 x 6 0 9 (inObj 0x1008) with
        | .ok _ => true
        | .error _ => false,
    pcAt (vectored.trap 0 0 6 0 9 (inObj 0x1008)) 0 0x1100,
    ((vectored.trap 0 0 6 0 9 (inObj 0x1008)).thr 0 0).any fun x => x.handler,
    Memory.read (vectored.trap 0 0 6 0 9 (inObj 0x1008)).hbm 0x14000 12 = [0, 0, 0, 6, 9, 0, 0, 0, 8, 0x10, 0, 0]
  
  ].all id = true := by decide +kernel

theorem test_meets_FrameHeader :
    let x : Thread := { thread with esc := { mark := true, n := 1, w := 2, log := [(8, 3)] } }
    x.esc.n ≤ 255 ∧ x.esc.log.length ≤ 4 ∧ (∀ e ∈ x.esc.log, e.2 < 256) ∧
      wordAt (x.headerWords 6 0 9 0 0) 6 = 0x80010002#32 ∧ wordAt (x.headerWords 6 0 9 0 0) 9 = 3 := by decide +kernel

theorem test_meets_TrapKills : [
    (let s := one
     invB s && (s.blk 0).any (fun k => k.tvec = 0 && (Tab.find k.thr 0).isSome && (Tab.find s.gangs k.gang).any fun g => g.blocks.contains 0)
       && (s.trap 0 0 6 0 9 0).blk 0 = none),
    (let s := oneWith fun x => { x with handler := true }
     (s.blk 0).any (fun k => (Tab.find k.thr 0).any Thread.handler) && (s.trap 0 0 6 0 9 0).blk 0 = none),
    runs (.trap { toPair with a := .v 1, func := 1 }) one (fun q => q.on ≠ [] && (Tab.find one.gangs q.k.gang).any fun g =>
      g.blocks.contains q.b) fun t => t.blk 0 = none
  
  ].all id = true := by decide +kernel

theorem test_meets_TrapInstructions : [
    runs (.bkpt (sf (.v 0) (.v 0))) one (fun q => q.ts = [0] && q.on = [0]) fun t => t.blk 0 = none
      && t.thr 0 0 = (one.trap 0 0 5 0 0 (inObj 0x1004)).thr 0 0,
    runs (.trap { toPair with a := .v 1 }) one (fun q => q.ts = [0] && q.on = [0]) fun t =>
      t.thr 0 0 = (one.trap 0 0 6 0 5 (inObj 0x1008)).thr 0 0,
    ((one.iss (.unassignedOpcodeExecute 1)).any fun q => q.ts = [0]) && after (.unassignedOpcodeExecute 1) one fun t =>
      t.thr 0 0 = (one.trap 0 0 2 1 0 (inObj 0x1000)).thr 0 0
  
  ].all id = true := by decide +kernel

/-- `i` stands at a ripple in `s` for which `p` holds. -/
def stands (i : Instr) (s : State) (p : Iss → Bool) : Bool := (s.iss i).any p

theorem test_meets_IssueRules : [
    stands (.add { add1 with pa := 1 }) one (fun q => (Instr.add { add1 with pa := 1 }).violation (one.env q.k) = some 8)
      && after (.add { add1 with pa := 1 }) one fun t => t.blk 0 = none,
    meets (.pginv (std (.v 0) (.v 4) .zero (.v 0) .b32 0)) one fun q => one.sysMode q.k,
    (let s := oneWith fun x => { busy .outstanding with
       win := [{ opOf_ .outstanding 1 with dest := .v 8 }], longV := BitVec.twoPow 256 8, o := x.o }
     stands (.add { add1 with a := .v 8 }) s (fun q => (Instr.add { add1 with a := .v 8 }).violation (s.env q.k) = none && !q.ready)
       && after (.add { add1 with a := .v 8 }) s fun t => t = s)
  
  ].all id = true := by decide +kernel

theorem test_meets_OperandTraps : [
    stands (.add { add1 with a := .l 0 }) one (fun q => (Instr.add { add1 with a := .l 0 }).violation (one.env q.k) = none && q.ready
      && q.ts = [0] && q.on = [0] && wide (.v 4) 1 q && ((clearLong q one).thr 0 0).any fun x =>
        x.lostLatch (instrUses (.add { add1 with a := .l 0 })) = some 0) && after (.add { add1 with a := .l 0 }) one fun t => t.blk 0 = none,
    meets (.add { add1 with d := .v 60, a := .o 1 }) one fun q => q.ts = [0] && q.on = [0] && (q.shape { add1 with d := .v 60, a := .o 1 }).isG
      && q.k.narrow (.v 60) 1
  
  ].all id = true := by decide +kernel

def inHandler : State := oneWith fun x => { x with handler := true }

theorem test_meets_HandlerReturns : [
    runs (.rtt toPair) inHandler (fun q => q.ts = [0] && q.on = [0] && (q.thr 0).handler) fun t => pcAt t 0 0x8000,
    runs (.hresume { toPair with a := .v 0 }) inHandler (fun q => resumeReady q inHandler && q.ts = [0] && q.on = [0]
      && (freshAt (clearAll q inHandler) q.k.ctx (q.k.frame 0) 4224).isNone
      && (readFrame (clearAll q inHandler) q.k 0).any fun e => (listed e.2).all fun e =>
        (entryInstr ((clearAll q inHandler).env q.k) e.2 (Tab.find (q.thr 0).kept e.1)).isSome) fun t => t.pc 0 0 = some 0,
    runs (.rtt toPair) one (fun q => q.ts = [0] && q.on = [0] && (q.thr 0).handler = false) fun t => t.blk 0 = none,
    runs (.hresume { toPair with a := .v 0 }) one (fun q => resumeReady q one && q.ts = [0] && (q.thr 0).handler = false)
      fun t => t.blk 0 = none
  
  ].all id = true := by decide +kernel

/-! ## Operations on global memory -/

/-- `i` enters its operation: the hypotheses, and a window of one operation at ticket 0. -/
def enters (i : Instr) (d : Sel) (n : Nat) (s : State) : Bool :=
  runs i s (fun q => windowRoom q s && wide d n q && s.isReplay q.k.gang = false)
    fun t => (t.thr 0 0).any fun x => x.tnext = 1 && x.win.map Op.tk = [0] && pcAt t 0 (0x1000 + i.length)

def st1 : Std := { std (.v 0) (.v 4) .zero (.v 1) .n32 0 with pa := 2 }
def at1 : Std := std (.v 8) (.v 4) .zero (.v 1) .n32 0
def enq1 : EnqForm := { g := pt, d := .v 8, grp := .v 16, engine := 0, rel := false, scope := 0, rsv := 0 }
def agdef1 : AgdefForm := { g := pt, d := .v 0, base := .v 4, mask := .v 4, agn := 3, del := false, rsv := 0 }
def mldr1 : MldrForm := { g := pt, d := .v 16, off := .v 10, pg := .v 0, agn := 3, op := 0, ty := .bf16x2, cnt := 0, rsv := 0 }
def cl1 : Std := std (.v 8) (.v 4) .zero (num 5) .b32 0

theorem test_meets_AccessesIssue : [enters (.ld ld1) (.v 8) 1 one, enters (.ldnr { ld1 with c := .p 1 }) (.v 8) 1 one, enters (.st st1) .zero 0 one,
    enters (.atom at1) (.v 8) 1 one, enters (.red { at1 with d := .v 0 }) .zero 0 one,
    enters (.pgreq (std (.v 0) (.v 4) .zero (.v 0) .b32 0)) .zero 0 one
  ].all id = true := by decide +kernel

def drain1 : Std := { std (.v 0) (.v 4) .zero .lit .b32 2 with lit := some 0x100 }

theorem test_meets_CommandsIssue : [enters (.pgmove (std (.v 0) (.v 4) .zero (.v 2) .b32 0)) .zero 0 one,
    enters (.enq enq1) (.v 8) 1 one, enters (.agdef agdef1) .zero 0 one, enters (.mldr mldr1) (.v 16) 4 one,
    enters (.clstart cl1) (.v 8) 1 one,
    runs (.mxdrain drain1) (one.modCore 0 bankOne) (fun q => windowRoom q (one.modCore 0 bankOne)
      && bankReady q (one.modCore 0 bankOne) && q.on = [0] && ((one.modCore 0 bankOne).core 0).freeDrain.isSome
      && (q.pitch drain1 0).toNat % 16 = 0 && !one.isReplay q.k.gang)
      fun t => (t.thr 0 0).any fun x => x.tnext = 1 && x.win.map Op.buf = [some 0] && pcAt t 0 (0x1000 + (Instr.mxdrain drain1).length)
  ].all id = true := by decide +kernel

def replay : State :=
  { one with gangs := [(1, { blocks := [0], replay := some { sig := 0, cluster := 0, rel := 0, core := 0, slot := 0 } })] }

def abandons (i : Instr) (d : Sel) (n : Nat) : Bool :=
  runs i replay (fun q => windowRoom q replay && wide d n q && !q.on.isEmpty && replay.isReplay q.k.gang
    && (Tab.find replay.gangs q.k.gang).any fun g => g.blocks.contains q.b) fun t => t.blk 0 = none

theorem test_meets_ReplayAbandoned : [abandons (.atom at1) (.v 8) 1, abandons (.red { at1 with d := .v 0 }) .zero 0,
    abandons (.enq enq1) (.v 8) 1, abandons (.mldr mldr1) (.v 16) 4, abandons (.agdef agdef1) .zero 0,
    abandons (.clstart cl1) (.v 8) 1, abandons (.pgmove (std (.v 0) (.v 4) .zero (.v 2) .b32 0)) .zero 0,
    abandons (.pgreq (std (.v 0) (.v 4) .zero (.v 0) .b32 0)) .zero 0
  ].all id = true := by decide +kernel

theorem test_meets_DrainIssues : [
    (let s := one.modCore 0 bankOne
     let f := drain1
     runs (.mxdrain f) s (fun q => windowRoom q s && bankReady q s && q.on = [0] && (s.core 0).freeDrain = some 0
       && (q.pitch f 0).toNat % 16 = 0)
       fun t => ((t.core 0).bankOf 0) = {} && (Tab.find (t.core 0).drain 0).any fun d => d.els = [(647, 0x3F80#32)])
  
  ].all id = true := by decide +kernel

/-! ## Scratchpad, fences, waits -/

def lds1 : Std := { std (.v 8) .zero .zero (.v 0) .n32 0 with pa := 2 }
def sts1 : Std := { std (.v 0) .zero .zero (.v 1) .n32 0 with pa := 2 }
def atoms1 : Std := std (.v 8) .zero .zero (.v 1) .n32 0
/-- Scratchpad bytes 0 to 3 hold 3. -/
def padded : State := blockWith fun k => { k with scratch := [(0, 3)] }
/-- No scratchpad. -/
def bare : State := blockWith fun k => { k with scr := 0 }

theorem test_meets_ScratchLoad : [
    runs (.lds lds1) padded (fun q => scratchReady false q padded && wide (.v 8) 1 q
      && q.on.all fun th => scratchFault padded q.k (q.scratchAddr lds1 th) 4 false = none) fun t => val t 0 (.v 8) = some 3
  ].all id = true := by decide +kernel

theorem test_meets_ScratchStore : [
    runs (.sts sts1) padded (fun q => scratchReady true q padded && q.on = [0]
      && padded.scratchBlock q.k (q.scratchAddr sts1 0) = some 0
      && scratchFault padded q.k (q.scratchAddr sts1 0) 4 false = none
      && (storeData q sts1 0 padded).1 = [5, 0, 0, 0])
      fun t => (t.blk 0).map (fun k => k.scratch) = some [(0, 5)]
  ].all id = true := by decide +kernel

theorem test_meets_ScratchAtomic : [
    runs (.atoms atoms1) padded (fun q => scratchReady true q padded && q.on = [0] && wide (.v 8) 1 q
      && scratchFault padded q.k (q.scratchAddr atoms1 0) 4 true = none && padded.scratchBlock q.k (q.scratchAddr atoms1 0) = some 0)
      fun t => val t 0 (.v 8) = some 3 && (t.blk 0).map (fun k => k.scratch) = some [(0, 8)]
  ].all id = true := by decide +kernel

theorem test_meets_ScratchFaults : [
    runs (.lds lds1) bare (fun q => scratchReady false q bare && q.ts = [0] && q.on = [0] && wide (.v 8) 1 q
      && scratchFault bare q.k (q.scratchAddr lds1 0) 4 false = some 1) fun t => t.blk 0 = none,
    runs (.sts sts1) bare (fun q => scratchReady true q bare && q.ts = [0] && q.on = [0]
      && scratchFault bare q.k (q.scratchAddr sts1 0) 4 false = some 1) fun t => t.blk 0 = none,
    runs (.atoms { atoms1 with b := num 2 }) padded (fun q => scratchReady true q padded && q.ts = [0] && q.on = [0] && wide (.v 8) 1 q
      && scratchFault padded q.k (q.scratchAddr { atoms1 with b := num 2 } 0) 4 true = some 4) fun t => t.blk 0 = none
  ].all id = true := by decide +kernel

def fence1 : Std := { std (.v 0) (.v 0) (.v 0) (.v 0) .b32 1 with pc := 1 }

def cachedL1 : State := one.modCore 0 fun c =>
  { c with l1 := [{ ctx := 0, loc := 0, addr := 0x18000, data := [] }], icache := [(0, inObj 0x1000, [])] }

theorem test_meets_FencesAndSweeps : [
    runs (.pf { ld1 with d := .v 0, pa := 0, ty := .b32 }) one (fun _ => true) fun t => pcAt t 0 0x1008,
    runs (.fence fence1) (oneWith fun _ => busy .outstanding) (fun q => q.on = [0] && !((q.thr 0).before 3).isEmpty)
      fun t => (t.thr 0 0).any fun x => x.fences.any fun e => e.tk = 3,
    runs (.fence fence1) cachedL1 (fun q => fence1.ord ≠ 2 && fence1.scope ≠ 0 && ((q.thr 0).before 0).isEmpty)
      fun t => (t.core 0).l1 = [] && pcAt t 0 0x1008,
    runs (.cctl { std (.v 0) (.v 0) (.v 0) (.v 0) .b32 0 with pa := 0 }) cachedL1 (fun q => !q.on.isEmpty) fun t => (t.core 0).icache = [],
    runs (.cctl { std (.v 0) (.v 0) (.v 0) (.v 0) .b32 0 with pa := 2 }) cachedL1 (fun q => !q.on.isEmpty) fun t => (t.core 0).l1 = [],
    runs (.pginv (std (.v 0) (.v 4) .zero (.v 0) .b32 0)) one (fun q => invReady (std (.v 0) (.v 4) .zero (.v 0) .b32 0) q one)
      fun t => pcAt t 0 0x1008
  ].all id = true := by decide +kernel

def hw (f : Nat) : Std := std (.v 0) (.v 0) (.v 0) (.v 0) .b32 f
def onWait (i : Instr) (s : State) (p : Iss → Bool) : Bool :=
  runs i s p fun t => pcAt t 0 0x1000 && (t.thr 0 0).any fun x => x.st = .waiting
def barw1 : Std := std (.v 0) .zero .zero (.v 0) .b32 0
def ew1 : Std := std (.v 8) (num 1) (.v 0) (.v 0) .b32 0
def mxw1 : Std := std (.v 0) (.v 0) (.v 0) (.v 0) .b32 0
def clw1 : Std := std (.v 8) (num 5) (num 1) (.v 0) .b32 0
def mxl1 : MxLoopForm :=
  { g := pt, p := .v 0, ra := 0, rb := 1, bank := false, zc := true, tb := true, spb := false, ab := false, dr := false
    gr := false, km1 := 0, a0 := 0, ai := 0, b0 := 0, bi := 0, ngm1 := 0, rsv := 0 }
/-- A loop of block 0 is queued on bank 0. -/
def looping : State := (blockWith fun k => { k with loops := 1 }).modCore 0 fun c => { c with loops := [{ blk := 0, f := mxl1 }] }
/-- Group 5 of context 0, which is bound with rank 1, at instance 1. -/
def grouped (st : GrpSt) : State :=
  (one.modCtx 0 fun c => { c with lmask := 3 }).modDev fun d => { d with grps := [{ ldom := 0, grp := 5, ctx := 0, cur := 1, st := st }] }

theorem test_meets_WaitsAtIssue : [
    runs (.hwait (hw 1)) one (fun q => hwaitMet (hw 1) (q.thr 0) 0) fun t => pcAt t 0 0x1008,
    onWait (.hwait (hw 1)) (oneWith fun _ => busy .outstanding) fun q => !hwaitMet (hw 1) (q.thr 0) 0,
    runs (.barw barw1) (blockWith fun k => { k with bar := [(0, { phase := 1 })] }) (fun q => (q.barNo barw1 0).toNat < q.k.bars)
      fun t => pcAt t 0 0x1008,
    onWait (.barw barw1) one fun q => (q.barNo barw1 0).toNat < q.k.bars && (q.k.barOf 0).phase = 0,
    runs (.ewait ew1) (blockWith fun k => { k with chain := [(0, { eseq := 1 })] }) (wide (.v 8) 1)
      fun t => pcAt t 0 0x1008 && val t 0 (.v 8) = some 0,
    runs (.ewait ew1) (blockWith fun k => { k with chain := [(0, { err := 3 })] }) (wide (.v 8) 1)
      fun t => pcAt t 0 0x1008 && val t 0 (.v 8) = some 1,
    onWait (.ewait ew1) one (wide (.v 8) 1), onWait (.cwait ew1) one (wide (.v 8) 1),
    runs (.cwait ew1) (blockWith fun k => { k with chain := [(0, { wp := 1 })] }) (wide (.v 8) 1) fun t => val t 0 (.v 8) = some 0,
    runs (.mxwait mxw1) one (fun _ => true) fun t => pcAt t 0 0x1008,
    onWait (.mxwait mxw1) looping (fun q => !loopsOver looping q.b mxw1 q.k.loops),
    runs (.clwait clw1) (grouped .done) (wide (.v 8) 1) fun t => pcAt t 0 0x1008 && val t 0 (.v 8) = some 0,
    onWait (.clwait clw1) (grouped .running) (wide (.v 8) 1),
    after (.clwait clw1) (grouped .running) fun t => (t.thr 0 0).any fun x => clwaitOf x = (5, 1)
  ].all id = true := by decide +kernel

/-! ## Barriers -/

theorem test_meets_BarrierCheck :
    ({ init := true, arrived := 2, expect := 2, phase := 4 } : Bar).check = { init := true, expect := 2, phase := 5 }
    ∧ ({ init := true, arrived := 3, expect := 2 } : Bar).check.ovf = true
    ∧ ({ init := true, arrived := 1, expect := 2 } : Bar).check = { init := true, arrived := 1, expect := 2 } := by decide +kernel

def bari1 : Std := std (.v 0) .zero (num 2) .zero .b32 0
def bara1 : Std := std (.v 8) .zero (.v 0) (.v 0) .b32 0
/-- Barrier 0 is set and expects `n`. -/
def barred (n : Nat) : State := blockWith fun k => { k with bar := [(0, { init := true, expect := n })] }

theorem test_meets_BarrierArrivals : [
    runs (.bari bari1) one (fun q => (q.barNo bari1 0).toNat < q.k.bars && (q.k.src32 0 (q.thr 0) none (num 2)).toNat = 2)
      fun t => (t.blk 0).any fun k => k.barOf 0 = { init := true, expect := 2 },
    runs (.bara bara1) (barred 2) (fun q => q.on = [0] && wide (.v 8) 1 q && arrivalDue 0 0 (.bara bara1) (barred 2)
      && (q.barNo bara1 0).toNat < q.k.bars) fun t => pcAt t 0 0x1008 && val t 0 (.v 8) = some 0
        && (t.blk 0).any fun k => (k.barOf 0).arrived = 1,
    runs (.bars bara1) (barred 1) (fun q => q.on = [0] && wide (.v 8) 1 q && arrivalDue 0 0 (.bars bara1) (barred 1))
      fun t => pcAt t 0 0x1008 && val t 0 (.v 8) = some 0,
    after (.bars bara1) ((barred 2).modBlk 0 fun k => { k with bar := [(0, { init := true, expect := 2, phase := 3 })] })
      fun t => val t 0 (.v 8) = some 3,
    onWait (.bars bara1) (barred 2) fun q => q.on = [0] && wide (.v 8) 1 q && arrivalDue 0 0 (.bars bara1) (barred 2)
  ].all id = true := by decide +kernel

def gbar1 : Std := { std (.v 0) .zero (.v 0) (.v 0) .b32 0 with func := 2 }

theorem test_meets_GangBarrier : [
    runs (.gbar gbar1) one (fun q => q.on = [0] && arrivalDue 0 0 (.gbar gbar1) one && (q.barNo gbar1 0).toNat ≤ 3)
      fun t => pcAt t 0 0x1008 && (Tab.find t.gangs 1).any fun g => Tab.get 0 g.gb 0 = 1,
    onWait (.gbar gbar1) (apart thread thread) fun q => q.on = [0] && arrivalDue 0 0 (.gbar gbar1) (apart thread thread)
  ].all id = true := by decide +kernel

/-- A trap of a thread of one whose barrier number is `v1` = 5, out of range, or whose barrier 0 is not set. -/
def barFault (i : Instr) : Bool :=
  runs i one (fun q => q.ts = [0] && q.on = [0] && wide (.v 8) 1 q) fun t => t.blk 0 = none

theorem test_meets_BarrierFaults : [
    barFault (.bari { bari1 with a := .v 1 }), barFault (.bari { bari1 with b := .zero }), barFault (.bari { bari1 with b := .v 4 }),
    barFault (.bara { bara1 with a := .v 1 }), barFault (.bara bara1), barFault (.bars { bara1 with a := .v 1 }),
    barFault (.bars bara1), barFault (.gbar { gbar1 with a := .v 1 }), barFault (.barw { barw1 with a := .v 1 }),
    barFault (.barq { bara1 with a := .v 1 })
  ].all id = true := by decide +kernel

/-! ## Collectives, tiles, registers -/

def cla1 : Std := std (.v 0) (num 5) (num 1) (.v 0) .b32 0

theorem test_meets_CollectiveAbortInstruction : [
    runs (.clabort cla1) (grouped .running) (fun q => q.on = [0] && (q.thr 0).settled)
      fun t => pcAt t 0 0x1008 && (t.grp 0 5).any fun r => r.st = .idle && r.out0 = 2
  ].all id = true := by decide +kernel

/-- Records (R284) of one tile of E4M3 in scratchpad, without scales, in v8 to v11; slots 0 and 1 in a state. -/
def tiled (st : RsvSt) : State :=
  blockWith fun k => { k with scr := 32768, v := [(8, .u 0x08800080)]
                              rsv := if st = .free then [] else [(0, { st := st, ws := [0x08800080, 0, 0, 0] }),
                                                                  (1, { st := st, ws := [0x08800080, 0x4000, 0, 0] })] }
def prsv1 : Std := std (.v 0) .zero (.v 8) (.v 0) .b32 0
def prel1 : Std := std (.v 0) .zero (.v 0) (.v 0) .b32 0

theorem test_meets_Reservations : [
    runs (.prsv prsv1) (tiled .free) (fun q => q.on = [0] && (q.slotNo prsv1 0).toNat ≤ 7 && (q.k.rsvOf 0).st = .free
      && recordBad (tiled .free) q.b q.k (q.record prsv1 0) = false)
      fun t => (t.blk 0).any fun k => (k.rsvOf 0).st = .ready && (k.rsvOf 0).ws = [0x08800080, 0, 0, 0],
    runs (.prel prel1) (tiled .ready) (fun q => q.on = [0] && slotGone q.k 0 = false && (tiled .ready).slotNamed 0 0 = false)
      fun t => (t.blk 0).any fun k => k.rsvOf 0 = {} && (k.rsvOf 1).st = .ready
  ].all id = true := by decide +kernel

def mxz (f : Nat) : Std := std (.v 0) (.v 0) (.v 0) (.v 0) .b32 f

theorem test_meets_BankZero : [
    runs (.mxzero (mxz 0)) (one.modCore 0 bankOne) (fun q => q.on = [0] && bankReady q (one.modCore 0 bankOne))
      fun t => (t.core 0).bankOf 0 = { owner := some 0 },
    runs (.mxzero (mxz 2)) (one.modCore 0 bankOne) (fun q => q.on = [0] && bankReady q (one.modCore 0 bankOne))
      fun t => (t.core 0).bankOf 0 = {},
    runs (.mxzero (mxz 3)) (one.modCore 0 bankOne) (fun q => q.on = [0] && ((one.modCore 0 bankOne).core 0).bankOf 1 = {})
      fun t => ((t.core 0).bankOf 0).owner = some 0 && (t.core 0).bankOf 1 = {}
  ].all id = true := by decide +kernel

theorem test_meets_LoopQueued : [
    runs (.mxloop mxl1) (tiled .ready) (fun q => q.on = [0] && (tiled .ready).bankTaken q.k q.b 0 = false
      && ((tiled .ready).core 0).loops.length < 4 && loopFault mxl1 q.k q.b (q.params mxl1 0) (tiled .ready) = none)
      fun t => ((t.core 0).bankOf 0).owner = some 0 && (t.core 0).loops.length = 1
        && (t.blk 0).any fun k => k.loops = 1 && (k.rsvOf 0).st = .inUse && (k.rsvOf 1).st = .inUse
  ].all id = true := by decide +kernel

theorem test_meets_TileFaults : [
    runs (.prsv prsv1) (tiled .ready) (fun q => q.ts = [0] && q.on = [0] && (q.k.rsvOf 0).st ≠ .free) fun t => t.blk 0 = none,
    runs (.prsv { prsv1 with b := .v 12 }) (tiled .free) (fun q => q.ts = [0] && q.on = [0]
      && recordBad (tiled .free) q.b q.k (q.record { prsv1 with b := .v 12 } 0)) fun t => t.blk 0 = none,
    runs (.prel prel1) (tiled .free) (fun q => q.ts = [0] && q.on = [0] && slotGone q.k 0) fun t => t.blk 0 = none,
    runs (.mxloop mxl1) (tiled .free) (fun q => q.ts = [0] && q.on = [0] && (tiled .free).bankTaken q.k q.b 0 = false
      && loopFault mxl1 q.k q.b (q.params mxl1 0) (tiled .free) = some 2) fun t => t.blk 0 = none
  ].all id = true := by decide +kernel

theorem test_meets_SpecialWrites : [
    runs (.swrt (sf (.sr 13) (.v 1))) one (fun q => q.on = [0]) fun t => (t.thr 0 0).any fun x => x.fflags = 5,
    runs (.swrt (sf (.sr 12) (.v 1))) one (fun q => q.on = [0]) fun t => (t.thr 0 0).any fun x => x.meet = 5,
    runs (.swrt (sf (.sr 18) (.v 4))) one (fun q => q.on = [0]) fun t => (t.blk 0).any fun k => k.tfa = inObj 0x8000
  ].all id = true := by decide +kernel

theorem test_meets_RegisterMoves : [
    runs (.opref (std (.o 0) (.v 1) (num 2) (.v 0) .b32 0)) one (fun q => q.on = [0])
      fun t => val t 0 (.o 0) = some 5 && val t 0 (.o 1) = some 7,
    runs (.opsave (std (.v 1) (.v 1) (num 2) (.v 0) .b32 0 |> fun f => { f with a := .o 3 })) one (wide (.v 1) 2)
      fun t => val t 0 (.v 1) = some 0 && val t 0 (.v 2) = some 0,
    runs (.shape (std (.v 1) (.v 0) (.v 0) (.v 0) .b32 1)) two (wide (.v 1) 1)
      fun t => val t 1 (.v 1) = some 5 && (t.blk 0).any fun k => (k.vreg 1).tag = 2,
    runs (.shape (std (.v 0) (.v 1) (.v 0) (.v 0) .b32 2)) one (fun q => (q.k.vreg 1).tag ≠ 2) fun t => pcAt t 0 0x1008,
    runs (.bsrclr (std (.v 0) (.v 1) (.v 0) (.v 0) .b32 0)) (blockWith fun k => { k with rfail := true }) (fun _ => true)
      fun t => (t.blk 0).any fun k => k.rfail = false
  ].all id = true := by decide +kernel

/-! ## Events of threads and of their operations -/

def groupedB (k : Block) : Bool :=
  Tab.risingFrom 0 k.thr && Tab.risingFrom 0 k.rip && (k.rip.all fun e => e.1 < k.nextRip)
  && decide (k.rip.flatMap fun e => e.2.threads).Nodup

theorem grouped_of_check {k : Block} (h : groupedB k = true) : k.Grouped := by
  simp only [groupedB, Bool.and_eq_true, List.all_eq_true, decide_eq_true_eq] at h
  exact ⟨h.1.1.1, h.1.1.2, h.1.2, h.2⟩

/-- The ripple stands at `i`, which has been issued. -/
def standing (i : Instr) (s : State) : State :=
  s.modBlk 0 fun k => { k with rip := Tab.modify k.rip 0 fun rp => { rp with busy := some i } }

/-- Block 0 of a state. -/
def blk0 (s : State) (p : Block → Bool) : Bool := (s.blk 0).any p
/-- Thread `t` of block 0. -/
def thr0 (s : State) (t : Nat) (p : Thread → Bool) : Bool := (s.thr 0 t).any p

/-- A thread that waits with a token, its ripple standing at `i`. -/
def awaiting (i : Instr) (tok : Word) (s : State) : State :=
  (standing i s).modThr 0 0 fun x => { x with st := .waiting, wtok := tok }

/-- The event ends the wait: the thread was waiting, and goes on. -/
def wakes (ev : Nat → Nat → Instr) (i : Instr) (s : State) : Bool :=
  invB s && blk0 s (fun k => (Tab.find k.rip 0).any fun rp => rp.busy = some i && rp.threads = [0])
  && thr0 s 0 (fun x => x.st = .waiting) && after (ev 0 0) s fun t => pcAt t 0 0x1008

theorem test_meets_WaitsEnd : [
    wakes .hwaitEnd (.hwait (hw 1)) (awaiting (.hwait (hw 1)) 0 one),
    wakes .waitEnd (.hwait (hw 1)) (awaiting (.hwait (hw 1)) 0 one),
    wakes .barrierWaitEnd (.barw barw1) (awaiting (.barw barw1) 0 (blockWith fun k => { k with bar := [(0, { phase := 1 })] })),
    wakes .ewaitEnd (.ewait ew1) (awaiting (.ewait ew1) 1 (blockWith fun k => { k with chain := [(0, { eseq := 1 })] })),
    wakes .cwaitEnd (.cwait ew1) (awaiting (.cwait ew1) 1 (blockWith fun k => { k with chain := [(0, { err := 3 })] })),
    wakes .mxwaitEnd (.mxwait mxw1) (awaiting (.mxwait mxw1) 1 one),
    wakes .clwaitEnd (.clwait clw1) ((awaiting (.clwait clw1) 1 (grouped .done)).modThr 0 0 fun x => { x with wbar := 10 }),
    after (.cwaitEnd 0 0) (awaiting (.cwait ew1) 1 (blockWith fun k => { k with chain := [(0, { err := 3 })] }))
      fun t => val t 0 (.v 8) = some 1
  ].all id = true := by decide +kernel

def unmapped : State := { one with hbm := tables.filter fun e => e.1 ≠ 0x203 }

theorem test_meets_ThreadEvents : [
    (let s := oneWith fun x => { x with st := .held }
     blk0 s (fun k => !s.stopping k) && after (.meetingRelease 0 0xFFFFFFFF#32) s fun t => thr0 t 0 fun x => x.st = .running),
    (let s := standing (.exit (sf (.v 0) (.v 0))) (apart thread thread)
     blk0 s (fun k => groupedB k && (k.ripOf 0).isSome && k.live.contains 1) && after (.exitComplete 0 0) s fun t => thr0 t 0 fun x => x.st = .exited),
    (let s := standing (.bars bara1) (barred 2)
     invB s && arrivalDue 0 0 (.bars bara1) s && thr0 s 0 (fun x => !x.arr) && after (.barrierArrive 0 0) s fun t =>
       blk0 t fun k => (k.barOf 0).arrived = 1),
    (let i : Instr := .bars { bara1 with g := { inv := false, p := 1 } }
     let s := standing i (barred 2)
     thr0 s 0 (fun x => guardHolds (instrGuard i) x.p = false) && after (.barrierArrive 0 0) s fun t => t = s),
    (let s := standing (.clabort cla1) (grouped .running)
     thr0 s 0 (fun x => x.win = [] && !x.arr) && after (.clabortStart 0 0) s fun t => (t.grp 0 5).any fun r => r.st = .idle),
    (let s := stateOf { blockOf [{ thread with win := [opOf_ .failed 0], tnext := 1 }] with tvec := 0x100 }
     invB s && blk0 s (fun k => k.tvec ≠ 0 && !s.isReplay k.gang && (Tab.find s.gangs k.gang).any fun g => g.blocks.contains 0)
       && thr0 s 0 (fun x => x.st = .running && !x.handler) && blk0 s (fun k => (Tab.find k.thr 0).any fun x =>
         match writeFrame s k 0 0 x 1 0 0 x.pc with
         | .ok _ => true
         | .error _ => false) && after (.failureTrap 0 0) s fun t => thr0 t 0 (fun x => x.handler && x.hz = 1) && pcAt t 0 0x1100),
    (let s := { stateOf { blockOf [{ thread with win := [opOf_ .failed 0], tnext := 1 }] with tvec := 0x100 } with hbm := unmapped.hbm }
     invB s && after (.failureTrap 0 0) s fun t => t.blk 0 = none),
    blk0 unmapped (fun k => (Tab.find k.rip 0).any fun rp => mayFetch unmapped 0 k rp && match fetchBlock unmapped 0 0 (inObj 0x1000) with
      | .park c _ => c = 1
      | _ => false) && after (.fetchFault 0 0) unmapped fun t => blk0 t fun k => (Tab.find k.rip 0).any fun rp => rp.stall.isSome
  ].all id = true := by decide +kernel

/-- Context 0 is bound with rank 1, link 0 to rank 1 is up, and its event queue has room. -/
def bound : State :=
  { one with
    dev := { one.dev with links := [(0, { st := .up, lanes := 8, prank := 1 })] }
    ctxs := [(0, { st := .active, sys := true, lmask := 3, otl := 1, meb := 0x50000, mek := 4, fqb := 0x60000, fqk := 4 })] }
/-- A thread with one operation at ticket 0. -/
def withOp (o : Op) (s : State) : State := s.modThr 0 0 fun x => { x with win := [o], tnext := 1 }
def op0 (i : Instr) : Op := { tk := 0, pc := inObj 0x1000, insn := i }
def opIs (s : State) (p : Op → Bool) : Bool := (s.opAt 0 0 0).any fun e => p e.2.2
def canGo (s : State) : Bool := (s.opAt 0 0 0).any fun e => e.2.2.st = .outstanding && e.2.1.hz = e.2.2.tk && mayPerform s 0 0 e.1 e.2.1 e.2.2

/-- Whether `o` is about to be performed in one piece, at HBM address `a` of a page whose LOC is `loc`. -/
def pieceAt (s : State) (o : Op) (loc a : Nat) : Bool :=
  let s := s.fenceStep 0 0
  o.plan = [] && o.parts = [] && (s.opAt 0 0 0).any fun e => e.2.2 = o && e.2.1.hz = o.tk && mayGo s 0 0 e.1 e.2.1 o
    && match (accOf o.insn).map fun x => judge s 0 0 (e.1.laneOf 0) { x with gang := some 1 } o.addr with
      | some (.ok ps, _) => match judgedPieces ps with
        | [(0, at_, 4, some tr)] => at_ = o.addr && tr.att.loc = loc && tr.key o.addr = a && (s.moveOf 0 (pageNo at_)).isNone
        | _ => false
      | _ => false
def storing : Op := { op0 (.st st1) with addr := inObj 0x8000, data := [5, 0, 0, 1] }
def adding : Op := { op0 (.red { at1 with d := .v 0 }) with addr := inObj 0x8000, data := [5, 0, 0, 0] }
def loading : Op := { op0 (.ld ld1) with dest := .v 8, addr := inObj 0x8000 }
/-- Page 0 of object 1 is a peer's. -/
def peered : State :=
  { bound.modDev fun d => { d with peers := [(1, 1, 0x1FF)] } with
    hbm := Memory.write tables 0x200 (wordBytes [attWord { loc := 1, peer := 1, mode := 1, ord := 1, rd := true, wr := true }]) }
def sent1 (s : State) (p : FabReq → Bool) : Bool := s.out.any fun m => match m with
  | .req 1 1 q => q.addr = inObj 0x8000 && p q
  | _ => false

theorem test_meets_OperationEvents : [
    (let s := withOp storing one
     invB s && pieceAt s storing 0 0x18000 && after (.heldOperationPerform 0 0 0) s fun t => opIs t (fun o => o.perf && o.allDone)
       && Memory.read t.hbm 0x18000 5 = [5, 0, 0, 1, 0]),
    (let s := withOp storing replay
     pieceAt s storing 0 0x18000 && after (.heldOperationPerform 0 0 0) s fun t => opIs t (fun o => o.perf) && t.hbm = s.hbm),
    (let s := withOp adding { one with hbm := Memory.write tables 0x18000 [7, 1, 0, 0] }
     pieceAt s adding 0 0x18000 && after (.heldOperationPerform 0 0 0) s fun t => opIs t (fun o => o.allDone && o.bytes = [7, 1, 0, 0])
       && Memory.read t.hbm 0x18000 4 = [12, 1, 0, 0]),
    (let s := withOp storing peered
     pieceAt s storing 1 (match walk s 0 (inObj 0x8000) 4 with
         | .ok tr => tr.key (inObj 0x8000)
         | _ => 0)
       && s.dev.holds = [] && after (.heldOperationPerform 0 0 0) s fun t => t.hbm = s.hbm
         && sent1 t fun q => q.kind = .store && q.data = [5, 0, 0, 1]),
    (let s := withOp adding peered
     after (.heldOperationPerform 0 0 0) s fun t => sent1 t fun q => q.kind = .red && q.data = [5, 0, 0, 0] && q.aop = 0),
    (let s := withOp loading { one with hbm := Memory.write tables 0x18000 [7, 1, 0, 0] }
     invB s && pieceAt s loading 0 0x18000 && (s.latentIn 0x18000 128).isNone && (s.core 0).l1 = []
       && after (.operationSettle 0 0 0) s fun t => val t 0 (.v 8) = some 0x107),
    (let s := withOp { op0 (.agdef agdef1) with addr := inObj 0x40, aux := [3, 0] } bound
     canGo s && (s.opAt 0 0 0).any (fun e => !agdefBad s e.1 e.2.2) && s.isBound 0 && (s.firstRoute 1).isSome
       && after (.heldOperationPerform 0 0 0) s fun t =>
         opIs t (fun o => o.perf && o.parts.map Part.key = [1])
         && t.agEntry 0 3 = some { ldom := 0, agn := 3, base := inObj 0x40, mask := 3 }
         && t.out.any fun m => match m with
           | .req 1 1 q => q.kind = .agdef && q.addr = inObj 0x40
           | _ => false),
    (let s := withOp { op0 (.enq enq1) with dest := .v 8, data := List.replicate 64 1 } one
     canGo s && blk0 s (fun k => enqRoom k 0 && match enqJudge s k 0 0 with
       | (.ok _, _) => true
       | _ => false) && after (.enqSlotWrite 0 0 0) s fun t => opIs t (fun o => o.perf && o.addr = 0) && Memory.read t.hbm 0x12000 4 = [1, 1, 1, 1]),
    (let s := withOp { op0 (.ld ld1) with dest := .v 8, addr := inObj 0x8000, perf := true, plan := [(0, inObj 0x8000, 4, none)],
                                               parts := [{ key := 0, len := 4, done := some 0, data := [9, 0, 0, 0] }] } one
     invB s && opIs s (fun o => o.allDone) && after (.operationSettle 0 0 0) s fun t => val t 0 (.v 8) = some 9),
    (let s := withOp { op0 (.ld ld1) with dest := .v 8, addr := inObj 0x8000 } unmapped
     opIs s (fun o => o.fresh) && (s.opAt 0 0 0).any (fun e => match opJudge s 0 e.1 e.2.1 e.2.2 with
       | (.park _ _ _, _) => true
       | _ => false) && after (.operationPark 0 0 0) s fun t => opIs t fun o => o.st = .parked && o.cause = 1),
    (let s := withOp { op0 (.ld ld1) with dest := .v 8, addr := 0x8000 } one
     (s.opAt 0 0 0).any (fun e => failCause s 0 e.1 e.2.1 e.2.2 = some 4) && after (.operationFail 0 0 0) s fun t =>
       opIs t fun o => o.st = .failed && o.cause = 4),
    invB one && after (.runAheadAccess 0 0 (inObj 0x1000) .code) one fun t => ((t.core 0).icache.map fun e => e.2.1) = [inObj 0x1000],
    after (.cycleCounterTick 3) one fun t => (t.core 3).clock = 1
  ].all id = true := by decide +kernel

/-! ## Events of queues, gangs and engines -/

/-- Port 0 is up, context 0 has quotas and clusters, and queue 0 is `x`. -/
def queued (x : HQueue) : State :=
  { one with
    dev := { one.dev with ports := [(0, { st := 2, gen := 1, width := 16 })] }
    parts := [(0, { st := .open_, cmask := 1, hmask := 1 })]
    ctxs := [(0, { st := .active, sys := true, lmask := 1, otl := 1, bound := true, qb := 32, qpg := 512, qsw := 16384
                   qscr := 512, qpool := 256, savn := 64, savb := 0x40000, queues := [(0, x)] })] }
def q0 (st : QSt) : HQueue := { st := st, enable := true, qk := 4, ck := 4 }
def qIs (s : State) (p : HQueue → Bool) : Bool := p (s.queue 0 0)

/-- A launch record of one gang of one block of 32 threads with 8 registers, entered at object 1, 0x1000; SEQ `n`. -/
def record (type n : Nat) : List Word :=
  [BitVec.ofNat 32 (type * 2 ^ 24), BitVec.ofNat 32 n, 0x1000, 0x100, 1, BitVec.ofNat 32 (1 * 2 ^ 28 + 32 * 2 ^ 17 + 8 * 2 ^ 8)]
  ++ List.replicate 26 0
/-- A record that only marks a point: TYPE 2. -/
def marker (n : Nat) : List Word := [0x02000000, BitVec.ofNat 32 n] ++ List.replicate 30 0
def node0 (ws : List Word) : Node := { ctx := 0, q := 0, seq := 1, ws := ws, elig := true }
def withNode (n : Node) (s : State) : State := { s with nodes := [(0, n)] }

theorem test_meets_QueueEvents : [
    after (.tailWrite 0 0 3) (queued (q0 .disabled)) fun t => qIs t fun x => x.tail = 3 && x.st = .disabled,
    after (.tailWrite 0 0 3) (queued (q0 .enabled)) fun t => qIs t fun x => x.tail = 3 && x.st = .running,
    after (.tailWrite 0 0 17) (queued (q0 .running)) fun t => qIs t fun x => x.err = 4 && x.st = .error,
    (let s := queued { q0 .running with cons := 5 }
     seqGe 4 5 = false && after (.tailWrite 0 0 4) s fun t => t = s),
    after (.queueEnable 0 0) (queued { q0 .disabled with enable := false }) fun t => qIs t fun x => x.st = .enabled,
    after (.queueEnable 0 0) (queued { q0 .disabled with enable := false, qk := 3 }) fun t => qIs t fun x => x.st = .error && x.err = 6,
    after (.queueDisable 0 0) (queued { q0 .error with err := 2 }) fun t => qIs t fun x => x.st = .disabled && x.err = 0,
    after (.queueDrain 0 0) (queued (q0 .enabled)) fun t => qIs t fun x => x.st = .disabled,
    after (.queueDrain 0 0) (withNode (node0 (record 1 1)) (queued (q0 .running))) fun t => qIs t fun x => x.st = .draining,
    after (.entryFetch 0 0 (record 1 2)) (queued { q0 .running with tail := 1 }) fun t => qIs t fun x => x.err = 1,
    after (.entryFetch 0 0 (record 3 1)) (queued { q0 .running with tail := 1 }) fun t => qIs t fun x => x.err = 2,
    after (.entryFetch 0 0 ((record 1 1).set 4 0)) (queued { q0 .running with tail := 1 }) fun t => qIs t fun x => x.err = 3,
    after (.entryFetch 0 0 (record 1 1)) (queued { q0 .running with tail := 1 }) fun t => qIs t (fun x => x.cons = 1) && t.nodes.length = 1,
    after (.ringAccessTimeout 0 0) (queued { q0 .running with tail := 1 }) fun t => qIs t fun x => x.err = 5 && x.st = .error,
    after (.ringAccessTimeout 0 0) (queued { q0 .enabled with comp := 1 }) fun t => qIs t fun x => x.err = 5 && x.st = .error,
    (let s := { withNode { node0 (record 1 1) with next := 1 } (queued (q0 .running)) with gangs := [], blocks := [] }
     s.nodeOver 0 { node0 (record 1 1) with next := 1 } && (s.ctx 0).records && after (.nodeComplete 0) s fun t => t.nodes = []
       && t.out.any fun m => match m with
         | .hostWrite _ bs => bs.take 4 = [0, 0, 0, 1]
         | _ => false)
  ].all id = true := by decide +kernel

/-- A copy command of 64 bytes from object 1, 0x8000, to scratchpad byte 0, that counts on barrier 1. -/
def copy1 : List Word := [0x01810080, 64, 0x8000, 0x100] ++ List.replicate 12 0
/-- A piece that has read its 64 bytes. -/
def piece1 : Piece := { off := 0, len := 64, st := .flying, parts := [{ key := 0, len := 64, done := some 0, data := List.replicate 64 1 }] }
/-- Chain 0 of the block runs `copy1`, with the given pieces. -/
def copying (ps : List Piece) (s : State) : State :=
  s.modBlk 0 fun k => { k with chain := [(0, { nq := 1, head := 1, cmd := some { ws := copy1, tid := 0, pieces := ps, next := 64 * ps.length } })] }
def chain0 (s : State) (p : Chain → Bool) : Bool := blk0 s fun k => p (k.chainOf 0)
def pieceIs (s : State) (f : Block → Chain → Cmd → Piece → Bool) : Bool :=
  (s.pieceOf 0 0 0).any fun e => e.2.1.err = 0 && f e.1 e.2.1 e.2.2.1 e.2.2.2
/-- Its chain has one slot to read, which holds the words `ws`. -/
def slotted (ws : List Word) : State :=
  let s := blockWith fun k => { k with chain := [(0, { nq := 1 })] }
  { s with hbm := Memory.write s.hbm 0x12000 (wordBytes ws) }
/-- The bytes of a slot that holds `copy1`, as an answer brings them. -/
def got1 : Part := { key := 0, done := some 0, data := wordBytes copy1 }
/-- Context 0 has work for the placer. -/
def placing : State := withNode (node0 (record 1 1)) { queued (q0 .running) with gangs := [], blocks := [] }
def saved1 : Saved := { off := 0, len := 128, blocks := [blockOf [thread]] }
def gang1 (k : Gang) (s : State) : State := { s with gangs := [(1, k)] }
/-- A loop of the block's, queued on core 0. -/
def looped (running : Bool) (s : State) : State := s.modCore 0 fun c => { c with loops := [{ blk := 0, f := mxl1, running := running }] }

theorem test_meets_EngineEvents : [
    (match placing.selection [] with
     | some (0, _, .fresh 0, [0]) => true
     | _ => false) && Tab.risingFrom 0 placing.nodes && after (.gangPlace []) placing fun t =>
       (t.gangs.map fun e => e.2.st) = [.running] && t.pc 0 31 = some (inObj 0x1000),
    (let s := gang1 { st := .preempted, saved := some saved1 } placing
     (match s.selection [3] with
      | some (0, _, .restore 1 _ _, [3]) => true
      | _ => false) && ((savePlaces s (s.ctx 0) 0x40000 128).any fun ps => ps.all fun p =>
        !s.poisonedIn p.1 p.2.2 && (s.latentIn p.1 p.2.2).isNone) && after (.gangPlace [3]) s fun t => t.gangs.all fun e => e.2.st = .running),
    (let s := gang1 { st := .stopping, blocks := [0] } ((queued (q0 .running)).modThr 0 0 fun x => { x with rest := true })
     let n := 4 * (s.gangRecord { st := .stopping, blocks := [0] } s.blocks).length
     invB s && blk0 s (s.blockQuiet 0) && saveRoom (s.savedSpans 0) (4096 * 64) n = some 0
       && (savePlaces s (s.ctx 0) 0x40000 n).isSome),
    after (.chainSlotRead 0 0) (slotted copy1) fun t => chain0 t fun c => c.head = 1 && c.cmd.map Cmd.ws = some copy1,
    after (.chainSlotRead 0 0) (slotted (copy1.set 0 0)) fun t => chain0 t fun c => c.err = 1,
    blk0 (slotted copy1) fun k => (slotted copy1).slotDue k 0 && (slotted copy1).chainTurn 0 k 0,
    after (.chainSlotRead 0 0) ((slotted copy1).modBlk 0 fun k => { k with chain := [(0, { nq := 1, got := [got1] })] }) fun t => chain0 t fun c => c.head = 1 && c.cmd.map Cmd.ws = some copy1,
    after (.chainSlotRead 0 0) { slotted copy1 with hbm := unmapped.hbm } fun t => chain0 t fun c => c.park.any fun e => e.1 = 1,
    after (.chainSlotRead 0 0) ((slotted copy1).modBlk 0 fun k => { k with chb := 0x300_0000_2000#64 }) fun t =>
      chain0 t fun c => c.err = 3 && c.cause ≠ 0,
    (let s := copying [{ piece1 with wr := true }] one
     invB s && pieceIs s (fun _ _ _ p => p.off = 0) && after (.copyPieceDone 0 0 0) s fun t =>
       chain0 t (fun c => c.eseq = 1 && c.wp = 64 && c.cmd = none)),
    (let s := copying [] unmapped
     pieceIs s (fun k _ m p => match judgePiece s 0 k m p with
       | (.park 1 _ _, _) => p.st = .ready
       | _ => false) && after (.copyPiecePark 0 0 0) s fun t => pieceIs t fun _ _ _ p => p.st = .parked && p.cause = 1),
    (let s := copying [{ piece1 with parts := [{ key := 0, len := 64 }] }] one
     pieceIs s (fun _ _ _ p => p.st = .flying) && after (.copyPieceStallTimeout 0 0 0) s fun t =>
       chain0 t fun c => c.err = 3 && c.cause = 5),
    (let s := looped false (tiled .ready)
     (nextLoop s (s.core 0).loops).isSome && after (.matrixStepStart 0) s fun t => (t.core 0).loops.all fun l => l.running),
    (let s := looped true (tiled .ready)
     ((s.core 0).loops.find? fun l => l.running).any fun l => l.blk = 0 && (s.blk 0).isSome && mxSteps l.f ≤ l.steps + 1 || l.steps + 1 < mxSteps l.f)
  ].all id = true := by decide +kernel

/-! ## Events of the fabric and of moves -/

/-- A request of rank 1. -/
def ask (kind : ReqKind) (data : List Byte) : FabReq :=
  { kind := kind, src := 1, tag := 9, ldom := 0, addr := inObj 0x8000, size := 4, data := data }
/-- A request of this device for its thread's load. -/
def pend1 : Pend := { req := { ask .load [] with src := 0, tag := 0 }, dst := 1, who := .op 0 0 0 0, place := 0x8000 }
/-- The thread has a load under way, whose part waits for request 0. -/
def asking (p : Pend) (s : State) : State :=
  (s.modThr 0 0 fun x => { x with tnext := 1, win := [{ op0 (.ld ld1) with dest := .v 8, addr := inObj 0x8000, parts := [{ key := 0, len := 4, tag := some 0 }] }] }).modDev
    fun d => { d with reqs := [(0, p)] }
def partDone (s : State) (n : Nat) : Bool := opIs s fun o => o.parts.all fun y => y.done = some n
def sends (s : State) (m : Msg) : Bool := s.out.contains m
def devIs (s : State) (p : Dev → Bool) : Bool := p s.dev
/-- A response with status 0 was performed for request 9 of rank 1. -/
def answered (s : State) : State := s.modDev fun d => { d with performed := [{ src := 1, tag := 9, status := 0 }] }

/-- What a load or a store of a page in HBM asks of its owner. -/
def served (r : FabReq) (s : State) : Bool :=
  (s.dev.performed.find? fun a => a.src = r.src && a.tag = r.tag).isNone && r.src ≠ s.dev.rank && r.hops = 0
  && s.boundCtx r.ldom = some 0 && (s.stub r.ldom (pageNo r.addr)).isNone && match walk s 0 r.addr (reqAcc r).size with
    | .ok tr => tr.att.loc = 0 && (ownerChecks s (reqAcc r) tr r.addr true).isNone && tr.frame = 0x10000
    | _ => false

theorem test_meets_FabricRequests : [
    after (.remoteRequest (ask .store [1])) (answered bound) fun t => sends t (.resp 1 { src := 0, tag := 9, status := 0 }),
    one.boundCtx 0 = none && after (.remoteRequest (ask .load [])) one fun t => sends t (.resp 1 { src := 0, tag := 9, status := 7, unbound := true }),
    invB bound && served (ask .load []) bound && after (.remoteRequest (ask .load [])) bound fun t =>
      sends t (.resp 1 { src := 0, tag := 9, status := 0, data := [0, 0, 0, 0] }),
    served (ask .store [1, 2, 3, 4]) bound && after (.remoteRequest (ask .store [1, 2, 3, 4])) bound fun t =>
      Memory.read t.hbm 0x18000 4 = [1, 2, 3, 4] && devIs t fun d => d.performed = [{ src := 1, tag := 9, status := 0 }],
    after (.requestRelay 1 (ask .load [])) bound fun t => sends t (.relay 1 (ask .load [])),
    after (.requestRelay 2 (ask .load [])) bound fun t => t.out = [],
    after (.remoteResponse { src := 1, tag := 0, status := 0, data := [9, 0, 0, 0] }) (asking pend1 bound) fun t =>
      partDone t 0 && sends t (.ack 1 0),
    after (.remoteResponse { src := 1, tag := 3, status := 0 }) (asking pend1 bound) fun t => sends t (.ack 1 3) && t.dev.reqs.length = 1,
    after (.responseAck 1 9) (answered bound) fun t => devIs t fun d => d.performed = [],
    after (.remoteResponse { src := 1, tag := 0, status := 7, unbound := true }) (asking { pend1 with qf := true } bound) fun t =>
      partDone t 7,
    after (.remoteResponse { src := 1, tag := 0, status := 7 }) (asking { pend1 with qf := true } bound) fun t => partDone t 0,
    after (.remoteResponse { src := 1, tag := 5, status := 0 }) (bound.modDev fun d => { d with dead := [5, 6] }) fun t =>
      devIs t fun d => d.dead = [6],
    after (.responseTimeout 0) (asking { pend1 with route := 0 } bound) fun t => sends t (.req 1 1 pend1.req)
      && devIs t fun d => d.reqs = [(0, { pend1 with tried := [1] })],
    after (.responseTimeout 0) (asking { pend1 with tried := [1] } bound) fun t => partDone t 5,
    (bound.modDev fun d => { d with jobs := [{ cn := 0, req := ask .load [] }] }).underWay 1 9,
    (let p : Pend := { pend1 with req := { pend1.req with kind := .pgreq } }
     after (.remoteResponse { src := 1, tag := 0, status := 7 }) (asking p bound) fun t =>
       devIs t (fun d => d.reqs = [(0, { p with held := true })])
       && after (.responseTimeout 0) (asking { p with tried := [1] } bound) fun t => devIs t fun d => d.reqs = [(0, { p with held := true })]),
    after (.portCompletion 0 9 []) (asking { pend1 with port := some 2, dst := 0 } bound) fun t => partDone t 7,
    after (.portCompletion 0 5 []) (asking { pend1 with port := some 2, dst := 0 } bound) fun t => partDone t 5,
    after (.portCompletion 0 0 [1, 2, 3, 4]) (asking { pend1 with port := some 2, dst := 0 } bound) fun t => partDone t 0
      && opIs t fun o => o.parts.all fun y => y.data = [1, 2, 3, 4],
    pend1.readBytes = 4 && one.cxlBad 0x8000 4 = false && after (.portCompletion 0 0 []) (asking { pend1 with port := some 3, dst := 0 } bound) fun t =>
      partDone t 0,
    (let p : Pend := { pend1 with req := { pend1.req with kind := .store, data := [1, 2, 3, 4] }, port := some 3, dst := 0, place := 64 }
     after (.portCompletion 0 0 []) (asking p bound) fun t => partDone t 0 && Memory.read t.cxl 64 4 = [1, 2, 3, 4]),
    bound.dev.reqs.length + bound.dev.dead.length + 64 ≤ 65536,
    bound.reachable 1 && pend1.outcome 5 = 5 && { pend1 with qf := true : Pend }.outcome 5 = 0
  ].all id = true := by decide +kernel

/-- Link 0 is `l`. -/
def linked (l : Link) : State := one.modDev fun d => { d with links := [(0, l)], stage := 4 }
def turns (ev : Instr) (l : Link) (new : Link) : Bool :=
  after ev (linked l) fun t => t.dev.link 0 = new
    && (l.st = new.st || sends t (.linkState 0 0 new.st 1))
/-- What the peer sends at UP: a link of rank 2's, and rank 2's pair. -/
def news : Exchange := { map := [(36, .up, 1)], pairs := [(2, 5, 6)] }

theorem test_meets_LinkEvents : [
    decide (linkPeer 0 0 = 1),
    turns (.linkSignalDetect 0) { retry := true } { st := .training }, turns (.linkRetryTimer 0) { retry := true } { st := .training },
    turns (.linkRetryTimer 0) {} {},
    turns (.linkTrainingTimeout 0) { st := .training } { retry := true }, turns (.linkDegrade 0) { st := .up } { st := .degraded },
    turns (.linkSignalLost 0) { st := .degraded } {},
    turns (.linkQuarantine 0) {} { st := .quarantined, cause := 3, quar := true },
    turns (.linkEnable 0 false) { st := .up } { enable := false },
    turns (.linkEnable 0 false) { st := .quarantined, cause := 3, quar := true } { cause := 3, quar := true, enable := false },
    turns (.linkEnable 0 true) { cause := 3, quar := true, enable := false, fails := 2 } {},
    turns (.linkEnable 0 true) { st := .quarantined, cause := 3, quar := true, enable := false }
      { st := .quarantined, cause := 3, quar := true },
    turns (.linkEnable 0 true) { st := .quarantined, cause := 1 } { st := .quarantined, cause := 1 },
    turns (.linkTrainingDone 0 7 1 (1, 0x1FF) news) { st := .training } { lanes := 7, prank := 1, retry := true },
    turns (.linkTrainingDone 0 8 1 (1, 0x1FF) news) { st := .training } { st := .up, lanes := 8, prank := 1 },
    turns (.linkTrainingDone 0 8 2 (1, 0x1FF) news) { st := .training } { st := .quarantined, cause := 1, lanes := 8, prank := 2 },
    turns (.linkRetrainDone 0 8 1 (1, 0x1FF) news) { st := .degraded, prank := 1 } { st := .up, lanes := 8, prank := 1, retr := 1 },
    turns (.linkRetrainDone 0 7 1 (1, 0x1FF) news) { st := .degraded, prank := 1, fails := 2 }
      { st := .quarantined, cause := 2, lanes := 7, prank := 1, retr := 1 },
    turns (.linkRetrainDone 0 8 2 (1, 0x1FF) news) { st := .degraded, prank := 1, fails := 1 }
      { st := .degraded, lanes := 8, prank := 1, retr := 1, fails := 2 },
    after (.linkTrainingDone 0 8 1 (1, 0x1FF) news) (linked { st := .training }) fun t => sends t (.caps 0 1 0x1FF)
      && sends t (.exchange 0 { map := [(0, .up, 1)] }) && Tab.find t.dev.peers 1 = some (1, 0x1FF)
      && Tab.find t.dev.peers 2 = some (5, 6) && Tab.get (.down, 0) t.dev.map 36 = (.up, 1),
    after (.linkTrainingDone 0 7 2 (1, 0x1FF) news) (linked { st := .training }) fun t => Tab.find t.dev.peers 2 = some (1, 0x1FF),
    after (.linkRetrainDone 0 7 3 (1, 0x1FF) news) (linked { st := .degraded }) fun t => Tab.find t.dev.peers 3 = some (1, 0x1FF),
    after (.linkTrainingDone 0 8 2 (1, 0x1FF) news) (linked { st := .training }) fun t => Tab.find t.dev.peers 2 = some (1, 0x1FF),
    after (.flitReplay 0) one fun t => t = one,
    after (.linkQuarantine 3) one fun t => t.pfRead 0x1034 = 3,
    after (.linkStateBroadcast 1 0 .up 1) one fun t => Tab.get (.down, 0) t.dev.map 18 = (.up, 1) && sends t (.linkState 1 0 .up 1),
    after (.linkStateBroadcast 1 0 .up 0x8000#16) one fun t => t = one,
    after (.capabilityBroadcast 1 2 3) one fun t => Tab.find t.dev.peers 1 = some (2, 3) && sends t (.caps 1 2 3),
    (let s := one.modDev fun d => { d with peers := [(1, (2, 3))] }
     after (.capabilityBroadcast 1 2 3) s fun t => t = s)
  ].all id = true := by decide +kernel

/-- Number of the page at object 1, 0. -/
def page1 : Nat := 2 ^ 24
def mreq1 : MoveReq := { ctx := 0, ldom := 0, page := page1, rank := 1, tier := 0 }
def move1 : Move := { r := mreq1, loc := 0, old := 0x10000, new := 0x70000, todo := 0 }
def moving (m : Move) : State := bound.modDev fun d => { d with moves := [(0, m)] }
def asked1 : State := bound.modDev fun d => { d with mqueue := [mreq1] }
def phase (s : State) (p : Move → Bool) : Bool := (Tab.find s.dev.moves 0).any p
def stub1 : Stub := { ldom := 0, page := page1, target := 1, mask := 2 }
def stubbed (x : Stub) : State := bound.modDev fun d => { d with stubs := [x] }
def owned : State := bound.modDev fun d => { d with owners := [{ ldom := 0, page := page1, owner := 1 }] }

def swept (t : State) : Bool := (t.core 0).tlb.isEmpty && t.dev.heat.isEmpty
/-- A translation of the page that core 0 holds, and a heat entry of it. -/
def warm (s : State) : State :=
  (s.modCore 0 fun c => { c with tlb := [{ ctx := 0, obj := 1, page := 0, att := {}, frame := 0x10000, olen := 65536 }] }).modDev fun d =>
    { d with heat := [{ page := page1, ctx := 0 }] }
/-- Another thread's load of the page is under way at rank 1. -/
def used (s : State) : State := (asking pend1 bound).modDev fun d => { d with moves := s.dev.moves, arrivals := s.dev.arrivals }
def askInstall : Instr := .install { src := 1, tag := 9 } 0 (inObj 0) 0x70000 0x80000000 [1]
/-- A migration event record waits. -/
def behind (s : State) : State := s.modCtx 0 fun c => { c with ewait := [[]] }
/-- Context 0 is bound and has one frame in its HBM ring and one in its CXL ring. -/
def ringed : State :=
  { bound.modCtx 0 fun c => { c with hrb := 0x20000, hrk := 6, hrp := 1, crb := 0x21000, crk := 6, crp := 1 } with
    hbm := Memory.write (Memory.write tables 0x20000 (leBytes 8 0x70000)) 0x21000 (leBytes 8 0x80000) }
def toTier : MoveReq := { mreq1 with rank := 0, tier := 1 }
def queuedMove (r : MoveReq) (s : State) : State := s.modDev fun d => { d with mqueue := [r] }
def away1 (ph : MovePh) : State := moving { move1 with ph := ph }
def held1 : Move := { move1 with ph := .final, held := [ask .store [1, 2, 3, 4]] }
def here1 : Move := { move1 with r := toTier, ph := .final }

theorem test_meets_MoveStart : [
    (entryOf bound 0 page1).any (fun e => e.1.loc = 0 && (framePlace bound 0 0 (peFrame e.2.1)).isSome)
      && moveAllowed 0 0 1 0 && !asked1.moveWaits mreq1 false && asked1.moveWaits mreq1 true,
    after (.moveStart { frame := some 0x70000 }) asked1 fun t => t.dev.mqueue = [] && phase t fun v => v.new = 0x70000 && v.old = 0x10000,
    (let s := asked1.modDev fun d => { d with moves := (List.range 16).map fun i => (i, { move1 with r := { mreq1 with page := 2 } }) }
     s.engineFull mreq1.page && after (.moveStart { frame := some 0x70000 }) s fun t => t = s),
    after (.moveStart { skip := [0], frame := some 0x70000 }) asked1 fun t => t = asked1, after (.moveStart {}) bound fun t => t = bound,
    after (.moveStart {}) asked1 fun t => t = bound.refuseMove mreq1 5 0,
    after (.moveStart {}) ((moving move1).modDev fun d => { d with mqueue := [mreq1] }) fun t => t = (moving move1).refuseMove mreq1 6 0,
    after (.moveStart {}) (queuedMove { mreq1 with rank := 0 } bound) fun t => t = bound.refuseMove { mreq1 with rank := 0 } 9 0,
    after (.moveStart {}) (queuedMove { mreq1 with page := 5 } bound) fun t => t = bound.refuseMove { mreq1 with page := 5 } 9 0,
    after (.moveStart {}) (queuedMove toTier ringed) fun t => (phase t fun v => v.new = 0x80000) && (t.ctx 0).crc = 1,
    after (.moveStart {}) (queuedMove toTier bound) fun t => t = bound.refuseMove toTier 5 0,
    one.boundCtx 0 = none && after (.moveStart {}) (queuedMove toTier one) fun t => t = one.refuseMove toTier 5 0
  ].all id = true := by decide +kernel

theorem test_meets_MoveEvents : [
    after (.copyPassEnd 0) (moving { move1 with todo := 1 }) fun t => t = moving { move1 with todo := 1 },
    after (.copyPassEnd 0) (moving { move1 with dirty := 1 }) fun t => phase t fun v => v.passes = 2 && v.todo = 1,
    after (.copyPassEnd 0) (moving { move1 with dirty := 1, passes := 3 }) fun t => phase t fun v => v.ph = .final && v.todo = 1,
    after (.copyPassEnd 0) (moving move1) fun t => phase t fun v => v.ph = .final,
    ((away1 .final).firstRoute 1).isSome && after (.copyPassEnd 0) (away1 .final) fun t => (phase t fun v => v.ph = .install)
      && t.out.any fun m => match m with
        | .req 1 1 r => r.kind = .install && r.arg = 0x70000
        | _ => false,
    ((one.modDev fun d => { d with moves := (away1 .final).dev.moves }).firstRoute 1).isNone
      && after (.copyPassEnd 0) (one.modDev fun d => { d with moves := (away1 .final).dev.moves }) fun t => t.dev.moves = [],
    invB bound && after (.copyPassEnd 0) (behind (warm (moving here1))) fun t => t.dev.moves = [] && swept t
      && Memory.read t.hbm 0x200 4 = wordBytes [attWord { loc := 3, mode := 1, ord := 1, rd := true, wr := true, ex := true, hm := true }],
    (used (moving here1)).pageBusy 0 page1 && after (.copyPassEnd 0) (used (moving here1)) fun t => t = used (moving here1),
    after (.copyPassEnd 0) (moving { move1 with lost := true }) fun t => t.dev.moves = [],
    after (.copyPassEnd 0) (moving { move1 with ph := .install, ack := some 7 }) fun t => t.dev.moves = [] && t.dev.stubs = [],
    after (.copyPassEnd 0) (moving { move1 with ph := .install, ack := some 0 }) fun t => t.dev.moves = [] && t.dev.stubs.length = 1,
    after (.copyPassEnd 0) (away1 .install) fun t => t = away1 .install,
    after (.holdLimitExpiry 0) (moving held1) fun t => t.dev.moves = [] && sends t (.resp 1 { src := 0, tag := 9, status := 0 }),
    after (.holdLimitExpiry 0) (moving { held1 with held := [] }) fun t => t = moving { held1 with held := [] },
    after (.installAck 0 0) (warm (away1 .install)) fun t => t.dev.moves = [] && t.dev.stubs.map Stub.target = [1] && swept t,
    after (.installAck 0 7) (away1 .install) fun t => t.dev.moves = [] && t.dev.stubs = [],
    after (.installAck 0 0) (used (away1 .install)) fun t => phase t fun v => v.ack = some 0,
    after (.installAck 0 0) (away1 .pass) fun t => t = away1 .pass
  ].all id = true := by decide +kernel

theorem test_meets_MoveEventsFar : [
    (entryOf bound 0 (pageNo (inObj 0))).isSome && after askInstall (warm bound) fun t =>
      sends t (.resp 1 { src := 0, tag := 9, status := 0 }) && swept t && devIs t fun d =>
        d.arrivals = [{ ldom := 0, page := page1, ranks := [1] }],
    after askInstall one fun t => t = one.say (.resp 1 { src := 0, tag := 9, status := 7 }),
    after askInstall (answered bound) fun t => t = (answered bound).say (.resp 1 { src := 0, tag := 9, status := 0 }),
    after askInstall (stubbed stub1) fun t => sends t (.resp 1 { src := 0, tag := 9, status := 7 }),
    (used bound).pageBusy 0 page1 && after askInstall (used bound) fun t => t = used bound,
    after (.redirect 0 (inObj 0) 1) bound fun t => devIs t fun d => d.owners = [{ ldom := 0, page := page1, owner := 1 }] && d.holds = [],
    after (.redirect 0 (inObj 0) 1) ((asking pend1 bound).modDev fun d => { d with nextSeq := 1 }) fun t => devIs t fun d =>
      d.holds = [{ ldom := 0, page := page1, seq := 1 }],
    after (.entriesUpdated 1 9 0 (inObj 0)) (stubbed stub1) fun t => sends t (.invalidate 1 0 page1)
      && sends t (.resp 1 { src := 0, tag := 9, status := 0 }) && devIs t fun d => d.stubs = [{ stub1 with reclaiming := true, left := 2 }],
    after (.entriesUpdated 1 9 0 (inObj 0)) (stubbed { stub1 with mask := 0 }) fun t => t.dev.stubs = [],
    after (.entriesUpdated 1 9 0 (inObj 0)) bound fun t => sends t (.resp 1 { src := 0, tag := 9, status := 0 })
      && devIs t fun d => d.performed = [{ src := 1, tag := 9, status := 0 }],
    after (.entriesUpdated 1 9 0 (inObj 0)) (answered bound) fun t => t = (answered bound).say (.resp 1 { src := 0, tag := 9, status := 0 }),
    after (.ownerCacheInvalidate 1 0 (inObj 0)) owned fun t => sends t (.invalidateAck 1 0 page1) && t.dev.owners = [],
    (let s := (asking pend1 owned).modDev fun d => { d with nextSeq := 1 }
     after (.ownerCacheInvalidate 1 0 (inObj 0)) s fun t => devIs t fun d => d.owners = [] && d.acks = [(1, 0, page1, 1)]),
    after (.invalidateAck 1 0 (inObj 0)) (stubbed { stub1 with reclaiming := true, left := 2 }) fun t =>
      t.dev.stubs = [] && sends t (.stubGone 1 0 0 page1),
    after (.invalidateAck 1 0 (inObj 0)) (stubbed { stub1 with reclaiming := true, left := 6 }) fun t =>
      devIs t fun d => d.stubs = [{ stub1 with reclaiming := true, left := 4 }],
    after (.stubGone 2 0 (inObj 0)) (stubbed stub1) fun t => sends t (.stubGone 1 2 0 page1),
    after (.stubGone 2 0 (inObj 0)) (bound.modDev fun d => { d with arrivals := [{ ldom := 0, page := page1, ranks := [1, 2] }] })
      fun t => devIs t fun d => d.arrivals = [{ ldom := 0, page := page1, ranks := [1] }],
    after (.memberResetNotice 1 0) (moving move1) fun t => t.dev.moves = [],
    after (.memberResetNotice 1 0) (stubbed stub1) fun t => t.dev.stubs.all fun x => !x.mask.getLsbD 1
  ].all id = true := by decide +kernel

/-! ## Events of collectives, contexts and the device -/

/-- A descriptor of members 0 and 1: one chunk of 4 FP32 elements from object 1, 0x8000. -/
def desc1 : List Word := [0, 4, 1, 0, 0x8000, 0x100, 0x9000, 0x100, 3, 0, 0, 0, 0, 0, 0, 0]
def grp1 (st : GrpSt) : Grp := { ldom := 0, grp := 5, ctx := 0, cur := 1, st := st, desc := desc1 }
/-- Group 5 of domain 0 is in a state; a fire of its chunk `chunk` waits. -/
def lake (r : Grp) (chunk : Nat) : State :=
  bound.modDev fun d => { d with grps := [r], fires := [{ ctx := 0, grp := 5, chunk := chunk, by_ := .node 0 }] }
def grpSt (s : State) (st : GrpSt) : Bool := (s.grp 0 5).any fun r => r.st = st
def rcmd (m : Nat) : RCmd :=
  { stack := 0, src := m, ldom := 0, grp := 5, n := 1, chunk := 0, data := List.replicate 16 0 }
/-- Rank `m` has contributed to chunk 0. -/
def given (m : Nat) : State :=
  (lake (grp1 .running) 0).modDev fun d => { d with contribs := [{ stack := 0, ldom := 0, grp := 5, n := 1, chunk := 0,
                                                                   xs := [(m, List.replicate 16 0)] }] }
/-- Its reducer takes rank 1's command next. -/
def reducing (s : State) : State := { s.modDev fun d => { d with cmdq := [rcmd 1] } with agenda := [.reduce 0] }
def stepTo (s : State) (p : State → Bool) : Bool :=
  match step s with
  | .next t => p t
  | _ => false
/-- What a fire of chunk 0 finds: its data, and the home `h`. -/
def fireable (s : State) (h : Nat) : Bool :=
  let n := descChunk desc1 * elemSize (descIfmt desc1)
  (match judge s 0 0 none { size := n, rd := true, poison := true } (inObj 0x8000) with
    | (.ok ps, _) => (latentAt s ps).isNone
    | _ => false) && (match gread s 0 (inObj 0x8000) n false with
      | (.ok bs, _) => bs.length = 16 && s.reachable h
      | _ => false)
/-- A group whose chunk 0 has its home at rank 1. -/
def away2 : State := lake { grp1 .running with desc := desc1.set 8 2 } 0
def command1 : Instr := .reducerCommand { src := 1, tag := 9 } 0 5 1 0 (List.replicate 16 0)
/-- A result line of rank 1 for chunk 0. -/
def line1 (n : Nat) : FabReq :=
  { kind := .result, src := 1, tag := 9, ldom := 0, addr := 0, size := n, data := List.replicate n 7, aop := 1, arg := 5 }

theorem test_meets_CollectiveEvents : [
    after (.addressGroupDefine 1 9 0 3 false (inObj 0x40) 3) bound fun t => (t.agEntry 0 3).isSome
      && sends t (.resp 1 { src := 0, tag := 9, status := 0 }),
    after (.addressGroupDefine 1 9 0 3 false (inObj 0x40) 3) one fun t => t.dev = one.dev && sends t (.resp 1 { src := 0, tag := 9, status := 1 }),
    (bound.boundCtx 0).isSome && (grp1 .armed).members = [0, 1],
    (let s := (lake (grp1 .running) 0).modCtx 0 fun c => { c with lmask := 1 }
     s.isBound 0 = false && after (.chunkFire 0) s fun t => t = s),
    after (.chunkFire 0) (lake (grp1 .running) 1) fun t => grpSt t .aborting,
    after (.chunkFire 0) (lake (grp1 .aborting) 0) fun t => t.dev.fires = [],
    (let s := lake { grp1 .running with fired := [0] } 0
     after (.chunkFire 0) s fun t => t = s),
    (let s := away2.modDev fun d => { d with fires := d.fires.map fun f => { f with sent := true } }
     after (.chunkFire 0) s fun t => t = s),
    fireable away2 1 && after (.chunkFire 0) away2 fun t => devIs t (fun d => d.fires.all Fire.sent && d.reqs.length = 1) && t.out.any fun m =>
      match m with
      | .req 1 1 r => r.kind = .reducer && r.data = List.replicate 16 0
      | _ => false,
    (let s := away2.modDev fun d => { d with links := [] }
     (s.firstRoute 1).isNone && after (.chunkFire 0) s fun t => grpSt t .aborting || grpSt t .idle),
    fireable (lake (grp1 .running) 0) 0 && after (.chunkFire 0) (lake (grp1 .running) 0) fun t => devIs t fun d =>
      d.fires = [] && d.cmdq = [rcmd 0],
    after (.chunkFire 0) (lake { grp1 .running with desc := desc1.set 5 0x300 } 0) fun t => grpSt t .aborting,
    (let p : Pend := { req := { ask .reducer [] with src := 0, tag := 0 }, dst := 1, who := .fire 0 5 0 (.node 0) }
     let s := away2.modDev fun d => { d with reqs := [(0, p)], fires := d.fires.map fun f => { f with sent := true } }
     after (.remoteResponse { src := 1, tag := 0, status := 0 }) s fun t => t.dev.fires = []),
    after command1 (lake (grp1 .running) 0) fun t => devIs t (fun d => d.cmdq = [rcmd 1] && d.performed.length = 1)
      && sends t (.resp 1 { src := 0, tag := 9, status := 0 }),
    after command1 (lake (grp1 .done) 0) fun t => devIs t (fun d => d.cmdq = []) && sends t (.resp 1 { src := 0, tag := 9, status := 0 }),
    after command1 one fun t => t = one.say (.resp 1 { src := 0, tag := 9, status := 7 }),
    after command1 (bound.modDev fun d => { d with caps := 0x1BF }) fun t => sends t (.resp 1 { src := 0, tag := 9, status := 7 }),
    stepTo (reducing (lake (grp1 .running) 0)) fun t => devIs t fun d => d.cmdq = [] && d.contribs.any fun c => c.xs.map Prod.fst = [1],
    stepTo (reducing (given 0)) fun t => devIs t fun d => d.contribs = [] && d.results.map RLines.data = [List.replicate 16 0],
    invB bound && (linePieces (inObj 0x9000) 16 = [(0, inObj 0x9000, 16)]) && after (.remoteRequest (line1 16)) (lake (grp1 .running) 0) fun t =>
      grpSt t .done && Memory.read t.hbm 0x19000 16 = List.replicate 16 7,
    after (.remoteRequest (line1 8)) (lake (grp1 .running) 0) fun t => grpSt t .running && (t.grp 0 5).any fun r => r.written = [(0, 0, 8)],
    after (.memberLagTimeout 0 5 0) (given 0) fun t => grpSt t .aborting,
    after (.collectiveAbort 1 0 5 1 2) (lake (grp1 .running) 0) fun t => grpSt t .aborting,
    after (.collectiveAbort 0 0 5 1 2) ((lake (grp1 .done) 0).modDev fun d => { d with rank := 1 }) fun t =>
      grpSt t .done && sends t (.abortAck 0 0 5 1),
    after (.collectiveAbort 1 0 5 7 2) (lake (grp1 .running) 0) fun t => sends t (.abortAck 1 0 5 7),
    (grp1 .aborting).posOf 0 = 0 && after (.collectiveAbortAck 1 0 5 1) (lake { grp1 .aborting with kids := [1] } 0) fun t => grpSt t .idle,
    after (.collectiveAbortAck 1 0 5 1) (lake { grp1 .aborting with kids := [1], parent := some 1 } 0) fun t => sends t (.abortAck 1 0 5 1)
  ].all id = true := by decide +kernel

/-- The armed group's clauses: a notice with the member's own check, and one with another. -/
theorem test_meets_ArmingNotice : (∃ r, (lake (grp1 .armed) 0).grp 0 5 = some r ∧ r.st = .armed ∧ r.cur = 1
      ∧ r.members.contains 1 = true ∧ r.notices = [] ∧ ∀ m ∈ r.members, m = 0 ∨ m = 1)
    ∧ ∃ check, check ≠ descCheck desc1 := by
  refine ⟨⟨grp1 .armed, by decide +kernel⟩, descCheck desc1 + 1, ?_⟩
  bv_omega

/-- Context 0 is `c`; no gang runs. -/
def ctxed (c : Ctx) : State := { one with ctxs := [(0, c)], gangs := [], blocks := [] }
/-- A context that may be activated. -/
def fit : Ctx := { st := .created, fqk := 8, hrk := 8, crk := 8, mek := 8, savn := 1, lmask := 1 }
def ctxSt (s : State) (st : CtxSt) : Bool := (s.ctx 0).st = st
def parted (p : Prt) : State := { one with parts := [(0, p)] }
def part0 (s : State) (p : Prt → Bool) : Bool := p (s.part 0)

theorem test_meets_ContextEvents : [
    after (.contextCreate 0) (ctxed {}) fun t => ctxSt t .created,
    (ctxed fit).activateOk 0 && after (.contextActivate 0) (ctxed fit) fun t => ctxSt t .active,
    (let s := { ctxed { fit with lmask := 3 } with ctxs := [(0, { fit with lmask := 3 }), (1, { lake := true })] }
     (s.ctx 0).lakes 0 && s.activateOk 0 && after (.contextActivate 0) s fun t => (t.ctx 0).lake && !(t.ctx 1).lake),
    after (.contextActivate 0) (ctxed { fit with savn := 0 }) fun t => ctxSt t .faulted && (t.ctx 0).fcause = 1,
    after (.contextPreempt 0) (ctxed { fit with st := .active }) fun t => ctxSt t .preempted,
    after (.contextPreempt 0) one fun t => ctxSt t .active && (t.ctx 0).pend && t.gangs.all fun e => e.2.st = .stopping,
    after (.contextResume 0) (ctxed { fit with st := .preempted }) fun t => ctxSt t .active,
    after (.contextResume 0) (ctxed { fit with st := .active, pend := true }) fun t => ctxSt t .active && !(t.ctx 0).pend,
    Tab.risingFrom 0 one.gangs && after (.contextReset 0) one fun t => ctxSt t .resetting && t.gangs = [],
    after (.contextReset 0) ((owned.modCtx 0 fun c => { c with lake := true }).modDev fun d => { d with grps := [grp1 .idle] }) fun t =>
      devIs t (fun d => d.owners = [] && d.grps = []) && !(t.ctx 0).lake && sends t (.resetNotice 1 0),
    after (.resetComplete 0) (ctxed { st := .resetting }) fun t => ctxSt t .wiped,
    after (.lmaskWrite 0 3) one fun t => (t.ctx 0).lmask = 3,
    after (.lmaskWrite 0 2) one fun t => t = one,
    after (.fqcWrite 0 2) one fun t => (t.ctx 0).fqc = 2 && sends t (.msix 0 4),
    after (.mecWrite 0 2) one fun t => (t.ctx 0).mec = 2 && sends t (.msix 0 5),
    after (.partitionAssign 0) (parted { cmask := 1, hmask := 1 }) fun t => part0 t fun p => p.st = .open_,
    (let s := parted { cmask := 1 }
     after (.partitionAssign 0) s fun t => t = s),
    after (.partitionClose 0) (parted { st := .open_ }) fun t => part0 t fun p => p.st = .wiping,
    (let s := { ctxed { fit with st := .active, bound := true } with parts := [(0, { st := .open_ })] }
     after (.partitionClose 0) s fun t => t = s),
    after (.wipeComplete 0) (parted { st := .wiping, hmask := 1 }) fun t => part0 t (fun p => p.st = .free) && t.hbm = [],
    after (.wipeComplete 0) { parted { st := .wiping, hmask := 1 } with hbm := [(poisonBase, 5)], latent := [8192] } fun t =>
      t.hbm = [(poisonBase, 4)],
    after (.wipeComplete 0) { parted { st := .wiping, hmask := 2 } with hbm := [(poisonBase, 5)] } fun t => t.hbm = [(poisonBase, 5)],
    after (.vfEnable 0) { ctxed { bound := true } with parts := [(0, { st := .open_ })] } fun t => (t.ctx 0).vfOn,
    after (.vfReset 0 true) (ctxed { fit with st := .active, vfOn := true }) fun t => ctxSt t .resetting && !(t.ctx 0).vfOn,
    after (.registerWrite .ctxLdom 0 7) (ctxed { st := .created }) fun t => (t.ctx 0).ldom = 7,
    after (.registerWrite .ctxLdom 0 7) one fun t => t = one,
    after (.registerWrite .ctxHrp 0 7) one fun t => (t.ctx 0).hrp = 7,
    after (.registerWrite (.queueQk 0) 0 7) (queued { q0 .disabled with enable := false }) fun t => qIs t fun x => x.qk = 7,
    (let s := queued (q0 .enabled)
     after (.registerWrite (.queueQk 0) 0 7) s fun t => t = s),
    after (.registerWrite .partFmb 0 7) (parted { st := .open_ }) fun t => part0 t fun p => p.fmb = 7,
    (let s := parted { st := .open_ }
     after (.registerWrite .partCmask 0 7) s fun t => t = s),
    after (.registerWrite .rto 0 5) one fun t => devIs t fun d => d.rto = 1024,
    after (.registerWrite .powerCap 0 9000) one fun t => devIs t fun d => d.cap = 1500,
    after (.registerWrite .ctxOtb 0 0x1_2345_6789#64) (ctxed { st := .created }) fun t => t.vfRead 0 0x1C = 1 && t.vfRead 0 0x18 = 0x23456789#32,
    after (.registerWrite .rto 0 5) one fun t => t.pfRead 0x1200 = 1024
  ].all id = true := by decide +kernel

def staged (n : Nat) : State := State.reset.modDev fun d => { d with stage := n }
def chkpted (k : Chkpt) : State :=
  { parted { st := .open_, hmask := 1 } with dev := { one.dev with chkpt := some k, roles := 2, interleave := true, ports := [(1, { st := 2 })] } }

/-- An image, a key of exponent 1 and the greatest modulus, and a device in which its hash is fused. -/
def fw : List Byte := [0x61, 0x62, 0x63]
def key1 : List Byte := List.replicate 384 0xFF#8 ++ [1]
def fused : State := (staged 1).modDev fun d => { d with fuse := hashOf key1 }
/-- A core whose clock has run. -/
def clocked (s : State) : State := s.modCore 2 fun c => { c with clock := 9 }
def failed (rows : List (Nat × Nat)) : State := one.modDev fun d => { d with failing := rows }

/-- FIPS 180-4's example: the hash of the bytes of "abc". -/
theorem test_sha256 : hashOf fw = 0xBA7816BF8F01CFEA414140DE5DAE2223B00361A396177A9CB410FF61F20015AD#256 := by decide +kernel

theorem test_meets_DeviceEvents : [
    after (.firmwareVerify fw { key := key1, sig := 7 } 3 0) (clocked (staged 0)) fun t => devIs t (fun d => d.stage = 1 && d.fwHash = 0)
      && (t.core 2).clock = 0,
    after (.firmwareVerify fw { key := key1, sig := encodedHash (hashOf fw) } 3 0x106) fused fun t => devIs t fun d =>
      d.stage = 2 && d.rank = 3 && d.fwHash = hashOf fw && d.roles = 6 && d.interleave,
    after (.firmwareVerify fw { key := key1, sig := encodedHash (hashOf fw) } 3 1) fused fun t => devIs t fun d => d.err = 2,
    after (.firmwareVerify fw { key := key1, sig := 7 } 3 0) fused fun t => devIs t fun d => d.stage = 1 && d.err = 1,
    after (.firmwareVerify fw { key := key1, sig := encodedHash (hashOf fw) } 3 0) (staged 1) fun t => devIs t fun d => d.stage = 1 && d.err = 1,
    after (.portTraining 1 2 2 16) (staged 3) fun t => Tab.get {} t.dev.ports 1 = { st := 2, gen := 2, width := 16 },
    after (.portTraining 1 0 2 16) (staged 3) fun t => Tab.get {} t.dev.ports 1 = {},
    after (.portTraining 0 1 2 16) (queued (q0 .enabled)) fun t => t.dev.stage = 0 && t.blocks = [],
    after (.powerOnWipe false) (staged 2) fun t => t.dev.stage = 3 && t.dev.err = 0,
    after (.powerOnWipe true) { staged 3 with hbm := [(5, 7)], latent := [8192] } fun t => t.dev.stage = 4 && t.hbm = []
      && t.latent = [] && t.dev.failing.length = 1,
    after (.powerOnWipe false) (staged 3) fun t => t.dev.stage = 3 && t.dev.err = 3,
    after (.powerOnWipe true) (staged 4) fun t => t.dev.stage = 5,
    after .configurationRequest one fun t => sends t (.config false),
    Tab.wf 0 one.dev.steps && one.dev.steps = [] && slowable one.dev = [0, 1, 2, 3] && lowestDie one.dev = none,
    (let d := { one.dev with steps := [(1, 2), (4, 1)] }
     Tab.wf 0 d.steps && slowable d ≠ [] && lowestDie d = some 4),
    invB one && after (.backgroundScrub (.block 0)) one fun t => t.blk 0 = none,
    (let s := one.modCore 0 fun c => { c with bank := [(1, { owner := some 0 })] }
     after (.backgroundScrub (.bank 0 true)) s fun t => t.blk 0 = none),
    after (.rowRetirement 3 8 true) (failed [(3, 8)]) fun t => devIs t fun d => d.retired = [(3, [8])] && d.failing = [],
    after (.rowRetirement 3 8 false) (failed [(3, 8)]) fun t => devIs t fun d => d.retired = [] && d.failing = [],
    after (.rowRetirement 3 8 true) one fun t => t = one,
    after (.hostDeviceMemoryAccess true 0x30000 [1, 2]) one fun t => Memory.read t.hbm 0x30000 2 = [1, 2],
    (one.latentIn 0x20 4).isNone && after (.hostDeviceMemoryAccess false 0x20 [0, 0, 0, 0]) one fun t =>
      sends t (.hostData [1, 0, 0, 0x80]),
    after (.hostDeviceMemoryAccess false 0x20 [0, 0, 0, 0]) { one with latent := [0x22] } fun t =>
      sends t (.hostData []) && t.poisoned 0x22 && t.latent = [] && t.dev.failing.length = 1,
    (let s := { parted { st := .open_ } with ctxs := [] }
     s.chkptOk 0 && after (.checkpoint 0 64) s fun t => devIs t fun d => d.chkpt = some { part := 0, addr := 64, restore := false }),
    (let s := { parted { st := .open_ } with ctxs := [] }
     after (.restore 0 64) s fun t => devIs t fun d => d.chkpt = some { part := 0, addr := 64, restore := true }),
    (let s := chkpted { part := 0, addr := 0, restore := false }
     s.expUp 0 (2 ^ 35 + 2 ^ 20) && after .checkpointComplete s fun t => devIs t fun d => d.chkpt = none),
    after .checkpointComplete (chkpted { part := 0, addr := 0, restore := true }) fun t => devIs t fun d => d.chkpt = none,
    after (.attestationReport 5) one fun t => t.out.any fun m => match m with
      | .report ws _ => ws.length = 28 && wordAt ws 7 = 5
      | _ => false,
    after .deviceReset one fun t => t.dev.stage = 0 && t.blocks = [] && (t.ctx 0).st = .wiped
  ].all id = true := by decide +kernel

/-! ## The step, and what it keeps -/

/-- The ripple of block 0 issues next, at words `w` and then zeros. -/
def atWord (w : Word) : State := { one with cur := none, agenda := [.issue 0 0], hbm := Memory.write tables 0x11000 w.bytes }
theorem test_meets_StepRunsDecoded : [
    (match fetchBlock { atWord 0x1C04 with agenda := [] } 0 0 (blockAddr (inObj 0x1000)) with
      | .bytes bs _ => match parse (bs.drop 0) with
        | .ok i => i = .nop (sf (.v 0) (.v 0))
        | .error _ => false
      | _ => false) && blk0 (atWord 0x1C04) (fun k => (Tab.find k.rip 0).any (mayFetch (atWord 0x1C04) 0 k)) && stepTo (atWord 0x1C04) fun t =>
        t.pc 0 0 = some (inObj 0x1004),
    stepTo (atWord 0x00080278) fun t => t.blk 0 = none,
    stepTo { one with agenda := [.ev (.cycleCounterTick 3)] } fun t => (t.core 3).clock = 1,
    ({ one with cur := none } : State).ownStep.isSome || ({ one with cur := none } : State).issueStep.isSome,
    State.reset.ownStep.isNone && State.reset.issueStep.isNone && stepTo State.reset fun t => (t.core 0).clock = 1
  ].all id = true := by decide +kernel

theorem test_meets_StepKeeps : (invB (atWord 0x1C04) && blk0 (atWord 0x1C04) groupedB && (atWord 0x1C04).dev.stage ≤ 5
    && 1024 ≤ (atWord 0x1C04).dev.rto && 1500 ≤ (atWord 0x1C04).dev.cap && (atWord 0x1C04).dev.cap ≤ 3000) = true := by decide +kernel

/-- A row's bits, placed where the next step fetches, run. -/
theorem test_withFetchWord : (stepTo (State.reset.withFetchWord 32 0x1C04) fun t => t.pc 0 0 ≠ (State.reset.withFetchWord 32 0x1C04).pc 0 0)
    = true ∧ decodeTableWord 32 0x1C04 = some (.nop (sf (.v 0) (.v 0))) := by decide +kernel

def reparses (i : Instr) : Bool :=
  match parse i.bytes with
  | .ok j => i = j
  | .error _ => false

theorem test_meets_DecodeEncode : WellFormed .free (.add add1) ∧ (Instr.add add1).bytes.length = 8
    ∧ reparses (.add add1) = true := by decide +kernel

end Sys2Proof.Tests
end

section
/-! SUPPORT. The latches of a thread: what each operation on results makes of them (R46, R47). -/

namespace Sys2Proof.Machine

/-- The four latches of a thread, `l0` first. -/
def Thread.lats (x : Thread) : Latch × Latch × Latch × Latch := (x.l0, x.l1, x.l2, x.l3)

/-- The latches of a thread of a block, and of a thread of the machine. -/
def Block.lats (k : Block) (t : Nat) : Option (Latch × Latch × Latch × Latch) := (Tab.find k.thr t).map Thread.lats
def State.lats (s : State) (b t : Nat) : Option (Latch × Latch × Latch × Latch) := (s.thr b t).map Thread.lats

/-- The latches after a push (R46). -/
def pushLats (l : Latch) (ls : Latch × Latch × Latch × Latch) : Latch × Latch × Latch × Latch :=
  (l, ls.1, ls.2.1, ls.2.2.1)

/-- Whether a result for a destination is pushed to the latches (R33, R46). -/
def isPushed (d : Sel) : Bool :=
  match d with
  | .v _ | .o _ | .l _ => true
  | _ => false

/-- The latches after a result of `n` registers for destination `d`, where there is one. -/
def latsAfter (d : Sel) (n : Nat) (v : Option DWord) (ls : Latch × Latch × Latch × Latch) : Latch × Latch × Latch × Latch :=
  match v with
  | some v => if isPushed d then pushLats (.val (latchOf n v)) ls else ls
  | none => ls

theorem isPushed_of_isReg {d : Sel} (h : d.isReg = true) : isPushed d = true := by
  cases d with
  | v _ => rfl
  | o _ => rfl
  | _ => cases h

theorem isPushed_eq_false {d : Sel} (h : d.isReg = false) (hl : ∀ m, d ≠ .l m) : isPushed d = false := by
  cases d with
  | v _ => cases h
  | o _ => cases h
  | l m => exact absurd rfl (hl m)
  | _ => rfl

@[simp] theorem Thread.lats_side (x : Thread) (d : Sel) (r : Res) : (x.side d r).lats = x.lats := by
  unfold Thread.side Thread.setPred Thread.lats; dsimp only; split <;> split <;> rfl
@[simp] theorem Thread.side_pc (x : Thread) (d : Sel) (r : Res) : (x.side d r).pc = x.pc := by
  unfold Thread.side Thread.setPred; dsimp only; split <;> split <;> rfl
@[simp] theorem Thread.side_meet (x : Thread) (d : Sel) (r : Res) : (x.side d r).meet = x.meet := by
  unfold Thread.side Thread.setPred; dsimp only; split <;> split <;> rfl

@[simp] theorem Thread.lats_setLong (x : Thread) (on : Bool) (rs : List Nat) : (x.setLong on rs).lats = x.lats := by
  unfold Thread.setLong
  induction rs generalizing x with
  | nil => rfl
  | cons r rs ih =>
    rw [List.foldl_cons, ih]
    split <;> rfl

/-- A thread that goes on keeps its latches, unless it arrives at its meeting address (R47). -/
theorem Thread.lats_moved (x : Thread) (entry pc : DWord) (rest : Bool) : (x.moved entry pc rest).lats =
    if x.pc ≠ pc ∧ lo32 (pc - entry) = x.meet then (.invalid, .invalid, .invalid, .invalid) else x.lats := by
  unfold Thread.moved Thread.goto Thread.clearLatches Thread.lats
  by_cases hp : x.pc = pc <;> by_cases h : lo32 (pc - entry) = x.meet <;> simp [hp, h]

theorem Thread.OnlyRes.pc {x y : Thread} (h : x.OnlyRes y) : y.pc = x.pc := by rw [h]
theorem Thread.OnlyRes.meet {x y : Thread} (h : x.OnlyRes y) : y.meet = x.meet := by rw [h]
theorem Thread.OnlyRes.p {x y : Thread} (h : x.OnlyRes y) : y.p = x.p := by rw [h]

/-! ## Latches of a block under changes to its threads and registers -/

theorem Block.lats_modThr (k : Block) (u : Nat) {f : Thread → Thread} (hf : ∀ x, (f x).lats = x.lats) (t : Nat) :
    (k.modThr u f).lats t = k.lats t := by
  unfold Block.lats Block.modThr
  by_cases h : t = u
  · subst h
    rw [Tab.find_modify_self, Option.map_map]
    exact congrArg (fun g => Option.map g _) (funext hf)
  · rw [Tab.find_modify_ne _ h]

theorem Block.lats_foldl {α : Type} {g : Block → α → Block} (hg : ∀ k a t, (g k a).lats t = k.lats t) (l : List α)
    (k : Block) (t : Nat) : (l.foldl g k).lats t = k.lats t := by
  induction l generalizing k with
  | nil => rfl
  | cons a l ih => rw [List.foldl_cons, ih, hg]

theorem Block.lats_putReg (k : Block) (d : Sel) (i : Nat) (x : RShape) (S : List Nat) (covers : Bool) (t : Nat) :
    (k.putReg d i x S covers).lats t = k.lats t := by
  cases d with
  | o n =>
    rw [Block.putReg_o]
    exact Block.lats_foldl (fun k u t => k.lats_modThr u (f := setO (n.toNat + i) x u) (fun _ => rfl) t) S k t
  | _ => rfl

theorem State.lats_modBlk (s : State) (b : Nat) {f : Block → Block} {t : Nat} (hf : ∀ k, (f k).lats t = k.lats t) :
    (s.modBlk b f).lats b t = s.lats b t := by
  unfold State.lats State.thr
  rw [State.blk_modBlk_self]
  cases s.blk b with
  | none => rfl
  | some k => exact hf k

/-! ## Threads changed one after another -/

/-- What a fold of changes, each to one thread, leaves of a thread: the changes that name it, in order. -/
theorem State.thr_foldl_modThr {α : Type} (key : α → Nat) (f : α → Thread → Thread) (l : List α) (s : State) (b t : Nat) :
    (l.foldl (fun s a => s.modThr b (key a) (f a)) s).thr b t =
      (s.thr b t).map fun x => (l.filter fun a => key a = t).foldl (fun x a => f a x) x := by
  induction l generalizing s with
  | nil => simp
  | cons a l ih =>
    rw [List.foldl_cons, ih]
    by_cases h : key a = t
    · subst h
      rw [State.thr_modThr_self, Option.map_map, List.filter_cons_of_pos (by simp)]
      rfl
    · rw [State.thr_modThr_ne _ (Ne.symm h), List.filter_cons_of_neg (by simpa using h)]

/-- The results of a list of threads that are one thread's: one for each time that it is listed. -/
theorem filter_results (r : Nat → Option DWord) (ts : List Nat) (t : Nat) :
    ((ts.filterMap fun u => (r u).map fun v => (u, v)).filter fun e => e.1 = t) =
      match r t with
      | some v => List.replicate (ts.count t) (t, v)
      | none => [] := by
  induction ts with
  | nil => cases r t <;> rfl
  | cons a ts ih =>
    rw [List.filterMap_cons]
    by_cases h : a = t
    · subst h
      rw [List.count_cons_self]
      cases hr : r a <;> simp only [hr] at ih
      · exact ih
      · simp [ih, List.replicate_succ]
    · rw [List.count_cons_of_ne h, ← ih]
      cases hr : r a <;> simp [h]

/-- The latches of a thread that takes part once, after the writing of results (R46). -/
theorem State.lats_putResult (s : State) (b : Nat) (d : Sel) (n : Nat) (sh : Shape) (r : Nat → Option DWord)
    {ts : List Nat} {t : Nat} (ht : ts.count t = 1) :
    (s.putResult b d n sh (ts.filterMap fun u => (r u).map fun v => (u, v))).lats b t =
      (s.lats b t).map (latsAfter d n (r t)) := by
  have hpush (s : State) (hd : isPushed d = true) :
      ((ts.filterMap fun u => (r u).map fun v => (u, v)).foldl
        (fun s e => s.modThr b e.1 fun x => x.push (.val (latchOf n e.2))) s).lats b t =
      (s.lats b t).map (latsAfter d n (r t)) := by
    unfold State.lats
    rw [State.thr_foldl_modThr Prod.fst (fun e x => x.push (.val (latchOf n e.2))), filter_results, ht]
    cases hr : r t <;> cases s.thr b t <;> simp [latsAfter, hd, Thread.push, Thread.lats, pushLats]
  have hnone (hd : isPushed d = false) : (s.lats b t).map (latsAfter d n (r t)) = s.lats b t := by
    cases hr : r t <;> cases s.lats b t <;> simp [latsAfter, hd]
  have hreg (covers : Block → Bool) (x : Nat → RShape) (S : List Nat) (k : Block) :
      (S.foldl (fun blk t => blk.modThr t fun x => x.setLong false (runRegs d n))
        ((List.range n).foldl (fun blk i => blk.putReg d i (x i) S (covers k)) k)).lats t = k.lats t := by
    rw [Block.lats_foldl fun k u t => k.lats_modThr u (fun x => x.lats_setLong _ _) t,
      Block.lats_foldl fun k i t => k.lats_putReg d i _ S _ t]
  cases d with
  | v _ => exact (hpush _ rfl).trans (congrArg _ (State.lats_modBlk s b (hreg (fun k => k.covered _) _ _)))
  | o _ => exact (hpush _ rfl).trans (congrArg _ (State.lats_modBlk s b (hreg (fun k => k.covered _) _ _)))
  | l _ => exact hpush s rfl
  | _ => exact (hnone rfl).symm

end Sys2Proof.Machine
end

section
/-! SUPPORT. What an instruction that computes per thread leaves in registers, latches and predicates, where it meets no
trap. -/

namespace Sys2Proof.Machine

/-- The latch clearing of R47, thread by thread. -/
theorem clearLong_thr (q : Iss) (s : State) (t : Nat) : (clearLong q s).thr q.b t =
    (s.thr q.b t).map fun x =>
      if t ∈ q.ts ∧ (q.uses t).rd.any (q.thr t).longMark = true then x.clearLatches else x := by
  unfold clearLong
  generalize q.ts = l
  induction l generalizing s with
  | nil => simp
  | cons a l ih =>
    rw [List.foldl_cons, ih]
    by_cases hc : (q.uses a).rd.any (q.thr a).longMark = true
    · by_cases ha : t = a
      · subst ha
        rw [if_pos hc, State.thr_modThr_self, Option.map_map]
        cases s.thr q.b t <;> simp [hc, Thread.clearLatches]
      · rw [if_pos hc, State.thr_modThr_ne _ ha]; simp [ha]
    · rw [if_neg hc]
      by_cases ha : t = a
      · subst ha; simp [hc]
      · simp [ha]

/-- An instruction that computes and meets no trap writes its results and goes on. -/
theorem computeRun_eq {q : Iss} {s : State} {d : Sel} {n : Nat} {shape : Iss → Shape} (sem : Iss → List Nat → Nat → Res)
    (hl : NoLost s q) (hg : q.on ≠ [] → (shape q).isG = true → q.k.narrow d n = false) :
    computeRun d n shape sem q s =
      finish q [] (writeRes q.b d n (shape q) (q.on.map fun t => (t, sem q q.on t)) (clearLong q s)) := by
  have hns : ((shape q).isG && q.k.narrow d n && !q.on.isEmpty) = false := by
    cases ho : q.on with
    | nil => simp
    | cons a l =>
      cases hs : (shape q).isG with
      | false => simp
      | true => simp [hg (by simp [ho]) hs]
  have hgood : q.good [] = q.on := by simp [Iss.good]
  unfold computeRun computeFaults
  simp only [hns, Bool.false_eq_true, if_false]
  rw [show latchTraps q (clearLong q s) = [] from hl]
  simp only [List.append_nil, hgood]

section Run

variable {q : Iss} {s : State} {d : Sel} {n : Nat} {shape : Iss → Shape} {sem : Iss → List Nat → Nat → Res}
  (h : s.blk q.b = some q.k) (hc : q.k.Canon) (hl : NoLost s q)
  (hg : q.on ≠ [] → (shape q).isG = true → q.k.narrow d n = false)
  (hf : (shape q).Fits ((q.on.map fun t => (t, sem q q.on t)).filterMap fun e => e.2.val.map fun v => (e.1, v)) n)
include h hc hl hg hf

/-- The ripple goes on to PC + length. -/
theorem computeRun_goes : Goes s (computeRun d n shape sem q s) q fun _ => q.next := by
  obtain ⟨k', b', -, ht⟩ := computeRun_spec h hc d n shape sem hl hg hf
  intro th hth hs
  simp only [State.thr, h, Option.bind_some] at hs
  obtain ⟨x, hx⟩ := Option.isSome_iff_exists.mp hs
  obtain ⟨x', hx', ⟨y, rest, -, -, rfl⟩, -⟩ := ht th x hx
  simp [State.pc, State.thr, b'.after, hx', hth]

/-- Each guard-true thread with a result reads it back. -/
theorem computeRun_reg {th : Nat} (hon : th ∈ q.on) (hs : (s.thr q.b th).isSome = true) (hd : d.isReg = true) {v : DWord}
    (hv : (sem q q.on th).val = some v) {j : Nat} (hj : j < n) :
    (computeRun d n shape sem q s).reg q.b th d j = some (v.extractLsb' (32 * j) 32) := by
  obtain ⟨k', b', -, ht⟩ := computeRun_spec h hc d n shape sem hl hg hf
  simp only [State.thr, h, Option.bind_some] at hs
  obtain ⟨x, hx⟩ := Option.isSome_iff_exists.mp hs
  obtain ⟨x', hx', -, hr⟩ := ht th x hx
  rw [State.reg_eq_rd b'.after]
  exact hr hon hd v hv j hj

/-- Each guard-true thread has the predicates that its result leaves. -/
theorem computeRun_preds {th : Nat} (hon : th ∈ q.on) {x : Thread} (hx : s.thr q.b th = some x) :
    ∃ x', (computeRun d n shape sem q s).thr q.b th = some x' ∧ x'.p = (x.side d (sem q q.on th)).p := by
  obtain ⟨k', b', -, ht⟩ := computeRun_spec h hc d n shape sem hl hg hf
  simp only [State.thr, h, Option.bind_some] at hx
  obtain ⟨x', hx', ⟨y, rest, hy, -, rfl⟩, -⟩ := ht th x hx
  rw [if_pos hon] at hy
  refine ⟨_, by simpa [State.thr, b'.after] using hx', ?_⟩
  split
  · rw [Thread.moved_p, hy.p]
  · exact hy.p

/-- The latches of a guard-true thread: what the reads of the instruction leave, its result pushed upon them, and none valid
where it arrives at its meeting address (R46, R47). -/
theorem computeRun_lats {th : Nat} (hth : th ∈ q.ts) (h1 : q.on.count th = 1) {x : Thread}
    (hx : (clearLong q s).thr q.b th = some x) :
    ∃ x', (computeRun d n shape sem q s).thr q.b th = some x' ∧ x'.meet = x.meet ∧
      x'.lats = if x.pc ≠ q.next ∧ lo32 (q.next - q.k.entry) = x.meet then (.invalid, .invalid, .invalid, .invalid)
        else latsAfter d n (sem q q.on th).val x.lats := by
  obtain ⟨k1, b1, c1, o1, -⟩ := clearLong_spec h hc
  obtain ⟨k2, b2, c2, e2, -, t2⟩ := State.side_spec b1.after c1 d (sem q q.on) q.on
  have hon : th ∈ q.on := List.count_pos_iff.mp (by omega)
  have hg2 : ((q.on.map fun t => (t, sem q q.on t)).filterMap fun e => e.2.val.map fun v => (e.1, v)) ≠ [] →
      (shape q).isG = true → k2.narrow d n = false := by
    intro hne hs
    rw [e2, o1.blk]
    exact hg (by rintro ho; simp [ho] at hne) hs
  obtain ⟨k3, b3, -, o3, -⟩ := State.putResult_spec b2.after c2 d n (shape q) _ hf hg2
  obtain ⟨k4, rest, b4, -, -, t4⟩ := finish_go (q := q) b3.after
  have hx1 : Tab.find k1.thr th = some x := by simpa [State.thr, b1.after] using hx
  have hx2 : Tab.find k2.thr th = some (x.side d (sem q q.on th)) := by rw [t2 th, if_pos hon, hx1]; rfl
  obtain ⟨x3, hx3, r3⟩ := o3.thr th _ hx2
  have hl3 : x3.lats = latsAfter d n (sem q q.on th).val x.lats := by
    have := State.lats_putResult ((q.on.map fun t => (t, sem q q.on t)).foldl
      (fun s e => s.modThr q.b e.1 fun x => x.side d e.2) (clearLong q s)) q.b d n (shape q)
      (fun u => (sem q q.on u).val) h1
    rw [List.filterMap_map] at b3
    simp only [Function.comp_def] at b3
    simpa [State.lats, State.thr, b3.after, b2.after, hx2, hx3] using this
  have hx4 := t4 th
  rw [hx3, if_pos hth, o3.blk, e2, o1.blk] at hx4
  refine ⟨x3.moved q.k.entry q.next (rest th), ?_, ?_, ?_⟩
  · rw [computeRun_eq sem hl hg, State.thr]
    exact (congrArg (Option.bind · _) b4.after).trans hx4
  · rw [Thread.moved_meet, r3.meet, Thread.side_meet]
  · rw [Thread.lats_moved, r3.pc, r3.meet, Thread.side_pc, Thread.side_meet, hl3]

/-- A result is pushed upon what the reads of the instruction leave in the latches. -/
theorem computeRun_pushes (hts : ∀ th ∈ q.on, th ∈ q.ts) :
    Pushes s (computeRun d n shape sem q s) q d n fun th => (sem q q.on th).val := by
  intro th hon h1 x hx
  obtain ⟨x', hx', hm, hlats⟩ := computeRun_lats h hc hl hg hf (hts th hon) h1 hx
  refine ⟨x', hx', fun ha hp => ?_, fun ha => ?_⟩
  · rw [if_pos ⟨hp, ha.trans hm⟩] at hlats
    intro u hu y hy
    obtain rfl := List.mem_singleton.mp hu
    obtain rfl : y = x' := Option.some.inj (hy.symm.trans hx')
    simpa [Thread.lats] using hlats
  · rw [if_neg fun h => ha (h.2.trans hm.symm)] at hlats
    refine ⟨fun v hv hd => ?_, fun hn => ?_⟩
    · have hp : isPushed d = true := by
        rcases hd with hd | rfl
        · exact isPushed_of_isReg hd
        · rfl
      simpa [Thread.lats, latsAfter, hv, hp, pushLats, latchOf] using hlats
    · have hk : latsAfter d n (sem q q.on th).val x.lats = x.lats := by
        rcases hn with hv | ⟨hd, hm⟩
        · simp [latsAfter, hv]
        · cases (sem q q.on th).val <;> simp [latsAfter, isPushed_eq_false hd hm]
      rw [hk] at hlats
      simpa [Thread.lats] using hlats

/-- What an instruction leaves that computes the results `r`: the ripple at PC + length, each guard-true thread with its
result in the registers and upon the latches, and with its predicates. -/
structure Answers (s t : State) (q : Iss) (d : Sel) (n : Nat) (r : Nat → Res) : Prop where
  goes : Goes s t q fun _ => q.next
  reg : ∀ th ∈ q.on, (s.thr q.b th).isSome = true → d.isReg = true → ∀ v, (r th).val = some v → ∀ j, j < n →
    t.reg q.b th d j = some (v.extractLsb' (32 * j) 32)
  pushes : Pushes s t q d n fun th => (r th).val
  preds : ∀ th ∈ q.on, ∀ x, s.thr q.b th = some x → ∃ x', t.thr q.b th = some x' ∧ x'.p = (x.side d (r th)).p

theorem computeRun_answers (hts : ∀ th ∈ q.on, th ∈ q.ts) :
    Answers s (computeRun d n shape sem q s) q d n (sem q q.on) where
  goes := computeRun_goes h hc hl hg hf
  reg _ hon hs hd _ hv _ hj := computeRun_reg h hc hl hg hf hon hs hd hv hj
  pushes := computeRun_pushes h hc hl hg hf hts
  preds _ hon _ hx := computeRun_preds h hc hl hg hf hon hx

end Run

/-- The predicate that a result is written to holds the result's bit (R57). -/
theorem Thread.predBit_side (x : Thread) (n : BitVec 3) (hn : n ≠ 7) (v : Bool) :
    predBit (x.side (.p n) { pred := some v }).p n.toNat = v := by
  have h7 : n.toNat ≠ 7 := fun h => hn (BitVec.eq_of_toNat_eq h)
  have hlt : n.toNat < 7 := by omega
  cases v <;> simp [Thread.side, Thread.setPred, predBit, h7, hlt]

theorem extractLsb'_word (w : Word) : (word w).extractLsb' 0 32 = w := by
  unfold word
  ext i hi
  simp [show i < 64 by omega, BitVec.getLsbD_eq_getElem hi]

/-- A result of one word, read from its register. -/
theorem Answers.word {s t : State} {q : Iss} {d : Sel} {r : Nat → Res} (h : Answers s t q d 1 r) {th : Nat} {w : Word}
    (hon : th ∈ q.on) (hs : (s.thr q.b th).isSome = true) (hd : d.isReg = true) (hr : r th = .word w) :
    t.reg q.b th d 0 = some w := by
  rw [h.reg th hon hs hd (w.setWidth 64) (by rw [hr]; rfl) 0 (by omega)]
  exact congrArg some (extractLsb'_word w)

/-- What is answered, where every thread has a result. -/
theorem Answers.returns {s t : State} {q : Iss} {d : Sel} {n : Nat} {r : Nat → Res} {val : Nat → DWord}
    (h : Answers s t q d n r) (hr : ∀ th, (r th).val = some (val th)) :
    Goes s t q (fun _ => q.next) ∧ Holds s t q d n val ∧ Pushes s t q d n fun th => some (val th) :=
  ⟨h.goes, fun th hon hs hd j hj => h.reg th hon hs hd _ (hr th) j hj, by simpa only [hr] using h.pushes⟩

end Sys2Proof.Machine
end

section
/-! SUPPORT. Deliveries within the ripple (R144, R157) change escape records only, and an exchange answers what it computes. -/

namespace Sys2Proof.Machine

/-- A block changed in the escape records of its threads only. -/
structure Block.OnlyEsc (k k' : Block) : Prop where
  blk : k' = { k with thr := k'.thr }
  thr : ∀ t, ∃ e, Tab.find k'.thr t = (Tab.find k.thr t).map fun x => { x with esc := e }

theorem Thread.escape_eq (x : Thread) (kind : Nat) (off : Word) : x.escape kind off = { x with esc := (x.escape kind off).esc } := by
  unfold Thread.escape; split <;> rfl

theorem Block.OnlyEsc.refl (k : Block) : k.OnlyEsc k := by
  refine ⟨rfl, fun t => ?_⟩
  cases h : Tab.find k.thr t with
  | none => exact ⟨{}, rfl⟩
  | some x => exact ⟨x.esc, rfl⟩

theorem Block.OnlyEsc.trans {k k' k'' : Block} (h : k.OnlyEsc k') (h' : k'.OnlyEsc k'') : k.OnlyEsc k'' := by
  refine ⟨by rw [h'.blk, h.blk], fun t => ?_⟩
  obtain ⟨e, he⟩ := h.thr t
  obtain ⟨e', he'⟩ := h'.thr t
  exact ⟨e', by rw [he', he, Option.map_map]; rfl⟩

theorem Block.OnlyEsc.escape (k : Block) (u kind : Nat) (off : Word) : k.OnlyEsc (k.modThr u fun x => x.escape kind off) := by
  refine ⟨rfl, fun t => ?_⟩
  by_cases h : t = u
  · subst h
    simp only [Block.modThr, Tab.find_modify_self]
    cases Tab.find k.thr t with
    | none => exact ⟨{}, rfl⟩
    | some x => exact ⟨(x.escape kind off).esc, congrArg some (x.escape_eq kind off)⟩
  · simp only [Block.modThr, Tab.find_modify_ne _ h]
    exact (Block.OnlyEsc.refl k).thr t

/-- A delivery changes escape records only. -/
theorem deliver_spec (q : Iss) (l : List Nat) {s : State} {k : Block} (h : s.blk q.b = some k) (hc : k.Canon) :
    ∃ k', OnBlock s (deliver q l s) q.b k k' ∧ k'.Canon ∧ k.OnlyEsc k' := by
  unfold deliver State.modThrs
  induction l generalizing s k with
  | nil => exact ⟨k, .refl h, hc, .refl k⟩
  | cons a l ih =>
    have b1 := OnBlock.modBlk (fun k => k.modThr a fun x => x.escape 3 q.off) h
    obtain ⟨k', b2, c2, e2⟩ := ih b1.after (Block.modThr_canon hc a _ fun x hx => by rw [x.escape_eq]; exact hx)
    exact ⟨k', b1.trans b2, c2, (Block.OnlyEsc.escape k a 3 q.off).trans e2⟩

section Delivered

variable {q : Iss} {k' : Block} (he : q.k.OnlyEsc k')
include he

/-- The issuing ripple's marks of R47, read after a delivery. -/
theorem longMark_onlyEsc (t : Nat) : (({ q with k := k' } : Iss).thr t).longMark = (q.thr t).longMark := by
  obtain ⟨e, he⟩ := he.thr t
  unfold Iss.thr
  rw [he]
  cases Tab.find q.k.thr t <;> rfl

theorem clearLong_onlyEsc (s : State) : clearLong { q with k := k' } s = clearLong q s := by
  unfold clearLong
  simp only [longMark_onlyEsc he]
  rfl

theorem narrow_onlyEsc (d : Sel) (n : Nat) : k'.narrow d n = q.k.narrow d n := by rw [he.blk]; rfl

/-- An instruction that computes of what its threads held before a delivery. -/
theorem computeRun_onlyEsc (s : State) (d : Sel) (n : Nat) (shape : Iss → Shape) (sem : Iss → List Nat → Nat → Res) :
    computeRun d n shape sem q s = computeRun d n (fun _ => shape q) (fun _ => sem q) { q with k := k' } s := by
  unfold computeRun computeFaults
  rw [clearLong_onlyEsc he]
  simp only [narrow_onlyEsc he]
  rfl

end Delivered

section Delivered

variable {q : Iss} {s : State} (h : s.blk q.b = some q.k) (hc : q.k.Canon) (l : List Nat)
include h hc

theorem deliver_thr (t : Nat) :
    ∃ e, (deliver q l s).thr q.b t = (s.thr q.b t).map fun x => { x with esc := e } := by
  obtain ⟨k', b', -, e'⟩ := deliver_spec q l h hc
  obtain ⟨e, he⟩ := e'.thr t
  exact ⟨e, by simp only [State.thr, h, b'.after, Option.bind_some, he]⟩

/-- A delivery leaves the latches that the reads of the instruction leave. -/
theorem clearLong_deliver_thr (t : Nat) : ∃ e, (clearLong q (deliver q l s)).thr q.b t =
    ((clearLong q s).thr q.b t).map fun x => { x with esc := e } := by
  obtain ⟨e, he⟩ := deliver_thr h hc l t
  refine ⟨e, ?_⟩
  simp only [clearLong_thr, he, Option.map_map]
  refine congrArg (Option.map · _) (funext fun x => ?_)
  simp only [Function.comp_apply]
  split <;> rfl

theorem noLost_deliver (hl : NoLost s q) : NoLost (deliver q l s) q := by
  unfold NoLost latchTraps at *
  rw [List.filterMap_eq_nil_iff] at *
  intro t ht
  obtain ⟨e, he⟩ := clearLong_deliver_thr h hc l t
  rw [he, Option.bind_map]
  exact hl t ht

/-- What is answered after a delivery, whose escapes no answer speaks of. -/
theorem Answers.of_deliver {t : State} {k' : Block} {d : Sel} {n : Nat} {r : Nat → Res} (he : q.k.OnlyEsc k')
    (ha : Answers (deliver q l s) t { q with k := k' } d n r) : Answers s t q d n r := by
  have hsome (th : Nat) : ((deliver q l s).thr q.b th).isSome = (s.thr q.b th).isSome := by
    obtain ⟨e, ht⟩ := deliver_thr h hc l th
    rw [ht, Option.isSome_map]
  refine ⟨fun th hth hs => ha.goes th hth ((hsome th).trans hs),
    fun th hon hs => ha.reg th hon ((hsome th).trans hs), fun th hon h1 x hx => ?_, fun th hon x hx => ?_⟩
  · obtain ⟨e, ht⟩ := clearLong_deliver_thr h hc l th
    rw [hx, Option.map_some] at ht
    have := ha.pushes th hon h1 { x with esc := e } (by rw [clearLong_onlyEsc he]; exact ht)
    rwa [show ({ q with k := k' } : Iss).k.entry = q.k.entry by rw [he.blk]] at this
  · obtain ⟨e, ht⟩ := deliver_thr h hc l th
    rw [hx, Option.map_some] at ht
    obtain ⟨x', hx', hp⟩ := ha.preds th hon _ ht
    refine ⟨x', hx', hp.trans ?_⟩
    unfold Thread.side Thread.setPred
    dsimp only
    split <;> split <;> rfl

end Delivered

/-- The block that issues, of an issuing ripple in a canonical state. -/
theorem Issues.block {i : Instr} {s : State} {q : Iss} (hi : Issues i s q) (hs : s.Inv) :
    s.blk q.b = some q.k ∧ q.k.Canon ∧ q.i = i ∧ ∀ th ∈ q.on, th ∈ q.ts := by
  obtain ⟨-, hk, -, rfl, -, -, hon⟩ := State.iss_spec hi.iss
  exact ⟨hk, hs.blocks _ (Tab.mem_of_find hk), rfl, fun th hth => by rw [hon] at hth; exact (List.mem_filter.mp hth).1⟩

/-- An instruction whose result is G (R53, R135), after a delivery. -/
theorem Issues.answers {i : Instr} {s : State} {q : Iss} (hi : Issues i s q) (hs : s.Inv) (hl : NoLost s q) {d : Sel}
    {n : Nat} (hn : q.k.narrow d n = false) (sem : Iss → List Nat → Nat → Res) (l : List Nat) :
    Answers s (computeRun d n (fun _ => .g) sem q (deliver q l s)) q d n (sem q q.on) := by
  obtain ⟨hk, hc, -, hts⟩ := hi.block hs
  obtain ⟨k', b', c', e'⟩ := deliver_spec q l hk hc
  have hl' := noLost_deliver hk hc l hl
  refine Answers.of_deliver hk hc l e' ?_
  rw [computeRun_onlyEsc e']
  refine computeRun_answers (q := { q with k := k' }) b'.after c' ?_ (fun _ _ => ?_) (fits_g q (sem q q.on) n) hts
  · unfold NoLost; rw [clearLong_onlyEsc e']; exact hl'
  · exact (narrow_onlyEsc e' d n).trans hn

/-- An exchange that issues, with no latch lost, answers each guard-true thread what it makes of the operands of all of
them. -/
theorem exchange_answers {i : Instr} {f : Std} (sem : Iss → List Nat → Nat → Res) {s : State} {q : Iss} (hs : s.Inv)
    (hi : Issues i s q) (hl : NoLost s q) (hg : alwaysG i = true)
    (hn : q.k.narrow f.d (dstCount f.ty (ruleOf i).d) = false) :
    ∃ t, exchange i f sem s = .next t ∧ Answers s t q f.d (dstCount f.ty (ruleOf i).d) (sem q q.on) := by
  have hgood : q.good (latchTraps q (clearLong q s)) = q.on := by rw [show latchTraps q _ = [] from hl]; simp [Iss.good]
  have hsh : resultShape q.k i f (ruleOf i) (fun _ => 0) = .g := by simp [resultShape, hg]
  unfold exchange
  dsimp only
  rw [issue_run hi.iss hi.legal hi.ready rfl]
  refine ⟨_, rfl, ?_⟩
  simp only [hgood, hsh, hn, Bool.and_false, Bool.not_false, Bool.and_true]
  split
  · exact hi.answers hs hl hn sem q.on
  · exact hi.answers hs hl hn sem []

end Sys2Proof.Machine
end

section
/-! SUPPORT. The codes that a VOTE breaks (R39, R146). -/

namespace Sys2Proof.Machine

@[simp] theorem mem_flag {c : Bool} {d e : Detail} : e ∈ flag c d ↔ e = d ∧ c = true := by
  cases c <;> simp [flag]

theorem lowest_eq_min? (ds : List Detail) : lowest ds = ds.min? := by
  induction ds with
  | nil => rfl
  | cons e ds ih => rw [lowest, ih, List.min?_cons]; cases ds.min? <;> rfl

/-- The lowest code of a list, by what it is among them. -/
theorem lowest_eq_some {ds : List Detail} {d : Detail} (hd : d ∈ ds) (hle : ∀ e ∈ ds, d ≤ e) : lowest ds = some d := by
  rw [lowest_eq_min?]
  exact List.min?_eq_some_iff.mpr ⟨hd, hle⟩

theorem lowest_ne_none {ds : List Detail} {d : Detail} (hd : d ∈ ds) : lowest ds ≠ none := by
  rw [lowest_eq_min?]
  exact fun h => List.ne_nil_of_mem hd (List.min?_eq_none_iff.mp h)

/-- A VOTE has something in a field that its entry does not use: a field of sources B or C, a part field of B or C, the
type, or, under a packed type, the part field of A (R28; notes/assumptions/67.md). -/
def VoteReserved (f : Std) : Prop :=
  f.b.code ≠ 0 ∨ f.c.code ≠ 0 ∨ f.pb ≠ 0 ∨ f.pc ≠ 0 ∨ (f.ty ≠ .b32 ∧ f.ty ≠ .f8x4) ∨ (f.pa ≠ 0 ∧ f.ty.packed = true)

/-- A VOTE names a destination of the other kind than its mode's. -/
def VoteMisplaced (f : Std) : Prop := (f.func.toNat < 3 ∧ f.d.isReg = true) ∨ (f.func = 3 ∧ ∃ n, f.d = .p n)

/-- The part field of a source that is read, and not in the instruction's type (R36, R68; notes/assumptions/67.md). -/
theorem mem_partCodes_pred {ty : Ty} {p : BitVec 2} {e : Detail} : e ∈ partCodes ty .pred p ↔
    (e = 4 ∧ p ≠ 0 ∧ ty.packed = true) ∨ (e = 8 ∧ p ≠ 0 ∧ ty.packed = false) := by
  unfold partCodes
  by_cases hp : p = 0
  · simp [hp]
  · rw [if_neg hp]
    cases ty.packed <;> simp only [if_true, Bool.false_eq_true, Bool.true_eq_false, if_false, List.mem_singleton, ne_eq, hp,
      not_false_eq_true, and_true, and_false, or_false, false_or]

theorem mem_partCodes_unused {ty : Ty} {p : BitVec 2} {e : Detail} : e ∈ partCodes ty .unused p ↔ e = 4 ∧ p ≠ 0 := by
  unfold partCodes
  by_cases hp : p = 0
  · simp [hp]
  · rw [if_neg hp]
    simp only [List.mem_singleton, ne_eq, hp, not_false_eq_true, and_true]

theorem mem_unusedCodes {env : Env} {lit : Bool} {ty : Ty} {s : Sel} {e : Detail} :
    e ∈ SrcRole.codes env lit ty .unused s ↔ e = 4 ∧ s.code ≠ 0 := by
  simp only [SrcRole.codes, mem_flag, decide_eq_true_eq]

/-- The codes that a VOTE breaks, by the fields that give them. -/
theorem mem_codes_vote {f : Std} {env : Env} {e : Detail} : e ∈ (Instr.vote f).codes env ↔
    (e = 4 ∧ (4 ≤ f.func.toNat ∨ VoteReserved f)) ∨ (e = 5 ∧ f.lit.isSome = true ∧ f.a ≠ .lit) ∨ (e = 7 ∧ f.ty = .f8x4) ∨
    (e = 8 ∧ f.pa ≠ 0 ∧ f.ty.packed = false) ∨ e ∈ SrcRole.codes env f.lit.isSome f.ty .pred f.a ∨
    e ∈ DstRole.codes env f.ty f.w (if f.func = 3 then .w32 else .pred) f.d := by
  have hrule : (Instr.vote f).codes env =
      Rule.codes env { d := if f.func = 3 then .w32 else .pred, a := .pred, func := f.func.toNat < 4 } f := rfl
  have hlit : (f.lit.isSome && !(SrcRole.pred.isSource && f.a == .lit || SrcRole.unused.isSource && f.b == .lit ||
      SrcRole.unused.isSource && f.c == .lit)) = true ↔ f.lit.isSome = true ∧ f.a ≠ .lit := by simp [SrcRole.isSource]
  rw [hrule]
  simp only [Rule.codes, List.mem_append, mem_flag, if_true, mem_partCodes_pred, mem_partCodes_unused, hlit,
    mem_unusedCodes, Bool.not_eq_true', decide_eq_false_iff_not, decide_eq_true_eq, Bool.false_and, Bool.false_eq_true,
    and_false, List.not_mem_nil, or_false, Nat.not_lt, VoteReserved, and_or_left]
  exact iff_of_eq (by ac_rfl)

/-- A destination of the other kind is detail 5, and breaks no lower code. -/
theorem VoteMisplaced.dst {f : Std} (h : VoteMisplaced f) (env : Env) :
    let ds := DstRole.codes env f.ty f.w (if f.func = 3 then .w32 else .pred) f.d
    5 ∈ ds ∧ ∀ e ∈ ds, 5 ≤ e := by
  rcases h with ⟨hf, hd⟩ | ⟨hf, n, hd⟩
  · have h3 : f.func ≠ 3 := by rintro h; rw [h] at hf; exact absurd hf (by decide)
    rw [if_neg h3]
    cases e : f.d <;> simp [e, Sel.isReg, DstRole.codes] at hd ⊢
  · rw [if_pos hf, hd]
    simp [DstRole.codes, dstCodes]

theorem VoteMisplaced.func_lt {f : Std} (h : VoteMisplaced f) : f.func.toNat < 4 := by
  rcases h with ⟨hf, -⟩ | ⟨hf, -⟩
  · omega
  · rw [hf]; decide

theorem five_of_mem_predCodes {env : Env} {lit : Bool} {ty : Ty} {a : Sel} {e : Detail}
    (h : e ∈ SrcRole.codes env lit ty .pred a) : e = 5 := by
  cases a <;> simp [SrcRole.codes] at h <;> exact h

/-- What a VOTE with a misplaced destination breaks: detail 5, detail 4 for its reserved fields, and no other below 5. -/
theorem VoteMisplaced.codes {f : Std} (h : VoteMisplaced f) (env : Env) :
    5 ∈ (Instr.vote f).codes env ∧ ∀ e ∈ (Instr.vote f).codes env, 5 ≤ e ∨ (e = 4 ∧ VoteReserved f) := by
  obtain ⟨h5, hge⟩ := h.dst env
  refine ⟨mem_codes_vote.mpr (by simp only [h5, or_true]), fun e he => ?_⟩
  rcases mem_codes_vote.mp he with ⟨h4, hf | hr⟩ | ⟨rfl, -⟩ | ⟨rfl, -⟩ | ⟨rfl, -⟩ | ha | hd
  · exact absurd h.func_lt (by omega)
  · exact .inr ⟨h4, hr⟩
  · exact .inl (by decide)
  · exact .inl (by decide)
  · exact .inl (by decide)
  · exact .inl (Nat.le_of_eq (five_of_mem_predCodes ha).symm)
  · exact .inl (hge e hd)

/-- A VOTE with a misplaced destination is illegal, by detail 4 where a reserved field is not 0 and by detail 5 else
(R39, R146). -/
theorem VoteMisplaced.violation {f : Std} (h : VoteMisplaced f) (env : Env) :
    ∃ d, (Instr.vote f).violation env = some d ∧ (VoteReserved f → d = 4) ∧ (¬ VoteReserved f → d = 5) := by
  obtain ⟨h5, hge⟩ := h.codes env
  by_cases hr : VoteReserved f
  · refine ⟨4, lowest_eq_some (mem_codes_vote.mpr (.inl ⟨rfl, .inr hr⟩)) fun e he => ?_, fun _ => rfl, fun h => absurd hr h⟩
    rcases hge e he with h | ⟨rfl, -⟩
    · exact Nat.le_of_succ_le h
    · exact Nat.le_refl 4
  · exact ⟨5, lowest_eq_some h5 fun e he => (hge e he).resolve_right fun h => hr h.2, fun h => absurd h hr, fun _ => rfl⟩

/-- W is legal for `.mask` alone (R146). -/
theorem vote_w_violation {f : Std} (hf : f.func ≠ 3) (hw : f.w = true) (env : Env) :
    (Instr.vote f).violation env ≠ none := by
  refine lowest_ne_none (d := 9) (mem_codes_vote.mpr ?_)
  rw [if_neg hf]
  simp [DstRole.codes, hw]

/-- A legal VOTE has one of the four modes, and a register destination for `.mask` alone. -/
theorem vote_legal {f : Std} {env : Env} (h : (Instr.vote f).violation env = none) :
    f.func.toNat < 4 ∧ (f.func ≠ 3 → f.d.isReg = false) := by
  have hlt : f.func.toNat < 4 := Nat.lt_of_not_le fun hge =>
    lowest_ne_none (d := 4) (mem_codes_vote.mpr (.inl ⟨rfl, .inl hge⟩)) h
  refine ⟨hlt, fun h3 => Bool.eq_false_iff.mpr fun hd => ?_⟩
  have h3 : f.func.toNat ≠ 3 := fun h => h3 (BitVec.eq_of_toNat_eq h)
  have hm : VoteMisplaced f := .inl ⟨by omega, hd⟩
  obtain ⟨d, hd, -⟩ := hm.violation env
  rw [h] at hd; cases hd

end Sys2Proof.Machine
end

section
/-! PROOF. VOTE, MATCH and LMAP answer about the threads of the ripple (R146, R147, R149). -/

namespace Sys2Proof.Machine

theorem getLsbD_foldl_twoPow (c : Nat → Bool) (n k : Nat) :
    ((List.range n).foldl (fun (m : Word) k => if c k then m ||| BitVec.twoPow 32 k else m) 0#32).getLsbD k =
      (decide (k < 32) && decide (k < n) && c k) := by
  induction n with
  | zero => simp
  | succ n ih =>
    rw [List.range_succ, List.foldl_append, List.foldl_cons, List.foldl_nil]
    by_cases hk : k = n
    · subst hk
      split <;> simp_all [BitVec.getLsbD_twoPow]
    · have hlt : decide (k < n + 1) = decide (k < n) := decide_eq_decide.mpr (by omega)
      rw [hlt, ← ih]
      split <;> simp [BitVec.getLsbD_twoPow, Ne.symm hk]

/-- A mask over the slots has the bit of a slot that holds a thread for which `p` holds (R146, R147). -/
theorem Iss.getLsbD_slotMask (q : Iss) (p : Nat → Bool) {k : Nat} (hk : k < 32) :
    (q.slotMask p).getLsbD k = (q.inSlot k).any p := by
  refine (getLsbD_foldl_twoPow (fun k : Nat => (q.inSlot k).any p) 32 k).trans ?_
  simp [hk]

/-- What VOTE makes of the predicates of the guard-true threads (R146). -/
def voteRes (f : Std) (q : Iss) (good : List Nat) : Res :=
  let yes (t : Nat) : Bool := (q.thr t).predSel f.a
  match f.func.toNat with
  | 0 => { pred := some (good.all yes) }
  | 1 => { pred := some (good.any yes) }
  | 2 => { pred := some (good.all yes || !good.any yes) }
  | _ => .word (q.slotMask fun t => good.contains t && yes t)

theorem exec_vote (f : Std) (s : State) : exec (.vote f) s = exchange (.vote f) f (fun q good _ => voteRes f q good) s := rfl

theorem voteRes_mask {f : Std} (hf : f.func = 3) (q : Iss) (good : List Nat) :
    voteRes f q good = .word (q.slotMask fun t => good.contains t && (q.thr t).predSel f.a) := by
  unfold voteRes; rw [hf]; rfl

theorem voteRes_pred {f : Std} (hlt : f.func.toNat < 4) (hf : f.func ≠ 3) (q : Iss) (good : List Nat) :
    let yes (t : Nat) : Bool := (q.thr t).predSel f.a
    voteRes f q good = { pred := some (if f.func = 0 then good.all yes else if f.func = 1 then good.any yes
      else good.all yes || !good.any yes) } := by
  have hmode : ∀ m : BitVec 3, m.toNat < 4 → m ≠ 3 → m = 0 ∨ m = 1 ∨ m = 2 := by decide
  rcases hmode f.func hlt hf with h | h | h <;> (unfold voteRes; rw [h]; rfl)

/-- A legal VOTE whose destination is no narrow register writes its result. -/
theorem vote_answers {f : Std} {s : State} {q : Iss} (hs : s.Inv) (hi : Issues (.vote f) s q) (hl : NoLost s q)
    (hn : q.k.narrow f.d 1 = false) :
    ∃ t, exec (.vote f) s = .next t ∧ Answers s t q f.d (if f.func = 3 then 1 else 0) fun _ => voteRes f q q.on := by
  have hcount : dstCount f.ty (ruleOf (.vote f)).d = if f.func = 3 then 1 else 0 := by
    show dstCount f.ty (if f.func = 3 then .w32 else .pred) = _
    split <;> rfl
  rw [exec_vote, ← hcount]
  refine exchange_answers (fun q good _ => voteRes f q good) hs hi hl rfl ?_
  rw [hcount]
  split
  · exact hn
  · rename_i hf
    have := (vote_legal hi.legal).2 hf
    cases hd : f.d <;> simp_all [Sel.isReg, Block.narrow]

/-- VOTE (R146), where it is legal. -/
theorem vote_reads (f : Std) (s : State) (q : Iss) (hs : s.Inv) (hi : Issues (.vote f) s q) (hl : NoLost s q)
    (hn : q.k.narrow f.d 1 = false) :
    let yes (th : Nat) : Bool := (q.thr th).predSel f.a
    ∃ t, exec (.vote f) s = .next t ∧ Goes s t q (fun _ => q.next) ∧
      (f.func = 3 → ∃ m : Word, (∀ k : Nat, k < 32 → m.getLsbD k = (q.inSlot k).any fun y => q.on.contains y && yes y) ∧
        (∀ th ∈ q.on, (s.thr q.b th).isSome = true → f.d.isReg = true → t.reg q.b th f.d 0 = some m) ∧
        Pushes s t q f.d 1 fun _ => some (word m)) ∧
      ∀ n, f.d = .p n → n ≠ 7 → f.func ≠ 3 → ∀ th ∈ q.on, (s.thr q.b th).isSome = true →
        ∃ x', t.thr q.b th = some x' ∧ predBit x'.p n.toNat =
          (if f.func = 0 then q.on.all yes else if f.func = 1 then q.on.any yes else q.on.all yes || !q.on.any yes) := by
  intro yes
  obtain ⟨t, ht, ha⟩ := vote_answers hs hi hl hn
  refine ⟨t, ht, ha.goes, fun hf => ?_, fun n hd h7 hf th hon hsome => ?_⟩
  · rw [if_pos hf, voteRes_mask hf] at ha
    exact ⟨_, fun k hk => q.getLsbD_slotMask _ hk, fun th hon hsome hd => ha.word hon hsome hd rfl, ha.pushes⟩
  · obtain ⟨x, hx⟩ := Option.isSome_iff_exists.mp hsome
    obtain ⟨x', hx', hp⟩ := ha.preds th hon x hx
    rw [voteRes_pred (vote_legal hi.legal).1 hf, hd] at hp
    exact ⟨x', hx', by rw [hp]; exact x.predBit_side n h7 _⟩

/-- The slots of the guard-true threads whose source A equals a thread's own (R147). -/
def matchMask (f : Std) (q : Iss) (good : List Nat) (t : Nat) : Word :=
  let val (t : Nat) : DWord := q.k.srcVal t (q.thr t) f .val f.pa f.a
  q.slotMask fun y => good.contains y && val y = val t

theorem exec_matchReg (f : Std) (s : State) :
    exec (.matchReg f) s = exchange (.matchReg f) f (fun q good t => .word (matchMask f q good t)) s := rfl

theorem getLsbD_matchMask (f : Std) (q : Iss) (good : List Nat) (t : Nat) {k : Nat} (hk : k < 32) :
    (matchMask f q good t).getLsbD k = (q.inSlot k).any fun y => good.contains y &&
      q.k.srcVal y (q.thr y) f .val f.pa f.a = q.k.srcVal t (q.thr t) f .val f.pa f.a :=
  q.getLsbD_slotMask _ hk

/-- A guard-true thread finds its own slot. -/
theorem getLsbD_matchMask_own (f : Std) {q : Iss} {good : List Nat} {t k : Nat} (hk : k < 32) (ht : t ∈ good)
    (hslot : q.inSlot k = some t) : (matchMask f q good t).getLsbD k = true := by
  rw [getLsbD_matchMask f q good t hk, hslot]
  simp [ht]

/-- MATCH (R147). -/
theorem match_reads (f : Std) (s : State) (q : Iss) (hs : s.Inv) (hi : Issues (.matchReg f) s q) (hl : NoLost s q)
    (hn : q.k.narrow f.d 1 = false) :
    let val (th : Nat) : DWord := q.k.srcVal th (q.thr th) f .val f.pa f.a
    ∃ t, exec (.matchReg f) s = .next t ∧ Goes s t q (fun _ => q.next) ∧
      ∃ m : Nat → Word, (∀ th ∈ q.on,
          (∀ k : Nat, k < 32 → (m th).getLsbD k = (q.inSlot k).any fun y => q.on.contains y && val y = val th) ∧
          (∀ k : Nat, k < 32 → q.inSlot k = some th → (m th).getLsbD k = true) ∧
          ((s.thr q.b th).isSome = true → f.d.isReg = true → t.reg q.b th f.d 0 = some (m th))) ∧
        Pushes s t q f.d 1 fun th => some (word (m th)) := by
  obtain ⟨t, ht, ha⟩ := exchange_answers (f := f) (fun q good t => .word (matchMask f q good t)) hs hi hl rfl hn
  exact ⟨t, (exec_matchReg f s).trans ht, ha.goes, matchMask f q q.on,
    fun th hon => ⟨fun k hk => getLsbD_matchMask f q q.on th hk, fun k hk hth => getLsbD_matchMask_own f hk hon hth,
      fun hsome hd => ha.word hon hsome hd rfl⟩, ha.pushes⟩

/-- LMAP (R149). -/
theorem lmap_reads (f : Std) : Returns (.lmap f) f.d 1 always anyway fun q _ th =>
    let n := (q.k.src32 th (q.thr th) f.lit f.a).toNat
    match if f.func = 1 then q.slotOf n else q.inSlot n with
    | some x => word (BitVec.ofNat 32 x)
    | none => word 0xFFFF_FFFF#32 := by
  intro s q hs hi hu hl hn _
  refine ⟨_, issue_run hi.iss hi.legal hi.ready hu, (hi.answers hs hl hn _ []).returns fun th => ?_⟩
  simp only [Res.word, word]
  split <;> simp only [*]

/-- Settles O17: VOTE and MATCH by what an exchange answers (`exchange_answers`) and the bits of a mask over the slots
(`Iss.getLsbD_slotMask`), the illegal forms of VOTE by the list of its codes (`mem_codes_vote`), and LMAP by what an
instruction answers that computes per thread. -/
theorem rippleReads : Obligations.RippleReads :=
  ⟨vote_reads, fun _ env => ⟨fun h => VoteMisplaced.violation h env, fun hf hw => vote_w_violation hf hw env⟩, match_reads,
    lmap_reads⟩

end Sys2Proof.Machine
end

section
/-! SUPPORT. What an instruction returns whose result is a G word, and a trap in a ripple of one thread. -/

namespace Sys2Proof.Machine

/-- An instruction that asks nothing of its unit and computes a G word per thread returns that word (R46, R53). -/
theorem returns_word {i : Instr} {d : Sel} (val : Iss → Nat → Word)
    (hexec : ∀ s, exec i s = issue i always (computeRun d 1 (fun _ => .g) fun q _ th => .word (val q th)) s) :
    Returns i d 1 always anyway fun q _ th => word (val q th) := by
  intro s q hs hi hu hl hn _
  have ha := hi.answers hs hl hn (fun q _ th => .word (val q th)) []
  exact ⟨_, (hexec s).trans (issue_run hi.iss hi.legal hi.ready hu), ha.returns fun _ => rfl⟩

/-- A thread rests alone only where it rests already (R134). -/
theorem State.thr_restTogether_singleton (s : State) (b th : Nat) : (s.restTogether b [th]).thr b th = s.thr b th := by
  cases h : s.blk b with
  | none => simp [State.thr, State.restTogether, State.modBlk, State.blk, Tab.modify, show Tab.find s.blocks b = none from h]
  | some k =>
    obtain ⟨k', b', -, m, -, hrest, hthr⟩ := State.restTogether_spec [th] h
    simp only [State.thr, h, b'.after, Option.bind_some, hthr]
    split
    next hm =>
      cases hx : Tab.find k.thr th with
      | none => rfl
      | some x =>
        cases hr : x.rest with
        | true => exact congrArg some (by rw [← hr])
        | false =>
          have hno := hrest (fun u hu y hy => by
            obtain rfl := List.mem_singleton.mp hu
            obtain rfl := Option.some.inj (hx.symm.trans hy)
            exact hr) th
          rw [hm] at hno
          cases hno
    next => rfl

theorem State.thr_regroup (s : State) (b r : Nat) (busy : Option Instr) (stall : Option (Nat × Nat)) (stands : List Nat)
    (t : Nat) : (s.regroup b r busy stall stands).thr b t = s.thr b t := by
  cases h : s.blk b with
  | none => simp [State.regroup, h]
  | some k =>
    obtain ⟨k', b', e'⟩ := State.regroup_spec r busy stall stands h
    unfold Block.SameButRip at e'
    simp only [State.thr, h, b'.after, Option.bind_some]
    rw [e']

/-- The fate of a lone thread that traps is its trap: what regroups and rests after it leaves the thread as it is. -/
theorem State.thr_apply_trap_singleton (s : State) (b r : Nat) (i : Instr) (th cause detail : Nat) (code : Word)
    (stall : DWord) : (s.apply b r i [(th, .trap cause detail code stall)]).thr b th =
      (s.trap b th cause detail code stall).thr b th := by
  simp only [State.apply, List.foldl_cons, List.foldl_nil]
  split
  · rfl
  · simp [State.moveThread, State.thr_restTogether_singleton, State.thr_regroup]

/-- A ripple of one thread, guard-true, that ends by the shape trap (R56). -/
theorem finish_shapeTraps_singleton {q : Iss} {th : Nat} (hts : q.ts = [th]) (hon : q.on = [th]) (detail : Nat) (sel : Sel)
    (s : State) : (finish q (shapeTraps q detail sel) s).thr q.b th =
      (s.trap q.b th trapShape detail (sel.code.setWidth 32) q.pc).thr q.b th := by
  have hf : q.fates (shapeTraps q detail sel) = [(th, .trap trapShape detail (sel.code.setWidth 32) q.pc)] := by
    simp [Iss.fates, shapeTraps, hts, hon]
  unfold finish
  rw [hf, State.thr_apply_trap_singleton]

/-- A G result for a narrow destination is the shape trap with detail 1, where a thread is guard-true (R56). -/
theorem computeRun_narrow {q : Iss} {d : Sel} {n : Nat} {shape : Iss → Shape} (sem : Iss → List Nat → Nat → Res)
    (s : State) (hg : (shape q).isG = true) (hn : q.k.narrow d n = true) (hon : q.on ≠ []) :
    computeRun d n shape sem q s = finish q (shapeTraps q 1 d) (clearLong q s) := by
  have hne : q.on.isEmpty = false := by simpa using hon
  simp only [computeRun, computeFaults, hg, hn, hne, Bool.not_false, Bool.and_self, if_true]

end Sys2Proof.Machine
end

section
/-! PROOF. HREAD and TICK write their status words (R170, R173). -/

namespace Sys2Proof.Machine

/-- The status that TICK gives of an operation in the window (R173). -/
def OpSt.status : OpSt → Nat
  | .settled => 0
  | .outstanding => 1
  | .parked => 2
  | .failed => 3

/-- The status that TICK gives of a ticket (R173): an operation that has left the window counts as settled. -/
def Thread.status (x : Thread) (tk : BitVec 16) : Nat :=
  let a := (x.tnext - tk).toNat
  if ¬ (1 ≤ a ∧ a ≤ 2 ^ 15) then 4
  else if x.passed tk then 0
  else (x.op tk).elim 0 fun o => o.st.status

theorem Thread.status_unissued {x : Thread} {tk : BitVec 16}
    (h : ¬ (1 ≤ (x.tnext - tk).toNat ∧ (x.tnext - tk).toNat ≤ 2 ^ 15)) : x.status tk = 4 := if_pos h

section Issued

variable {x : Thread} {tk : BitVec 16} (h1 : 1 ≤ (x.tnext - tk).toNat) (h2 : (x.tnext - tk).toNat ≤ 2 ^ 15)
include h1 h2

theorem Thread.status_passed (hp : x.passed tk = true) : x.status tk = 0 := by
  unfold Thread.status
  rw [if_neg (not_not_intro ⟨h1, h2⟩), if_pos hp]

theorem Thread.status_op (hp : x.passed tk = false) {o : Op} (ho : x.op tk = some o) : x.status tk = o.st.status := by
  unfold Thread.status
  rw [if_neg (not_not_intro ⟨h1, h2⟩), if_neg (Bool.eq_false_iff.mp hp), ho]
  rfl

end Issued

theorem Thread.status_lt (x : Thread) (tk : BitVec 16) : x.status tk < 8 := by
  have hst : ∀ st : OpSt, st.status < 8 := by intro st; cases st <;> decide
  unfold Thread.status
  dsimp only
  split
  · decide
  · split
    · decide
    · cases x.op tk with
      | none => decide
      | some o => exact hst o.st

/-- TICK's word is u mod 256 in its bits 23 to 16 over the status (R173). -/
theorem tickWord_eq (x : Thread) (tk : BitVec 16) :
    tickWord x tk = BitVec.ofNat 32 (x.span % 256 * 2 ^ 16 + x.status tk) := by
  unfold tickWord Thread.status
  simp only [← Bool.decide_and, Bool.not_eq_true', decide_eq_false_iff_not]
  cases x.op tk with
  | none => rfl
  | some o => cases h : o.st <;> simp only [h, Option.elim, OpSt.status]

/-- The fields of a status word. -/
theorem bits_statusWord {u c : Nat} (hu : u < 256) (hc : c < 8) :
    let w := BitVec.ofNat 32 (u * 2 ^ 16 + c)
    bits w 31 24 = 0 ∧ bits w 23 16 = u ∧ bits w 15 3 = 0 ∧ bits w 2 0 = c := by
  simp only [bits, BitVec.toNat_ofNat]
  omega

theorem bits_tickWord (x : Thread) (tk : BitVec 16) :
    let w := tickWord x tk
    bits w 31 24 = 0 ∧ bits w 23 16 = x.span % 256 ∧ bits w 15 3 = 0 ∧ bits w 2 0 = x.status tk := by
  rw [tickWord_eq]
  exact bits_statusWord (Nat.mod_lt _ (by decide)) (x.status_lt tk)

/-- HREAD with a narrow destination, in a ripple of one thread (R56, R170). -/
theorem hread_narrow (f : SForm) (s : State) (q : Iss) (th : Nat) (hi : Issues (.hread f) s q) (hts : q.ts = [th])
    (hon : q.on = [th]) (hn : q.k.narrow f.d 1 = true) :
    ∃ t, exec (.hread f) s = .next t ∧
      t.thr q.b th = ((clearLong q s).trap q.b th 4 1 (f.d.code.setWidth 32) q.pc).thr q.b th := by
  refine ⟨_, issue_run hi.iss hi.legal hi.ready rfl, ?_⟩
  rw [computeRun_narrow _ s rfl hn (by simp [hon])]
  exact finish_shapeTraps_singleton hts hon 1 f.d (clearLong q s)

/-- TICK's status by the state of the ticket that it names (R173). -/
theorem tickWord_status (x : Thread) (tk : BitVec 16) :
    let w := tickWord x tk
    let a := (x.tnext - tk).toNat
    bits w 31 24 = 0 ∧ bits w 23 16 = (x.tnext - x.hz).toNat % 256 ∧ bits w 15 3 = 0 ∧
      (¬ (1 ≤ a ∧ a ≤ 2 ^ 15) → bits w 2 0 = 4) ∧
      (1 ≤ a → a ≤ 2 ^ 15 → x.passed tk = true → bits w 2 0 = 0) ∧
      (1 ≤ a → a ≤ 2 ^ 15 → x.passed tk = false → ∀ o, x.op tk = some o →
        (o.st = .settled → bits w 2 0 = 0) ∧ (o.st = .outstanding → bits w 2 0 = 1) ∧ (o.st = .parked → bits w 2 0 = 2) ∧
          (o.st = .failed → bits w 2 0 = 3)) := by
  intro w a
  obtain ⟨hhi, hu, hmid, hst⟩ := bits_tickWord x tk
  refine ⟨hhi, hu, hmid, fun h => hst.trans (Thread.status_unissued h), fun h1 h2 hp => hst.trans (Thread.status_passed h1 h2 hp),
    fun h1 h2 hp o ho => ?_⟩
  have hop : ∀ st, o.st = st → bits w 2 0 = st.status := by
    rintro st rfl
    exact hst.trans (Thread.status_op h1 h2 hp ho)
  exact ⟨hop .settled, hop .outstanding, hop .parked, hop .failed⟩

/-- Settles O13: both results by what an instruction of a G word returns (`returns_word`), HREAD's shape trap by the fate of
a lone thread that traps (`State.thr_apply_trap_singleton`), and TICK's word by its fields (`bits_tickWord`). -/
theorem horizonReads : Obligations.HorizonReads :=
  ⟨fun _ => returns_word _ fun _ => rfl, hread_narrow, fun _ => returns_word _ fun _ => rfl, tickWord_status⟩

end Sys2Proof.Machine
end

section
/-! SUPPORT. Actor instructions (R290) that meet no fault, and what MXZERO makes of its bank (R291, R305). -/

namespace Sys2Proof.Machine

/-! ## Banks of a core -/

@[simp] theorem State.bankOf_modBank_self (s : State) (c n : Nat) (f : Bank → Bank) :
    ((s.modBank c n f).core c).bankOf n = f ((s.core c).bankOf n) := by
  simp [State.modBank, Core.bankOf]

theorem State.bankOf_modBank_ne (s : State) {c n m : Nat} (f : Bank → Bank) (h : m ≠ n) :
    ((s.modBank c n f).core c).bankOf m = (s.core c).bankOf m := by
  simp [State.modBank, Core.bankOf, Tab.get_put_ne _ _ h]

theorem OnBlock.core {s s' : State} {b : Nat} {k k' : Block} (h : OnBlock s s' b k k') (c : Nat) : s'.core c = s.core c := by
  rw [h.rest]; rfl

/-! ## Actor instructions -/

/-- The latch clearing of R47 stays within the block that issues. -/
theorem clearLong_onBlock {q : Iss} {s : State} {k : Block} (h : s.blk q.b = some k) :
    ∃ k', OnBlock s (clearLong q s) q.b k k' :=
  ⟨_, OnBlock.foldl _ (fun k t => if (q.uses t).rd.any (q.thr t).longMark then k.modThr t Thread.clearLatches else k)
    (fun _ _ _ h => by
      split
      · exact .modBlk _ h
      · exact .refl h) q.ts h⟩

/-- An instruction that reads no latch loses none (R48). -/
theorem noLost_of_lat_nil {q : Iss} (s : State) (h : (instrUses q.i).lat = []) : NoLost s q := by
  unfold NoLost latchTraps Thread.lostLatch
  simp [h]

/-- An actor that meets no fault has its effect, and the ripple goes on. -/
theorem actorRun_act {q : Iss} {s : State} {th : Nat} (code : Iss → Nat → Nat → Word) {fault : Iss → Nat → State → Option Nat}
    (act : Iss → Nat → State → State) (hl : NoLost s q) (hon : q.on = [th]) (hf : fault q th (clearLong q s) = none) :
    actorRun code fault act q s = finish q [] (act q th (clearLong q s)) := by
  have hgood : q.good [] = [th] := by simp [Iss.good, hon]
  unfold actorRun
  dsimp only
  rw [show latchTraps q (clearLong q s) = [] from hl, hgood]
  simp [hon, hf]

/-- Threads that all go on to PC + length stand there, whichever of them `s` has. -/
theorem finish_goes {q : Iss} {s s' : State} (h : ∀ th, (s.thr q.b th).isSome = true → (s'.thr q.b th).isSome = true) :
    Goes s (finish q [] s') q fun _ => q.next := by
  intro th hth hs
  obtain ⟨x, hx⟩ := Option.isSome_iff_exists.mp (h th hs)
  obtain ⟨k, hk, hx⟩ := Option.bind_eq_some_iff.mp hx
  obtain ⟨k', rest, b', -, -, ht⟩ := finish_go hk
  simp [State.pc, State.thr, b'.after, ht, hth, hx]

/-- An actor instruction that issues and whose effect leaves every block as it is: the ripple goes on to PC + length, and
every core is what the effect makes of it. -/
theorem actor_runs {i : Instr} {rdy : Iss → State → Bool} {code : Iss → Nat → Nat → Word}
    {fault : Iss → Nat → State → Option Nat} {act : Iss → Nat → State → State} {s : State} {q : Iss} {th : Nat}
    (hi : Issues i s q) (hr : rdy q s = true) (hl : NoLost s q) (hon : q.on = [th])
    (hf : fault q th (clearLong q s) = none) (hb : (act q th (clearLong q s)).blocks = (clearLong q s).blocks) :
    ∃ t, issue i rdy (actorRun code fault act) s = .next t ∧ Goes s t q (fun _ => q.next) ∧
      ∀ c, t.core c = (act q th (clearLong q s)).core c := by
  obtain ⟨-, hk, -⟩ := State.iss_spec hi.iss
  obtain ⟨k', b'⟩ := clearLong_onBlock hk
  have hblk : (act q th (clearLong q s)).blk q.b = some k' := by simpa only [State.blk, hb] using b'.after
  refine ⟨_, issue_run hi.iss hi.legal hi.ready hr, ?_⟩
  rw [actorRun_act code act hl hon hf]
  refine ⟨finish_goes fun u hu => ?_, ?_⟩
  · have hthr : (act q th (clearLong q s)).thr q.b u = (clearLong q s).thr q.b u := by
      simp only [State.thr, hblk, b'.after]
    rw [hthr, clearLong_thr, Option.isSome_map]
    exact hu
  · obtain ⟨k'', _, b'', -⟩ := finish_go hblk
    exact b''.core

/-! ## MXZERO -/

/-- The bank after MXZERO, of the bank before it: `rel` frees one that block `b` holds, else `b` claims and clears it. -/
def Bank.zeroed (x : Bank) (rel : Bool) (b : Nat) : Bank :=
  if rel then (if x.owner = some b then {} else x) else { owner := some b }

theorem dstUse_lat (d : Sel) (n : Nat) : (dstUse d n).lat = [] := by
  cases d <;> rfl

theorem instrUses_mxzero_lat (f : Std) : (instrUses (.mxzero f)).lat = [] :=
  dstUse_lat f.d 0

/-- MXZERO's effect. -/
def mxzeroAct (f : Std) (q : Iss) (s : State) : State :=
  let n := f.func.toNat % 2
  if f.func.getLsbD 1 then
    (if ((s.core q.k.core).bankOf n).owner = some q.b then s.modBank q.k.core n fun _ => {} else s)
  else s.modBank q.k.core n fun _ => { owner := some q.b }

theorem exec_mxzero (f : Std) (s : State) : exec (.mxzero f) s = issue (.mxzero f) bankReady
    (actorRun (fun _ _ _ => bankCode (f.func.toNat % 2)) (fun _ _ _ => none) fun q _ s => mxzeroAct f q s) s := by
  unfold exec execMxzero mxzeroAct
  simp only [decide_eq_true_eq]

theorem mxzeroAct_blocks (f : Std) (q : Iss) (s : State) : (mxzeroAct f q s).blocks = s.blocks := by
  unfold mxzeroAct
  dsimp only
  split
  · split <;> rfl
  · rfl

theorem mxzeroAct_bankOf (f : Std) (q : Iss) (s : State) : ((mxzeroAct f q s).core q.k.core).bankOf (f.func.toNat % 2) =
    ((s.core q.k.core).bankOf (f.func.toNat % 2)).zeroed (f.func.getLsbD 1) q.b := by
  unfold mxzeroAct Bank.zeroed
  dsimp only
  split
  · split <;> simp
  · simp

theorem mxzeroAct_bankOf_ne (f : Std) (q : Iss) (s : State) {m : Nat} (h : m ≠ f.func.toNat % 2) :
    ((mxzeroAct f q s).core q.k.core).bankOf m = (s.core q.k.core).bankOf m := by
  unfold mxzeroAct
  dsimp only
  split
  · split
    · exact s.bankOf_modBank_ne _ h
    · rfl
  · exact s.bankOf_modBank_ne _ h

/-- Settles O45: MXZERO is an actor that reads no latch and meets no fault (`actor_runs`), its effect is on its bank alone,
and nothing before the effect or after it changes a core. -/
theorem bankZero : Obligations.BankZero := by
  intro f s q th hi hon n old hr
  obtain ⟨-, hk, -, hqi, -⟩ := State.iss_spec hi.iss
  obtain ⟨k', b'⟩ := clearLong_onBlock hk
  have hl : NoLost s q := noLost_of_lat_nil s (hqi ▸ instrUses_mxzero_lat f)
  obtain ⟨t, ht, hgo, hcore⟩ := actor_runs (code := fun _ _ _ => bankCode n) (fault := fun _ _ _ => none)
    (act := fun q _ s => mxzeroAct f q s) hi hr hl hon rfl (mxzeroAct_blocks f q _)
  refine ⟨t, (exec_mxzero f s).trans ht, hgo, ?_, ?_⟩
  · rw [hcore, mxzeroAct_bankOf, b'.core]
    rfl
  · rw [hcore, mxzeroAct_bankOf_ne f q _ (by omega), b'.core]

end Sys2Proof.Machine
end
